-- ==== Sys2Proof/Word.lean ====
section
/-! DEFINITION. The widths of the block's own values (`00_scope.md` R8, `30_encoding.md` R90). -/

namespace Sys2Proof

/-- A register byte or a register address (R61), or the bus address of a send (R103: `busReg` has 8 bits). DESIGN CHOICE: the
chip's bus address `DEV_ADDR` has this width too, which the spec does not give (log entry 33). -/
abbrev Byte := BitVec 8

/-- A channel number, 0..15 (R8). -/
abbrev Chan := BitVec 4

/-- A tick value: 13 bits, legal range 0..4096 (R8, conflict C2). -/
abbrev Tick := BitVec 13

/-- A ticket, the 16-bit sequence number of a submitted command (R8, R18). -/
abbrev Ticket := BitVec 16

/-- A 32-bit value: a Q16.16 rate code, a step count or a run counter (R8). -/
abbrev W32 := BitVec 32

/-- A 64-bit command word `CMD64` (R90). -/
abbrev CmdWord := BitVec 64

end Sys2Proof
end

