-- ==== Sys2Proof/Config.lean ====
section
/-! DEFINITION. The implementation parameters of `00_scope.md` R7, and the free values of the environment
(`93_implementation_defined.md` I1 to I5, I11). A parameter whose value the spec states or decides has a body.
A parameter the spec leaves OPEN is an opaque constant: nothing can be proved of its value, so every theorem holds
for every value. The defaults the spec quotes from general knowledge are not used (log entry 1). -/

namespace Sys2Proof

namespace Config

/-! ### Parameters with a value (R7) -/

/-- `OSC_HZ`, the chip's internal oscillator in Hz. -/
def oscHz : Nat := 25000000
/-- `TICKS` per PWM period. -/
def ticks : Nat := 4096
/-- `N_CHANNELS`. -/
abbrev nChannels : Nat := 16
/-- `TICK_MAX`, the largest legal on or off tick. -/
def tickMax : Nat := 4096
/-- `FULL_DUTY`. -/
def fullDuty : Byte := 255#8
/-- `DUTY_SCALE`, ticks per duty unit (D32). -/
def dutyScale : Nat := 16
/-- `CURVE8`, the fixed 9-entry quarter-wave table (R173, conflict C1). -/
def curve8 : Vector Byte 9 := #v[0#8, 50#8, 98#8, 142#8, 180#8, 212#8, 236#8, 250#8, 255#8]
/-- `COIL_TABLE`: eight entries `(A1, A2, B1, B2)`, with the value D27 decides (R200). -/
def coilTable : Vector (Bool × Bool × Bool × Bool) 8 :=
  #v[(true, false, false, false), (true, true, false, false), (false, true, false, false), (false, true, true, false),
     (false, false, true, false), (false, false, true, true), (false, false, false, true), (true, false, false, true)]
/-- `SETTLE_MS`, in milliseconds (D14). -/
def settleMs : Nat := 5
/-- `N_STEPPERS` (D23). -/
abbrev nSteppers : Nat := 2
/-- `MICRO_MULT_FACTOR` (conflict C6): the microstep multiplier is twice the microsteps. -/
def microMultFactor : Nat := 2

/-! ### OPEN parameters (R7, I3, I5, I17): opaque -/

/-- `CURVE16`: 17 integers in 0..255, no values given by any source (R173, D31). -/
opaque curve16 : Vector Byte 17
/-- How far `CMDQ_DEPTH` exceeds its least legal value 1 (D10). -/
opaque cmdqDepthExtra : Nat
/-- `CMDQ_DEPTH`, at least 1 (D10). -/
def cmdqDepth : Nat := cmdqDepthExtra + 1
/-- How far `CMPLQ_DEPTH` exceeds its least legal value (D46). -/
opaque cmplqDepthExtra : Nat
/-- `CMPLQ_DEPTH`, at least `CMDQ_DEPTH + N_STEPPERS` (D46). -/
def cmplqDepth : Nat := cmplqDepthExtra + cmdqDepth + nSteppers
/-- `DEV_ADDR`, the chip's bus address (D12). DESIGN CHOICE: 8 bits, a width the spec does not give (log entry 33). -/
opaque devAddr : Byte
/-- `BUS_ID` (D12). DESIGN CHOICE: a natural number, as the spec gives it no width (log entry 33). -/
opaque busId : Nat
/-- `RESET_ADDR`, the bus address of the software-reset broadcast (D12, D20). -/
opaque resetAddr : Byte
/-- `SWRST_BYTE`, the software-reset broadcast byte (D20). -/
opaque swrstByte : Byte
/-- `REG_MODE1`, the mode register (D11). -/
opaque regMode1 : Byte
/-- `REG_MODE2`, the output-driver register (D11). -/
opaque regMode2 : Byte
/-- `REG_LED0_ON_L`, the first register of channel 0 (D11). -/
opaque regLed0OnL : Byte
/-- `REG_ALL_ON_L`, the first register of the all-channel group (D11). -/
opaque regAllOnL : Byte
/-- `REG_PRESCALE` (D11). -/
opaque regPrescale : Byte
/-- `BIT_RESTART` of `REG_MODE1` (D11). -/
opaque bitRestart : Byte
/-- `BIT_AI` of `REG_MODE1` (D11). -/
opaque bitAi : Byte
/-- `BIT_SLEEP` of `REG_MODE1` (D11). -/
opaque bitSleep : Byte
/-- `BIT_OUTDRV` of `REG_MODE2` (D11). -/
opaque bitOutdrv : Byte
/-- `WAKE_MASK`, what the last write of a frequency change sets in `REG_MODE1` (D15). -/
opaque wakeMask : Byte

end Config

/-- A stepper unit's index, `0..N_STEPPERS-1` (R264). -/
abbrev StepperId := Fin Config.nSteppers

/-! ### The environment's choices -/

/-- What the transport answers to one bus transaction (R60, I1, I2): success or failure, the byte a read returns,
and how long the transaction took in microseconds. All three are the transport's own choice. -/
structure Answer where
  ok : Bool
  byte : Byte
  micros : Nat
  deriving DecidableEq, Repr, Inhabited

/-- One step of an agent that runs beside the command processor (R16): the pacing timer of a stepper delivers a
tick, a stepper's run engine moves (it requests its next transaction, or delivers a run report it holds), the bus
master moves (it grants a waiting run engine's request, or the transport completes the one in flight), or the host
does what it does next (it submits, pops, or has `rst` asserted). -/
inductive Background where
  | tick (i : StepperId)
  | engine (i : StepperId)
  | bus
  | host
  deriving DecidableEq, Repr, Inhabited

/-- Which agent the scheduler lets move (R16: any enabled agent may be scheduled). -/
inductive Agent where
  | cp
  | background (b : Background)
  deriving DecidableEq, Repr, Inhabited

namespace Config

/-- The scheduler's free choice of the agent that takes the `n`-th drawn machine step (R16, I11). -/
opaque freeTurn : Nat → Agent
/-- The free, finite burst of other agents' steps that fall between two steps of the command processor (R68, I11). -/
opaque freeBurst : Nat → List Background
/-- The transport's free answer (I1, I2). -/
opaque freeAnswer : Nat → Answer
/-- The free duration of a run report, in milliseconds (I4). -/
opaque freeDuration : Nat → W32

end Config

end Sys2Proof
end

