-- ==== Sys2Proof/Syntax.lean ====
section
/-! DEFINITION. The PRCDE command set, version 1 (`30_encoding.md` R98): one constructor of `Instr` per row of the
opcode table. Operands are held in the widths of `00_scope.md` R8; `nb` is the word's execution mode (R91). -/

namespace Sys2Proof

/-- Direction of a step (R97). -/
inductive Dir where
  | fwd
  | back
  deriving DecidableEq, Repr, Inhabited

/-- Stepping style (R97). -/
inductive Style where
  | single
  | double
  | interleaved
  | microstep
  deriving DecidableEq, Repr, Inhabited

/-- Speed unit (R96). -/
inductive SpeedUnit where
  | pps
  | rpm
  | sps
  deriving DecidableEq, Repr, Inhabited

/-- Microsteps per step: `MICROSTEPS_ALLOWED` is 8 or 16 (R7, R26). -/
inductive Micro where
  | eight
  | sixteen
  deriving DecidableEq, Repr, Inhabited

/-- A pin role, in coil-vector order of the logical pins (R18, R24). -/
inductive Role where
  | pwma
  | a1
  | a2
  | pwmb
  | b1
  | b2
  deriving DecidableEq, Repr, Inhabited

/-- One value for each of the six pin roles. -/
structure RoleMap (α : Type) where
  pwma : α
  a1 : α
  a2 : α
  pwmb : α
  b1 : α
  b2 : α
  deriving DecidableEq, Repr, Inhabited

/-- The six channels of a stepper (R24, R95). -/
abbrev Pins := RoleMap Chan

/-- A validation reason (`60_exceptions.md` R251). -/
inductive Reason where
  | illegalOpcode
  | reservedBits
  | badTarget
  | badTick
  | badStateValue
  | badFrequency
  | prescaleRange
  | badDirection
  | badStyle
  | badMicrosteps
  | badCurrent
  | badSpeedUnit
  | badSpeedValue
  | badSteps
  | badPins
  | notInitialised
  | notConfigured
  | noSpeed
  | busy
  | freqUnset
  deriving DecidableEq, Repr, Inhabited

/-- A command of the opcode map (R98). -/
inductive Instr where
  | drvInit (nb : Bool)
  | drvReset (nb : Bool)
  | drvSetfreq (nb : Bool) (rate : W32)
  | drvGetfreq (nb : Bool)
  | drvSetchan (nb : Bool) (c : Chan) (on off : Tick)
  | drvSetpin (nb : Bool) (c : Chan) (level : Bool)
  | drvSetall (nb : Bool) (on off : Tick)
  | stpPins (nb : Bool) (k : StepperId) (pins : Pins)
  | stpSetsteps (nb : Bool) (k : StepperId) (spr : BitVec 16)
  | stpSetmicro (nb : Bool) (k : StepperId) (ms : Micro)
  | stpSetstyle (nb : Bool) (k : StepperId) (style : Style)
  | stpSetcurrent (nb : Bool) (k : StepperId) (current : BitVec 16)
  | stpSetspeed (nb : Bool) (k : StepperId) (unit : SpeedUnit) (value : W32)
  | stpSetfreq (nb : Bool) (k : StepperId) (rate : W32)
  | stpInit (nb : Bool) (k : StepperId)
  | stpOnestep (nb : Bool) (k : StepperId) (dir : Dir)
  | stpStep (nb : Bool) (k : StepperId) (dir : Dir) (count : W32)
  | stpRelease (nb : Bool) (k : StepperId)
  | stpStop (nb : Bool) (k : StepperId)
  | stpStatus (nb : Bool) (k : StepperId)
  | stpGetrates (nb : Bool) (k : StepperId)
  deriving DecidableEq, Repr, Inhabited

/-- The opcodes of the map (R98), one per command. -/
inductive Opcode where
  | drvInit | drvReset | drvSetfreq | drvGetfreq | drvSetchan | drvSetpin | drvSetall
  | stpPins | stpSetsteps | stpSetmicro | stpSetstyle | stpSetcurrent | stpSetspeed | stpSetfreq
  | stpInit | stpOnestep | stpStep | stpRelease | stpStop | stpStatus | stpGetrates
  deriving DecidableEq, Repr, Inhabited

/-- The opcode number of R98. -/
def Opcode.code : Opcode → Byte
  | .drvInit => 0x01#8
  | .drvReset => 0x02#8
  | .drvSetfreq => 0x03#8
  | .drvGetfreq => 0x04#8
  | .drvSetchan => 0x05#8
  | .drvSetpin => 0x06#8
  | .drvSetall => 0x07#8
  | .stpPins => 0x10#8
  | .stpSetsteps => 0x11#8
  | .stpSetmicro => 0x12#8
  | .stpSetstyle => 0x13#8
  | .stpSetcurrent => 0x14#8
  | .stpSetspeed => 0x15#8
  | .stpSetfreq => 0x16#8
  | .stpInit => 0x17#8
  | .stpOnestep => 0x18#8
  | .stpStep => 0x19#8
  | .stpRelease => 0x1A#8
  | .stpStop => 0x1B#8
  | .stpStatus => 0x1C#8
  | .stpGetrates => 0x1D#8

/-- The opcode of a command. -/
def Instr.opcode : Instr → Opcode
  | .drvInit _ => .drvInit
  | .drvReset _ => .drvReset
  | .drvSetfreq _ _ => .drvSetfreq
  | .drvGetfreq _ => .drvGetfreq
  | .drvSetchan _ _ _ _ => .drvSetchan
  | .drvSetpin _ _ _ => .drvSetpin
  | .drvSetall _ _ _ => .drvSetall
  | .stpPins _ _ _ => .stpPins
  | .stpSetsteps _ _ _ => .stpSetsteps
  | .stpSetmicro _ _ _ => .stpSetmicro
  | .stpSetstyle _ _ _ => .stpSetstyle
  | .stpSetcurrent _ _ _ => .stpSetcurrent
  | .stpSetspeed _ _ _ _ => .stpSetspeed
  | .stpSetfreq _ _ _ => .stpSetfreq
  | .stpInit _ _ => .stpInit
  | .stpOnestep _ _ _ => .stpOnestep
  | .stpStep _ _ _ _ => .stpStep
  | .stpRelease _ _ => .stpRelease
  | .stpStop _ _ => .stpStop
  | .stpStatus _ _ => .stpStatus
  | .stpGetrates _ _ => .stpGetrates

/-- The execution mode `NB` of a command: true is non-blocking (R91). -/
def Instr.nb : Instr → Bool
  | .drvInit nb | .drvReset nb | .drvSetfreq nb _ | .drvGetfreq nb | .drvSetchan nb _ _ _ | .drvSetpin nb _ _
  | .drvSetall nb _ _ | .stpPins nb _ _ | .stpSetsteps nb _ _ | .stpSetmicro nb _ _ | .stpSetstyle nb _ _
  | .stpSetcurrent nb _ _ | .stpSetspeed nb _ _ _ | .stpSetfreq nb _ _ | .stpInit nb _ | .stpOnestep nb _ _
  | .stpStep nb _ _ _ | .stpRelease nb _ | .stpStop nb _ | .stpStatus nb _ | .stpGetrates nb _ => nb

end Sys2Proof
end

