-- ==== Sys2Proof/WellFormed.lean ====
section
/-! DEFINITION. Which commands are well formed: the operand ranges of `30_encoding.md` R94 that the operand types do
not already enforce. -/

namespace Sys2Proof

/-- A tick is legal: 0..4096 (R94). -/
def tickLegal (t : Tick) : Bool := t.toNat ≤ Config.tickMax

/-- A PWM frequency code is legal: positive, with a prescale of at most 255, which by R131 holds exactly from
1562500 on. -/
def rateLegal (rate : W32) : Bool := 1562500 ≤ rate.toNat

/-- The six channels are pairwise distinct (R94 `pins`). -/
def pinsDistinct (p : Pins) : Bool :=
  p.pwma != p.a1 && p.pwma != p.a2 && p.pwma != p.pwmb && p.pwma != p.b1 && p.pwma != p.b2 &&
  p.a1 != p.a2 && p.a1 != p.pwmb && p.a1 != p.b1 && p.a1 != p.b2 &&
  p.a2 != p.pwmb && p.a2 != p.b1 && p.a2 != p.b2 &&
  p.pwmb != p.b1 && p.pwmb != p.b2 && p.b1 != p.b2

/-- The command's operands are in the legal ranges of R94. -/
def Instr.wf : Instr → Bool
  | .drvInit _ => true
  | .drvReset _ => true
  | .drvSetfreq _ rate => rateLegal rate
  | .drvGetfreq _ => true
  | .drvSetchan _ _ on off => tickLegal on && tickLegal off
  | .drvSetpin _ _ _ => true
  | .drvSetall _ on off => tickLegal on && tickLegal off
  | .stpPins _ _ pins => pinsDistinct pins
  | .stpSetsteps _ _ spr => spr != 0#16
  | .stpSetmicro _ _ _ => true
  | .stpSetstyle _ _ _ => true
  | .stpSetcurrent _ _ current => current.toNat ≤ 32768
  | .stpSetspeed _ _ _ value => value != 0#32
  | .stpSetfreq _ _ rate => rateLegal rate
  | .stpInit _ _ => true
  | .stpOnestep _ _ _ => true
  | .stpStep _ _ _ _ => true
  | .stpRelease _ _ => true
  | .stpStop _ _ => true
  | .stpStatus _ _ => true
  | .stpGetrates _ _ => true

end Sys2Proof
end

