-- ==== Sys2Proof/Decode.lean ====
section
/-! DEFINITION. `Decode` (`30_encoding.md` R105), total on every 64-bit word and rejecting by the reason's name, and the
encoder written from the same tables (R90, R94 to R98). Also the prescale formula R131, which the decoder's range check of
the frequency commands needs. -/

namespace Sys2Proof

/-! ### The word's fields (R90) -/

/-- `OP = w[63:56]`. -/
def wordOp (w : CmdWord) : Byte := w.extractLsb' 56 8
/-- `NB = w[55]`. -/
def wordNb (w : CmdWord) : Bool := w.getLsbD 55
/-- `RSV = w[54:52]`. -/
def wordRsv (w : CmdWord) : BitVec 3 := w.extractLsb' 52 3
/-- `TGT = w[51:48]`. -/
def wordTgt (w : CmdWord) : BitVec 4 := w.extractLsb' 48 4
/-- `A = w[47:32]`. -/
def wordA (w : CmdWord) : BitVec 16 := w.extractLsb' 32 16
/-- `B = w[31:0]`. -/
def wordB (w : CmdWord) : W32 := w.extractLsb' 0 32

/-- A word from its fields: `OP*2^56 + NB*2^55 + TGT*2^48 + A*2^32 + B`, with `RSV = 0` (R90). -/
def buildWord (op : Byte) (nb : Bool) (tgt : BitVec 4) (a : BitVec 16) (b : W32) : CmdWord :=
  op ++ (BitVec.ofBool nb ++ (0#3 ++ (tgt ++ (a ++ b))))

/-! ### Operand codes -/

/-- `ComputePrescale(B) = ceil(OSC_HZ * 65536 / (TICKS * B) - 1)` in exact arithmetic, for `B ≥ 1` (R131). -/
def computePrescale (rate : W32) : Nat :=
  (Config.oscHz * 65536 + (Config.ticks * rate.toNat - 1)) / (Config.ticks * rate.toNat) - 1

/-- The six channels packed in `B` (R95). -/
def unpackPins (b : W32) : Pins :=
  { pwma := b.extractLsb' 0 4, a1 := b.extractLsb' 4 4, a2 := b.extractLsb' 8 4,
    pwmb := b.extractLsb' 12 4, b1 := b.extractLsb' 16 4, b2 := b.extractLsb' 20 4 }

/-- The channels packed into `B`, `B[31:24] = 0` (R95). -/
def packPins (p : Pins) : W32 := 0#8 ++ (p.b2 ++ (p.b1 ++ (p.pwmb ++ (p.a2 ++ (p.a1 ++ p.pwma)))))

/-- Direction code: 0 is `FWD`, 1 is `BACK` (R97). -/
def Dir.code : Dir → BitVec 16
  | .fwd => 0#16
  | .back => 1#16

/-- Style code 0..3 (R97). -/
def Style.code : Style → W32
  | .single => 0#32
  | .double => 1#32
  | .interleaved => 2#32
  | .microstep => 3#32

/-- Speed unit, one-hot in `A[2:0]` (R96). -/
def SpeedUnit.code : SpeedUnit → BitVec 16
  | .pps => 1#16
  | .rpm => 2#16
  | .sps => 4#16

/-- Microsteps per step as a number. -/
def Micro.count : Micro → Nat
  | .eight => 8
  | .sixteen => 16

/-- A direction operand; nothing but 0 and 1 is legal (R94 `dir`). -/
def readDir (a : BitVec 16) : Except Reason Dir :=
  if a = 0#16 then .ok .fwd else if a = 1#16 then .ok .back else .error .badDirection

/-- A style operand (R94 `style`). -/
def readStyle (b : W32) : Except Reason Style :=
  if b = 0#32 then .ok .single else if b = 1#32 then .ok .double
  else if b = 2#32 then .ok .interleaved else if b = 3#32 then .ok .microstep else .error .badStyle

/-- A microsteps operand (R94 `ms`). -/
def readMicro (b : W32) : Except Reason Micro :=
  if b = 8#32 then .ok .eight else if b = 16#32 then .ok .sixteen else .error .badMicrosteps

/-- A speed unit operand: exactly one of `A[2:0]` set (R96). -/
def readUnit (a : BitVec 16) : Except Reason SpeedUnit :=
  if a = 1#16 then .ok .pps else if a = 2#16 then .ok .rpm else if a = 4#16 then .ok .sps else .error .badSpeedUnit

/-- A digital state operand (R94 `state`). -/
def readLevel (b : W32) : Except Reason Bool :=
  if b = 0#32 then .ok false else if b = 1#32 then .ok true else .error .badStateValue

/-- The two tick operands, `A` first (R94 `tick`, R127). -/
def readTicks (a : BitVec 16) (b : W32) : Except Reason (Tick × Tick) :=
  if Config.tickMax < a.toNat then .error .badTick
  else if Config.tickMax < b.toNat then .error .badTick
  else .ok (a.setWidth 13, b.setWidth 13)

/-- A PWM frequency operand: `BAD_FREQUENCY`, then `PRESCALE_RANGE` (R125, R254). -/
def readRate (b : W32) : Except Reason W32 :=
  if b = 0#32 then .error .badFrequency
  else if 255 < computePrescale b then .error .prescaleRange
  else .ok b

/-! ### Decode (R105) -/

/-- The opcode of a byte; none if the byte is reserved (R99). -/
def opcodeOf (op : Byte) : Option Opcode :=
  match op.toNat with
  | 0x01 => some .drvInit
  | 0x02 => some .drvReset
  | 0x03 => some .drvSetfreq
  | 0x04 => some .drvGetfreq
  | 0x05 => some .drvSetchan
  | 0x06 => some .drvSetpin
  | 0x07 => some .drvSetall
  | 0x10 => some .stpPins
  | 0x11 => some .stpSetsteps
  | 0x12 => some .stpSetmicro
  | 0x13 => some .stpSetstyle
  | 0x14 => some .stpSetcurrent
  | 0x15 => some .stpSetspeed
  | 0x16 => some .stpSetfreq
  | 0x17 => some .stpInit
  | 0x18 => some .stpOnestep
  | 0x19 => some .stpStep
  | 0x1A => some .stpRelease
  | 0x1B => some .stpStop
  | 0x1C => some .stpStatus
  | 0x1D => some .stpGetrates
  | _ => none

/-- What an opcode's `TGT` field means (R93, R98). -/
inductive TargetKind where
  | zero
  | channel
  | stepper
  deriving DecidableEq, Repr

/-- The `TGT` column of the opcode map (R98). -/
def targetKind : Opcode → TargetKind
  | .drvInit | .drvReset | .drvSetfreq | .drvGetfreq | .drvSetall => .zero
  | .drvSetchan | .drvSetpin => .channel
  | .stpPins | .stpSetsteps | .stpSetmicro | .stpSetstyle | .stpSetcurrent | .stpSetspeed | .stpSetfreq
  | .stpInit | .stpOnestep | .stpStep | .stpRelease | .stpStop | .stpStatus | .stpGetrates => .stepper

/-- The opcodes whose `A` is an operand; for the others `A` must be 0 (R98). -/
def usesA : Opcode → Bool
  | .drvSetchan | .drvSetall | .stpSetspeed | .stpOnestep | .stpStep => true
  | .drvInit | .drvReset | .drvSetfreq | .drvGetfreq | .drvSetpin | .stpPins | .stpSetsteps | .stpSetmicro | .stpSetstyle
  | .stpSetcurrent | .stpSetfreq | .stpInit | .stpRelease | .stpStop | .stpStatus | .stpGetrates => false

/-- The opcodes whose `B` is an operand; for the others `B` must be 0 (R98). -/
def usesB : Opcode → Bool
  | .drvSetfreq | .drvSetchan | .drvSetpin | .drvSetall | .stpPins | .stpSetsteps | .stpSetmicro | .stpSetstyle
  | .stpSetcurrent | .stpSetspeed | .stpSetfreq | .stpStep => true
  | .drvInit | .drvReset | .drvGetfreq | .stpInit | .stpOnestep | .stpRelease | .stpStop | .stpStatus
  | .stpGetrates => false

/-- A must-be-zero field of the word is not zero (R92, R94, R95, R96). -/
def reservedSet (op : Opcode) (w : CmdWord) : Bool :=
  wordRsv w != 0#3
    || (targetKind op == .zero && wordTgt w != 0#4)
    || (!usesA op && wordA w != 0#16)
    || (!usesB op && wordB w != 0#32)
    || (op == .stpPins && (wordB w).extractLsb' 24 8 != 0#8)
    || (op == .stpSetspeed && (wordA w).extractLsb' 3 13 != 0#13)

/-- The operand range checks and the command of a driver opcode. -/
def decodeDriver (op : Opcode) (w : CmdWord) : Except Reason Instr :=
  match op with
  | .drvInit => .ok (.drvInit (wordNb w))
  | .drvReset => .ok (.drvReset (wordNb w))
  | .drvSetfreq => (readRate (wordB w)).map (fun rate => .drvSetfreq (wordNb w) rate)
  | .drvGetfreq => .ok (.drvGetfreq (wordNb w))
  | .drvSetchan => (readTicks (wordA w) (wordB w)).map (fun t => .drvSetchan (wordNb w) (wordTgt w) t.1 t.2)
  | .drvSetpin => (readLevel (wordB w)).map (fun v => .drvSetpin (wordNb w) (wordTgt w) v)
  | .drvSetall => (readTicks (wordA w) (wordB w)).map (fun t => .drvSetall (wordNb w) t.1 t.2)
  | _ => .error .illegalOpcode

/-- The operand range checks and the command of a stepper opcode, once its target is known to be legal. -/
def decodeStepper (op : Opcode) (k : StepperId) (w : CmdWord) : Except Reason Instr :=
  match op with
  | .stpPins =>
      if pinsDistinct (unpackPins (wordB w)) then .ok (.stpPins (wordNb w) k (unpackPins (wordB w))) else .error .badPins
  | .stpSetsteps =>
      if wordB w = 0#32 ∨ 65535 < (wordB w).toNat then .error .badSteps
      else .ok (.stpSetsteps (wordNb w) k ((wordB w).setWidth 16))
  | .stpSetmicro => (readMicro (wordB w)).map (fun ms => .stpSetmicro (wordNb w) k ms)
  | .stpSetstyle => (readStyle (wordB w)).map (fun st => .stpSetstyle (wordNb w) k st)
  | .stpSetcurrent =>
      if 32768 < (wordB w).toNat then .error .badCurrent
      else .ok (.stpSetcurrent (wordNb w) k ((wordB w).setWidth 16))
  | .stpSetspeed =>
      (readUnit (wordA w)).bind (fun u =>
        if wordB w = 0#32 then .error .badSpeedValue else .ok (.stpSetspeed (wordNb w) k u (wordB w)))
  | .stpSetfreq => (readRate (wordB w)).map (fun rate => .stpSetfreq (wordNb w) k rate)
  | .stpInit => .ok (.stpInit (wordNb w) k)
  | .stpOnestep => (readDir (wordA w)).map (fun d => .stpOnestep (wordNb w) k d)
  | .stpStep => (readDir (wordA w)).map (fun d => .stpStep (wordNb w) k d (wordB w))
  | .stpRelease => .ok (.stpRelease (wordNb w) k)
  | .stpStop => .ok (.stpStop (wordNb w) k)
  | .stpStatus => .ok (.stpStatus (wordNb w) k)
  | .stpGetrates => .ok (.stpGetrates (wordNb w) k)
  | _ => .error .illegalOpcode

/-- `Decode(w)` (R105): the checks in the priority order of R254. -/
def decode (w : CmdWord) : Except Reason Instr :=
  match opcodeOf (wordOp w) with
  | none => .error .illegalOpcode
  | some op =>
    if reservedSet op w then .error .reservedBits
    else if targetKind op = .stepper then
      if h : (wordTgt w).toNat < Config.nSteppers then decodeStepper op ⟨(wordTgt w).toNat, h⟩ w
      else .error .badTarget
    else decodeDriver op w

/-! ### Encode -/

/-- A stepper index in the `TGT` field. -/
def stepperTgt (k : StepperId) : BitVec 4 := BitVec.ofNat 4 k.val

/-- The `TGT` field of a command. -/
def Instr.tgtField : Instr → BitVec 4
  | .drvInit _ | .drvReset _ | .drvSetfreq _ _ | .drvGetfreq _ | .drvSetall _ _ _ => 0#4
  | .drvSetchan _ c _ _ | .drvSetpin _ c _ => c
  | .stpPins _ k _ | .stpSetsteps _ k _ | .stpSetmicro _ k _ | .stpSetstyle _ k _ | .stpSetcurrent _ k _
  | .stpSetspeed _ k _ _ | .stpSetfreq _ k _ | .stpInit _ k | .stpOnestep _ k _ | .stpStep _ k _ _
  | .stpRelease _ k | .stpStop _ k | .stpStatus _ k | .stpGetrates _ k => stepperTgt k

/-- The `A` field of a command. -/
def Instr.aField : Instr → BitVec 16
  | .drvSetchan _ _ on _ | .drvSetall _ on _ => on.setWidth 16
  | .stpSetspeed _ _ u _ => u.code
  | .stpOnestep _ _ d | .stpStep _ _ d _ => d.code
  | .drvInit _ | .drvReset _ | .drvSetfreq _ _ | .drvGetfreq _ | .drvSetpin _ _ _ | .stpPins _ _ _ | .stpSetsteps _ _ _
  | .stpSetmicro _ _ _ | .stpSetstyle _ _ _ | .stpSetcurrent _ _ _ | .stpSetfreq _ _ _ | .stpInit _ _ | .stpRelease _ _
  | .stpStop _ _ | .stpStatus _ _ | .stpGetrates _ _ => 0#16

/-- The `B` field of a command. -/
def Instr.bField : Instr → W32
  | .drvSetfreq _ rate | .stpSetfreq _ _ rate => rate
  | .drvSetchan _ _ _ off | .drvSetall _ _ off => off.setWidth 32
  | .drvSetpin _ _ v => if v then 1#32 else 0#32
  | .stpPins _ _ p => packPins p
  | .stpSetsteps _ _ spr => spr.setWidth 32
  | .stpSetmicro _ _ ms => BitVec.ofNat 32 ms.count
  | .stpSetstyle _ _ st => st.code
  | .stpSetcurrent _ _ cur => cur.setWidth 32
  | .stpSetspeed _ _ _ v => v
  | .stpStep _ _ _ n => n
  | .drvInit _ | .drvReset _ | .drvGetfreq _ | .stpInit _ _ | .stpOnestep _ _ _ | .stpRelease _ _ | .stpStop _ _
  | .stpStatus _ _ | .stpGetrates _ _ => 0#32

/-- The command word of a command (R90, R98). -/
def encode (i : Instr) : CmdWord := buildWord i.opcode.code i.nb i.tgtField i.aField i.bField

/-- The command the decoder reads from the low `nbits` bits of `w`; the bits above are 0. The host's port is a 64-bit
parallel port, so the word has no byte order (R90). -/
def decodeTableWord (nbits w : Nat) : Option Instr :=
  match decode (BitVec.ofNat 64 (w % 2 ^ nbits)) with
  | .ok i => some i
  | .error _ => none

end Sys2Proof
end

