-- ==== Sys2Proof/Machine/State.lean ====
section
/-! DEFINITION. The machine's state (`10_state.md`), its fault and refusal reasons, and `State.reset` (R42). The fields
marked MODEL are the model's own: the work in progress that the spec's agents imply, the record of what the block has shown
to the outside, and the inputs the outside has ready. Everything is plain data. -/

namespace Sys2Proof.Machine

open Sys2Proof

/-- Reasons to stop with a fault. There are none: R255 makes every error of the block a response record after which the
block accepts the next command, and the model fault `MixedModeHazard` is a sticky flag under which execution goes on
(R260, `State.mixedMode`). No meaning raises one (safe). -/
inductive Fault where
  deriving DecidableEq, Repr

/-- Reasons to refuse. -/
inductive Refusal where
  /-- Raised only by an arm of `exec` whose command has no meaning yet; no arm does (safe). -/
  | notModelled (mnemonic : String)
  deriving DecidableEq, Repr

/-! ### Bus (R13, R38, R60) -/

/-- A bus transaction (R13). -/
inductive Txn where
  | busOpen (bus : Nat)
  | read (dev reg : Byte)
  | write (dev reg value : Byte)
  | send (addr value : Byte)
  deriving DecidableEq, Repr, Inhabited

/-- Who asks for a transaction (R68). -/
inductive Requester where
  | cp
  | engine (i : StepperId)
  deriving DecidableEq, Repr, Inhabited

/-- A pending request (R38). -/
structure Request where
  who : Requester
  txn : Txn
  deriving DecidableEq, Repr, Inhabited

/-- The bus master's state (R38). -/
structure Bus where
  /-- `bus.reqq`, head first. -/
  reqq : List Request
  /-- `bus.inflight`. -/
  inflight : Option Request
  /-- `bus.lock = CP`. -/
  lock : Bool
  /-- `bus.lastDone`, in milliseconds of the model's clock. -/
  lastDone : ℚ
  deriving DecidableEq, Repr

/-- One item of the bus trace the model exposes (R265): a completed transaction with its outcome (`byte` is what a read
returned, 0 for the other kinds), or a settle of the command processor's sequence. -/
inductive TraceItem where
  | txn (who : Requester) (t : Txn) (ok : Bool) (byte : Byte)
  | settle (ms : Nat)
  deriving DecidableEq, Repr, Inhabited

/-- `BusError(info)` (R252). -/
structure BusError where
  kind : BitVec 3
  reg : Byte
  deriving DecidableEq, Repr, Inhabited

/-! ### Chip register image (R21 to R23) -/

/-- `img`. -/
structure Image where
  busOpen : Bool
  initialised : Bool
  prescale : Option Byte
  on : Vector (Option Tick) Config.nChannels
  off : Vector (Option Tick) Config.nChannels
  deriving DecidableEq, Repr

/-! ### Responses (R103) -/

/-- `status` (R103): OK is 0, VALIDATION 1, BUS 2, ACCEPTED 3. -/
inductive Status where
  | ok
  | validation
  | bus
  | accepted
  deriving DecidableEq, Repr, Inhabited

/-- The run report of `STP_STEP` (R215). -/
structure RunReport where
  steps : W32
  dir : Dir
  durationMs : W32
  retried : W32
  stopped : Bool
  deriving DecidableEq, Repr, Inhabited

/-- The snapshot of `STP_STATUS` (R219); a field that is `⊥` is delivered in the encoding of that table. `k` is not in the
table of R219; R262 says that it is readable through `STP_STATUS` (log entry 29). -/
structure StatusReport where
  pinsSet : Bool
  pin : Pins
  spr : BitVec 16
  ms : BitVec 5
  style : BitVec 3
  current : BitVec 16
  phase : BitVec 6
  initialised : Bool
  pulsing : Bool
  running : Bool
  runNB : Bool
  runDir : BitVec 1
  stopReq : Bool
  runCount : W32
  issued : W32
  done : W32
  retried : W32
  k : W32
  cacheValid : BitVec 6
  cache : RoleMap Tick
  drvInitialised : Bool
  busOpen : Bool
  deriving DecidableEq, Repr, Inhabited

/-- A rational delivered as a reduced fraction; `⊥` is `0/0` (R104). -/
structure Fraction where
  num : BitVec 64
  den : BitVec 64
  deriving DecidableEq, Repr, Inhabited

/-- The result of `STP_GETRATES` (R103, R220). -/
structure RatesReport where
  unit : BitVec 2
  value : W32
  step : Fraction
  pulse : Fraction
  period : Fraction
  deriving DecidableEq, Repr, Inhabited

/-- `result` by opcode (R103); `none` is the result of an opcode without result fields. -/
inductive Result where
  | none
  | freq (prescale : Byte) (hz : Fraction)
  | phase (p : BitVec 6)
  | run (r : RunReport)
  | status (r : StatusReport)
  | rates (r : RatesReport)
  deriving DecidableEq, Repr, Inhabited

/-- A response record (R103). -/
structure Response where
  ticket : Ticket
  op : Byte
  status : Status
  reason : BitVec 8
  busKind : BitVec 3
  busReg : Byte
  result : Result
  deriving DecidableEq, Repr, Inhabited

/-! ### Stepper (R24 to R36) -/

/-- The stepper configuration (R24 to R31). -/
structure StepperConfig where
  /-- `stp[s].pin`, written only as a whole (R24). -/
  pin : Option Pins
  spr : Option (BitVec 16)
  ms : Option Micro
  style : Option Style
  current : Option (BitVec 16)
  speedUnit : Option SpeedUnit
  speedValue : Option W32
  initialised : Bool
  stepFreq : Option ℚ
  pulseFreq : Option ℚ
  deriving DecidableEq, Repr

/-- The motion state (R32 to R34). -/
structure Motion where
  phase : BitVec 6
  pulsing : Bool
  retried : W32
  deriving DecidableEq, Repr

/-- The run state (R35). -/
structure Run where
  running : Bool
  runNB : Bool
  runDir : Dir
  runCount : W32
  issued : W32
  done : W32
  /-- It wraps mod 2^32 (R262, R270). DESIGN CHOICE, since R267 says that it does not (log entry 32). -/
  k : W32
  stopReq : Bool
  runTicket : Ticket
  /-- `t0`, in milliseconds of the model's clock. -/
  t0 : ℚ
  deriving DecidableEq, Repr

/-- One pin of a vector write, before the lazy comparison: its role and channel, the value the cache holds once it is
written, and the ticks to write (R206, R207). -/
structure PinTask where
  role : Role
  chan : Chan
  value : Tick
  on : Tick
  off : Tick
  deriving DecidableEq, Repr, Inhabited

/-- MODEL. Where a run engine stands in its vector write (R208, R213): the pin being written, its byte writes not yet
completed, the pins after it, and whether the next byte write has been requested. -/
structure VecJob where
  task : PinTask
  left : List (Byte × Byte)
  rest : List PinTask
  outstanding : Bool
  deriving DecidableEq, Repr, Inhabited

/-- `stp[s]`. -/
structure Stepper where
  cfg : StepperConfig
  motion : Motion
  run : Run
  /-- `stp[s].cache` (R36). -/
  cache : RoleMap (Option Tick)
  /-- MODEL. The run engine's vector write in progress. -/
  job : Option VecJob
  /-- MODEL. The report of a run that has ended, held while `cmplq` is full (R258). -/
  held : Option Response
  deriving DecidableEq, Repr

/-! ### Command interface (R37) -/

/-- An accepted command word with its ticket (R37). -/
structure Queued where
  ticket : Ticket
  word : CmdWord
  deriving DecidableEq, Repr, Inhabited

/-- `cp` (R37). `pcSeq` counts the bus primitives, settles and waits of the command's sequence that are done. -/
inductive Cp where
  | idle
  | busy (ticket : Ticket) (word : CmdWord) (pcSeq : Nat)
  deriving DecidableEq, Repr, Inhabited

/-- What the host does next (R16): it submits a command word (R120), pops the head of `cmplq` (R258; while it waits
for a blocking command too, log entry 34), or `rst` is asserted and released (R290). -/
inductive HostAct where
  | submit (w : CmdWord)
  | pop
  | rst
  deriving DecidableEq, Repr, Inhabited

/-- MODEL. The environment's choices that are already fixed, each list used from its head; where a list is empty the next
choice is the free value of `Config` at the count `drawn` of free values used so far (log entry 3). -/
structure Env where
  turns : List Agent
  bursts : List (List Background)
  answers : List Answer
  durations : List W32
  drawn : Nat
  deriving DecidableEq, Repr, Inhabited

/-- The state of the machine. -/
structure State where
  img : Image
  stp : Vector Stepper Config.nSteppers
  nextTicket : Ticket
  /-- `cmdq`, head first. -/
  cmdq : List Queued
  cp : Cp
  /-- MODEL. The response of the command in the CP, held while `cmplq` is full (R258). -/
  cpHeld : Option Response
  /-- `cmplq`, head first. -/
  cmplq : List Response
  hostWait : Option Ticket
  bus : Bus
  /-- `fault.mixedMode` (R260). -/
  mixedMode : Bool
  /-- MODEL. The clock, in milliseconds; only the lower bounds of R310 read it. -/
  now : ℚ
  /-- MODEL. The bus trace (R265), newest first. -/
  trace : List TraceItem
  /-- MODEL. The records returned on the synchronous response path, newest first. -/
  sync : List Response
  /-- MODEL. The records the host has popped from `cmplq`, newest first. -/
  popped : List Response
  /-- MODEL. What the host will do, in order. -/
  host : List HostAct
  /-- MODEL. The environment's choices. -/
  env : Env
  deriving DecidableEq, Repr

/-- A cache with every entry `⊥`. -/
def emptyCache : RoleMap (Option Tick) :=
  { pwma := none, a1 := none, a2 := none, pwmb := none, b1 := none, b2 := none }

/-- `stp[s]` after reset (R42). `t0` is unspecified there; 0 is the model's value (log entry 2). -/
def Stepper.reset : Stepper :=
  { cfg := { pin := none, spr := none, ms := none, style := none, current := none, speedUnit := none, speedValue := none,
             initialised := false, stepFreq := none, pulseFreq := none },
    motion := { phase := 0#6, pulsing := false, retried := 0#32 },
    run := { running := false, runNB := false, runDir := .fwd, runCount := 0#32, issued := 0#32, done := 0#32, k := 0#32,
             stopReq := false, runTicket := 0#16, t0 := 0 },
    cache := emptyCache, job := none, held := none }

/-- `img` after reset (R42). -/
def Image.reset : Image :=
  { busOpen := false, initialised := false, prescale := none,
    on := Vector.replicate Config.nChannels none, off := Vector.replicate Config.nChannels none }

/-- The machine after a hardware reset (R42, R290), before anything has happened. `bus.lastDone` is unspecified there; 0 is
the model's value (log entry 2). No host action is ready and no choice is fixed. -/
def State.reset : State :=
  { img := Image.reset, stp := Vector.replicate Config.nSteppers Stepper.reset,
    nextTicket := 0#16, cmdq := [], cp := .idle, cpHeld := none, cmplq := [], hostWait := none,
    bus := { reqq := [], inflight := none, lock := false, lastDone := 0 },
    mixedMode := false, now := 0, trace := [], sync := [], popped := [], host := [],
    env := { turns := [], bursts := [], answers := [], durations := [], drawn := 0 } }

end Sys2Proof.Machine
end

