-- ==== Sys2Proof/Machine/Access.lean ====
section
/-! DEFINITION. Reading and writing the state's elements by name (`00_scope.md` R12): the one home of every access to a
stepper, to one role of a role map, and to the image's channel slots. -/

namespace Sys2Proof

/-- The value of a role. -/
def RoleMap.get {α : Type} (m : RoleMap α) : Role → α
  | .pwma => m.pwma
  | .a1 => m.a1
  | .a2 => m.a2
  | .pwmb => m.pwmb
  | .b1 => m.b1
  | .b2 => m.b2

/-- The map with one role's value replaced. -/
def RoleMap.set {α : Type} (m : RoleMap α) (r : Role) (v : α) : RoleMap α :=
  match r with
  | .pwma => { m with pwma := v }
  | .a1 => { m with a1 := v }
  | .a2 => { m with a2 := v }
  | .pwmb => { m with pwmb := v }
  | .b1 => { m with b1 := v }
  | .b2 => { m with b2 := v }

/-- The six values, in role order. -/
def RoleMap.toList {α : Type} (m : RoleMap α) : List α := [m.pwma, m.a1, m.a2, m.pwmb, m.b1, m.b2]

/-- Every value mapped. -/
def RoleMap.map {α β : Type} (f : α → β) (m : RoleMap α) : RoleMap β :=
  { pwma := f m.pwma, a1 := f m.a1, a2 := f m.a2, pwmb := f m.pwmb, b1 := f m.b1, b2 := f m.b2 }

namespace Machine

/-- `stp[i]`. -/
def State.stepper (s : State) (i : StepperId) : Stepper := s.stp.get i

/-- `stp[i]` replaced by its image under `f`. -/
def State.modStp (s : State) (i : StepperId) (f : Stepper → Stepper) : State :=
  { s with stp := s.stp.set i.val (f (s.stp.get i)) i.isLt }

/-- Every stepper replaced by its image under `f`. -/
def State.mapStp (s : State) (f : Stepper → Stepper) : State := { s with stp := s.stp.map f }

/-- `img.on[c]`. -/
def Image.onTick (m : Image) (c : Chan) : Option Tick := m.on.get c.toFin

/-- `img.off[c]`. -/
def Image.offTick (m : Image) (c : Chan) : Option Tick := m.off.get c.toFin

/-- `img.on[c] <- on; img.off[c] <- off` (R64). -/
def Image.setChannel (m : Image) (c : Chan) (on off : Tick) : Image :=
  { m with on := m.on.set c.toNat (some on) c.isLt, off := m.off.set c.toNat (some off) c.isLt }

/-- Both ticks of every channel (R64). -/
def Image.setAllChannels (m : Image) (on off : Tick) : Image :=
  { m with on := Vector.replicate Config.nChannels (some on), off := Vector.replicate Config.nChannels (some off) }

/-- What a completed `DRV_RESET` leaves of the image (R124): everything the block knew of the chip is `⊥`. -/
def Image.forget (m : Image) : Image :=
  { m with initialised := false, prescale := none,
           on := Vector.replicate Config.nChannels none, off := Vector.replicate Config.nChannels none }

/-- `cmpl_pending` (R37): an output signal, not stored. -/
def State.cmplPending (s : State) : Bool := !s.cmplq.isEmpty

end Machine

end Sys2Proof
end

