-- ==== Sys2Proof/Machine/Operands.lean ====
section
/-! DEFINITION. The pure functions of the spec: the byte split of a tick (`20_memory.md` R63), the frequency of a prescale
(`40_driver.md` R132), the speed-to-timing converter (`41_stepper_config.md` R169 to R173), the sequencer
(`42_stepper_motion.md` R200 to R206), and the encodings of the read-back records (R219, R220). All arithmetic is exact
(`00_scope.md` R10). -/

namespace Sys2Proof.Machine

open Sys2Proof

/-! ### Ticks and registers (R62, R63) -/

/-- `v mod 256`. -/
def lowByte (v : Tick) : Byte := v.setWidth 8

/-- `v div 256`; for a legal tick at most `0x10`. -/
def highByte (v : Tick) : Byte := (v >>> 8).setWidth 8

/-- The four byte writes of a register group at `base`, in the order of R64. -/
def groupWrites (base : Byte) (on off : Tick) : List (Byte × Byte) :=
  [(base, lowByte on), (base + 1#8, highByte on), (base + 2#8, lowByte off), (base + 3#8, highByte off)]

/-- The first register of channel `c`: `REG_LED0_ON_L + 4*c` (R62). -/
def chanBase (c : Chan) : Byte := Config.regLed0OnL + 4#8 * c.setWidth 8

/-- The byte writes of `PinWrite(c, on, off)` (R64). -/
def pinWrites (c : Chan) (on off : Tick) : List (Byte × Byte) := groupWrites (chanBase c) on off

/-- The byte writes of `AllWrite(on, off)` (R64). -/
def allWrites (on off : Tick) : List (Byte × Byte) := groupWrites Config.regAllOnL on off

/-- The ticks that stand for a digital state: 1 is `(4096, 0)`, 0 is `(0, 4096)` (R128, R207). -/
def levelTicks (v : Bool) : Tick × Tick := if v then (4096#13, 0#13) else (0#13, 4096#13)

/-! ### Frequency (R132) and fractions (R104) -/

/-- `ComputeFreq(p) = OSC_HZ / ((p+1) * TICKS)` Hz (R132). -/
def computeFreq (p : Byte) : ℚ := (Config.oscHz : ℚ) / (((p.toNat : ℚ) + 1) * (Config.ticks : ℚ))

/-- A non-negative rational as a reduced fraction (R104). -/
def fraction (q : ℚ) : Fraction := { num := BitVec.ofNat 64 q.num.toNat, den := BitVec.ofNat 64 q.den }

/-- `⊥` is delivered as `0/0` (R104). -/
def fractionOpt : Option ℚ → Fraction
  | none => { num := 0#64, den := 0#64 }
  | some q => fraction q

/-! ### Speed-to-timing converter (R169) -/

/-- `halfStepMultiplier` (R169). -/
def halfMult : Style → Nat
  | .single => 1
  | .double => 1
  | .interleaved => 2
  | .microstep => 1

/-- `microStepMultiplier`; `⊥` for `MICROSTEP` without microsteps (R169). -/
def microMult (st : Style) (ms : Option Micro) : Option Nat :=
  match st with
  | .single => some 1
  | .double => some 1
  | .interleaved => some 1
  | .microstep => ms.map (fun m => Config.microMultFactor * m.count)

/-- The value of a Q16.16 code (R94 `rate`). -/
def q16 (b : W32) : ℚ := (b.toNat : ℚ) / 65536

/-- `(stepFreq, pulseFreq)` from a target, with `K = H*M` (R169, R170). -/
def ratesOf (u : SpeedUnit) (v : ℚ) (spr : Option (BitVec 16)) (K : ℚ) : Option ℚ × Option ℚ :=
  match u with
  | .rpm =>
    match spr with
    | none => (none, none)
    | some n => (some (v * (n.toNat : ℚ) / 60), some (v * (n.toNat : ℚ) / 60 * K))
  | .sps => (some v, some (v * K))
  | .pps => (some (v / K), some v)

/-- `Recompute(s)` (R169). -/
def recompute (c : StepperConfig) : Option ℚ × Option ℚ :=
  match c.style, c.speedUnit, c.speedValue with
  | some st, some u, some b =>
    match microMult st c.ms with
    | none => (none, none)
    | some m => ratesOf u (q16 b) c.spr ((halfMult st * m : Nat) : ℚ)
  | _, _, _ => (none, none)

/-- The configuration with its derived rates recomputed and stored (R172). -/
def StepperConfig.withRates (c : StepperConfig) : StepperConfig :=
  { c with stepFreq := (recompute c).1, pulseFreq := (recompute c).2 }

/-- The pulse period `T(s) = 1000 / pulseFreq` in milliseconds (R171). -/
def pulsePeriod (c : StepperConfig) : Option ℚ := c.pulseFreq.map (fun f => 1000 / f)

/-- The period a run waits; a run starts only with a pulse frequency (R211), so the other case is not reached. -/
def runPeriod (c : StepperConfig) : ℚ := (pulsePeriod c).getD 0

/-- `CURVE(ms)` at index `r` (R173). -/
def curveAt (ms : Micro) (r : Nat) : Byte :=
  match ms with
  | .eight => (Config.curve8[r]?).getD 0#8
  | .sixteen => (Config.curve16[r]?).getD 0#8

/-! ### Sequencer (R200 to R206) -/

/-- `Inc(style, ms)` (R201). -/
def phaseInc (st : Style) (ms : Micro) : Nat :=
  match st with
  | .single => ms.count
  | .double => ms.count
  | .interleaved => ms.count / 2
  | .microstep => 1

/-- `Advance(phase, d, style, ms)`, reduced modulo `4*ms` (R201). -/
def advance (phase : BitVec 6) (d : Dir) (st : Style) (ms : Micro) : BitVec 6 :=
  match d with
  | .fwd => BitVec.ofNat 6 ((phase.toNat + phaseInc st ms + 4 * ms.count) % (4 * ms.count))
  | .back => BitVec.ofNat 6 ((phase.toNat + 4 * ms.count - phaseInc st ms) % (4 * ms.count))

/-- A coil vector (R17): two duties and four coil states. -/
structure CoilVector where
  pwmA : Byte
  pwmB : Byte
  a1 : Bool
  a2 : Bool
  b1 : Bool
  b2 : Bool
  deriving DecidableEq, Repr, Inhabited

/-- Two duties with the coil states of a table entry; the index is taken modulo the table's eight entries (R203). -/
def coilVector (pA pB : Byte) (index : Nat) : CoilVector :=
  let e := Config.coilTable.get ⟨index % 8, Nat.mod_lt _ (by decide)⟩
  { pwmA := pA, pwmB := pB, a1 := e.1, a2 := e.2.1, b1 := e.2.2.1, b2 := e.2.2.2 }

/-- `Vector_style(phase, ms)` (R202 to R205). -/
def vectorOf (st : Style) (phase : BitVec 6) (ms : Micro) : CoilVector :=
  let h := ms.count / 2
  let q := phase.toNat / ms.count
  let r := phase.toNat % ms.count
  match st with
  | .single => coilVector Config.fullDuty Config.fullDuty (phase.toNat / h)
  | .double => coilVector Config.fullDuty Config.fullDuty ((phase.toNat + h) % (4 * ms.count) / h)
  | .interleaved => coilVector Config.fullDuty Config.fullDuty (phase.toNat / h)
  | .microstep =>
    if q % 2 = 0 then coilVector (curveAt ms r) (curveAt ms (ms.count - r)) (2 * q + 1)
    else coilVector (curveAt ms (ms.count - r)) (curveAt ms r) (2 * q + 1)

/-- The vector of `STP_RELEASE` (R218). -/
def releaseVector : CoilVector := { pwmA := 0#8, pwmB := 0#8, a1 := false, a2 := false, b1 := false, b2 := false }

/-- `Scale(s, d) = floor(d * DUTY_SCALE * current / 32768)` (R206). -/
def scaleDuty (current : BitVec 16) (d : Byte) : Tick :=
  BitVec.ofNat 13 (d.toNat * Config.dutyScale * current.toNat / 32768)

/-- The configuration a vector write needs (R202 to R207). -/
structure Ready where
  pins : Pins
  ms : Micro
  style : Style
  current : BitVec 16
  deriving DecidableEq, Repr, Inhabited

/-- The configuration of an initialised stepper. `STP_INIT` sets `initialised` only when all of it is set (R168), so on
every state a run reaches this is `none` exactly when `initialised` is false (log entry 8). -/
def StepperConfig.ready (c : StepperConfig) : Option Ready :=
  if c.initialised then
    match c.pin, c.ms, c.style, c.current with
    | some p, some m, some st, some cur => some { pins := p, ms := m, style := st, current := cur }
    | _, _, _, _ => none
  else none

/-- Any of the fields `STP_INIT` needs is `⊥` (R168). -/
def StepperConfig.incomplete (c : StepperConfig) : Bool :=
  c.pin.isNone || c.spr.isNone || c.ms.isNone || c.style.isNone || c.current.isNone

/-- A PWM pin of a vector write: on tick 0, off tick the scaled duty, which is also what the cache holds (R206, R207). -/
def pwmTask (r : Ready) (role : Role) (d : Byte) : PinTask :=
  { role := role, chan := r.pins.get role, value := scaleDuty r.current d, on := 0#13, off := scaleDuty r.current d }

/-- A coil pin of a vector write; the cache holds the digital state (R207). -/
def coilTask (r : Ready) (role : Role) (v : Bool) : PinTask :=
  { role := role, chan := r.pins.get role, value := if v then 1#13 else 0#13,
    on := (levelTicks v).1, off := (levelTicks v).2 }

/-- The six pins of a vector write, in coil-vector order (R208). -/
def vectorTasks (r : Ready) (v : CoilVector) : List PinTask :=
  [pwmTask r .pwma v.pwmA, pwmTask r .pwmb v.pwmB, coilTask r .a1 v.a1, coilTask r .a2 v.a2,
   coilTask r .b1 v.b1, coilTask r .b2 v.b2]

/-- The vector written after a phase advance to `phase` (R210, R212, R213). -/
def stepTasks (r : Ready) (phase : BitVec 6) : List PinTask := vectorTasks r (vectorOf r.style phase r.ms)

/-- A pin of the vector is unchanged: the cache holds exactly the requested value (R207); `⊥` equals no value (R11). -/
def unchanged (cache : RoleMap (Option Tick)) (t : PinTask) : Bool := cache.get t.role == some t.value

/-! ### Codes of the response fields (R103, R219, R251) -/

/-- The reason code (R251). -/
def reasonCode : Reason → BitVec 8
  | .illegalOpcode => 1#8
  | .reservedBits => 2#8
  | .badTarget => 3#8
  | .badTick => 4#8
  | .badStateValue => 5#8
  | .badFrequency => 6#8
  | .prescaleRange => 7#8
  | .badDirection => 8#8
  | .badStyle => 9#8
  | .badMicrosteps => 10#8
  | .badCurrent => 11#8
  | .badSpeedUnit => 12#8
  | .badSpeedValue => 13#8
  | .badSteps => 14#8
  | .badPins => 15#8
  | .notInitialised => 16#8
  | .notConfigured => 17#8
  | .noSpeed => 18#8
  | .busy => 19#8
  | .freqUnset => 20#8

/-- The status code (R103). -/
def statusCode : Status → BitVec 2
  | .ok => 0#2
  | .validation => 1#2
  | .bus => 2#2
  | .accepted => 3#2

/-- The `style` field of `STP_STATUS`; 4 is `⊥` (R219). -/
def styleField : Option Style → BitVec 3
  | none => 4#3
  | some st => st.code.setWidth 3

/-- The `unit` field of `STP_GETRATES` (R103). -/
def unitField : Option SpeedUnit → BitVec 2
  | none => 0#2
  | some .pps => 1#2
  | some .rpm => 2#2
  | some .sps => 3#2

/-- Bit `i` is 1 when the cache entry of role `i` is not `⊥` (R219). -/
def cacheValidField (c : RoleMap (Option Tick)) : BitVec 6 :=
  BitVec.ofBool c.b2.isSome ++ (BitVec.ofBool c.b1.isSome ++ (BitVec.ofBool c.pwmb.isSome ++
    (BitVec.ofBool c.a2.isSome ++ (BitVec.ofBool c.a1.isSome ++ BitVec.ofBool c.pwma.isSome))))

/-- The six channels that are reported while the pins are `⊥` (R219). -/
def zeroPins : Pins := { pwma := 0#4, a1 := 0#4, a2 := 0#4, pwmb := 0#4, b1 := 0#4, b2 := 0#4 }

/-- The fields of `STP_STATUS`: those of the table of R219, and `k`, which R262 says is readable there (log entry 29). -/
def statusReport (m : Image) (st : Stepper) : StatusReport :=
  { pinsSet := st.cfg.pin.isSome, pin := st.cfg.pin.getD zeroPins, spr := st.cfg.spr.getD 0#16,
    ms := match st.cfg.ms with
          | none => 0#5
          | some n => BitVec.ofNat 5 n.count
    style := styleField st.cfg.style, current := st.cfg.current.getD 0xFFFF#16, phase := st.motion.phase,
    initialised := st.cfg.initialised, pulsing := st.motion.pulsing, running := st.run.running, runNB := st.run.runNB,
    runDir := st.run.runDir.code.setWidth 1, stopReq := st.run.stopReq,
    runCount := st.run.runCount, issued := st.run.issued, done := st.run.done, retried := st.motion.retried,
    k := st.run.k, cacheValid := cacheValidField st.cache, cache := st.cache.map (fun v => v.getD 0#13),
    drvInitialised := m.initialised, busOpen := m.busOpen }

/-- The fields of `STP_GETRATES` (R220). -/
def ratesReport (c : StepperConfig) : RatesReport :=
  { unit := unitField c.speedUnit, value := c.speedValue.getD 0#32, step := fractionOpt c.stepFreq,
    pulse := fractionOpt c.pulseFreq, period := fractionOpt (pulsePeriod c) }

/-- The result fields of a response that reports none: all fields of the opcode's result are 0 (R103). -/
def zeroResultOf : Opcode → Result
  | .drvGetfreq => .freq 0#8 { num := 0#64, den := 0#64 }
  | .stpOnestep => .phase 0#6
  | .stpStep => .run { steps := 0#32, dir := .fwd, durationMs := 0#32, retried := 0#32, stopped := false }
  | .stpStatus => .status
    { pinsSet := false, pin := zeroPins, spr := 0#16, ms := 0#5, style := 0#3, current := 0#16, phase := 0#6,
      initialised := false, pulsing := false, running := false, runNB := false, runDir := 0#1, stopReq := false,
      runCount := 0#32, issued := 0#32, done := 0#32, retried := 0#32, k := 0#32, cacheValid := 0#6,
      cache := { pwma := 0#13, a1 := 0#13, a2 := 0#13, pwmb := 0#13, b1 := 0#13, b2 := 0#13 },
      drvInitialised := false, busOpen := false }
  | .stpGetrates => .rates
    { unit := 0#2, value := 0#32, step := { num := 0#64, den := 0#64 }, pulse := { num := 0#64, den := 0#64 },
      period := { num := 0#64, den := 0#64 } }
  | .drvInit | .drvReset | .drvSetfreq | .drvSetchan | .drvSetpin | .drvSetall | .stpPins | .stpSetsteps | .stpSetmicro
  | .stpSetstyle | .stpSetcurrent | .stpSetspeed | .stpSetfreq | .stpInit | .stpRelease | .stpStop => .none

/-- As `zeroResultOf`, by the echoed `OP` of the response; a reserved one has no result fields (R99, R103). -/
def zeroResult (op : Byte) : Result :=
  match opcodeOf op with
  | some o => zeroResultOf o
  | none => .none

/-- `BusError(info)` of a failing transaction (R252). -/
def busErrorOf : Txn → BusError
  | .busOpen _ => { kind := 1#3, reg := 0#8 }
  | .read _ reg => { kind := 2#3, reg := reg }
  | .write _ reg _ => { kind := 3#3, reg := reg }
  | .send addr _ => { kind := 4#3, reg := addr }

/-- `retried`: incremented, saturating at `0xFFFFFFFF` (R34, R253). -/
def satInc (n : W32) : W32 := if n = 0xFFFFFFFF#32 then n else n + 1#32

end Sys2Proof.Machine
end

