-- ==== Sys2Proof/Machine/Flags.lean ====
section
/-! DEFINITION. The block's status flags (`10_state.md` R39) as the commands read them: the execution-time preconditions
(`40_driver.md` R122, `42_stepper_motion.md` R221), in the order of `60_exceptions.md` R254, the channel sets
(`00_scope.md` R19) and the model's sticky flag `fault.mixedMode` (R260). The block has no arithmetic condition codes. -/

namespace Sys2Proof.Machine

open Sys2Proof

/-- `stp[s].running ∨ stp[s].pulsing` (R221). -/
def Stepper.busy (st : Stepper) : Bool := st.run.running || st.motion.pulsing

/-- A non-blocking run of the stepper is active (R213). -/
def Stepper.inBackground (st : Stepper) : Bool := st.run.running && st.run.runNB

/-- Some stepper has a run (R122). -/
def State.anyRunning (s : State) : Bool := s.stp.toList.any (fun st => st.run.running)

/-- Some stepper has a non-blocking run. -/
def State.anyBackground (s : State) : Bool := s.stp.toList.any Stepper.inBackground

/-- All 16 channels. -/
def allChannels : List Chan := (List.range Config.nChannels).map (BitVec.ofNat 4)

/-- The pins of a stepper as a channel set; empty while they are `⊥`. -/
def pinChannels (st : Stepper) : List Chan :=
  match st.cfg.pin with
  | none => []
  | some p => p.toList

/-- The channel set of a command (R19). -/
def channelSet (s : State) : Instr → List Chan
  | .drvSetchan _ c _ _ | .drvSetpin _ c _ => [c]
  | .drvSetall _ _ _ | .drvInit _ | .drvReset _ => allChannels
  | .stpOnestep _ k _ | .stpStep _ k _ _ | .stpRelease _ k => pinChannels (s.stepper k)
  | .drvSetfreq _ _ | .drvGetfreq _ | .stpPins _ _ _ | .stpSetsteps _ _ _ | .stpSetmicro _ _ _ | .stpSetstyle _ _ _
  | .stpSetcurrent _ _ _ | .stpSetspeed _ _ _ _ | .stpSetfreq _ _ _ | .stpInit _ _ | .stpStop _ _ | .stpStatus _ _
  | .stpGetrates _ _ => []

/-- A channel set meets the channel set of an active non-blocking run, which is the six pins of its stepper (R19, R260). -/
def State.meetsRun (s : State) (chans : List Chan) : Bool :=
  s.stp.toList.any (fun st => st.inBackground && (pinChannels st).any (fun c => chans.contains c))

/-- A command that has passed its checks starts: a blocking one whose channel set meets an active non-blocking run sets
`fault.mixedMode` (R260). -/
def State.start (s : State) (i : Instr) : State :=
  { s with mixedMode := s.mixedMode || (!i.nb && s.meetsRun (channelSet s i)) }

/-- Another stepper's pins share a channel with `p` (R161). -/
def State.pinsTaken (s : State) (k : StepperId) (p : Pins) : Bool :=
  (List.finRange Config.nSteppers).any
    (fun j => j != k && (pinChannels (s.stepper j)).any (fun c => p.toList.contains c))

/-- The check of the driver's channel and frequency commands (R122). -/
def driverCheck (s : State) : Option Reason :=
  if s.img.initialised then none else some .notInitialised

/-- The check of `DRV_INIT` (R123). -/
def initCheck (s : State) : Option Reason :=
  if s.anyRunning then some .busy else none

/-- The checks of `DRV_RESET` (R124). -/
def resetCheck (s : State) : Option Reason :=
  if !s.img.busOpen then some .notInitialised
  else if s.anyRunning then some .busy
  else none

/-- The BUSY check of the configuration commands (R160, R221). -/
def configCheck (s : State) (k : StepperId) : Option Reason :=
  if (s.stepper k).busy then some .busy else none

/-- The checks of `STP_PINS` at execution: `BUSY`, then disjointness (R161). -/
def pinsCheck (s : State) (k : StepperId) (p : Pins) : Option Reason :=
  if (s.stepper k).busy then some .busy
  else if s.pinsTaken k p then some .badPins
  else none

/-- The checks of `STP_INIT` (R168). -/
def stpInitCheck (s : State) (k : StepperId) : Option Reason :=
  if (s.stepper k).busy then some .busy
  else if (s.stepper k).cfg.incomplete then some .notConfigured
  else none

/-- The checks of `STP_ONESTEP` and `STP_RELEASE`, in the order of R210 and R218; on success the configuration the vector
write uses. -/
def motionCheck (s : State) (k : StepperId) : Except Reason Ready :=
  if !s.img.initialised then .error .notInitialised
  else match (s.stepper k).cfg.ready with
  | none => .error .notConfigured
  | some r => if (s.stepper k).busy then .error .busy else .ok r

/-- The checks of `STP_STEP`, in the order of R211. -/
def stepCheck (s : State) (k : StepperId) : Except Reason Ready :=
  if !s.img.initialised then .error .notInitialised
  else match (s.stepper k).cfg.ready with
  | none => .error .notConfigured
  | some r =>
    if (s.stepper k).cfg.pulseFreq.isNone then .error .noSpeed
    else if (s.stepper k).busy then .error .busy
    else .ok r

end Sys2Proof.Machine
end

