-- ==== Sys2Proof/Machine/Ops.lean ====
section
/-! DEFINITION. The named operations every meaning is written over: the environment's draws and the clock, the response that
ends a command (`60_exceptions.md` R255, the block's form of taking an exception; R257: there is no return from one), the end
of a run (R215), the bus master's steps (R67, R68) and the submission of a word (R120). -/

namespace Sys2Proof.Machine

open Sys2Proof

/-! ### Draws and time (I1, I2, I4, I11) -/

/-- The transport's answer to the next transaction: the next fixed one, else a free value (I1, I2). -/
def State.drawAnswer (s : State) : Answer × State :=
  match s.env.answers with
  | a :: rest => (a, { s with env := { s.env with answers := rest } })
  | [] => (Config.freeAnswer s.env.drawn, { s with env := { s.env with drawn := s.env.drawn + 1 } })

/-- The next burst of other agents' steps: the next fixed one, else a free value (I11). -/
def State.drawBurst (s : State) : List Background × State :=
  match s.env.bursts with
  | b :: rest => (b, { s with env := { s.env with bursts := rest } })
  | [] => (Config.freeBurst s.env.drawn, { s with env := { s.env with drawn := s.env.drawn + 1 } })

/-- The next run report's duration in milliseconds: the next fixed one, else a free value (I4). -/
def State.drawDuration (s : State) : W32 × State :=
  match s.env.durations with
  | n :: rest => (n, { s with env := { s.env with durations := rest } })
  | [] => (Config.freeDuration s.env.drawn, { s with env := { s.env with drawn := s.env.drawn + 1 } })

/-- The agent that takes the next machine step: the next fixed one, else a free value (R16). -/
def State.drawTurn (s : State) : Agent × State :=
  match s.env.turns with
  | a :: rest => (a, { s with env := { s.env with turns := rest } })
  | [] => (Config.freeTurn s.env.drawn, { s with env := { s.env with drawn := s.env.drawn + 1 } })

/-- Time passes, in microseconds. -/
def State.pass (s : State) (micros : Nat) : State := { s with now := s.now + (micros : ℚ) / 1000 }

/-- Time passes until `t` at least (R310: the only timing facts are lower bounds). -/
def State.passUntil (s : State) (t : ℚ) : State := { s with now := max s.now t }

/-! ### Ending a command (R14, R103, R255) -/

/-- How a command ends (R14): complete, a validation error, a bus error, or the end of a run with its report (R215). -/
inductive CmdEnd where
  | complete (r : Result)
  | validation (why : Reason)
  | bus (e : BusError)
  | run (r : RunReport) (e : Option BusError)
  deriving DecidableEq, Repr, Inhabited

/-- The response record of a command's end: the result fields are 0 unless the status is OK, but for the report of a run that
has started (R103). -/
def recordOf (t : Ticket) (op : Byte) : CmdEnd → Response
  | .complete r => { ticket := t, op := op, status := .ok, reason := 0#8, busKind := 0#3, busReg := 0#8, result := r }
  | .validation why =>
    { ticket := t, op := op, status := .validation, reason := reasonCode why, busKind := 0#3, busReg := 0#8,
      result := zeroResult op }
  | .bus e =>
    { ticket := t, op := op, status := .bus, reason := 0#8, busKind := e.kind, busReg := e.reg, result := zeroResult op }
  | .run r none =>
    { ticket := t, op := op, status := .ok, reason := 0#8, busKind := 0#3, busReg := 0#8, result := .run r }
  | .run r (some e) =>
    { ticket := t, op := op, status := .bus, reason := 0#8, busKind := e.kind, busReg := e.reg, result := .run r }

/-- The ticket of the command in the CP (R37). -/
def State.ticket (s : State) : Ticket :=
  match s.cp with
  | .busy t _ _ => t
  | .idle => 0#16

/-- `cmplq` can take a record (R258). -/
def State.cmplRoom (s : State) : Bool := s.cmplq.length < Config.cmplqDepth

/-- The final response of the command in the CP, and the CP back to `IDLE` (R121, R255): a blocking command's record
returns on the synchronous path and releases the host's port; a non-blocking command's record is appended to `cmplq`, or
held by the waiting CP while `cmplq` is full (R258). -/
def State.respond (s : State) (nb : Bool) (r : Response) : State :=
  if nb then
    if s.cmplRoom then { s with cmplq := s.cmplq ++ [r], cp := .idle } else { s with cpHeld := some r }
  else { s with sync := r :: s.sync, hostWait := none, cp := .idle }

/-- The command in the CP ends. -/
def State.endCommand (s : State) (i : Instr) (e : CmdEnd) : State :=
  s.respond i.nb (recordOf s.ticket i.opcode.code e)

/-- One more bus primitive, settle or wait of the CP's sequence is done (R37 `pc_seq`). -/
def State.advancePc (s : State) : State :=
  match s.cp with
  | .busy t w n => { s with cp := .busy t w (n + 1) }
  | .idle => s

/-- The CP delivers a record it holds, once `cmplq` has room (R258). -/
def State.deliverCp (s : State) : State :=
  match s.cpHeld with
  | none => s
  | some r => if s.cmplRoom then { s with cmplq := s.cmplq ++ [r], cpHeld := none, cp := .idle } else s

/-! ### Ending a run (R215) -/

/-- The run state after `EndRun` (R215). -/
def Run.ended (r : Run) : Run := { r with running := false, stopReq := false }

/-- The report of a run that ends now (R215); its duration is a draw, any 32-bit value (I4). -/
def State.report (s : State) (i : StepperId) (stopped : Bool) : RunReport × State :=
  let d := s.drawDuration
  let st := s.stepper i
  ({ steps := st.run.done, dir := st.run.runDir, durationMs := d.1, retried := st.motion.retried, stopped := stopped }, d.2)

/-- `EndRun(s, status[, info][, stopped])` of a non-blocking run: its record goes to `cmplq` with the run's own ticket. While
`cmplq` is full the run engine holds the record, and `running` stays true until it is appended (R215, R258). -/
def State.endRun (s : State) (i : StepperId) (e : Option BusError) (stopped : Bool) : State :=
  let d := s.report i stopped
  let r := recordOf (s.stepper i).run.runTicket Opcode.stpStep.code (.run d.1 e)
  let s := d.2
  if s.cmplRoom then
    ({ s with cmplq := s.cmplq ++ [r] } : State).modStp i (fun st => { st with run := st.run.ended })
  else s.modStp i (fun st => { st with run := { st.run with stopReq := false }, held := some r })

/-- A run engine delivers the record it holds, once `cmplq` has room; only now is the run over (R258). -/
def State.deliverRun (s : State) (i : StepperId) : State :=
  match (s.stepper i).held with
  | none => s
  | some r =>
    if s.cmplRoom then
      ({ s with cmplq := s.cmplq ++ [r] } : State).modStp i (fun st => { st with run := st.run.ended, held := none })
    else s

/-! ### The bus master (R67, R68, R69) -/

/-- A requester's request joins `bus.reqq` (R68). -/
def State.request (s : State) (who : Requester) (t : Txn) : State :=
  { s with bus := { s.bus with reqq := s.bus.reqq ++ [{ who := who, txn := t }] } }

/-- The byte the trace records: what a read returned. -/
def replyByte (t : Txn) (a : Answer) : Byte :=
  match t with
  | .read _ _ => a.byte
  | .busOpen _ => 0#8
  | .write _ _ _ => 0#8
  | .send _ _ => 0#8

/-- The transport reports the completion of the transaction in flight (R67): the bus is free again, and the trace has one
more transaction. -/
def State.completeTxn (s : State) (who : Requester) (t : Txn) (a : Answer) : State :=
  let s := s.pass a.micros
  { s with bus := { s.bus with inflight := none, lastDone := s.now },
           trace := .txn who t a.ok (replyByte t a) :: s.trace }

/-! ### Submission and the host (R120, R258, R290) -/

/-- `rst`: every element of the block takes its reset value; a command in `cmdq` or in the CP is discarded without a response,
and a transaction in flight is abandoned (R290, I13). What the outside has already seen, the clock and the environment's choices are not state of
the block. -/
def State.hardReset (s : State) : State :=
  { State.reset with now := s.now, trace := s.trace, sync := s.sync, popped := s.popped, host := s.host, env := s.env }

/-- The record returned at once on the synchronous path for a submitted word (R120): a rejection, or the acknowledgement of
an accepted non-blocking command. Its result fields are 0 (R103; log entry 30 for the acknowledgement of `STP_STEP`). -/
def submitRecord (t : Ticket) (w : CmdWord) (status : Status) (reason : BitVec 8) : Response :=
  { ticket := t, op := wordOp w, status := status, reason := reason, busKind := 0#3, busReg := 0#8, result := zeroResult (wordOp w) }

/-- The ticket is used, whatever becomes of the word (R37, R120). -/
def State.useTicket (s : State) : State := { s with nextTicket := s.nextTicket + 1#16 }

/-- The host presents the word `w` on the command port (R120); `s` when the submission stalls. -/
def State.submit (s : State) (w : CmdWord) : Option State :=
  if s.hostWait.isSome then none
  else match decode w with
  | .error why =>
    some { s.useTicket with sync := submitRecord s.nextTicket w .validation (reasonCode why) :: s.sync }
  | .ok i =>
    if Config.cmdqDepth ≤ s.cmdq.length then none
    else
      let q : State := { s.useTicket with cmdq := s.cmdq ++ [{ ticket := s.nextTicket, word := w }] }
      if i.nb then some { q with sync := submitRecord s.nextTicket w .accepted 0#8 :: q.sync }
      else some { q with hostWait := some s.nextTicket }

/-- The host pops the head of `cmplq`; none while it is empty (R258). DESIGN CHOICE: also while it waits for a blocking command
(log entry 34). -/
def State.popRecord (s : State) : Option State :=
  match s.cmplq with
  | [] => none
  | r :: rest => some { s with cmplq := rest, popped := r :: s.popped }

/-- The host's next action, if it has one that is not stalled. DESIGN CHOICE: `hostWait` stalls the submission of words (R120) and
nothing else, so a host that waits for a blocking command can pop `cmplq` (log entry 34). -/
def State.hostTurn (s : State) : State :=
  match s.host with
  | [] => s
  | .submit w :: rest => match s.submit w with
    | none => s
    | some s' => { s' with host := rest }
  | .pop :: rest => match s.popRecord with
    | none => s
    | some s' => { s' with host := rest }
  | .rst :: rest => { s.hardReset with host := rest }

/-- The CP can remove the head of `cmdq`: it is `IDLE`, and `cmplq` is not full (R121, R258). -/
def State.canTake (s : State) : Bool := s.cp == .idle && s.cpHeld.isNone && s.cmplRoom

/-- The CP holds the command `q`, and `rest` stays in `cmdq` (R121). -/
def State.take (s : State) (q : Queued) (rest : List Queued) : State :=
  { s with cmdq := rest, cp := .busy q.ticket q.word 0 }

/-- A queued word that the decoder rejects ends like a rejected submission; R120 lets only accepted words into `cmdq`, so no
run reaches this (log entry 9). -/
def State.rejectQueued (s : State) (q : Queued) (why : Reason) : State :=
  { s with sync := submitRecord q.ticket q.word .validation (reasonCode why) :: s.sync, cp := .idle }

/-- The word `w` as the one command in `cmdq`, as if just accepted, with the CP free to take it, room in `cmplq`, and the
CP's turn next. -/
def State.placeCommand (s : State) (w : CmdWord) : State :=
  { s with cmdq := [{ ticket := s.nextTicket, word := w }], cp := .idle, cpHeld := none,
           cmplq := if s.cmplRoom then s.cmplq else [], env := { s.env with turns := .cp :: s.env.turns } }

end Sys2Proof.Machine
end

