-- ==== Sys2Proof/Machine/Engine.lean ====
section
/-! DEFINITION. The agents that run beside the command processor (`00_scope.md` R16): the run engines with their lazy vector
writes (`42_stepper_motion.md` R207 to R209, R213, R214), the pacing timers (R213), the bus master serving the run
engines (`20_memory.md` R67 to R69), and the host. Each arm of `State.background` is one atomic step. DESIGN CHOICE, since R16
gives no step size: a run engine's reaction to a tick, or to the completion of its transaction, is part of the step that brings
it (log entry 31). -/

namespace Sys2Proof.Machine

open Sys2Proof

/-- The first pin of a vector that is changed, and the pins after it: unchanged pins are skipped entirely (R207). -/
def firstChanged (cache : RoleMap (Option Tick)) : List PinTask → Option (PinTask × List PinTask)
  | [] => none
  | t :: rest => if unchanged cache t then firstChanged cache rest else some (t, rest)

/-- A pin write is confirmed: all four byte writes have completed, so the image and the cache entry take the written values
(R64, R209). -/
def State.pinWritten (s : State) (i : StepperId) (t : PinTask) : State :=
  ({ s with img := s.img.setChannel t.chan t.on t.off } : State).modStp i
    (fun st => { st with cache := st.cache.set t.role (some t.value) })

/-- `OnVectorDone(s, outcome)`, with `pulsing` cleared first (R208, R214). -/
def State.vectorDone (s : State) (i : StepperId) (e : Option BusError) : State :=
  let s := s.modStp i (fun st => { st with motion := { st.motion with pulsing := false }, job := none })
  match e with
  | some info => s.endRun i (some info) false
  | none =>
    let s := s.modStp i (fun st => { st with run := { st.run with done := st.run.done + 1#32 } })
    let r := (s.stepper i).run
    if r.done = r.runCount then s.endRun i none false
    else if r.stopReq then s.endRun i none true
    else s

/-- The run engine goes on with the remaining pins of its vector write; a vector with no changed pin left ends (R208). -/
def State.nextPin (s : State) (i : StepperId) (tasks : List PinTask) : State :=
  match firstChanged (s.stepper i).cache tasks with
  | none => s.vectorDone i none
  | some (t, rest) =>
    s.modStp i (fun st => { st with
      job := some { task := t, left := pinWrites t.chan t.on t.off, rest := rest, outstanding := false } })

/-- The run engine requests its next byte write; it has at most one request outstanding (R68). -/
def State.engineIssue (s : State) (i : StepperId) : State :=
  match (s.stepper i).job with
  | none => s
  | some j =>
    match j.left with
    | [] => s
    | w :: _ =>
      if j.outstanding then s
      else
        (s.modStp i (fun st => { st with job := some { j with outstanding := true } })).request (.engine i)
          (.write Config.devAddr w.1 w.2)

/-- The run engine's transaction has completed: a failure ends the vector write (R208, R216); the last byte write of a pin
confirms it (R209); the next byte write may then be requested. -/
def State.engineReply (s : State) (i : StepperId) (t : Txn) (ok : Bool) : State :=
  match (s.stepper i).job with
  | none => s
  | some j =>
    if !ok then s.vectorDone i (some (busErrorOf t))
    else
      match j.left.tail with
      | [] => (s.pinWritten i j.task).nextPin i j.rest
      | w :: more => s.modStp i (fun st => { st with job := some { j with left := w :: more, outstanding := false } })

/-- The run starts one more step: the phase advances, and the vector write of the new phase begins (R213). -/
def State.startPulse (s : State) (i : StepperId) (r : Ready) : State :=
  let s := s.modStp i (fun st => { st with
    run := { st.run with issued := st.run.issued + 1#32 },
    motion := { st.motion with phase := advance st.motion.phase st.run.runDir r.style r.ms, pulsing := true } })
  s.nextPin i (stepTasks r (s.stepper i).motion.phase)

/-- `OnTick(s)` (R213): tick `k` is delivered no earlier than `t0 + k*T(s)`. A run whose end is only waiting for room in
`cmplq` has no more ticks (R214, R258). DESIGN CHOICE: the timer's delivery and the run engine's reaction are one step (R16, log
entry 31). DESIGN CHOICE: `k` wraps mod 2^32, as R262 and R270 say and R267 denies, and the due time is that of the wrapped `k`
(log entry 32). -/
def State.onTick (s : State) (i : StepperId) : State :=
  let st := s.stepper i
  if !st.inBackground || st.held.isSome then s
  else
    let s := s.passUntil (st.run.t0 + (st.run.k.toNat : ℚ) * runPeriod st.cfg)
    let s := s.modStp i (fun st => { st with run := { st.run with k := st.run.k + 1#32 } })
    if st.run.stopReq then s
    else if st.run.issued = st.run.runCount then s
    else if st.motion.pulsing then
      s.modStp i (fun st => { st with motion := { st.motion with retried := satInc st.motion.retried } })
    else
      match st.cfg.ready with
      | none => s
      | some r => s.startPulse i r

/-- The bus master and the transport, one step for the run engines (R67, R68): the transaction in flight completes, or,
unless the CP holds the bus (R69), the head of `bus.reqq` is granted. A request or transaction of the CP is moved by the CP's
own sequence. DESIGN CHOICE, since R16 gives no step size: the completion and the run engine's reaction to it (image, cache,
`pulsing`, `done`, `EndRun` and its record) are one step (log entry 31). -/
def State.busStep (s : State) : State :=
  match s.bus.inflight with
  | some q =>
    match q.who with
    | .cp => s
    | .engine i =>
      let d := s.drawAnswer
      (d.2.completeTxn (.engine i) q.txn d.1).engineReply i q.txn d.1.ok
  | none =>
    if s.bus.lock then s
    else
      match s.bus.reqq with
      | [] => s
      | q :: rest =>
        match q.who with
        | .cp => s
        | .engine _ => { s with bus := { s.bus with reqq := rest, inflight := some q } }

/-- One step of an agent beside the CP; nothing happens when the agent has nothing to do. -/
def State.background (s : State) : Background → State
  | .tick i => s.onTick i
  | .engine i => if (s.stepper i).held.isSome then s.deliverRun i else s.engineIssue i
  | .bus => s.busStep
  | .host => s.hostTurn

/-- The steps of a burst, in order. -/
def State.burst (s : State) (l : List Background) : State := l.foldl State.background s

/-- Some agent beside the CP may have something to do: a non-blocking run is active, or the host has an action ready. -/
def State.othersActive (s : State) : Bool := s.anyBackground || !s.host.isEmpty

/-- What other agents do before the CP's next move: a finite burst, chosen by the environment (R16, R68). While no non-blocking
run is active and the host has no action ready there is nothing for them to do. -/
def State.interfere (s : State) : State :=
  if s.othersActive then s.drawBurst.2.burst s.drawBurst.1 else s

end Sys2Proof.Machine
end

