-- ==== Sys2Proof/Machine/Sequence.lean ====
section
/-! DEFINITION. The command processor's side of a command's bus sequence: one transaction through the bus master with the
other agents' steps around it (`20_memory.md` R67, R68), exclusive sequences (R69), the pin write and all-channel write
primitives (R64), settles and waits (`00_scope.md` R13), and the CP's own vector writes (`42_stepper_motion.md` R208). At
every such point `rst` may take the command from the CP (`70_reset_and_hazards.md` R290). -/

namespace Sys2Proof.Machine

open Sys2Proof

/-- What cuts a sequence off: a bus error (R14), or `rst`, which takes the command from the CP (R290). -/
inductive Cut where
  | bus (e : BusError)
  | rst
  deriving DecidableEq, Repr, Inhabited

/-- A part of a sequence: the state it leaves, and what cut it off, if something did (R14, R290). -/
abbrev SeqEnd := State × Option Cut

/-- The rest of a sequence, unless it has been cut off (R14, R290). -/
def thenSeq (r : SeqEnd) (f : State → SeqEnd) : SeqEnd :=
  match r.2 with
  | none => f r.1
  | some _ => r

/-- The other agents' steps before the CP's next move (R16, R68). The CP goes on with its command unless `rst` has taken it
(R290): only `rst` makes a CP that holds a command `IDLE`. -/
def State.yield (s : State) : SeqEnd :=
  let t := s.interfere
  (t, if t.cp = .idle then some .rst else none)

/-- The bus master serves what is ahead of the CP's request, with other agents' steps in between; `n` is a bound on the
steps it needs (R68). -/
def State.drainAhead : Nat → State → SeqEnd
  | 0, s => (s, none)
  | n + 1, s => thenSeq s.busStep.yield (State.drainAhead n)

/-- Enough bus steps to complete the transaction in flight and to grant and complete every request in `bus.reqq`. -/
def State.drainBound (s : State) : Nat := 2 * s.bus.reqq.length + 1

/-- The CP's request is granted: it leaves `bus.reqq` and is in flight (R68). -/
def State.grantCp (s : State) (t : Txn) : State :=
  { s with bus := { s.bus with reqq := s.bus.reqq.eraseP (fun q => q.who == .cp),
                               inflight := some { who := .cp, txn := t } } }

/-- The CP's request joins the queue, those ahead of it are served, and it is granted, with other agents' steps at every
point (R67, R68). -/
def State.await (s : State) (t : Txn) : SeqEnd :=
  thenSeq s.yield (fun s =>
  thenSeq (s.request .cp t).yield (fun s =>
  thenSeq (State.drainAhead s.drainBound s) (fun s => (s.grantCp t).yield)))

/-- The transport answers the CP's transaction in flight (R67). -/
def State.completeCp (s : State) (t : Txn) : Answer × State :=
  let d := s.drawAnswer
  (d.1, (d.2.completeTxn .cp t d.1).advancePc)

/-- One transaction of the CP, from its request to its completion, and the rest of the sequence with its answer (R67, R68). -/
def State.transact (s : State) (t : Txn) (f : Answer → State → SeqEnd) : SeqEnd :=
  thenSeq (s.await t) (fun s =>
    let d := s.completeCp t
    f d.1 d.2)

/-- A transaction whose byte is of no interest. -/
def State.transactSeq (s : State) (t : Txn) : SeqEnd :=
  s.transact t (fun a s => (s, if a.ok then none else some (.bus (busErrorOf t))))

/-- `MemWrite(reg, 1, v)` (R13). -/
def State.memWrite (s : State) (reg v : Byte) : SeqEnd := s.transactSeq (.write Config.devAddr reg v)

/-- `MemRead(reg, 1)`, and the rest of the sequence with the byte read (R13). -/
def State.memRead (s : State) (reg : Byte) (f : Byte → State → SeqEnd) : SeqEnd :=
  s.transact (.read Config.devAddr reg) (fun a s =>
    if a.ok then f a.byte s else (s, some (.bus (busErrorOf (.read Config.devAddr reg)))))

/-- `BusOpen(BUS_ID)` (R13). -/
def State.openBus (s : State) : SeqEnd := s.transactSeq (.busOpen Config.busId)

/-- `BusSend(addr, b)` (R13). -/
def State.busSend (s : State) (addr b : Byte) : SeqEnd := s.transactSeq (.send addr b)

/-- `Settle(ms)` (R13): nothing more of the sequence happens before `ms` milliseconds after the last completion. -/
def State.settle (s : State) (ms : Nat) : SeqEnd :=
  let s := s.passUntil (s.bus.lastDone + (ms : ℚ))
  ({ s with trace := .settle ms :: s.trace } : State).advancePc.yield

/-- `wait T` of a blocking run (R212). -/
def State.waitPeriod (s : State) (t : ℚ) : SeqEnd := (s.passUntil (s.now + t)).advancePc.yield

/-- Byte writes in program order; the first failure ends them (R64). -/
def writeAll : List (Byte × Byte) → State → SeqEnd
  | [], s => (s, none)
  | w :: rest, s => thenSeq (s.memWrite w.1 w.2) (writeAll rest)

/-- `PinWrite(c, on, off)` (R64); `img` takes the ticks only after all four byte writes. -/
def pinWrite (c : Chan) (on off : Tick) (s : State) : SeqEnd :=
  thenSeq (writeAll (pinWrites c on off) s) (fun s => ({ s with img := s.img.setChannel c on off }, none))

/-- `AllWrite(on, off)` (R64). -/
def allWrite (on off : Tick) (s : State) : SeqEnd :=
  thenSeq (writeAll (allWrites on off) s) (fun s => ({ s with img := s.img.setAllChannels on off }, none))

/-- The transaction in flight, if there is one, completes. -/
def State.completeInflight (s : State) : State := if s.bus.inflight.isSome then s.busStep else s

/-- The CP sets or releases the bus lock. -/
def State.setLock (s : State) (v : Bool) : State := { s with bus := { s.bus with lock := v } }

/-- The CP takes the bus lock once nothing is in flight (R69). -/
def State.acquire (s : State) : SeqEnd := thenSeq s.yield (fun s => (s.completeInflight.setLock true, none))

/-- An exclusive sequence: the lock is held from before its first transaction to its end, by completion or by error
(R69, R256); `rst` has released it too. -/
def exclusive (f : State → SeqEnd) (s : State) : SeqEnd :=
  thenSeq s.acquire (fun s =>
    let r := f s
    (r.1.setLock false, r.2))

/-- The CP's lazy write of one pin of stepper `i` (R207, R209). -/
def lazyPin (i : StepperId) (t : PinTask) (s : State) : SeqEnd :=
  if unchanged (s.stepper i).cache t then (s, none)
  else thenSeq (writeAll (pinWrites t.chan t.on t.off) s) (fun s => (s.pinWritten i t, none))

/-- The pins of a vector write in order; the first failure ends it (R208). -/
def lazyPins (i : StepperId) : List PinTask → State → SeqEnd
  | [], s => (s, none)
  | t :: rest, s => thenSeq (lazyPin i t s) (lazyPins i rest)

/-- `stp[i].pulsing <- v`. -/
def State.setPulsing (s : State) (i : StepperId) (v : Bool) : State :=
  s.modStp i (fun st => { st with motion := { st.motion with pulsing := v } })

/-- `VectorWrite(s, V)` with the CP as requester (R208). -/
def vectorWrite (i : StepperId) (tasks : List PinTask) (s : State) : SeqEnd :=
  let r := lazyPins i tasks (s.setPulsing i true)
  (r.1.setPulsing i false, r.2)

/-- `stp[i].phase <- Advance(...)` (R201). -/
def State.advancePhase (s : State) (i : StepperId) (d : Dir) (r : Ready) : State :=
  s.modStp i (fun st => { st with motion := { st.motion with phase := advance st.motion.phase d r.style r.ms } })

/-- Advance the phase, then write the vector of the new phase (R201, D29). -/
def stepOnce (i : StepperId) (d : Dir) (r : Ready) (s : State) : SeqEnd :=
  let s := s.advancePhase i d r
  vectorWrite i (stepTasks r (s.stepper i).motion.phase) s

/-- The frequency sequence of `DRV_SETFREQ` and `STP_SETFREQ` with prescale `p` (R125). -/
def freqSequence (p : Byte) (s : State) : SeqEnd :=
  s.memRead Config.regMode1 (fun old s =>
    thenSeq (s.memWrite Config.regMode1 ((old &&& ~~~Config.bitRestart) ||| Config.bitSleep)) (fun s =>
    thenSeq (s.memWrite Config.regPrescale p) (fun s =>
    thenSeq (({ s with img := { s.img with prescale := some p } } : State).memWrite Config.regMode1 old) (fun s =>
    thenSeq (s.settle Config.settleMs) (fun s => s.memWrite Config.regMode1 (old ||| Config.wakeMask))))))

/-- How a command with a sequence ends: complete with `r`, or with the bus error (R14); a command that `rst` has taken ends
without a response (R290, I13). -/
def State.finish (s : State) (i : Instr) (r : Result) : Option Cut → State
  | none => s.endCommand i (.complete r)
  | some (.bus e) => s.endCommand i (.bus e)
  | some .rst => s

/-- A command without result whose checks gave `check`: the error, or its sequence (R121). -/
def runSequence (i : Instr) (check : Option Reason) (f : State → SeqEnd) (s : State) : State :=
  match check with
  | some why => s.endCommand i (.validation why)
  | none =>
    let r := f (s.start i)
    r.1.finish i .none r.2

/-- A command that only reads or writes the block's own state, without bus I/O: the error, or the change and `complete`. -/
def runLocal (i : Instr) (check : Option Reason) (result : Result) (f : State → State) (s : State) : State :=
  match check with
  | some why => s.endCommand i (.validation why)
  | none => (f s).endCommand i (.complete result)

end Sys2Proof.Machine
end

