-- ==== Sys2Proof/Machine/Driver.lean ====
section
/-! DEFINITION. The seven PWM Register Driver commands (`40_driver.md` R123 to R129). -/

namespace Sys2Proof.Machine

open Sys2Proof

/-- The sequence of `DRV_INIT` (R123). -/
def initSequence (s : State) : SeqEnd :=
  thenSeq s.openBus (fun s =>
  thenSeq (allWrite 0#13 0#13 { s with img := { s.img with busOpen := true } }) (fun s =>
  thenSeq (s.memWrite Config.regMode2 Config.bitOutdrv) (fun s =>
  thenSeq (s.memWrite Config.regMode1 Config.bitAi) (fun s =>
  thenSeq (s.settle Config.settleMs) (fun s => s.memRead Config.regMode1 (fun m s =>
  thenSeq (s.memWrite Config.regMode1 (m &&& ~~~Config.bitSleep)) (fun s =>
  thenSeq (s.settle Config.settleMs) (fun s =>
  ({ s with img := { s.img with initialised := true } }, none)))))))))

/-- `DRV_INIT` (R123): the initialised flag falls at the start and rises only when the whole sequence has completed. -/
def execDrvInit (nb : Bool) (s : State) : Host.Outcome State Fault Refusal :=
  .next (runSequence (.drvInit nb) (initCheck s)
    (fun s => exclusive initSequence { s with img := { s.img with initialised := false } }) s)

/-- The sequence of `DRV_RESET` (R124): once the broadcast is out, the block knows nothing of the chip. -/
def resetSequence (s : State) : SeqEnd :=
  thenSeq (s.busSend Config.resetAddr Config.swrstByte) (fun s =>
  (({ s with img := s.img.forget } : State).mapStp (fun st => { st with cache := emptyCache }), none))

/-- `DRV_RESET` (R124). -/
def execDrvReset (nb : Bool) (s : State) : Host.Outcome State Fault Refusal :=
  .next (runSequence (.drvReset nb) (resetCheck s) (exclusive resetSequence) s)

/-- `DRV_SETFREQ` (R125), with the prescale of R131. -/
def execDrvSetfreq (nb : Bool) (rate : W32) (s : State) : Host.Outcome State Fault Refusal :=
  .next (runSequence (.drvSetfreq nb rate) (driverCheck s)
    (exclusive (freqSequence (BitVec.ofNat 8 (computePrescale rate)))) s)

/-- `DRV_GETFREQ` (R126): the cached prescale as a frequency; no bus I/O. -/
def execDrvGetfreq (nb : Bool) (s : State) : Host.Outcome State Fault Refusal :=
  .next (match s.img.prescale with
    | none => s.endCommand (.drvGetfreq nb) (.validation .freqUnset)
    | some p => s.endCommand (.drvGetfreq nb) (.complete (.freq p (fraction (computeFreq p)))))

/-- `DRV_SETCHAN` (R127): always written, never compared with the image or a cache. -/
def execDrvSetchan (nb : Bool) (c : Chan) (on off : Tick) (s : State) : Host.Outcome State Fault Refusal :=
  .next (runSequence (.drvSetchan nb c on off) (driverCheck s) (pinWrite c on off) s)

/-- `DRV_SETPIN` (R128): fully on is `(4096, 0)`, fully off is `(0, 4096)`. -/
def execDrvSetpin (nb : Bool) (c : Chan) (level : Bool) (s : State) : Host.Outcome State Fault Refusal :=
  .next (runSequence (.drvSetpin nb c level) (driverCheck s) (pinWrite c (levelTicks level).1 (levelTicks level).2) s)

/-- `DRV_SETALL` (R129). -/
def execDrvSetall (nb : Bool) (on off : Tick) (s : State) : Host.Outcome State Fault Refusal :=
  .next (runSequence (.drvSetall nb on off) (driverCheck s) (allWrite on off) s)

end Sys2Proof.Machine
end

