-- ==== Sys2Proof/Machine/Motion.lean ====
section
/-! DEFINITION. The motion commands (`42_stepper_motion.md` R210 to R212, R217 to R220). -/

namespace Sys2Proof.Machine

open Sys2Proof

/-- `STP_ONESTEP` (R210): after a bus error the phase stays advanced. -/
def execStpOnestep (nb : Bool) (k : StepperId) (dir : Dir) (s : State) : Host.Outcome State Fault Refusal :=
  .next (match motionCheck s k with
    | .error why => s.endCommand (.stpOnestep nb k dir) (.validation why)
    | .ok r =>
      let d := stepOnce k dir r (s.start (.stpOnestep nb k dir))
      d.1.finish (.stpOnestep nb k dir) (.phase (d.1.stepper k).motion.phase) d.2)

/-- A run starts (R211): every run field is set, and `retried` is cleared. -/
def State.startRun (s : State) (k : StepperId) (nb : Bool) (dir : Dir) (count : W32) : State :=
  s.modStp k (fun st => { st with
    run := { running := true, runNB := nb, runDir := dir, runCount := count, issued := 0#32, done := 0#32, k := 0#32,
             stopReq := false, runTicket := s.ticket, t0 := s.now },
    motion := { st.motion with retried := 0#32 } })

/-- The loop of `BlockingRun(s)` with `n` steps to go (R212): every vector write completes before the next begins, with a
wait of `T(s)` between two of them. -/
def blockingSteps (k : StepperId) (r : Ready) : Nat → State → SeqEnd
  | 0, s => (s, none)
  | n + 1, s =>
    let s := s.modStp k (fun st => { st with run := { st.run with issued := st.run.issued + 1#32 } })
    thenSeq (stepOnce k (s.stepper k).run.runDir r s) (fun s =>
      let s := s.modStp k (fun st => { st with run := { st.run with done := st.run.done + 1#32 } })
      thenSeq (if n = 0 then (s, none) else s.waitPeriod (runPeriod (s.stepper k).cfg)) (blockingSteps k r n))

/-- `EndRun` of a blocking run (R215): the report is the command's response. -/
def State.reportRun (s : State) (i : Instr) (k : StepperId) (e : Option BusError) : State :=
  let d := s.report k false
  (d.2.modStp k (fun st => { st with run := st.run.ended })).endCommand i (.run d.1 e)

/-- How a blocking run ends: complete, by a bus error (R216), or without a response, taken by `rst` (R290). -/
def State.endBlockingRun (s : State) (i : Instr) (k : StepperId) : Option Cut → State
  | none => s.reportRun i k none
  | some (.bus e) => s.reportRun i k (some e)
  | some .rst => s

/-- A non-blocking run is under way, and the CP is free for the next command (R211). -/
def State.leaveToEngine (s : State) : State := { s with cp := .idle }

/-- `STP_STEP` (R211): a run of `count` steps, by the CP itself when blocking (R212), by the run engine and its pacing timer
when not (R213). A run of no steps ends at once. -/
def execStpStep (nb : Bool) (k : StepperId) (dir : Dir) (count : W32) (s : State) : Host.Outcome State Fault Refusal :=
  .next (match stepCheck s k with
    | .error why => s.endCommand (.stpStep nb k dir count) (.validation why)
    | .ok r =>
      let s := (s.start (.stpStep nb k dir count)).startRun k nb dir count
      if nb then
        if count = 0#32 then (s.endRun k none false).leaveToEngine else s.leaveToEngine
      else
        let d := blockingSteps k r count.toNat s
        d.1.endBlockingRun (.stpStep nb k dir count) k d.2)

/-- `STP_RELEASE` (R218): the all-off vector through the lazy layer; the phase is unchanged. -/
def execStpRelease (nb : Bool) (k : StepperId) (s : State) : Host.Outcome State Fault Refusal :=
  .next (match motionCheck s k with
    | .error why => s.endCommand (.stpRelease nb k) (.validation why)
    | .ok r =>
      let d := vectorWrite k (vectorTasks r releaseVector) (s.start (.stpRelease nb k))
      d.1.finish (.stpRelease nb k) .none d.2)

/-- The effect of `STP_STOP` on the run (R217). A run that has already ended and only waits for room in `cmplq` keeps the
report it has (R103: one response per command; log entry 7). -/
def State.stopRun (s : State) (k : StepperId) : State :=
  if (s.stepper k).run.running then
    let s := s.modStp k (fun st => { st with run := { st.run with stopReq := true } })
    if (s.stepper k).motion.pulsing || (s.stepper k).held.isSome then s else s.endRun k none true
  else s

/-- `STP_STOP` (R217): never `BUSY`; a no-op when no run is active. -/
def execStpStop (nb : Bool) (k : StepperId) (s : State) : Host.Outcome State Fault Refusal :=
  .next (runLocal (.stpStop nb k) none .none (fun s => s.stopRun k) s)

/-- `STP_STATUS` (R219): a snapshot of one stepper. -/
def execStpStatus (nb : Bool) (k : StepperId) (s : State) : Host.Outcome State Fault Refusal :=
  .next (s.endCommand (.stpStatus nb k) (.complete (.status (statusReport s.img (s.stepper k)))))

/-- `STP_GETRATES` (R220). -/
def execStpGetrates (nb : Bool) (k : StepperId) (s : State) : Host.Outcome State Fault Refusal :=
  .next (s.endCommand (.stpGetrates nb k) (.complete (.rates (ratesReport (s.stepper k).cfg))))

end Sys2Proof.Machine
end

