-- ==== Sys2Proof/Machine/Setup.lean ====
section
/-! DEFINITION. The stepper configuration commands (`41_stepper_config.md` R161 to R168). -/

namespace Sys2Proof.Machine

open Sys2Proof

/-- The configuration of stepper `k` changed by `f`, with the derived rates recomputed (R172). -/
def State.configure (s : State) (k : StepperId) (f : StepperConfig → StepperConfig) : State :=
  s.modStp k (fun st => { st with cfg := (f st.cfg).withRates })

/-- `STP_PINS` (R161): construction of the stepper. -/
def execStpPins (nb : Bool) (k : StepperId) (pins : Pins) (s : State) : Host.Outcome State Fault Refusal :=
  .next (runLocal (.stpPins nb k pins) (pinsCheck s k pins) .none
    (fun s => s.modStp k (fun st => { st with
      cfg := { st.cfg with pin := some pins, initialised := false },
      motion := { st.motion with phase := 0#6, retried := 0#32 }, cache := emptyCache })) s)

/-- `STP_SETSTEPS` (R162). -/
def execStpSetsteps (nb : Bool) (k : StepperId) (spr : BitVec 16) (s : State) : Host.Outcome State Fault Refusal :=
  .next (runLocal (.stpSetsteps nb k spr) (configCheck s k) .none
    (fun s => s.configure k (fun c => { c with spr := some spr })) s)

/-- `STP_SETMICRO` (R163): the phase is reduced modulo `4*ms`, not rescaled. -/
def execStpSetmicro (nb : Bool) (k : StepperId) (ms : Micro) (s : State) : Host.Outcome State Fault Refusal :=
  .next (runLocal (.stpSetmicro nb k ms) (configCheck s k) .none
    (fun s => (s.configure k (fun c => { c with ms := some ms })).modStp k (fun st => { st with
      motion := { st.motion with phase := BitVec.ofNat 6 (st.motion.phase.toNat % (4 * ms.count)) } })) s)

/-- `STP_SETSTYLE` (R164): the phase is not realigned. -/
def execStpSetstyle (nb : Bool) (k : StepperId) (style : Style) (s : State) : Host.Outcome State Fault Refusal :=
  .next (runLocal (.stpSetstyle nb k style) (configCheck s k) .none
    (fun s => s.configure k (fun c => { c with style := some style })) s)

/-- `STP_SETCURRENT` (R165): neither the bus nor the cache is touched. -/
def execStpSetcurrent (nb : Bool) (k : StepperId) (current : BitVec 16) (s : State) : Host.Outcome State Fault Refusal :=
  .next (runLocal (.stpSetcurrent nb k current) (configCheck s k) .none
    (fun s => s.modStp k (fun st => { st with cfg := { st.cfg with current := some current } })) s)

/-- `STP_SETSPEED` (R166): the new target replaces the old one entirely. -/
def execStpSetspeed (nb : Bool) (k : StepperId) (unit : SpeedUnit) (value : W32) (s : State) :
    Host.Outcome State Fault Refusal :=
  .next (runLocal (.stpSetspeed nb k unit value) (configCheck s k) .none
    (fun s => s.configure k (fun c => { c with speedUnit := some unit, speedValue := some value })) s)

/-- `STP_SETFREQ` (R167): the sequence of `DRV_SETFREQ`; the chip has one prescale, and the command is never `BUSY`. -/
def execStpSetfreq (nb : Bool) (k : StepperId) (rate : W32) (s : State) : Host.Outcome State Fault Refusal :=
  .next (runSequence (.stpSetfreq nb k rate) (driverCheck s)
    (exclusive (freqSequence (BitVec.ofNat 8 (computePrescale rate)))) s)

/-- `STP_INIT` (R168): no bus I/O, and neither the phase nor the cache changes. -/
def execStpInit (nb : Bool) (k : StepperId) (s : State) : Host.Outcome State Fault Refusal :=
  .next (runLocal (.stpInit nb k) (stpInitCheck s k) .none
    (fun s => s.configure k (fun c => { c with initialised := true })) s)

end Sys2Proof.Machine
end

