-- ==== Sys2Proof/Machine/Dispatch.lean ====
section
/-! DEFINITION. The meaning of each command of the opcode map (`30_encoding.md` R98), one arm per constructor. -/

namespace Sys2Proof.Machine

open Sys2Proof

def exec (i : Instr) (s : State) : Host.Outcome State Fault Refusal :=
  match i with
  | .drvInit nb => Sys2Proof.Machine.execDrvInit nb s
  | .drvReset nb => Sys2Proof.Machine.execDrvReset nb s
  | .drvSetfreq nb rate => Sys2Proof.Machine.execDrvSetfreq nb rate s
  | .drvGetfreq nb => Sys2Proof.Machine.execDrvGetfreq nb s
  | .drvSetchan nb c on off => Sys2Proof.Machine.execDrvSetchan nb c on off s
  | .drvSetpin nb c level => Sys2Proof.Machine.execDrvSetpin nb c level s
  | .drvSetall nb on off => Sys2Proof.Machine.execDrvSetall nb on off s
  | .stpPins nb k pins => Sys2Proof.Machine.execStpPins nb k pins s
  | .stpSetsteps nb k spr => Sys2Proof.Machine.execStpSetsteps nb k spr s
  | .stpSetmicro nb k ms => Sys2Proof.Machine.execStpSetmicro nb k ms s
  | .stpSetstyle nb k style => Sys2Proof.Machine.execStpSetstyle nb k style s
  | .stpSetcurrent nb k current => Sys2Proof.Machine.execStpSetcurrent nb k current s
  | .stpSetspeed nb k unit value => Sys2Proof.Machine.execStpSetspeed nb k unit value s
  | .stpSetfreq nb k rate => Sys2Proof.Machine.execStpSetfreq nb k rate s
  | .stpInit nb k => Sys2Proof.Machine.execStpInit nb k s
  | .stpOnestep nb k dir => Sys2Proof.Machine.execStpOnestep nb k dir s
  | .stpStep nb k dir count => Sys2Proof.Machine.execStpStep nb k dir count s
  | .stpRelease nb k => Sys2Proof.Machine.execStpRelease nb k s
  | .stpStop nb k => Sys2Proof.Machine.execStpStop nb k s
  | .stpStatus nb k => Sys2Proof.Machine.execStpStatus nb k s
  | .stpGetrates nb k => Sys2Proof.Machine.execStpGetrates nb k s

end Sys2Proof.Machine
end

