-- ==== Sys2Proof/Machine/Step.lean ====
section
/-! DEFINITION. One step of the machine: the scheduler lets one agent move (`00_scope.md` R16). The block has no program
counter and fetches nothing (R73, R267, R291): its next command is the head of `cmdq`, which the host fills (R120), and the
command processor takes it when it is `IDLE` (R121). -/

namespace Sys2Proof.Machine

open Sys2Proof

/-- The command processor's step: deliver a held record, or take the head of `cmdq`, decode it and execute it. -/
def cpTurn (s : State) : Host.Outcome State Fault Refusal :=
  if s.canTake then
    match s.cmdq with
    | [] => .next s
    | q :: rest =>
      match decode q.word with
      | .ok i => exec i (s.take q rest)
      | .error why => .next ((s.take q rest).rejectQueued q why)
  else .next s.deliverCp

/-- One step: the agent whose turn it is moves; an agent with nothing to do leaves the state as it is. -/
def step (s : State) : Host.Outcome State Fault Refusal :=
  let d := s.drawTurn
  match d.1 with
  | .cp => cpTurn d.2
  | .background b => .next (d.2.background b)

/-- The state with the given word as its next command: accepted into `cmdq`, the CP free to take it, and the CP's turn
next (log entry 4 says how a program comes to run from reset). -/
def State.withFetchWord (s : State) (nbits w : Nat) : State := s.placeCommand (BitVec.ofNat 64 (w % 2 ^ nbits))

end Sys2Proof.Machine
end

