-- ==== Sys2Proof/Machine/Assembler.lean ====
section
/-! DEFINITION. The written form of a command and its pseudo-instructions (`30_encoding.md` R101, R102): from the text of one
or more lines to command words. The assembler belongs to the host; no agent of the block runs it. It encodes what fits its
field exactly, whether or not the block accepts the value (log entry 10). -/

namespace Sys2Proof.Machine

open Sys2Proof

/-- Why a line has no word (R101: "an assembler error; no word is produced"). -/
inductive AsmError where
  | unknownMnemonic
  | operandCount
  | badOperand
  | notExact
  | outOfRange
  deriving DecidableEq, Repr

/-! ### Text -/

/-- A space, a tab or a carriage return. -/
def isBlank (c : Char) : Bool := c == ' ' || c == '\t' || c == '\r'

/-- The text without its leading and trailing blanks. -/
def trimBlanks (l : List Char) : List Char := ((l.dropWhile isBlank).reverse.dropWhile isBlank).reverse

/-- The pieces of a text between the separators `sep`; one piece when there is none. -/
def splitAt (sep : Char) : List Char → List (List Char)
  | [] => [[]]
  | c :: rest =>
    match splitAt sep rest with
    | [] => [[c]]
    | p :: ps => if c == sep then [] :: p :: ps else (c :: p) :: ps

/-! ### Numbers -/

/-- A decimal digit's value. -/
def digitOf (c : Char) : Option Nat :=
  if '0' ≤ c ∧ c ≤ '9' then some (c.toNat - '0'.toNat) else none

/-- A hexadecimal digit's value. -/
def hexDigitOf (c : Char) : Option Nat :=
  if 'a' ≤ c ∧ c ≤ 'f' then some (c.toNat - 'a'.toNat + 10)
  else if 'A' ≤ c ∧ c ≤ 'F' then some (c.toNat - 'A'.toNat + 10)
  else digitOf c

/-- The digits read so far stand for `acc`; the value of all of them in base `b`. -/
def readDigits (b : Nat) (digit : Char → Option Nat) : Nat → List Char → Option Nat
  | acc, [] => some acc
  | acc, c :: rest =>
    match digit c with
    | none => none
    | some d => readDigits b digit (acc * b + d) rest

/-- At least one decimal digit. -/
def readDecimal (l : List Char) : Option Nat := if l.isEmpty then none else readDigits 10 digitOf 0 l

/-- A decimal or `0x` integer (R101). -/
def readInteger (l : List Char) : Except AsmError Nat :=
  match l with
  | '0' :: 'x' :: rest =>
    if rest.isEmpty then .error .badOperand
    else match readDigits 16 hexDigitOf 0 rest with
      | none => .error .badOperand
      | some n => .ok n
  | _ => match readDecimal l with
    | none => .error .badOperand
    | some n => .ok n

/-- A decimal number as `numerator / 10 ^ places`. -/
def readFraction (l : List Char) : Except AsmError (Nat × Nat) :=
  match splitAt '.' l with
  | [whole] => match readDecimal whole with
    | none => .error .badOperand
    | some n => .ok (n, 0)
  | [whole, part] => match readDecimal whole, readDecimal part with
    | some n, some m => .ok (n * 10 ^ part.length + m, part.length)
    | _, _ => .error .badOperand
  | _ => .error .badOperand

/-- A decimal number times `scale`, if that is an integer; or `#` and the raw code (R101 `rate`, `current`). -/
def readScaled (scale : Nat) (l : List Char) : Except AsmError Nat :=
  match l with
  | '#' :: rest => readInteger rest
  | _ => (readFraction l).bind (fun v =>
    if v.1 * scale % 10 ^ v.2 = 0 then .ok (v.1 * scale / 10 ^ v.2) else .error .notExact)

/-! ### Operands -/

/-- The written kinds of operand (R94, R101). `number` is a channel, a stepper index, a tick, a step count and the like. -/
inductive OperandKind where
  | number
  | rate
  | current
  | style
  | unit
  | dir
  | pins
  deriving DecidableEq, Repr

/-- The word field an operand goes to (R90). -/
inductive WordField where
  | tgt
  | a
  | b
  deriving DecidableEq, Repr

/-- How many values a field holds. -/
def WordField.size : WordField → Nat
  | .tgt => 16
  | .a => 65536
  | .b => 4294967296

/-- The code that a name stands for. -/
def readName (names : List (String × Nat)) (l : List Char) : Except AsmError Nat :=
  match names.find? (fun n => n.1.toList == l) with
  | none => .error .badOperand
  | some n => .ok n.2

/-- Six channel numbers separated by `/`, packed from the first, the lowest, up (R95, R101). -/
def readPins : List (List Char) → Except AsmError Nat
  | [] => .ok 0
  | p :: rest =>
    (readInteger (trimBlanks p)).bind (fun n =>
      if n < 16 then (readPins rest).map (fun m => n + 16 * m) else .error .outOfRange)

/-- A written current is a decimal in `[0,1]`, or a raw code (R101). -/
def readCurrent (l : List Char) : Except AsmError Nat :=
  (readScaled 32768 l).bind (fun n => if l.head? != some '#' && 32768 < n then .error .outOfRange else .ok n)

/-- The code of a written operand (R97, R101). -/
def readOperand (k : OperandKind) (l : List Char) : Except AsmError Nat :=
  match k with
  | .number => readInteger l
  | .rate => readScaled 65536 l
  | .current => readCurrent l
  | .style => readName [("single", 0), ("double", 1), ("interleaved", 2), ("microstep", 3)] l
  | .unit => readName [("pps", 1), ("rpm", 2), ("sps", 4)] l
  | .dir => readName [("fwd", 0), ("back", 1)] l
  | .pins => let parts := splitAt '/' l
    if parts.length = 6 then readPins parts else .error .operandCount

/-- The written operands of a command, in the order TGT, A, B (R98, R101). -/
def writtenOperands : Opcode → List (WordField × OperandKind)
  | .drvInit | .drvReset | .drvGetfreq => []
  | .drvSetfreq => [(.b, .rate)]
  | .drvSetchan => [(.tgt, .number), (.a, .number), (.b, .number)]
  | .drvSetpin => [(.tgt, .number), (.b, .number)]
  | .drvSetall => [(.a, .number), (.b, .number)]
  | .stpPins => [(.tgt, .number), (.b, .pins)]
  | .stpSetsteps | .stpSetmicro => [(.tgt, .number), (.b, .number)]
  | .stpSetstyle => [(.tgt, .number), (.b, .style)]
  | .stpSetcurrent => [(.tgt, .number), (.b, .current)]
  | .stpSetspeed => [(.tgt, .number), (.a, .unit), (.b, .rate)]
  | .stpSetfreq => [(.tgt, .number), (.b, .rate)]
  | .stpOnestep => [(.tgt, .number), (.a, .dir)]
  | .stpStep => [(.tgt, .number), (.a, .dir), (.b, .number)]
  | .stpInit | .stpRelease | .stpStop | .stpStatus | .stpGetrates => [(.tgt, .number)]

/-- The value of a field among the operands read; an unused field is 0. -/
def fieldValue (f : WordField) (vals : List (WordField × Nat)) : Nat :=
  match vals.find? (fun v => v.1 == f) with
  | none => 0
  | some v => v.2

/-- The operands' codes, each checked to fit its field. -/
def readOperands : List (WordField × OperandKind) → List (List Char) → Except AsmError (List (WordField × Nat))
  | [], [] => .ok []
  | k :: ks, l :: ls =>
    (readOperand k.2 l).bind (fun n =>
      if n < k.1.size then (readOperands ks ls).map (fun vs => (k.1, n) :: vs) else .error .outOfRange)
  | _, _ => .error .operandCount

/-- The word of a command with the written operands `args`. -/
def assembleCommand (nb : Bool) (op : Opcode) (args : List (List Char)) : Except AsmError CmdWord :=
  (readOperands (writtenOperands op) args).map (fun vs =>
    buildWord op.code nb (BitVec.ofNat 4 (fieldValue .tgt vs)) (BitVec.ofNat 16 (fieldValue .a vs))
      (BitVec.ofNat 32 (fieldValue .b vs)))

/-! ### Mnemonics -/

/-- The mnemonics of the opcode map (R98). -/
def mnemonics : List (String × Opcode) :=
  [("DRV_INIT", .drvInit), ("DRV_RESET", .drvReset), ("DRV_SETFREQ", .drvSetfreq), ("DRV_GETFREQ", .drvGetfreq),
   ("DRV_SETCHAN", .drvSetchan), ("DRV_SETPIN", .drvSetpin), ("DRV_SETALL", .drvSetall), ("STP_PINS", .stpPins),
   ("STP_SETSTEPS", .stpSetsteps), ("STP_SETMICRO", .stpSetmicro), ("STP_SETSTYLE", .stpSetstyle),
   ("STP_SETCURRENT", .stpSetcurrent), ("STP_SETSPEED", .stpSetspeed), ("STP_SETFREQ", .stpSetfreq), ("STP_INIT", .stpInit),
   ("STP_ONESTEP", .stpOnestep), ("STP_STEP", .stpStep), ("STP_RELEASE", .stpRelease), ("STP_STOP", .stpStop),
   ("STP_STATUS", .stpStatus), ("STP_GETRATES", .stpGetrates)]

/-- A pseudo-instruction's commands with their operands (R102); none if the name is no pseudo-instruction or its operands are
not as many as it takes. -/
def expandPseudo (name : List Char) (args : List (List Char)) : Option (List (Opcode × List (List Char))) :=
  if name == "DRV_PINON".toList then match args with
    | [ch] => some [(.drvSetpin, [ch, ['1']])]
    | _ => none
  else if name == "DRV_PINOFF".toList then match args with
    | [ch] => some [(.drvSetpin, [ch, ['0']])]
    | _ => none
  else if name == "DRV_ALLOFF".toList then match args with
    | [] => some [(.drvSetall, [['0'], "4096".toList])]
    | _ => none
  else if name == "STP_RPM".toList then match args with
    | [s, v] => some [(.stpSetspeed, [s, "rpm".toList, v])]
    | _ => none
  else if name == "STP_PPS".toList then match args with
    | [s, v] => some [(.stpSetspeed, [s, "pps".toList, v])]
    | _ => none
  else if name == "STP_SPS".toList then match args with
    | [s, v] => some [(.stpSetspeed, [s, "sps".toList, v])]
    | _ => none
  else if name == "STP_CONFIG".toList then match args with
    | [s, pins, spr, ms, style, current] =>
      some [(.stpPins, [s, pins]), (.stpSetsteps, [s, spr]), (.stpSetmicro, [s, ms]), (.stpSetstyle, [s, style]),
            (.stpSetcurrent, [s, current]), (.stpInit, [s])]
    | _ => none
  else none

/-- The commands a name stands for: one command of the opcode map, or a pseudo-instruction's expansion. -/
def commandsOf (name : List Char) (args : List (List Char)) : Except AsmError (List (Opcode × List (List Char))) :=
  match mnemonics.find? (fun m => m.1.toList == name) with
  | some m => .ok [(m.2, args)]
  | none => match expandPseudo name args with
    | some cs => .ok cs
    | none => .error .unknownMnemonic

/-- The words of a list of commands, all in one execution mode (R102). -/
def assembleAll (nb : Bool) : List (Opcode × List (List Char)) → Except AsmError (List CmdWord)
  | [] => .ok []
  | c :: rest => (assembleCommand nb c.1 c.2).bind (fun w => (assembleAll nb rest).map (fun ws => w :: ws))

/-- The mnemonic without its suffix, and whether the suffix is `.nb` (R101). -/
def splitSuffix (name : List Char) : Except AsmError (List Char × Bool) :=
  match splitAt '.' name with
  | [m] => .ok (m, false)
  | [m, sfx] => if sfx == "nb".toList then .ok (m, true) else .error .unknownMnemonic
  | _ => .error .unknownMnemonic

/-- The words of one line: none for an empty line or a comment (R101). -/
def assembleLine (line : List Char) : Except AsmError (List CmdWord) :=
  let text := trimBlanks (line.takeWhile (fun c => c != ';'))
  if text.isEmpty then .ok []
  else
    let name := text.takeWhile (fun c => !isBlank c)
    let rest := trimBlanks (text.dropWhile (fun c => !isBlank c))
    let args := if rest.isEmpty then [] else (splitAt ',' rest).map trimBlanks
    (splitSuffix name).bind (fun m => (commandsOf m.1 args).bind (fun cs => assembleAll m.2 cs))

/-- The words of a program's lines, in order; the first line that cannot be encoded stops it. -/
def assembleLines : List (List Char) → Except AsmError (List CmdWord)
  | [] => .ok []
  | l :: rest => (assembleLine l).bind (fun ws => (assembleLines rest).map (fun more => ws ++ more))

/-- The words of a program text. -/
def assemble (text : List Char) : Except AsmError (List CmdWord) := assembleLines (splitAt '\n' text)

end Sys2Proof.Machine
end

