-- ==== Sys2Proof/Safety.lean ====
section
/-! DEFINITION. The terms the claims are stated in: idle buses and coming transport answers, what a response looks like from
outside, what a sequence leaves in the trace, and the invariants the spec states of the block's state (`10_state.md`). -/

namespace Sys2Proof.Machine

open Sys2Proof

/-! ### Conditions on a state -/

/-- Neither a background agent nor the host has anything to do and the bus is free: a command of the CP meets no other
agent. -/
def State.quiet (s : State) : Prop :=
  s.anyBackground = false ∧ s.host = [] ∧ s.bus.reqq = [] ∧ s.bus.inflight = none ∧ s.bus.lock = false

/-- The transport's answer to the `n`-th transaction from now, if no other agent uses the bus: the `n`-th fixed one, else the
free value (I1, I2). -/
def State.answerAt (s : State) (n : Nat) : Answer :=
  match s.env.answers[n]? with
  | some a => a
  | none => Config.freeAnswer (s.env.drawn + (n - s.env.answers.length))

/-- The next `n` transactions succeed. -/
def State.answersOk (s : State) (n : Nat) : Prop := ∀ m, m < n → (s.answerAt m).ok = true

/-- The next `n` transactions succeed and the one after them fails. -/
def State.failsAt (s : State) (n : Nat) : Prop := s.answersOk n ∧ (s.answerAt n).ok = false

/-- The CP is in a command with ticket `t`. -/
def State.inCommand (s : State) (t : Ticket) : Prop := ∃ w n, s.cp = .busy t w n

/-! ### Effects -/

/-- The response `r` of a command with mode `nb` has been delivered between `s` and `t` (R121, R258): on the synchronous path,
releasing the host's port; or at the end of `cmplq`; or it is held by the CP because `cmplq` is full. -/
def Responded (s t : State) (nb : Bool) (r : Response) : Prop :=
  (nb = false → t.sync = r :: s.sync ∧ t.hostWait = none ∧ t.cp = .idle ∧ t.cmplq = s.cmplq ∧ t.cpHeld = s.cpHeld) ∧
  (nb = true → t.sync = s.sync ∧ t.hostWait = s.hostWait ∧
    (s.cmplRoom = true → t.cmplq = s.cmplq ++ [r] ∧ t.cp = .idle ∧ t.cpHeld = s.cpHeld) ∧
    (s.cmplRoom = false → t.cmplq = s.cmplq ∧ t.cpHeld = some r ∧ t.ticket = s.ticket ∧ (t.cp = .idle ↔ s.cp = .idle)))

/-- What no command changes by its own work: the queue of accepted commands, the tickets given, what the host has popped and
what it will do, and the sticky model flag, which falls under R260 alone. -/
def HostSideKept (s t : State) : Prop :=
  t.cmdq = s.cmdq ∧ t.nextTicket = s.nextTicket ∧ t.popped = s.popped ∧ t.host = s.host

/-- From image `m` to image `n`, the ticks of the selected channels are written, and nothing else changes (R23, R64). -/
def ChannelsWritten (m n : Image) (sel : Chan → Bool) (on off : Tick) : Prop :=
  n.busOpen = m.busOpen ∧ n.initialised = m.initialised ∧ n.prescale = m.prescale ∧
  ∀ c, n.onTick c = (if sel c then some on else m.onTick c) ∧ n.offTick c = (if sel c then some off else m.offTick c)

/-- The machine's next step is background agent `b`'s, and leads from `s` to `t`. -/
def Moves (b : Background) (s t : State) : Prop := ∃ rest, s.env.turns = .background b :: rest ∧ step s = .next t

/-- No bus transaction, and neither the clock nor the environment's choices used. -/
def NoBusIo (s t : State) : Prop := t.bus = s.bus ∧ t.trace = s.trace ∧ t.now = s.now ∧ t.env = s.env

/-- The command and response ports, the CP and the sticky flag are as before; `cmplq` is not in it. -/
def PortsKept (s t : State) : Prop :=
  t.cp = s.cp ∧ t.cpHeld = s.cpHeld ∧ t.sync = s.sync ∧ t.hostWait = s.hostWait ∧ t.mixedMode = s.mixedMode ∧ HostSideKept s t

/-- The non-blocking run of stepper `i` ends with the record `r`, its run state otherwise `run` (R215, R258): the record joins
`cmplq` and the run is over; or, while `cmplq` is full, the run engine holds the record and `running` stays as it is. -/
def RunEnded (i : StepperId) (s t : State) (run : Run) (r : Response) : Prop :=
  (s.cmplq.length < Config.cmplqDepth → t.cmplq = s.cmplq ++ [r] ∧ (t.stepper i).held = (s.stepper i).held ∧
    (t.stepper i).run = { run with running := false, stopReq := false }) ∧
  (Config.cmplqDepth ≤ s.cmplq.length → t.cmplq = s.cmplq ∧ (t.stepper i).held = some r ∧
    (t.stepper i).run = { run with stopReq := (t.stepper i).run.stopReq })

/-- Nothing changes outside the steppers and the response. -/
def LocalEffect (s t : State) : Prop := t.img = s.img ∧ NoBusIo s t ∧ t.mixedMode = s.mixedMode ∧ HostSideKept s t

/-- The other stepper is as before. -/
def OthersKept (k : StepperId) (s t : State) : Prop := ∀ j, j ≠ k → t.stepper j = s.stepper j

/-- Nothing changes but the response (R121, R255). -/
def NoEffect (s t : State) : Prop := t.stp = s.stp ∧ LocalEffect s t

/-- A record with status OK (R103). -/
def okRecord (t : Ticket) (op : Byte) (r : Result) : Response :=
  { ticket := t, op := op, status := .ok, reason := 0#8, busKind := 0#3, busReg := 0#8, result := r }

/-- A record with status VALIDATION and a reason code (R103, R251): its result fields are 0. -/
def validationRecord (t : Ticket) (op : Byte) (reason : BitVec 8) : Response :=
  { ticket := t, op := op, status := .validation, reason := reason, busKind := 0#3, busReg := 0#8,
    result := zeroResult op }

/-- A record with status BUS (R103, R252). -/
def busRecord (t : Ticket) (op : Byte) (e : BusError) (r : Result) : Response :=
  { ticket := t, op := op, status := .bus, reason := 0#8, busKind := e.kind, busReg := e.reg, result := r }

/-- The record of a sequence that ended with `e`: OK with the result, or BUS with the result fields 0 (R103). -/
def sequenceRecord (t : Ticket) (op : Byte) (r : Result) : Option BusError → Response
  | none => okRecord t op r
  | some e => busRecord t op e (zeroResult op)

/-- The command ends with a VALIDATION response and changes nothing else (R121, R255). -/
def TurnedAway (i : Instr) (s : State) (tk : Ticket) (op : Byte) (reason : BitVec 8) : Prop :=
  ∃ t, exec i s = .next t ∧ NoEffect s t ∧ Responded s t i.nb (validationRecord tk op reason)

/-- The command's final response is `r`, whatever other agents have delivered meanwhile: the newest record on the synchronous
path, or the newest in `cmplq`, or held by the CP because `cmplq` is full (R121, R258). -/
def Answered (t : State) (nb : Bool) (r : Response) : Prop :=
  (nb = false → t.sync.head? = some r ∧ t.cp = .idle ∧ t.hostWait = none) ∧
  (nb = true → (t.cmplq.getLast? = some r ∧ t.cp = .idle) ∨ t.cpHeld = some r)

/-- The trace items of confirmed byte writes of the CP, in program order. -/
def writeItems (l : List (Byte × Byte)) : List TraceItem :=
  l.map (fun w => .txn .cp (.write Config.devAddr w.1 w.2) true 0#8)

/-- Between `s` and `t` the trace has grown by `l`, given in the order it happened. -/
def TraceGrows (s t : State) (l : List TraceItem) : Prop := t.trace = l.reverse ++ s.trace

/-- The bus is as free after as before. -/
def BusFreed (t : State) : Prop := t.bus.reqq = [] ∧ t.bus.inflight = none ∧ t.bus.lock = false

/-- The last byte the trace shows confirmed at chip register `reg` of the device; none if the trace shows none. This is the
block's only trace of the chip's contents: the chip itself is the transport's (I1). -/
def lastWritten (reg : Byte) : List TraceItem → Option Byte
  | [] => none
  | .txn _ (.write d r v) true _ :: rest => if d = Config.devAddr ∧ r = reg then some v else lastWritten reg rest
  | _ :: rest => lastWritten reg rest

/-- The item is a transaction of the CP or a settle of its sequence. -/
def TraceItem.ofCp : TraceItem → Bool
  | .txn .cp _ _ _ => true
  | .txn (.engine _) _ _ _ => false
  | .settle _ => true

/-- The request that a transaction of the trace has served. -/
def TraceItem.request : TraceItem → Option Request
  | .txn who t _ _ => some { who := who, txn := t }
  | .settle _ => none

/-! ### The sequences of the commands, as lists -/

/-- One element of a command's sequence (R13): a transaction, or a settle. -/
inductive SeqItem where
  | txn (t : Txn)
  | settle (ms : Nat)
  deriving DecidableEq, Repr, Inhabited

/-- A confirmed or failed byte write of the device. -/
def writeItem (w : Byte × Byte) : SeqItem := .txn (.write Config.devAddr w.1 w.2)

/-- The four byte writes of a register group (R63, R64): the on tick, then the off tick, low byte first. -/
def groupBytes (base : Byte) (on off : Tick) : List (Byte × Byte) :=
  [(base, BitVec.ofNat 8 (on.toNat % 256)), (base + 1#8, BitVec.ofNat 8 (on.toNat / 256)),
   (base + 2#8, BitVec.ofNat 8 (off.toNat % 256)), (base + 3#8, BitVec.ofNat 8 (off.toNat / 256))]

/-- `PinWrite(c, on, off)` as a list (R62, R64). -/
def pinItems (c : Chan) (on off : Tick) : List SeqItem :=
  (groupBytes (Config.regLed0OnL + BitVec.ofNat 8 (4 * c.toNat)) on off).map writeItem

/-- `AllWrite(on, off)` as a list (R64). -/
def allItems (on off : Tick) : List SeqItem := (groupBytes Config.regAllOnL on off).map writeItem

/-- The sequence of `DRV_INIT`, with `m` the byte its read returns (R123). -/
def initItems (m : Byte) : List SeqItem :=
  [.txn (.busOpen Config.busId)] ++ allItems 0#13 0#13 ++
  [writeItem (Config.regMode2, Config.bitOutdrv), writeItem (Config.regMode1, Config.bitAi), .settle 5,
   .txn (.read Config.devAddr Config.regMode1), writeItem (Config.regMode1, m &&& ~~~Config.bitSleep), .settle 5]

/-- The sequence of `DRV_RESET` (R124). -/
def resetItems : List SeqItem := [.txn (.send Config.resetAddr Config.swrstByte)]

/-- The sequence of a frequency change to prescale `p`, with `old` the byte its read returns (R125). -/
def freqItems (p old : Byte) : List SeqItem :=
  [.txn (.read Config.devAddr Config.regMode1),
   writeItem (Config.regMode1, (old &&& ~~~Config.bitRestart) ||| Config.bitSleep),
   writeItem (Config.regPrescale, p), writeItem (Config.regMode1, old), .settle 5,
   writeItem (Config.regMode1, old ||| Config.wakeMask)]

/-- The pins of a vector that differ from the cache (R207). -/
def changedTasks (cache : RoleMap (Option Tick)) (tasks : List PinTask) : List PinTask :=
  tasks.filter (fun t => cache.get t.role != some t.value)

/-- The pin writes of a list of pins, in order. -/
def taskItems (tasks : List PinTask) : List SeqItem := tasks.flatMap (fun t => pinItems t.chan t.on t.off)

/-- The cache once the pins are confirmed (R209). -/
def cacheWith (cache : RoleMap (Option Tick)) (tasks : List PinTask) : RoleMap (Option Tick) :=
  tasks.foldl (fun c t => c.set t.role (some t.value)) cache

/-- The image once the pins are confirmed (R64). -/
def imageWith (m : Image) (tasks : List PinTask) : Image := tasks.foldl (fun m t => m.setChannel t.chan t.on t.off) m

/-- The transactions of `n` steps of a run from a phase and a cache: each step advances the phase, then writes the pins of its
vector that differ from the cache (R201, R207, R212). -/
def runItems (r : Ready) (d : Dir) : Nat → BitVec 6 → RoleMap (Option Tick) → List SeqItem
  | 0, _, _ => []
  | n + 1, phase, cache =>
    let p := advance phase d r.style r.ms
    let l := changedTasks cache (stepTasks r p)
    taskItems l ++ runItems r d n p (cacheWith cache l)

/-- The pins that `n` steps of a run write, from a phase and a cache. -/
def runTasks (r : Ready) (d : Dir) : Nat → BitVec 6 → RoleMap (Option Tick) → List PinTask
  | 0, _, _ => []
  | n + 1, phase, cache =>
    let p := advance phase d r.style r.ms
    let l := changedTasks cache (stepTasks r p)
    l ++ runTasks r d n p (cacheWith cache l)

/-- A sequence carried out with the answers `ans` from number `n` on: what the trace shows, in the order it happens, and the
bus error that cuts it off, if one does (R13, R14). -/
def play (ans : Nat → Answer) : Nat → List SeqItem → List TraceItem × Option BusError
  | _, [] => ([], none)
  | n, .settle ms :: rest => (.settle ms :: (play ans n rest).1, (play ans n rest).2)
  | n, .txn t :: rest =>
    if (ans n).ok then
      (.txn .cp t true (replyByte t (ans n)) :: (play ans (n + 1) rest).1, (play ans (n + 1) rest).2)
    else ([.txn .cp t false (replyByte t (ans n))], some (busErrorOf t))

/-- How many of the pins are confirmed when their byte writes meet the answers `ans` from number `n` on. -/
def confirmedTasks (ans : Nat → Answer) : Nat → List PinTask → List PinTask
  | _, [] => []
  | n, t :: rest =>
    if (ans n).ok && (ans (n + 1)).ok && (ans (n + 2)).ok && (ans (n + 3)).ok then t :: confirmedTasks ans (n + 4) rest
    else []

/-- The cache after `n` confirmed steps of a run. -/
def runCache (r : Ready) (d : Dir) : Nat → BitVec 6 → RoleMap (Option Tick) → RoleMap (Option Tick)
  | 0, _, cache => cache
  | n + 1, phase, cache =>
    let p := advance phase d r.style r.ms
    runCache r d n p (cacheWith cache (changedTasks cache (stepTasks r p)))

/-- The CP's part of the trace, newest first. -/
def State.cpTrace (s : State) : List TraceItem := s.trace.filter TraceItem.ofCp

/-! ### A command that `rst` has taken (R290, I13) -/

/-- Between `s` and `t`, `rst` has discarded the command in the CP: every element has its reset value but for what the host has
submitted since (the two times that R42 leaves unspecified are not in it), and nothing has come out but records of submissions:
the command has no response. -/
structure Discarded (s t : State) : Prop where
  img : t.img = Image.reset
  stp : ∀ i, t.stepper i = { Stepper.reset with run := { Stepper.reset.run with t0 := (t.stepper i).run.t0 } }
  bus : t.bus.reqq = [] ∧ t.bus.inflight = none ∧ t.bus.lock = false
  cp : t.cp = .idle ∧ t.cpHeld = none
  cmplq : t.cmplq = []
  mixedMode : t.mixedMode = false
  sync : ∃ l, t.sync = l ++ s.sync ∧ ∀ r, r ∈ l → ∃ tk w st why, r = submitRecord tk w st why
  popped : ∃ l, t.popped = l ++ s.popped
  trace : ∃ l, t.trace = l ++ s.trace

/-- Every element has the value that R42 gives for a hardware reset; the two times that it leaves unspecified are not in it. -/
structure AtReset (t : State) : Prop where
  img : t.img = Image.reset
  stp : ∀ i, t.stepper i = { Stepper.reset with run := { Stepper.reset.run with t0 := (t.stepper i).run.t0 } }
  bus : t.bus.reqq = [] ∧ t.bus.inflight = none ∧ t.bus.lock = false
  cp : t.cp = .idle ∧ t.cpHeld = none
  ports : t.nextTicket = 0#16 ∧ t.cmdq = [] ∧ t.cmplq = [] ∧ t.hostWait = none
  mixedMode : t.mixedMode = false

/-- `rst` fell while the command was in the CP. -/
def TakenByRst (s t : State) : Prop := HostAct.rst ∈ s.host ∧ Discarded s t

/-- Agent `b` is not about to assert `rst`. -/
def NotRst (b : Background) (s : State) : Prop := b = .host → s.host.head? ≠ some .rst

/-! ### The execution-time checks as one function (R254) -/

/-- The first failing execution-time check of a command, in the order of the table of R254; none if all pass. -/
def execCheck (s : State) : Instr → Option Reason
  | .drvInit _ => if s.anyRunning then some .busy else none
  | .drvReset _ => if s.img.busOpen = false then some .notInitialised else if s.anyRunning then some .busy else none
  | .drvSetfreq _ _ | .stpSetfreq _ _ _ | .drvSetchan _ _ _ _ | .drvSetpin _ _ _ | .drvSetall _ _ _ =>
    if s.img.initialised = false then some .notInitialised else none
  | .drvGetfreq _ => if s.img.prescale = none then some .freqUnset else none
  | .stpPins _ k p =>
    if (s.stepper k).run.running ∨ (s.stepper k).motion.pulsing then some .busy
    else if s.pinsTaken k p then some .badPins else none
  | .stpSetsteps _ k _ | .stpSetmicro _ k _ | .stpSetstyle _ k _ | .stpSetcurrent _ k _ | .stpSetspeed _ k _ _ =>
    if (s.stepper k).run.running ∨ (s.stepper k).motion.pulsing then some .busy else none
  | .stpInit _ k =>
    if (s.stepper k).run.running ∨ (s.stepper k).motion.pulsing then some .busy
    else if (s.stepper k).cfg.incomplete then some .notConfigured else none
  | .stpOnestep _ k _ | .stpRelease _ k =>
    if s.img.initialised = false then some .notInitialised
    else if (s.stepper k).cfg.ready = none then some .notConfigured
    else if (s.stepper k).run.running ∨ (s.stepper k).motion.pulsing then some .busy else none
  | .stpStep _ k _ _ =>
    if s.img.initialised = false then some .notInitialised
    else if (s.stepper k).cfg.ready = none then some .notConfigured
    else if (s.stepper k).cfg.pulseFreq = none then some .noSpeed
    else if (s.stepper k).run.running ∨ (s.stepper k).motion.pulsing then some .busy else none
  | .stpStop _ _ | .stpStatus _ _ | .stpGetrates _ _ => none

/-- The bus sequence of a command that starts in `s`, as the spec's pseudocode gives it (R123 to R129, R167, R210 to R212,
R218); `ans` are the transport's answers to it. A failing check leaves none, and so does a command without bus I/O; the
transactions of a non-blocking run are the run engine's. -/
def program (s : State) (ans : Nat → Answer) (i : Instr) : List SeqItem :=
  if (execCheck s i).isSome then []
  else match i with
  | .drvInit _ => initItems (ans 7).byte
  | .drvReset _ => resetItems
  | .drvSetfreq _ rate | .stpSetfreq _ _ rate => freqItems (BitVec.ofNat 8 (computePrescale rate)) (ans 0).byte
  | .drvSetchan _ c on off => pinItems c on off
  | .drvSetpin _ c v => if v then pinItems c 4096#13 0#13 else pinItems c 0#13 4096#13
  | .drvSetall _ on off => allItems on off
  | .stpOnestep _ k d =>
    match (s.stepper k).cfg.ready with
    | none => []
    | some r => runItems r d 1 (s.stepper k).motion.phase (s.stepper k).cache
  | .stpRelease _ k =>
    match (s.stepper k).cfg.ready with
    | none => []
    | some r => taskItems (changedTasks (s.stepper k).cache (vectorTasks r releaseVector))
  | .stpStep nb k d n =>
    if nb then []
    else match (s.stepper k).cfg.ready with
    | none => []
    | some r => runItems r d n.toNat (s.stepper k).motion.phase (s.stepper k).cache
  | .drvGetfreq _ | .stpPins _ _ _ | .stpSetsteps _ _ _ | .stpSetmicro _ _ _ | .stpSetstyle _ _ _
  | .stpSetcurrent _ _ _ | .stpSetspeed _ _ _ _ | .stpInit _ _ | .stpStop _ _ | .stpStatus _ _ | .stpGetrates _ _ => []

/-- The commands whose sequences are exclusive (R69). -/
def hasExclusiveSequence (i : Instr) : Prop :=
  ∃ nb, i = .drvInit nb ∨ i = .drvReset nb ∨ ∃ rate, i = .drvSetfreq nb rate ∨ ∃ k, i = .stpSetfreq nb k rate

/-! ### A background run's transactions -/

/-- The byte writes of stepper `k`'s run engine in the trace, in the order they happened, confirmed ones only. -/
def State.engineWrites (s : State) (k : StepperId) : List (Byte × Byte) :=
  s.trace.reverse.filterMap (fun x => match x with
    | .txn (.engine i) (.write _ reg v) true _ => if i = k then some (reg, v) else none
    | _ => none)

/-- The byte writes of a list of pins. -/
def taskBytes (tasks : List PinTask) : List (Byte × Byte) := tasks.flatMap (fun t => pinWrites t.chan t.on t.off)

/-- The byte writes of `n` steps of a run (as `runItems`). -/
def runBytes (r : Ready) (d : Dir) : Nat → BitVec 6 → RoleMap (Option Tick) → List (Byte × Byte)
  | 0, _, _ => []
  | n + 1, phase, cache =>
    let p := advance phase d r.style r.ms
    let l := changedTasks cache (stepTasks r p)
    taskBytes l ++ runBytes r d n p (cacheWith cache l)

/-- The byte writes the run of a stepper has still to make if nothing stops it: the rest of the vector write in progress, and
then the steps not yet issued (R213, R214). -/
def Stepper.toWrite (st : Stepper) (r : Ready) : List (Byte × Byte) :=
  match st.job with
  | none =>
    runBytes r st.run.runDir (st.run.runCount.toNat - st.run.issued.toNat) st.motion.phase st.cache
  | some j =>
    let c := st.cache.set j.task.role (some j.task.value)
    let l := changedTasks c j.rest
    j.left ++ taskBytes l ++
      runBytes r st.run.runDir (st.run.runCount.toNat - st.run.issued.toNat) st.motion.phase (cacheWith c l)

/-! ### Invariants -/

/-- The phase is in range (R32, R222 item 1). -/
def PhaseInv (s : State) : Prop :=
  ∀ i, ∀ m, (s.stepper i).cfg.ms = some m → (s.stepper i).motion.phase.toNat < 4 * m.count

/-- The derived rates are never stale (R31, R172). -/
def RatesInv (s : State) : Prop :=
  ∀ i, ((s.stepper i).cfg.stepFreq, (s.stepper i).cfg.pulseFreq) = recompute (s.stepper i).cfg

/-- One stepper's configuration is legal (R24 to R30, R40). -/
structure ConfigLegal (c : StepperConfig) : Prop where
  pins : ∀ p, c.pin = some p → pinsDistinct p = true
  spr : ∀ n, c.spr = some n → n ≠ 0#16
  current : ∀ n, c.current = some n → n.toNat ≤ 32768
  speed : ∀ v, c.speedValue = some v → v ≠ 0#32
  target : c.speedUnit.isSome = c.speedValue.isSome
  complete : c.initialised = true → c.incomplete = false

/-- Every configuration is legal, and no channel is a pin of two steppers (R24). -/
def ConfigInv (s : State) : Prop :=
  (∀ i, ConfigLegal (s.stepper i).cfg) ∧
  (∀ i j, i ≠ j → ∀ c, c ∈ pinChannels (s.stepper i) → c ∉ pinChannels (s.stepper j))

/-- The role carries a PWM duty. -/
def roleIsPwm : Role → Bool
  | .pwma | .pwmb => true
  | .a1 | .a2 | .b1 | .b2 => false

/-- A legal cache value: 0..4080 for a PWM pin, 0 or 1 for a coil pin (R36). -/
def cacheLegal (r : Role) (v : Tick) : Prop := if roleIsPwm r then v.toNat ≤ 4080 else v.toNat ≤ 1

/-- A pin of a vector write has legal ticks and a legal cache value. -/
def TaskLegal (t : PinTask) : Prop := t.on.toNat ≤ 4096 ∧ t.off.toNat ≤ 4096 ∧ cacheLegal t.role t.value

/-- Image, caches and work in progress hold legal values (R23, R36), for legal currents (R28). -/
structure ValuesInv (s : State) : Prop where
  image : ∀ c, (s.img.onTick c).isSome = (s.img.offTick c).isSome ∧
    (∀ v, s.img.onTick c = some v → v.toNat ≤ 4096) ∧ (∀ v, s.img.offTick c = some v → v.toNat ≤ 4096)
  cache : ∀ i r v, (s.stepper i).cache.get r = some v → cacheLegal r v
  current : ∀ i n, (s.stepper i).cfg.current = some n → n.toNat ≤ 32768
  jobs : ∀ i j, (s.stepper i).job = some j → TaskLegal j.task ∧ ∀ t, t ∈ j.rest → TaskLegal t

/-- One stepper's run state is coherent (R35): the counters are ordered and at most one step apart; a vector write in progress
belongs to an active non-blocking run, is what `pulsing` says, and writes each role once; a run waiting to deliver its report
does nothing else. It holds between steps of the machine: the writes and runs of a blocking command are inside one (log entry 5),
and a run engine reacts in the step of the completion (log entry 31). -/
structure RunLegal (st : Stepper) : Prop where
  order : st.run.done.toNat ≤ st.run.issued.toNat ∧ st.run.issued.toNat ≤ st.run.runCount.toNat ∧
    st.run.issued.toNat ≤ st.run.done.toNat + 1
  background : st.run.running = true → st.run.runNB = true
  pulsing : st.motion.pulsing = st.job.isSome
  job : st.job.isSome = true → st.run.running = true ∧ st.held = none ∧ st.run.issued.toNat = st.run.done.toNat + 1
  held : st.held.isSome = true → st.run.running = true
  between : st.run.running = true → st.job = none → st.held = none → st.run.issued = st.run.done
  roles : ∀ j, st.job = some j → ((j.task :: j.rest).map PinTask.role).Nodup

/-- The run state of every stepper is coherent between steps of the machine (R35). -/
def RunInv (s : State) : Prop := ∀ i, RunLegal (s.stepper i)

/-- Between steps of the machine the CP is idle or holds a response for a full `cmplq`, the bus lock is free, and the bus has
no request or transaction of the CP (R69, R121, R258). -/
structure CpInv (s : State) : Prop where
  cp : s.cp = .idle ∨ s.cpHeld.isSome = true
  lock : s.bus.lock = false
  requests : ∀ q, q ∈ s.bus.reqq → q.who ≠ .cp
  inflight : ∀ q, s.bus.inflight = some q → q.who ≠ .cp

/-- The pending and current transactions of a run engine. -/
def engineRequests (b : Bus) (k : StepperId) : List Request :=
  (b.inflight.toList ++ b.reqq).filter (fun q => q.who == .engine k)

/-- A run engine asks for one byte write at a time, the next one of its vector write (R68). -/
def BusInv (s : State) : Prop :=
  ∀ k, match (s.stepper k).job with
    | none => engineRequests s.bus k = []
    | some j => ∃ w more, j.left = w :: more ∧ engineRequests s.bus k =
        if j.outstanding then [{ who := .engine k, txn := .write Config.devAddr w.1 w.2 }] else []

/-- The queues keep their bounds, and `cmdq` holds only words the decoder accepts (R37, R120). -/
structure QueueInv (s : State) : Prop where
  cmdq : s.cmdq.length ≤ Config.cmdqDepth
  cmplq : s.cmplq.length ≤ Config.cmplqDepth
  accepted : ∀ q, q ∈ s.cmdq → ∃ i, decode q.word = .ok i

end Sys2Proof.Machine
end

