-- ==== Sys2Proof/Certificates/Slice0/Obligations.lean ====
section
/-! DEFINITION. The statements for the provers, from the spec's numbered rules. Each says in its docstring which rule it
formalises; a clause that rests on a choice of the model names the log entry. -/

open Sys2Proof Sys2Proof.Machine

/-! ### Encoding (`30_encoding.md`) -/

/-- R90, R98, R105: the word of a well-formed command decodes to that command, with every operand at every legal value. -/
def Obligations.DecodeEncode : Prop := ∀ i : Instr, i.wf = true → decode (encode i) = .ok i

/-- R90, R99, R105: the decoder accepts a word only if it is the word of a well-formed command, so no bit of an accepted word is
dropped, and no two words mean the same command. -/
def Obligations.EncodeDecode : Prop := ∀ (w : CmdWord) (i : Instr), decode w = .ok i → i.wf = true ∧ encode i = w

/-- R92, R99: exactly the reserved opcodes give `ILLEGAL_OPCODE`; under every other opcode a must-be-zero field that is set gives
`RESERVED_BITS`; and, by R120, a rejected word has no effect but its ticket and its response. That the rejection is not delayed while
`cmdq` is full is the model's reading (log entry 15). -/
def Obligations.ReservedEncodingsRejected : Prop :=
  ∀ w : CmdWord,
    let op := (wordOp w).toNat
    (decode w = .error .illegalOpcode ↔ op = 0 ∨ (8 ≤ op ∧ op ≤ 15) ∨ 0x1E ≤ op) ∧
    (¬ (op = 0 ∨ (8 ≤ op ∧ op ≤ 15) ∨ 0x1E ≤ op) →
      (wordRsv w ≠ 0#3 ∨ (op ∈ [0x01, 0x02, 0x03, 0x04, 0x07] ∧ wordTgt w ≠ 0#4) ∨
        (op ∈ [0x01, 0x02, 0x03, 0x04, 0x06, 0x10, 0x11, 0x12, 0x13, 0x14, 0x16, 0x17, 0x1A, 0x1B, 0x1C, 0x1D] ∧
          wordA w ≠ 0#16) ∨
        (op ∈ [0x01, 0x02, 0x04, 0x17, 0x18, 0x1A, 0x1B, 0x1C, 0x1D] ∧ wordB w ≠ 0#32) ∨
        (op = 0x10 ∧ 2 ^ 24 ≤ (wordB w).toNat) ∨ (op = 0x15 ∧ 8 ≤ (wordA w).toNat)) →
      decode w = .error .reservedBits) ∧
    (∀ (s : State) (why : Reason), s.hostWait = none → decode w = .error why →
      s.submit w = some { s with
        nextTicket := s.nextTicket + 1#16,
        sync := validationRecord s.nextTicket (wordOp w) (reasonCode why) :: s.sync })

/-- R94, R254: what the submission checks make of the operands of the driver and motion commands, in their order: which values
are accepted, and the reason for every other one; and under every stepper opcode, whatever operands leave the must-be-zero fields 0,
`BAD_TARGET` comes before the checks of the operands. -/
def Obligations.OperandRanges : Prop :=
  ∀ (nb : Bool) (c : BitVec 4) (k : StepperId) (a : BitVec 16) (b : W32),
    decode (buildWord 0x05#8 nb c a b) =
      (if 4096 < a.toNat ∨ 4096 < b.toNat then .error .badTick
       else .ok (.drvSetchan nb c (BitVec.ofNat 13 a.toNat) (BitVec.ofNat 13 b.toNat))) ∧
    decode (buildWord 0x07#8 nb 0#4 a b) =
      (if 4096 < a.toNat ∨ 4096 < b.toNat then .error .badTick
       else .ok (.drvSetall nb (BitVec.ofNat 13 a.toNat) (BitVec.ofNat 13 b.toNat))) ∧
    decode (buildWord 0x06#8 nb c 0#16 b) =
      (if 1 < b.toNat then .error .badStateValue else .ok (.drvSetpin nb c (decide (b = 1#32)))) ∧
    decode (buildWord 0x03#8 nb 0#4 0#16 b) =
      (if b = 0#32 then .error .badFrequency else if b.toNat < 1562500 then .error .prescaleRange
       else .ok (.drvSetfreq nb b)) ∧
    decode (buildWord 0x16#8 nb (stepperTgt k) 0#16 b) =
      (if b = 0#32 then .error .badFrequency else if b.toNat < 1562500 then .error .prescaleRange
       else .ok (.stpSetfreq nb k b)) ∧
    decode (buildWord 0x18#8 nb (stepperTgt k) a 0#32) =
      (if 1 < a.toNat then .error .badDirection else .ok (.stpOnestep nb k (if a = 0#16 then .fwd else .back))) ∧
    decode (buildWord 0x19#8 nb (stepperTgt k) a b) =
      (if 1 < a.toNat then .error .badDirection else .ok (.stpStep nb k (if a = 0#16 then .fwd else .back) b)) ∧
    (∀ (op : Byte) (tgt : BitVec 4), 0x10 ≤ op.toNat → op.toNat ≤ 0x1D → 2 ≤ tgt.toNat →
      (op.toNat ≠ 0x15 → op.toNat ≠ 0x18 → op.toNat ≠ 0x19 → a = 0#16) → (op.toNat = 0x15 → a.toNat < 8) →
      (op.toNat = 0x10 → b.toNat < 2 ^ 24) → (op.toNat ∈ [0x17, 0x18, 0x1A, 0x1B, 0x1C, 0x1D] → b = 0#32) →
      decode (buildWord op nb tgt a b) = .error .badTarget)

/-- R90, R98, R101, R102 and `95_test_vectors.md` V-E1: words written out from the encoding tables decode to their commands; the
assembler gives the words of R101's examples from their text; and `STP_CONFIG` stands for its six commands whatever its operands. -/
def Obligations.SampleWords : Prop :=
  decode 0x0100000000000000#64 = .ok (.drvInit false) ∧
  decode 0x0300000006400000#64 = .ok (.drvSetfreq false 104857600#32) ∧
  decode 0x0503000000001000#64 = .ok (.drvSetchan false 3#4 0#13 4096#13) ∧
  decode 0x060F000000000001#64 = .ok (.drvSetpin false 15#4 true) ∧
  decode 0x1000000000CBDA98#64 =
    .ok (.stpPins false 0 { pwma := 8#4, a1 := 9#4, a2 := 10#4, pwmb := 13#4, b1 := 11#4, b2 := 12#4 }) ∧
  decode 0x15800002001E0000#64 = .ok (.stpSetspeed true 0 .rpm 0x1E0000#32) ∧
  decode 0x1800000100000000#64 = .ok (.stpOnestep false 0 .back) ∧
  decode 0x19800000000003E8#64 = .ok (.stpStep true 0 .fwd 1000#32) ∧
  decode 0x1C01000000000000#64 = .ok (.stpStatus false 1) ∧
  assemble "DRV_SETCHAN 3, 0, 4096".toList = .ok [0x0503000000001000#64] ∧
  assemble "STP_SETSPEED.nb 0, rpm, 30".toList = .ok [0x15800002001E0000#64] ∧
  assemble "STP_PINS 0, 8/9/10/13/11/12 ; the default pins".toList = .ok [0x1000000000CBDA98#64] ∧
  assemble "STP_SETCURRENT 0, #9830".toList = .ok [0x1400000000002666#64] ∧
  assemble "STP_SETCURRENT 0, 0.3".toList = .error .notExact ∧
  ∀ (s pins spr ms style current : List Char),
    commandsOf "STP_CONFIG".toList [s, pins, spr, ms, style, current] =
      .ok [(.stpPins, [s, pins]), (.stpSetsteps, [s, spr]), (.stpSetmicro, [s, ms]), (.stpSetstyle, [s, style]),
           (.stpSetcurrent, [s, current]), (.stpInit, [s])]

/-! ### Frequencies and rates (`40_driver.md`, `41_stepper_config.md`) -/

/-- R131: the prescale of a rate code, and which codes are in range. -/
def Obligations.PrescaleFormula : Prop :=
  ∀ b : W32, b ≠ 0#32 →
    (computePrescale b : ℤ) = ⌈(25000000 * 65536 : ℚ) / (4096 * (b.toNat : ℚ)) - 1⌉ ∧
    (computePrescale b : ℤ) = ⌈(400000000 : ℚ) / (b.toNat : ℚ)⌉ - 1 ∧
    (computePrescale b ≤ 255 ↔ 1562500 ≤ b.toNat)

/-- R133: the ceiling never gives a frequency above the request, and by how much it may fall short. -/
def Obligations.PrescaleRounding : Prop :=
  ∀ b : W32, 1562500 ≤ b.toNat →
    let f : ℚ := (b.toNat : ℚ) / 65536
    let x : ℚ := 400000000 / (b.toNat : ℚ)
    let g : ℚ := computeFreq (BitVec.ofNat 8 (computePrescale b))
    f * x / (x + 1) < g ∧ g ≤ f ∧ (g = f ↔ ∃ n : ℤ, x = (n : ℚ))

/-- R132: the frequency of a prescale, delivered as a reduced fraction. -/
def Obligations.FrequencyFormula : Prop :=
  ∀ p : Byte,
    computeFreq p = 25000000 / (((p.toNat : ℚ) + 1) * 4096) ∧
    computeFreq p = 390625 / (64 * ((p.toNat : ℚ) + 1)) ∧
    ((fraction (computeFreq p)).num.toNat : ℚ) / ((fraction (computeFreq p)).den.toNat : ℚ) = computeFreq p ∧
    Nat.gcd (fraction (computeFreq p)).num.toNat (fraction (computeFreq p)).den.toNat = 1

/-- R104: every rational the block can deliver fits its fields, and is delivered reduced with a positive denominator; an unset one
is delivered as 0/0. -/
def Obligations.FractionsFit : Prop :=
  (∀ q : ℚ, 0 ≤ q → q.num < 2 ^ 64 → q.den < 2 ^ 64 →
    ((fractionOpt (some q)).num.toNat : ℤ) = q.num ∧ (fractionOpt (some q)).den.toNat = q.den ∧
    1 ≤ (fractionOpt (some q)).den.toNat ∧
    Nat.gcd (fractionOpt (some q)).num.toNat (fractionOpt (some q)).den.toNat = 1) ∧
  fractionOpt none = { num := 0#64, den := 0#64 } ∧
  (∀ p : Byte, 0 < computeFreq p ∧ (computeFreq p).num ≤ 390625 ∧ (computeFreq p).den < 2 ^ 64) ∧
  (∀ (c : StepperConfig) (q : ℚ), (c.withRates.stepFreq = some q ∨ c.withRates.pulseFreq = some q) →
    0 ≤ q ∧ q.num < 2 ^ 55 ∧ q.den < 2 ^ 64) ∧
  (∀ (c : StepperConfig) (q : ℚ), pulsePeriod c.withRates = some q →
    0 ≤ q ∧ q.num ≤ 1000 * 65536 * 60 ∧ q.den < 2 ^ 64)

/-- R169: the converter, with the multiplier of each style written out; the microstep multiplier is twice the microsteps. -/
def Obligations.ConverterTable : Prop :=
  ∀ (c : StepperConfig),
    (c.style = none ∨ c.speedUnit = none ∨ c.speedValue = none → recompute c = (none, none)) ∧
    (c.style = some .microstep → c.ms = none → recompute c = (none, none)) ∧
    (c.speedUnit = some .rpm → c.spr = none → recompute c = (none, none)) ∧
    ∀ (st : Style) (b : W32) (m : ℕ), c.style = some st → c.speedValue = some b →
      (st ≠ .microstep ∨ ∃ u, c.ms = some u ∧ m = u.count) →
      let v : ℚ := (b.toNat : ℚ) / 65536
      let K : ℚ := match st with
        | .single => 1
        | .double => 1
        | .interleaved => 2
        | .microstep => 2 * m
      (∀ n, c.speedUnit = some .rpm → c.spr = some n →
        recompute c = (some (v * n.toNat / 60), some (v * n.toNat * K / 60))) ∧
      (c.speedUnit = some .sps → recompute c = (some v, some (v * K))) ∧
      (c.speedUnit = some .pps → recompute c = (some (v / K), some v))

/-- R174: converting a target to rates and back reproduces it exactly. -/
def Obligations.ConverterRoundTrip : Prop :=
  ∀ (c : StepperConfig) (st : Style) (b : W32) (f g : ℚ), c.style = some st → c.speedValue = some b →
    recompute c = (some f, some g) →
    let v : ℚ := (b.toNat : ℚ) / 65536
    (∀ n, c.speedUnit = some .rpm → c.spr = some n → n ≠ 0#16 →
      f * 60 / n.toNat = v ∧
      ∀ m, microMult st c.ms = some m → g * 60 / (n.toNat * (halfMult st : ℚ) * (m : ℚ)) = v) ∧
    (c.speedUnit = some .sps → f = v) ∧
    (c.speedUnit = some .pps → g = v)

/-! ### The sequencer (`42_stepper_motion.md`) -/

/-- R201: the phase advance, from any phase, with the increment of each style. -/
def Obligations.AdvanceFormula : Prop :=
  ∀ (p : BitVec 6) (d : Dir) (st : Style) (ms : Micro),
    let inc : ℤ := match st with
      | .single => ms.count
      | .double => ms.count
      | .interleaved => ms.count / 2
      | .microstep => 1
    ((advance p d st ms).toNat : ℤ) =
      ((p.toNat : ℤ) + (if d = .fwd then inc else -inc) + 4 * ms.count) % (4 * ms.count)

/-- R222 item 2: any number of steps forward and as many back return a phase in range to itself, and so the other way round. -/
def Obligations.AdvanceRoundTrip : Prop :=
  ∀ (n : ℕ) (p : BitVec 6) (st : Style) (ms : Micro), p.toNat < 4 * ms.count →
    (fun q => advance q .back st ms)^[n] ((fun q => advance q .fwd st ms)^[n] p) = p ∧
    (fun q => advance q .fwd st ms)^[n] ((fun q => advance q .back st ms)^[n] p) = p

/-- R202 to R205: the coil vector of each style at every phase in range, with the coil table of R200 as D27 decides it, the model's
fixed table (log entry 21), and the curve of R173. -/
def Obligations.CoilVectors : Prop :=
  ∀ (p : BitVec 6) (ms : Micro), p.toNat < 4 * ms.count →
    let table : List (Bool × Bool × Bool × Bool) :=
      [(true, false, false, false), (true, true, false, false), (false, true, false, false), (false, true, true, false),
       (false, false, true, false), (false, false, true, true), (false, false, false, true), (true, false, false, true)]
    let coils := fun (v : CoilVector) => (v.a1, v.a2, v.b1, v.b2)
    let h := ms.count / 2
    let q := p.toNat / ms.count
    let r := p.toNat % ms.count
    (∀ st, st = .single ∨ st = .interleaved →
      table[p.toNat / h]? = some (coils (vectorOf st p ms)) ∧
      (vectorOf st p ms).pwmA = 255#8 ∧ (vectorOf st p ms).pwmB = 255#8) ∧
    (table[(p.toNat + h) % (4 * ms.count) / h]? = some (coils (vectorOf .double p ms)) ∧
      (vectorOf .double p ms).pwmA = 255#8 ∧ (vectorOf .double p ms).pwmB = 255#8) ∧
    (table[2 * q + 1]? = some (coils (vectorOf .microstep p ms)) ∧
      (vectorOf .microstep p ms).pwmA = curveAt ms (if q % 2 = 0 then r else ms.count - r) ∧
      (vectorOf .microstep p ms).pwmB = curveAt ms (if q % 2 = 0 then ms.count - r else r)) ∧
    (ms = .eight → ∀ n, n ≤ 8 → [0#8, 50#8, 98#8, 142#8, 180#8, 212#8, 236#8, 250#8, 255#8][n]? = some (curveAt ms n))

/-- R206: the scaled duty is the floor of the exact product; it is at most 4080, full duty at full current is 4080, and half the
current halves every duty. -/
def Obligations.DutyScaling : Prop :=
  ∀ (d : Byte) (cur : BitVec 16), cur.toNat ≤ 32768 →
    ((scaleDuty cur d).toNat : ℤ) = ⌊(d.toNat : ℚ) * 16 * (cur.toNat : ℚ) / 32768⌋ ∧
    (scaleDuty cur d).toNat ≤ 4080 ∧
    (scaleDuty 32768#16 255#8).toNat = 4080 ∧
    2 * (scaleDuty 16384#16 d).toNat = (scaleDuty 32768#16 d).toNat

/-- R207, R208: the six pins of a vector write in coil-vector order: PWM pins with on tick 0 and the scaled duty as off tick and
cached value, coil pins fully on or fully off with the digital state cached. -/
def Obligations.VectorPins : Prop :=
  ∀ (r : Ready) (v : CoilVector),
    (vectorTasks r v).map PinTask.role = [.pwma, .pwmb, .a1, .a2, .b1, .b2] ∧
    ∀ t, t ∈ vectorTasks r v →
      t.chan = r.pins.get t.role ∧
      (∀ d, (t.role = .pwma ∧ d = v.pwmA) ∨ (t.role = .pwmb ∧ d = v.pwmB) →
        t.on = 0#13 ∧ t.off = scaleDuty r.current d ∧ t.value = scaleDuty r.current d) ∧
      (∀ b, (t.role = .a1 ∧ b = v.a1) ∨ (t.role = .a2 ∧ b = v.a2) ∨ (t.role = .b1 ∧ b = v.b1) ∨ (t.role = .b2 ∧ b = v.b2) →
        (b = true → t.on = 4096#13 ∧ t.off = 0#13 ∧ t.value = 1#13) ∧
        (b = false → t.on = 0#13 ∧ t.off = 4096#13 ∧ t.value = 0#13))

/-! ### Reset and the host's side (`10_state.md`, `40_driver.md`, `60_exceptions.md`, `70_reset_and_hazards.md`) -/

/-- R42: the value of every element after a hardware reset (the two times the rule leaves unspecified, and the model's own fields,
are not in it); and every invariant stated below holds there. -/
def Obligations.ResetValues : Prop :=
  let s := State.reset
  s.img.busOpen = false ∧ s.img.initialised = false ∧ s.img.prescale = none ∧
  (∀ c, s.img.onTick c = none ∧ s.img.offTick c = none) ∧
  (∀ i,
    (s.stepper i).cfg =
      { pin := none, spr := none, ms := none, style := none, current := none, speedUnit := none, speedValue := none,
        initialised := false, stepFreq := none, pulseFreq := none } ∧
    (s.stepper i).motion = { phase := 0#6, pulsing := false, retried := 0#32 } ∧
    (s.stepper i).run =
      { running := false, runNB := false, runDir := .fwd, runCount := 0#32, issued := 0#32, done := 0#32, k := 0#32,
        stopReq := false, runTicket := 0#16, t0 := (s.stepper i).run.t0 } ∧
    ∀ r, (s.stepper i).cache.get r = none) ∧
  s.nextTicket = 0#16 ∧ s.cmdq = [] ∧ s.cmplq = [] ∧ s.bus.reqq = [] ∧ s.cp = .idle ∧ s.hostWait = none ∧
  s.bus.inflight = none ∧ s.bus.lock = false ∧ s.mixedMode = false ∧
  PhaseInv s ∧ RatesInv s ∧ ConfigInv s ∧ ValuesInv s ∧ RunInv s ∧ BusInv s ∧ CpInv s ∧ QueueInv s

/-- R290: when the host asserts and releases `rst`, from any state, every element takes its reset value, queued and running
commands are gone without a response, and no bus transaction happens. So too where `rst` falls while a command that has passed its
checks and has bus transactions to make is in the CP: the command is discarded before its first transaction. What the outside has seen
and the clock are not state of the block; at which points inside a command `rst` may fall is log entry 5. -/
def Obligations.HardwareReset : Prop :=
  (∀ (s : State) (acts : List HostAct) (more : List Agent), s.host = .rst :: acts → s.env.turns = .background .host :: more →
    ∃ t, step s = .next t ∧ AtReset t ∧ t.trace = s.trace ∧ t.sync = s.sync ∧ t.popped = s.popped ∧ t.host = acts) ∧
  (∀ (i : Instr) (s : State) (tk : Ticket) (acts : List HostAct) (more : List (List Background)), s.inCommand tk →
    s.host = .rst :: acts → s.env.bursts = [.host] :: more → execCheck s i = none → program s s.answerAt i ≠ [] →
    ∃ t, exec i s = .next t ∧ AtReset t ∧ t.trace = s.trace ∧ t.sync = s.sync ∧ t.popped = s.popped ∧ t.host = acts)

/-- R120: what a submission does: the ticket; the immediate rejection in both modes; the queue, with the port stalling while it is
full or a blocking command is awaited; the acknowledgement of a non-blocking command; the wait for a blocking one. That a rejected word is
answered while `cmdq` is full (log entry 15), that a stalled word uses no ticket (log entry 16), and that the acknowledgement's result
fields are 0 for every opcode (R103; log entry 30) are the model's readings. -/
def Obligations.Submission : Prop :=
  ∀ (s : State) (w : CmdWord),
    (s.hostWait ≠ none → s.submit w = none) ∧
    (s.hostWait = none →
      (∀ why, decode w = .error why →
        s.submit w = some { s with
          nextTicket := s.nextTicket + 1#16,
          sync := validationRecord s.nextTicket (wordOp w) (reasonCode why) :: s.sync }) ∧
      (∀ i, decode w = .ok i → Config.cmdqDepth ≤ s.cmdq.length → s.submit w = none) ∧
      (∀ i, decode w = .ok i → s.cmdq.length < Config.cmdqDepth →
        (wordNb w = true → s.submit w = some { s with
          nextTicket := s.nextTicket + 1#16,
          cmdq := s.cmdq ++ [{ ticket := s.nextTicket, word := w }],
          sync := { ticket := s.nextTicket, op := wordOp w, status := .accepted, reason := 0#8, busKind := 0#3,
                    busReg := 0#8, result := zeroResult (wordOp w) } :: s.sync }) ∧
        (wordNb w = false → s.submit w = some { s with
          nextTicket := s.nextTicket + 1#16,
          cmdq := s.cmdq ++ [{ ticket := s.nextTicket, word := w }],
          hostWait := some s.nextTicket })))

/-- R258: the host pops the head of `cmplq` (and waits while it is empty); the CP takes no command while `cmplq` is full; a record
that the CP or a run engine holds is appended when there is room and not before, and only then is the CP idle or the run over. That the
host pops while it waits for a blocking command, too, is the model's choice (log entry 34). -/
def Obligations.CompletionQueue : Prop :=
  ∀ s : State,
    (∀ r rest acts more, s.cmplq = r :: rest → s.host = .pop :: acts → s.env.turns = .background .host :: more →
      step s = .next { s with
        cmplq := rest, popped := r :: s.popped, host := acts, env := { s.env with turns := more } }) ∧
    (∀ acts more, s.cmplq = [] → s.host = .pop :: acts → s.env.turns = .background .host :: more →
      step s = .next { s with env := { s.env with turns := more } }) ∧
    (∀ more, Config.cmplqDepth ≤ s.cmplq.length → s.env.turns = .cp :: more →
      step s = .next { s with env := { s.env with turns := more } }) ∧
    (∀ r more, s.cpHeld = some r → s.cmplq.length < Config.cmplqDepth → s.env.turns = .cp :: more →
      step s = .next { s with
        cmplq := s.cmplq ++ [r], cpHeld := none, cp := .idle, env := { s.env with turns := more } }) ∧
    (∀ i r t, (s.stepper i).held = some r → Moves (.engine i) s t →
      (s.cmplq.length < Config.cmplqDepth → t.cmplq = s.cmplq ++ [r] ∧ (t.stepper i).held = none ∧
        (t.stepper i).run.running = false) ∧
      (Config.cmplqDepth ≤ s.cmplq.length → t.cmplq = s.cmplq ∧ t.stp = s.stp))

/-- R121: a step of the idle CP takes the head of `cmdq` and runs the command it decodes to: the step is that command's `exec`, on
the state in which the CP holds the command. That one step of the machine is the whole command, with the other agents' steps inside it, is
the model's choice (log entry 5). -/
def Obligations.StepRunsCommand : Prop :=
  ∀ (s : State) (q : Queued) (rest : List Queued) (more : List Agent) (i : Instr),
    s.env.turns = .cp :: more → s.cp = .idle → s.cpHeld = none → s.cmplq.length < Config.cmplqDepth →
    s.cmdq = q :: rest → decode q.word = .ok i →
    step s = exec i { s with cmdq := rest, cp := .busy q.ticket q.word 0, env := { s.env with turns := more } }

/-! ### Checks (`40_driver.md` R122, `42_stepper_motion.md` R221, `60_exceptions.md` R254, R255) -/

/-- R121, R122, R221, R254, R255: the first failing execution-time check of a command is its response, and the command changes
nothing else; R103: the result fields of a response that is not OK, written out, are 0. -/
def Obligations.FailedCheck : Prop :=
  (∀ (i : Instr) (s : State) (tk : Ticket) (why : Reason), s.inCommand tk → execCheck s i = some why →
    ∃ t, exec i s = .next t ∧ NoEffect s t ∧ Responded s t i.nb (validationRecord tk i.opcode.code (reasonCode why))) ∧
  (let zero : Fraction := { num := 0#64, den := 0#64 }
   zeroResult 0x04#8 = .freq 0#8 zero ∧ zeroResult 0x18#8 = .phase 0#6 ∧
   zeroResult 0x19#8 = .run { steps := 0#32, dir := .fwd, durationMs := 0#32, retried := 0#32, stopped := false } ∧
   zeroResult 0x1D#8 = .rates { unit := 0#2, value := 0#32, step := zero, pulse := zero, period := zero } ∧
   (∃ r, zeroResult 0x1C#8 = .status r ∧ r.pinsSet = false ∧ (∀ x, r.pin.get x = 0#4 ∧ r.cache.get x = 0#13) ∧ r.spr = 0#16 ∧
     r.ms = 0#5 ∧ r.style = 0#3 ∧ r.current = 0#16 ∧ r.phase = 0#6 ∧ r.initialised = false ∧ r.pulsing = false ∧
     r.running = false ∧ r.runNB = false ∧ r.runDir = 0#1 ∧ r.stopReq = false ∧ r.runCount = 0#32 ∧ r.issued = 0#32 ∧
     r.done = 0#32 ∧ r.retried = 0#32 ∧ r.k = 0#32 ∧ r.cacheValid = 0#6 ∧ r.drvInitialised = false ∧ r.busOpen = false) ∧
   ∀ op : Byte, op.toNat ∉ [0x04, 0x18, 0x19, 0x1C, 0x1D] → zeroResult op = .none)

/-! ### Configuration commands (`41_stepper_config.md`) -/

/-- R162: `STP_SETSTEPS`. -/
def Obligations.SetSteps : Prop :=
  ∀ (nb : Bool) (k : StepperId),
    (∀ b : W32, decode (buildWord 0x11#8 nb (stepperTgt k) 0#16 b) =
      if b.toNat = 0 ∨ 65535 < b.toNat then .error .badSteps else .ok (.stpSetsteps nb k (BitVec.ofNat 16 b.toNat))) ∧
    ∀ (s : State) (tk : Ticket) (n : BitVec 16), s.inCommand tk →
      ((s.stepper k).run.running = true ∨ (s.stepper k).motion.pulsing = true →
        TurnedAway (.stpSetsteps nb k n) s tk 0x11#8 19#8) ∧
      ((s.stepper k).run.running = false → (s.stepper k).motion.pulsing = false →
        ∃ t, exec (.stpSetsteps nb k n) s = .next t ∧
          (let c : StepperConfig := { (s.stepper k).cfg with spr := some n }
           t.stepper k = { s.stepper k with
             cfg := { c with stepFreq := (recompute c).1, pulseFreq := (recompute c).2 } }) ∧
          OthersKept k s t ∧ LocalEffect s t ∧ Responded s t nb (okRecord tk 0x11#8 .none))

/-- R163: `STP_SETMICRO`. The phase is reduced modulo `4*ms`. -/
def Obligations.SetMicro : Prop :=
  ∀ (nb : Bool) (k : StepperId),
    (∀ b : W32, decode (buildWord 0x12#8 nb (stepperTgt k) 0#16 b) =
      if b.toNat = 8 then .ok (.stpSetmicro nb k .eight) else if b.toNat = 16 then .ok (.stpSetmicro nb k .sixteen)
      else .error .badMicrosteps) ∧
    ∀ (s : State) (tk : Ticket) (ms : Micro), s.inCommand tk →
      ((s.stepper k).run.running = true ∨ (s.stepper k).motion.pulsing = true →
        TurnedAway (.stpSetmicro nb k ms) s tk 0x12#8 19#8) ∧
      ((s.stepper k).run.running = false → (s.stepper k).motion.pulsing = false →
        ∃ t, exec (.stpSetmicro nb k ms) s = .next t ∧
          (let c : StepperConfig := { (s.stepper k).cfg with ms := some ms }
           t.stepper k = { s.stepper k with
             cfg := { c with stepFreq := (recompute c).1, pulseFreq := (recompute c).2 },
             motion := { (s.stepper k).motion with phase := (t.stepper k).motion.phase } }) ∧
          (t.stepper k).motion.phase.toNat = (s.stepper k).motion.phase.toNat % (4 * ms.count) ∧
          OthersKept k s t ∧ LocalEffect s t ∧ Responded s t nb (okRecord tk 0x12#8 .none))

/-- R164: `STP_SETSTYLE`. The phase is not realigned. -/
def Obligations.SetStyle : Prop :=
  ∀ (nb : Bool) (k : StepperId),
    (∀ b : W32, decode (buildWord 0x13#8 nb (stepperTgt k) 0#16 b) =
      match b.toNat with
      | 0 => .ok (.stpSetstyle nb k .single)
      | 1 => .ok (.stpSetstyle nb k .double)
      | 2 => .ok (.stpSetstyle nb k .interleaved)
      | 3 => .ok (.stpSetstyle nb k .microstep)
      | _ => .error .badStyle) ∧
    ∀ (s : State) (tk : Ticket) (st : Style), s.inCommand tk →
      ((s.stepper k).run.running = true ∨ (s.stepper k).motion.pulsing = true →
        TurnedAway (.stpSetstyle nb k st) s tk 0x13#8 19#8) ∧
      ((s.stepper k).run.running = false → (s.stepper k).motion.pulsing = false →
        ∃ t, exec (.stpSetstyle nb k st) s = .next t ∧
          (let c : StepperConfig := { (s.stepper k).cfg with style := some st }
           t.stepper k = { s.stepper k with
             cfg := { c with stepFreq := (recompute c).1, pulseFreq := (recompute c).2 } }) ∧
          OthersKept k s t ∧ LocalEffect s t ∧ Responded s t nb (okRecord tk 0x13#8 .none))

/-- R165: `STP_SETCURRENT`. Neither the bus nor the cache is touched. -/
def Obligations.SetCurrent : Prop :=
  ∀ (nb : Bool) (k : StepperId),
    (∀ b : W32, decode (buildWord 0x14#8 nb (stepperTgt k) 0#16 b) =
      if 32768 < b.toNat then .error .badCurrent else .ok (.stpSetcurrent nb k (BitVec.ofNat 16 b.toNat))) ∧
    ∀ (s : State) (tk : Ticket) (cur : BitVec 16), s.inCommand tk →
      ((s.stepper k).run.running = true ∨ (s.stepper k).motion.pulsing = true →
        TurnedAway (.stpSetcurrent nb k cur) s tk 0x14#8 19#8) ∧
      ((s.stepper k).run.running = false → (s.stepper k).motion.pulsing = false →
        ∃ t, exec (.stpSetcurrent nb k cur) s = .next t ∧
          t.stepper k = { s.stepper k with cfg := { (s.stepper k).cfg with current := some cur } } ∧
          OthersKept k s t ∧ LocalEffect s t ∧ Responded s t nb (okRecord tk 0x14#8 .none))

/-- R166: `STP_SETSPEED`. The new target replaces the old one entirely. -/
def Obligations.SetSpeed : Prop :=
  ∀ (nb : Bool) (k : StepperId),
    (∀ (a : BitVec 16) (b : W32), decode (buildWord 0x15#8 nb (stepperTgt k) a b) =
      if 8 ≤ a.toNat then .error .reservedBits
      else if a.toNat ≠ 1 ∧ a.toNat ≠ 2 ∧ a.toNat ≠ 4 then .error .badSpeedUnit
      else if b.toNat = 0 then .error .badSpeedValue
      else .ok (.stpSetspeed nb k (if a.toNat = 1 then .pps else if a.toNat = 2 then .rpm else .sps) b)) ∧
    ∀ (s : State) (tk : Ticket) (u : SpeedUnit) (v : W32), s.inCommand tk →
      ((s.stepper k).run.running = true ∨ (s.stepper k).motion.pulsing = true →
        TurnedAway (.stpSetspeed nb k u v) s tk 0x15#8 19#8) ∧
      ((s.stepper k).run.running = false → (s.stepper k).motion.pulsing = false →
        ∃ t, exec (.stpSetspeed nb k u v) s = .next t ∧
          (let c : StepperConfig := { (s.stepper k).cfg with speedUnit := some u, speedValue := some v }
           t.stepper k = { s.stepper k with
             cfg := { c with stepFreq := (recompute c).1, pulseFreq := (recompute c).2 } }) ∧
          OthersKept k s t ∧ LocalEffect s t ∧ Responded s t nb (okRecord tk 0x15#8 .none))

/-- R161: `STP_PINS`: the checks of the pins at submission and at execution, and the construction of the stepper. -/
def Obligations.SetPins : Prop :=
  ∀ (nb : Bool) (k : StepperId),
    (∀ b : W32, decode (buildWord 0x10#8 nb (stepperTgt k) 0#16 b) =
      (let n := fun j => BitVec.ofNat 4 (b.toNat / 16 ^ j)
       if 2 ^ 24 ≤ b.toNat then .error .reservedBits
       else if ¬ [n 0, n 1, n 2, n 3, n 4, n 5].Nodup then .error .badPins
       else .ok (.stpPins nb k { pwma := n 0, a1 := n 1, a2 := n 2, pwmb := n 3, b1 := n 4, b2 := n 5 }))) ∧
    ∀ (s : State) (tk : Ticket) (p : Pins), s.inCommand tk →
      ((s.stepper k).run.running = true ∨ (s.stepper k).motion.pulsing = true →
        TurnedAway (.stpPins nb k p) s tk 0x10#8 19#8) ∧
      ((s.stepper k).run.running = false → (s.stepper k).motion.pulsing = false →
        ((∃ j q, j ≠ k ∧ (s.stepper j).cfg.pin = some q ∧ ∃ x y, p.get x = q.get y) →
          TurnedAway (.stpPins nb k p) s tk 0x10#8 15#8) ∧
        ((∀ j q, j ≠ k → (s.stepper j).cfg.pin = some q → ∀ x y, p.get x ≠ q.get y) →
          ∃ t, exec (.stpPins nb k p) s = .next t ∧
            t.stepper k = { s.stepper k with
              cfg := { (s.stepper k).cfg with pin := some p, initialised := false },
              motion := { (s.stepper k).motion with phase := 0#6, retried := 0#32 },
              cache := { pwma := none, a1 := none, a2 := none, pwmb := none, b1 := none, b2 := none } } ∧
            OthersKept k s t ∧ LocalEffect s t ∧ Responded s t nb (okRecord tk 0x10#8 .none)))

/-- R168: `STP_INIT`: its checks in order, and its effect; no bus I/O, and neither the phase nor the cache changes. -/
def Obligations.StepperInit : Prop :=
  ∀ (nb : Bool) (k : StepperId) (s : State) (tk : Ticket), s.inCommand tk →
    ((s.stepper k).run.running = true ∨ (s.stepper k).motion.pulsing = true →
      TurnedAway (.stpInit nb k) s tk 0x17#8 19#8) ∧
    ((s.stepper k).run.running = false → (s.stepper k).motion.pulsing = false →
      let c := (s.stepper k).cfg
      (c.pin = none ∨ c.spr = none ∨ c.ms = none ∨ c.style = none ∨ c.current = none →
        TurnedAway (.stpInit nb k) s tk 0x17#8 17#8) ∧
      (c.pin ≠ none → c.spr ≠ none → c.ms ≠ none → c.style ≠ none → c.current ≠ none →
        ∃ t, exec (.stpInit nb k) s = .next t ∧
          t.stepper k = { s.stepper k with
            cfg := { c with initialised := true, stepFreq := (recompute c).1, pulseFreq := (recompute c).2 } } ∧
          OthersKept k s t ∧ LocalEffect s t ∧ Responded s t nb (okRecord tk 0x17#8 .none)))

/-! ### Reports (`40_driver.md` R126, `42_stepper_motion.md` R219, R220) -/

/-- R126: `DRV_GETFREQ` answers from the cached prescale, or `FREQ_UNSET`; it writes nothing and does no bus I/O. -/
def Obligations.GetFreq : Prop :=
  ∀ (nb : Bool) (s : State) (tk : Ticket), s.inCommand tk →
    (s.img.prescale = none → TurnedAway (.drvGetfreq nb) s tk 0x04#8 20#8) ∧
    ∀ p, s.img.prescale = some p →
      ∃ t, exec (.drvGetfreq nb) s = .next t ∧ NoEffect s t ∧
        Responded s t nb (okRecord tk 0x04#8 (.freq p (fraction (25000000 / (((p.toNat : ℚ) + 1) * 4096)))))

/-- R219: `STP_STATUS` reports every field of its table, an unset field in that table's encoding, and changes nothing; and, as R262
says, the count of ticks `k`, which R219's table does not have (log entry 29). -/
def Obligations.StatusSnapshot : Prop :=
  ∀ (nb : Bool) (k : StepperId) (s : State) (tk : Ticket), s.inCommand tk →
    ∃ t r, exec (.stpStatus nb k) s = .next t ∧ NoEffect s t ∧ Responded s t nb (okRecord tk 0x1C#8 (.status r)) ∧
      let st := s.stepper k
      (st.cfg.pin = none → r.pinsSet = false ∧ ∀ x, r.pin.get x = 0#4) ∧
      (∀ p, st.cfg.pin = some p → r.pinsSet = true ∧ r.pin = p) ∧
      (st.cfg.spr = none → r.spr = 0#16) ∧ (∀ n, st.cfg.spr = some n → r.spr = n) ∧
      (st.cfg.ms = none → r.ms = 0#5) ∧ (∀ m, st.cfg.ms = some m → r.ms.toNat = m.count) ∧
      (st.cfg.style = none → r.style = 4#3) ∧
      (∀ y, st.cfg.style = some y → r.style = match y with
        | .single => 0#3
        | .double => 1#3
        | .interleaved => 2#3
        | .microstep => 3#3) ∧
      (st.cfg.current = none → r.current = 0xFFFF#16) ∧ (∀ n, st.cfg.current = some n → r.current = n) ∧
      r.phase = st.motion.phase ∧ r.initialised = st.cfg.initialised ∧ r.pulsing = st.motion.pulsing ∧
      r.running = st.run.running ∧ r.runNB = st.run.runNB ∧ r.runDir = (if st.run.runDir = .fwd then 0#1 else 1#1) ∧
      r.stopReq = st.run.stopReq ∧ r.runCount = st.run.runCount ∧ r.issued = st.run.issued ∧ r.done = st.run.done ∧
      r.retried = st.motion.retried ∧ r.k = st.run.k ∧
      (∀ n x, [Role.pwma, .a1, .a2, .pwmb, .b1, .b2][n]? = some x →
        r.cacheValid.getLsbD n = (st.cache.get x).isSome) ∧
      (∀ x, st.cache.get x = none → r.cache.get x = 0#13) ∧ (∀ x v, st.cache.get x = some v → r.cache.get x = v) ∧
      r.drvInitialised = s.img.initialised ∧ r.busOpen = s.img.busOpen

/-- R220: `STP_GETRATES` reports the target and the derived rates with the period `1000/pulseFreq`, and changes nothing. -/
def Obligations.RatesReport : Prop :=
  ∀ (nb : Bool) (k : StepperId) (s : State) (tk : Ticket), s.inCommand tk →
    ∃ t r, exec (.stpGetrates nb k) s = .next t ∧ NoEffect s t ∧ Responded s t nb (okRecord tk 0x1D#8 (.rates r)) ∧
      let c := (s.stepper k).cfg
      (c.speedUnit = none → r.unit = 0#2) ∧ (c.speedUnit = some .pps → r.unit = 1#2) ∧
      (c.speedUnit = some .rpm → r.unit = 2#2) ∧ (c.speedUnit = some .sps → r.unit = 3#2) ∧
      (c.speedValue = none → r.value = 0#32) ∧ (∀ v, c.speedValue = some v → r.value = v) ∧
      (c.stepFreq = none → r.step = { num := 0#64, den := 0#64 }) ∧ (∀ q, c.stepFreq = some q → r.step = fraction q) ∧
      (c.pulseFreq = none → r.pulse = { num := 0#64, den := 0#64 } ∧ r.period = { num := 0#64, den := 0#64 }) ∧
      (∀ q, c.pulseFreq = some q → r.pulse = fraction q ∧ r.period = fraction (1000 / q))

/-! ### Driver commands on a bus no other agent uses (`40_driver.md`) -/

/-- R123, R69, R256: `DRV_INIT`, whatever the transport answers: the trace is its sequence up to the first failure; the bus is open
once the open has completed; all ticks are 0 once the four writes of the all-channel group have; the initialised flag is set exactly
when the whole sequence has completed; and no sooner than its two settles allow. -/
def Obligations.DriverInit : Prop :=
  ∀ (nb : Bool) (s : State) (tk : Ticket), s.inCommand tk → s.anyRunning = false → s.quiet →
    ∃ t, exec (.drvInit nb) s = .next t ∧
      let ans := s.answerAt
      let p := play ans 0 (initItems (ans 7).byte)
      TraceGrows s t p.1 ∧ t.stp = s.stp ∧
      t.img.busOpen = (s.img.busOpen || (ans 0).ok) ∧ t.img.initialised = p.2.isNone ∧ t.img.prescale = s.img.prescale ∧
      (s.answersOk 5 → ∀ c, t.img.onTick c = some 0#13 ∧ t.img.offTick c = some 0#13) ∧
      (¬ s.answersOk 5 → ∀ c, t.img.onTick c = s.img.onTick c ∧ t.img.offTick c = s.img.offTick c) ∧
      (p.2 = none → s.now + 10 ≤ t.now) ∧
      BusFreed t ∧ t.mixedMode = s.mixedMode ∧ HostSideKept s t ∧
      Responded s t nb (sequenceRecord tk 0x01#8 .none p.2)

/-- R124, R256: `DRV_RESET`: one broadcast; once it is out the block knows nothing of the chip and every cache is empty, while the
configurations and phases stay; a failed broadcast changes nothing. -/
def Obligations.DriverReset : Prop :=
  ∀ (nb : Bool) (s : State) (tk : Ticket), s.inCommand tk → s.img.busOpen = true → s.anyRunning = false → s.quiet →
    ∃ t, exec (.drvReset nb) s = .next t ∧
      let p := play s.answerAt 0 resetItems
      TraceGrows s t p.1 ∧ t.img.busOpen = s.img.busOpen ∧
      ((s.answerAt 0).ok = true → t.img.initialised = false ∧ t.img.prescale = none ∧
        (∀ c, t.img.onTick c = none ∧ t.img.offTick c = none) ∧
        ∀ i, t.stepper i = { s.stepper i with
          cache := { pwma := none, a1 := none, a2 := none, pwmb := none, b1 := none, b2 := none } }) ∧
      ((s.answerAt 0).ok = false → t.img = s.img ∧ t.stp = s.stp) ∧
      BusFreed t ∧ t.mixedMode = s.mixedMode ∧ HostSideKept s t ∧
      Responded s t nb (sequenceRecord tk 0x02#8 .none p.2)

/-- R125, R167, R256: `DRV_SETFREQ` and `STP_SETFREQ` have the same sequence and the same effect: the prescale is the new one
exactly when its write has completed, and nothing else changes. -/
def Obligations.SetFrequency : Prop :=
  ∀ (i : Instr) (nb : Bool) (rate : W32) (k : StepperId) (s : State) (tk : Ticket),
    i = .drvSetfreq nb rate ∨ i = .stpSetfreq nb k rate →
    s.inCommand tk → s.img.initialised = true → s.quiet →
    ∃ t, exec i s = .next t ∧
      let ans := s.answerAt
      let v : Byte := BitVec.ofNat 8 (computePrescale rate)
      let p := play ans 0 (freqItems v (ans 0).byte)
      TraceGrows s t p.1 ∧ t.stp = s.stp ∧
      (s.answersOk 3 → t.img = { s.img with prescale := some v }) ∧ (¬ s.answersOk 3 → t.img = s.img) ∧
      (p.2 = none → s.now + 5 ≤ t.now) ∧
      BusFreed t ∧ t.mixedMode = s.mixedMode ∧ HostSideKept s t ∧
      Responded s t nb (sequenceRecord tk i.opcode.code .none p.2)

/-- R127, R128, R64, R256: `DRV_SETCHAN` always writes its four bytes; the image takes the ticks when all four are confirmed; no
cache is touched. `DRV_SETPIN` does exactly this with (4096, 0) for fully on and (0, 4096) for fully off. -/
def Obligations.SetChannel : Prop :=
  ∀ (i : Instr) (nb : Bool) (c : Chan) (on off : Tick) (s : State) (tk : Ticket),
    (i = .drvSetchan nb c on off ∨ (i = .drvSetpin nb c true ∧ on = 4096#13 ∧ off = 0#13) ∨
      (i = .drvSetpin nb c false ∧ on = 0#13 ∧ off = 4096#13)) →
    s.inCommand tk → s.img.initialised = true → s.quiet →
    ∃ t, exec i s = .next t ∧
      let p := play s.answerAt 0 (pinItems c on off)
      TraceGrows s t p.1 ∧ t.stp = s.stp ∧
      (p.2 = none → ChannelsWritten s.img t.img (fun x => x = c) on off) ∧ (p.2 ≠ none → t.img = s.img) ∧
      BusFreed t ∧ t.mixedMode = s.mixedMode ∧ HostSideKept s t ∧
      Responded s t nb (sequenceRecord tk i.opcode.code .none p.2)

/-- R129: `DRV_SETALL` writes the all-channel group; all 16 image slots take the ticks when all four writes are confirmed. -/
def Obligations.SetAll : Prop :=
  ∀ (nb : Bool) (on off : Tick) (s : State) (tk : Ticket),
    s.inCommand tk → s.img.initialised = true → s.quiet →
    ∃ t, exec (.drvSetall nb on off) s = .next t ∧
      let p := play s.answerAt 0 (allItems on off)
      TraceGrows s t p.1 ∧ t.stp = s.stp ∧
      (p.2 = none → ChannelsWritten s.img t.img (fun _ => true) on off) ∧ (p.2 ≠ none → t.img = s.img) ∧
      BusFreed t ∧ t.mixedMode = s.mixedMode ∧ HostSideKept s t ∧
      Responded s t nb (sequenceRecord tk 0x07#8 .none p.2)

/-! ### Motion commands (`42_stepper_motion.md`) -/

/-- R210, R207 to R209, R216: `STP_ONESTEP` advances the phase, then writes exactly the pins of the new vector that differ from the
cache; cache and image take the confirmed pins; the phase stays advanced after a bus error. -/
def Obligations.OneStep : Prop :=
  ∀ (nb : Bool) (k : StepperId) (d : Dir) (r : Ready) (s : State) (tk : Ticket),
    s.inCommand tk → s.img.initialised = true → (s.stepper k).cfg.ready = some r →
    (s.stepper k).run.running = false → (s.stepper k).motion.pulsing = false → s.quiet →
    ∃ t, exec (.stpOnestep nb k d) s = .next t ∧
      let st := s.stepper k
      let phase := advance st.motion.phase d r.style r.ms
      let pins := changedTasks st.cache (stepTasks r phase)
      let p := play s.answerAt 0 (taskItems pins)
      let got := confirmedTasks s.answerAt 0 pins
      TraceGrows s t p.1 ∧
      t.stepper k = { st with motion := { st.motion with phase := phase }, cache := cacheWith st.cache got } ∧
      OthersKept k s t ∧ t.img = imageWith s.img got ∧ (p.2 = none ↔ got = pins) ∧
      BusFreed t ∧ t.mixedMode = s.mixedMode ∧ HostSideKept s t ∧
      Responded s t nb (sequenceRecord tk 0x18#8 (.phase phase) p.2)

/-- R218: `STP_RELEASE` writes the all-off vector through the lazy layer; the phase is unchanged. -/
def Obligations.Release : Prop :=
  ∀ (nb : Bool) (k : StepperId) (r : Ready) (s : State) (tk : Ticket),
    s.inCommand tk → s.img.initialised = true → (s.stepper k).cfg.ready = some r →
    (s.stepper k).run.running = false → (s.stepper k).motion.pulsing = false → s.quiet →
    ∃ t, exec (.stpRelease nb k) s = .next t ∧
      let st := s.stepper k
      let off : CoilVector := { pwmA := 0#8, pwmB := 0#8, a1 := false, a2 := false, b1 := false, b2 := false }
      let pins := changedTasks st.cache (vectorTasks r off)
      let p := play s.answerAt 0 (taskItems pins)
      let got := confirmedTasks s.answerAt 0 pins
      TraceGrows s t p.1 ∧ t.stepper k = { st with cache := cacheWith st.cache got } ∧
      OthersKept k s t ∧ t.img = imageWith s.img got ∧
      BusFreed t ∧ t.mixedMode = s.mixedMode ∧ HostSideKept s t ∧
      Responded s t nb (sequenceRecord tk 0x1A#8 .none p.2)

/-- R207, R222 item 3: in any state, a vector all of whose values are in the cache issues no transaction and changes neither image
nor cache: `STP_RELEASE` and `STP_ONESTEP` then complete without the bus. -/
def Obligations.UnchangedVectorIsSilent : Prop :=
  ∀ (nb : Bool) (k : StepperId) (d : Dir) (r : Ready) (s : State) (tk : Ticket),
    s.inCommand tk → s.img.initialised = true → (s.stepper k).cfg.ready = some r →
    (s.stepper k).run.running = false → (s.stepper k).motion.pulsing = false →
    ((∀ x, x ∈ vectorTasks r releaseVector → (s.stepper k).cache.get x.role = some x.value) →
      ∃ t, exec (.stpRelease nb k) s = .next t ∧ t.stp = s.stp ∧ t.img = s.img ∧ NoBusIo s t ∧ HostSideKept s t ∧
        Responded s t nb (okRecord tk 0x1A#8 .none)) ∧
    (let phase := advance (s.stepper k).motion.phase d r.style r.ms
     (∀ x, x ∈ stepTasks r phase → (s.stepper k).cache.get x.role = some x.value) →
      ∃ t, exec (.stpOnestep nb k d) s = .next t ∧ t.img = s.img ∧ NoBusIo s t ∧ OthersKept k s t ∧ HostSideKept s t ∧
        t.stepper k = { s.stepper k with motion := { (s.stepper k).motion with phase := phase } } ∧
        Responded s t nb (okRecord tk 0x18#8 (.phase phase)))

/-- R211, R212, R215: a blocking run of `count` steps whose transactions all succeed: the writes of every step in order, image and
cache with every pin of the run, the phase advanced `count` times, no retry, at least `count - 1` periods of time, and the report as
the response. -/
def Obligations.BlockingRun : Prop :=
  ∀ (k : StepperId) (d : Dir) (count : W32) (r : Ready) (period : ℚ) (s : State) (tk : Ticket),
    s.inCommand tk → s.img.initialised = true → (s.stepper k).cfg.ready = some r →
    pulsePeriod (s.stepper k).cfg = some period → 0 ≤ period →
    (s.stepper k).run.running = false → (s.stepper k).motion.pulsing = false → s.quiet →
    s.answersOk (24 * count.toNat) →
    ∃ t ms, exec (.stpStep false k d count) s = .next t ∧
      let st := s.stepper k
      TraceGrows s t (play s.answerAt 0 (runItems r d count.toNat st.motion.phase st.cache)).1 ∧
      t.stepper k = { st with
        motion := { phase := (fun p => advance p d r.style r.ms)^[count.toNat] st.motion.phase, pulsing := false,
                    retried := 0#32 },
        run := { running := false, runNB := false, runDir := d, runCount := count, issued := count, done := count,
                 k := 0#32, stopReq := false, runTicket := tk, t0 := s.now },
        cache := runCache r d count.toNat st.motion.phase st.cache } ∧
      t.img = imageWith s.img (runTasks r d count.toNat st.motion.phase st.cache) ∧ OthersKept k s t ∧
      s.now + ((count.toNat - 1 : ℕ) : ℚ) * period ≤ t.now ∧
      BusFreed t ∧ t.mixedMode = s.mixedMode ∧ HostSideKept s t ∧
      Responded s t false (okRecord tk 0x19#8
        (.run { steps := count, dir := d, durationMs := ms, retried := 0#32, stopped := false }))

/-- R216: a bus error in a blocking run ends the run after `m` completed steps: the response has status BUS with the failing
transaction, and the report of the steps completed; the phase stays advanced for the failed step; image and cache have the pins
confirmed before the failure, and no others. -/
def Obligations.BlockingRunBusError : Prop :=
  ∀ (k : StepperId) (d : Dir) (count : W32) (r : Ready) (m : ℕ) (e : BusError) (s : State) (tk : Ticket),
    s.inCommand tk → s.img.initialised = true → (s.stepper k).cfg.ready = some r → (s.stepper k).cfg.pulseFreq ≠ none →
    (s.stepper k).run.running = false → (s.stepper k).motion.pulsing = false → s.quiet → m < count.toNat →
    (play s.answerAt 0 (runItems r d m (s.stepper k).motion.phase (s.stepper k).cache)).2 = none →
    (play s.answerAt 0 (runItems r d (m + 1) (s.stepper k).motion.phase (s.stepper k).cache)).2 = some e →
    ∃ t ms, exec (.stpStep false k d count) s = .next t ∧
      let st := s.stepper k
      TraceGrows s t (play s.answerAt 0 (runItems r d (m + 1) st.motion.phase st.cache)).1 ∧
      let got := confirmedTasks s.answerAt 0 (runTasks r d (m + 1) st.motion.phase st.cache)
      t.stepper k = { st with
        motion := { phase := (fun p => advance p d r.style r.ms)^[m + 1] st.motion.phase, pulsing := false,
                    retried := 0#32 },
        run := { running := false, runNB := false, runDir := d, runCount := count, issued := BitVec.ofNat 32 (m + 1),
                 done := BitVec.ofNat 32 m, k := 0#32, stopReq := false, runTicket := tk, t0 := s.now },
        cache := cacheWith st.cache got } ∧
      t.img = imageWith s.img got ∧ OthersKept k s t ∧
      BusFreed t ∧ t.mixedMode = s.mixedMode ∧ HostSideKept s t ∧
      Responded s t false (busRecord tk 0x19#8 e
        (.run { steps := BitVec.ofNat 32 m, dir := d, durationMs := ms, retried := 0#32, stopped := false }))

/-- R211: a non-blocking `STP_STEP` of some steps sets the run fields, leaves the run to the run engine, and frees the CP at once,
with no bus I/O and no response yet. One of no steps ends at once with its record in `cmplq`, or held by the run engine while `cmplq`
is full; that the CP is idle then too is the model's reading (log entry 23). -/
def Obligations.BackgroundRunStarts : Prop :=
  ∀ (k : StepperId) (d : Dir) (count : W32) (r : Ready) (s : State) (tk : Ticket),
    s.inCommand tk → s.img.initialised = true → (s.stepper k).cfg.ready = some r → (s.stepper k).cfg.pulseFreq ≠ none →
    (s.stepper k).run.running = false → (s.stepper k).motion.pulsing = false →
    ∃ t, exec (.stpStep true k d count) s = .next t ∧ t.cp = .idle ∧ t.sync = s.sync ∧ t.hostWait = s.hostWait ∧
      t.bus = s.bus ∧ t.trace = s.trace ∧ t.img = s.img ∧ OthersKept k s t ∧ t.mixedMode = s.mixedMode ∧ HostSideKept s t ∧
      (t.stepper k).cfg = (s.stepper k).cfg ∧ (t.stepper k).cache = (s.stepper k).cache ∧
      (t.stepper k).motion = { (s.stepper k).motion with retried := 0#32 } ∧
      (count ≠ 0#32 → t.cmplq = s.cmplq ∧ t.now = s.now ∧
        (t.stepper k).run = { running := true, runNB := true, runDir := d, runCount := count, issued := 0#32, done := 0#32,
                              k := 0#32, stopReq := false, runTicket := tk, t0 := s.now }) ∧
      (count = 0#32 → ∃ ms, RunEnded k s t
        { running := true, runNB := true, runDir := d, runCount := 0#32, issued := 0#32, done := 0#32,
          k := 0#32, stopReq := false, runTicket := tk, t0 := s.now }
        (okRecord tk 0x19#8
          (.run { steps := 0#32, dir := d, durationMs := ms, retried := 0#32, stopped := false })))

/-- R217: `STP_STOP`: without a run, no effect; with a vector write in progress, only the request, and so too for a run that has
ended and waits with its report for room in `cmplq` (log entry 7); else the run ends at once with its own record, ahead of the
command's. It is never turned away. -/
def Obligations.StopRun : Prop :=
  ∀ (nb : Bool) (k : StepperId) (s : State) (tk : Ticket), s.inCommand tk →
    ((s.stepper k).run.running = false →
      ∃ t, exec (.stpStop nb k) s = .next t ∧ NoEffect s t ∧ Responded s t nb (okRecord tk 0x1B#8 .none)) ∧
    ((s.stepper k).run.running = true → (s.stepper k).motion.pulsing = true ∨ (s.stepper k).held ≠ none →
      ∃ t, exec (.stpStop nb k) s = .next t ∧ LocalEffect s t ∧ OthersKept k s t ∧
        t.stepper k = { s.stepper k with run := { (s.stepper k).run with stopReq := true } } ∧
        Responded s t nb (okRecord tk 0x1B#8 .none)) ∧
    ((s.stepper k).run.running = true → (s.stepper k).motion.pulsing = false → (s.stepper k).held = none →
      s.cmplq.length < Config.cmplqDepth →
      ∃ t ms, exec (.stpStop nb k) s = .next t ∧ OthersKept k s t ∧ t.img = s.img ∧ t.bus = s.bus ∧ t.trace = s.trace ∧
        t.now = s.now ∧ t.mixedMode = s.mixedMode ∧ HostSideKept s t ∧
        t.stepper k = { s.stepper k with run := { (s.stepper k).run with running := false, stopReq := false } } ∧
        let r := okRecord (s.stepper k).run.runTicket 0x19#8
          (.run { steps := (s.stepper k).run.done, dir := (s.stepper k).run.runDir, durationMs := ms,
                  retried := (s.stepper k).motion.retried, stopped := true })
        Responded { s with cmplq := s.cmplq ++ [r] } t nb (okRecord tk 0x1B#8 .none))

/-! ### The run engine, the pacing timer and the bus (`42_stepper_motion.md` R213, R214, R216; `20_memory.md` R67, R68) -/

/-- R213, R253: a tick of an active non-blocking run is delivered no earlier than `t0 + k*T`. It does nothing but count while a stop
is pending or all steps are issued; it is a counted skip while a vector write is in progress; else it issues the next step, and a step
whose vector is unchanged is done at once, the last one ending the run with its report (R214, R215). Nothing else of the machine changes
but the clock and the run's own end: no response comes of a skip. A run that only waits with its report for room in `cmplq` has no more
ticks (log entry 7). That the timer's tick and the run engine's reaction are one step is the model's choice (log entry 31), and so is
that `k` wraps and that the due time is that of the wrapped `k` (log entry 32). -/
def Obligations.TickRule : Prop :=
  ∀ (i : StepperId) (s t : State), Moves (.tick i) s t →
    let a := s.stepper i
    let b := t.stepper i
    t.img = s.img ∧ t.bus = s.bus ∧ t.trace = s.trace ∧ OthersKept i s t ∧ PortsKept s t ∧
    (a.run.running = false ∨ a.run.runNB = false ∨ a.held ≠ none → t.stp = s.stp ∧ t.cmplq = s.cmplq ∧ t.now = s.now) ∧
    (a.run.running = true → a.run.runNB = true → a.held = none →
      (∀ period, pulsePeriod a.cfg = some period → a.run.t0 + (a.run.k.toNat : ℚ) * period ≤ t.now) ∧ s.now ≤ t.now ∧
      (a.run.stopReq = true ∨ a.run.issued = a.run.runCount →
        b = { a with run := { a.run with k := a.run.k + 1#32 } } ∧ t.cmplq = s.cmplq) ∧
      (a.run.stopReq = false → a.run.issued ≠ a.run.runCount → a.motion.pulsing = true →
        b = { a with run := { a.run with k := a.run.k + 1#32 }, motion := { a.motion with retried := b.motion.retried } } ∧
        b.motion.retried.toNat = min (a.motion.retried.toNat + 1) (2 ^ 32 - 1) ∧ t.cmplq = s.cmplq) ∧
      (∀ r, a.run.stopReq = false → a.run.issued ≠ a.run.runCount → a.motion.pulsing = false → a.cfg.ready = some r →
        let phase := advance a.motion.phase a.run.runDir r.style r.ms
        let run : Run := { a.run with k := a.run.k + 1#32, issued := a.run.issued + 1#32 }
        b.motion.phase = phase ∧ b.motion.retried = a.motion.retried ∧ b.cache = a.cache ∧ b.cfg = a.cfg ∧
        (∀ x rest, changedTasks a.cache (stepTasks r phase) = x :: rest →
          b.motion.pulsing = true ∧ b.run = run ∧ b.held = none ∧ t.cmplq = s.cmplq ∧
          ∃ j, b.job = some j ∧ j.task = x ∧ j.outstanding = false ∧
            j.left = groupBytes (Config.regLed0OnL + BitVec.ofNat 8 (4 * x.chan.toNat)) x.on x.off) ∧
        (changedTasks a.cache (stepTasks r phase) = [] →
          b.motion.pulsing = false ∧ b.job = none ∧
          (a.run.done + 1#32 ≠ a.run.runCount →
            b.run = { run with done := a.run.done + 1#32 } ∧ b.held = none ∧ t.cmplq = s.cmplq) ∧
          (a.run.done + 1#32 = a.run.runCount → ∃ ms, RunEnded i s t { run with done := a.run.done + 1#32 }
            (okRecord a.run.runTicket 0x19#8
              (.run { steps := a.run.done + 1#32, dir := a.run.runDir, durationMs := ms, retried := a.motion.retried,
                      stopped := false }))))))

/-- R208, R209, R214, R216: the completion of a byte write of run engine `i`. A failure ends the run with status BUS and the steps
done so far, with image and cache as they were. A success of the last byte of a pin confirms the pin in image and cache; when no
changed pin is left the step is done, and the run ends if it was the last or a stop is pending. While `cmplq` is full the engine holds
the report of a run that ends, and the run's state stays running (R258). That the completion and the run engine's reaction are one step is
the model's choice (log entry 31). -/
def Obligations.EngineCompletion : Prop :=
  ∀ (i : StepperId) (s t : State) (x : Txn) (j : VecJob), Moves .bus s t →
    s.bus.inflight = some { who := .engine i, txn := x } → (s.stepper i).job = some j →
    let a := s.stepper i
    let b := t.stepper i
    t.bus.inflight = none ∧ t.bus.reqq = s.bus.reqq ∧ t.bus.lock = s.bus.lock ∧ OthersKept i s t ∧ PortsKept s t ∧ b.cfg = a.cfg ∧
    (∃ byte, t.trace = .txn (.engine i) x (s.answerAt 0).ok byte :: s.trace) ∧
    ((s.answerAt 0).ok = false →
      t.img = s.img ∧ b.cache = a.cache ∧ b.motion = { a.motion with pulsing := false } ∧ b.job = none ∧
      ∃ ms, RunEnded i s t a.run (busRecord a.run.runTicket 0x19#8 (busErrorOf x)
        (.run { steps := a.run.done, dir := a.run.runDir, durationMs := ms, retried := a.motion.retried,
                stopped := false }))) ∧
    ((s.answerAt 0).ok = true →
      (∀ w v more, j.left = w :: v :: more →
        t.img = s.img ∧ t.cmplq = s.cmplq ∧ b = { a with job := some { j with left := v :: more, outstanding := false } }) ∧
      (∀ w, j.left = [w] →
        let cache := a.cache.set j.task.role (some j.task.value)
        t.img = s.img.setChannel j.task.chan j.task.on j.task.off ∧ b.cache = cache ∧
        (∀ y rest, changedTasks cache j.rest = y :: rest →
          t.cmplq = s.cmplq ∧ b.run = a.run ∧ b.motion = a.motion ∧ b.held = a.held ∧
          ∃ n, b.job = some n ∧ n.task = y ∧ n.outstanding = false ∧ n.left = pinWrites y.chan y.on y.off) ∧
        (changedTasks cache j.rest = [] →
          b.motion = { a.motion with pulsing := false } ∧ b.job = none ∧
          (a.run.done + 1#32 ≠ a.run.runCount → a.run.stopReq = false →
            t.cmplq = s.cmplq ∧ b.held = a.held ∧ b.run = { a.run with done := a.run.done + 1#32 }) ∧
          (a.run.done + 1#32 = a.run.runCount ∨ a.run.stopReq = true →
            ∃ ms, RunEnded i s t { a.run with done := a.run.done + 1#32 } (okRecord a.run.runTicket 0x19#8
              (.run { steps := a.run.done + 1#32, dir := a.run.runDir, durationMs := ms, retried := a.motion.retried,
                      stopped := decide (a.run.done + 1#32 ≠ a.run.runCount) }))))))

/-- R67, R68, R69: the bus master starts a transaction only when none is in flight and the CP does not hold the lock, and then the
oldest request; a run engine's request goes to the end of the queue, one at a time; a transaction in flight stays so until its completion,
unless `rst` abandons it (R290); and, outside an exclusive sequence, the CP's first transaction completes after every one that was in
flight or requested before it, which complete in the order of the requests (log entry 26). -/
def Obligations.BusMaster : Prop :=
  ∀ (s t : State),
    (∀ q rest i, Moves .bus s t → s.bus.inflight = none → s.bus.reqq = q :: rest → q.who = .engine i →
      (s.bus.lock = false → t.bus.inflight = some q ∧ t.bus.reqq = rest ∧ t.trace = s.trace ∧ t.stp = s.stp) ∧
      (s.bus.lock = true → t.bus = s.bus ∧ t.trace = s.trace ∧ t.stp = s.stp)) ∧
    (∀ i j w rest, Moves (.engine i) s t → (s.stepper i).held = none → (s.stepper i).job = some j → j.left = w :: rest →
      t.trace = s.trace ∧ t.bus.inflight = s.bus.inflight ∧
      (j.outstanding = true → t.bus = s.bus) ∧
      (j.outstanding = false →
        t.bus.reqq = s.bus.reqq ++ [{ who := .engine i, txn := .write Config.devAddr w.1 w.2 }] ∧
        (t.stepper i).job = some { j with outstanding := true })) ∧
    (∀ b q, Moves b s t → NotRst b s → s.bus.inflight = some q →
      (t.bus.inflight = some q ∧ t.trace = s.trace) ∨
      (t.bus.inflight = none ∧ ∃ ok byte, t.trace = .txn q.who q.txn ok byte :: s.trace)) ∧
    (∀ (i : Instr) (tk : Ticket), s.inCommand tk → ¬ hasExclusiveSequence i → s.bus.lock = false →
      (∀ q, q ∈ s.bus.inflight.toList ++ s.bus.reqq → q.who ≠ .cp) → exec i s = .next t → t.cpTrace ≠ s.cpTrace →
      ∃ after x before, t.trace = after ++ x :: (before ++ s.trace) ∧ x.ofCp = true ∧ (∀ y, y ∈ before → y.ofCp = false) ∧
        s.bus.inflight.toList ++ s.bus.reqq <+: before.reverse.filterMap TraceItem.request)

/-! ### Laws of the whole machine -/

/-- R68, R70, R91, R121, R130: in every state, whatever the other agents do meanwhile, what a command adds to the CP's part of the
trace is its program, in order, up to the first failing transaction, and its response says so; or `rst` takes the command before its end
(R290), and the CP's part of the trace has the start of the program. The program does not depend on the execution mode, but for
`STP_STEP`. -/
def Obligations.CommandProgram : Prop :=
  ∀ (i : Instr) (s : State) (tk : Ticket), s.inCommand tk → RunInv s →
    ∃ t ans, exec i s = .next t ∧
      let p := play ans 0 (program s ans i)
      (TakenByRst s t ∧ ∃ m, t.cpTrace = (p.1.take m).reverse ++ s.cpTrace) ∨
      (t.cpTrace = p.1.reverse ++ s.cpTrace ∧
        (¬ (∃ k d n, i = .stpStep true k d n ∧ execCheck s i = none) →
          ∃ r, Answered t i.nb r ∧ r.ticket = tk ∧ r.op = i.opcode.code ∧
            (∀ why, execCheck s i = some why → r.status = .validation ∧ r.reason = reasonCode why) ∧
            (∀ e, p.2 = some e → r.status = .bus ∧ r.busKind = e.kind ∧ r.busReg = e.reg) ∧
            (execCheck s i = none → p.2 = none → r.status = .ok ∧ r.reason = 0#8)))

/-- R69, R304: the sequences of `DRV_INIT`, `DRV_RESET`, `DRV_SETFREQ` and `STP_SETFREQ` are exclusive: in every state, once the CP's
first transaction is in the trace no transaction of another requester follows it before the sequence ends, and at the end the lock is
released; while the lock is held and nothing of another requester is in flight, no background step but `rst` touches the bus. -/
def Obligations.ExclusiveSequences : Prop :=
  (∀ (i : Instr) (s : State) (tk : Ticket), s.inCommand tk → hasExclusiveSequence i →
    execCheck s i = none → s.bus.lock = false → (∀ q, s.bus.inflight = some q → q.who ≠ .cp) →
    ∃ t before own, exec i s = .next t ∧ t.bus.lock = false ∧ t.trace = own ++ before ++ s.trace ∧ (own ≠ [] ∨ TakenByRst s t) ∧
      (∀ x, x ∈ own → x.ofCp = true) ∧ (∀ x, x ∈ before → x.ofCp = false)) ∧
  (∀ (b : Background) (s : State), NotRst b s → s.bus.lock = true → s.bus.inflight = none →
    (s.background b).bus.inflight = none ∧ (s.background b).bus.lock = true ∧ (s.background b).trace = s.trace)

/-- R22, R39, R40: which commands may write which element, in every state and whatever runs meanwhile, unless `rst` takes the command
(R290); and no other agent writes any of them. -/
def Obligations.WritersOfState : Prop :=
  (∀ (i : Instr) (s t : State) (tk : Ticket), s.inCommand tk → exec i s = .next t → TakenByRst s t ∨
    ((t.img.prescale ≠ s.img.prescale →
      ∃ nb, i = .drvReset nb ∨ (∃ rate, i = .drvSetfreq nb rate ∨ ∃ k, i = .stpSetfreq nb k rate)) ∧
    (t.img.busOpen ≠ s.img.busOpen → t.img.busOpen = true ∧ ∃ nb, i = .drvInit nb) ∧
    (t.img.initialised ≠ s.img.initialised →
      (∃ nb, i = .drvInit nb) ∨ (t.img.initialised = false ∧ ∃ nb, i = .drvReset nb)) ∧
    ∀ k : StepperId,
      let c := (s.stepper k).cfg
      let e := (t.stepper k).cfg
      (e.pin ≠ c.pin → ∃ nb p, i = .stpPins nb k p) ∧
      (e.spr ≠ c.spr → ∃ nb n, i = .stpSetsteps nb k n) ∧
      (e.ms ≠ c.ms → ∃ nb m, i = .stpSetmicro nb k m) ∧
      (e.style ≠ c.style → ∃ nb y, i = .stpSetstyle nb k y) ∧
      (e.current ≠ c.current → ∃ nb n, i = .stpSetcurrent nb k n) ∧
      (e.speedUnit ≠ c.speedUnit ∨ e.speedValue ≠ c.speedValue → ∃ nb u v, i = .stpSetspeed nb k u v) ∧
      (e.initialised ≠ c.initialised →
        (e.initialised = true ∧ ∃ nb, i = .stpInit nb k) ∨ (e.initialised = false ∧ ∃ nb p, i = .stpPins nb k p)) ∧
      (e.stepFreq ≠ c.stepFreq ∨ e.pulseFreq ≠ c.pulseFreq → ∃ nb,
        i = .stpInit nb k ∨ (∃ n, i = .stpSetsteps nb k n) ∨ (∃ m, i = .stpSetmicro nb k m) ∨
        (∃ y, i = .stpSetstyle nb k y) ∨ (∃ u v, i = .stpSetspeed nb k u v)))) ∧
  (∀ (b : Background) (s : State), NotRst b s →
    (s.background b).img.prescale = s.img.prescale ∧ (s.background b).img.busOpen = s.img.busOpen ∧
    (s.background b).img.initialised = s.img.initialised ∧
    ∀ k, ((s.background b).stepper k).cfg = (s.stepper k).cfg)

/-- R36, R74, R300: a cache entry becomes unset only by a completed `DRV_RESET`, by the stepper's own `STP_PINS` or by `rst`; and a
stepper without a run keeps its cache under every command but those and its own motion commands, driver writes of its pins included. -/
def Obligations.CacheChanges : Prop :=
  ∀ (i : Instr) (s t : State) (k : StepperId) (tk : Ticket), s.inCommand tk → exec i s = .next t → TakenByRst s t ∨
    ((∀ x v, (s.stepper k).cache.get x = some v → (t.stepper k).cache.get x = none →
      ∃ nb, i = .drvReset nb ∨ ∃ p, i = .stpPins nb k p) ∧
    ((s.stepper k).run.running = false → (s.stepper k).job = none → (s.stepper k).held = none →
      (t.stepper k).cache ≠ (s.stepper k).cache →
      ∃ nb, i = .drvReset nb ∨ (∃ p, i = .stpPins nb k p) ∨ (∃ d, i = .stpOnestep nb k d) ∨
        (∃ d n, i = .stpStep nb k d n) ∨ i = .stpRelease nb k))

/-- R260: the sticky flag is set exactly when a blocking command touches a channel of an active non-blocking run; nothing but `rst`
clears it. That the command sets it once it has passed its checks, a run of no steps too, is the model's reading (log entry 24). -/
def Obligations.MixedModeFlag : Prop :=
  (∀ (i : Instr) (s t : State) (tk : Ticket), s.inCommand tk → exec i s = .next t → TakenByRst s t ∨
    (t.mixedMode = true ↔ s.mixedMode = true ∨ (execCheck s i = none ∧ i.nb = false ∧
      ∃ k p x, (s.stepper k).run.running = true ∧ (s.stepper k).run.runNB = true ∧ (s.stepper k).cfg.pin = some p ∧
        p.get x ∈ channelSet s i))) ∧
  (∀ (b : Background) (s : State), NotRst b s → (s.background b).mixedMode = s.mixedMode)

/-- R213, R214, R222 item 6: a background run writes the program of a run: over every step of the machine that leaves the run going,
the byte writes its engine has made and those it has still to make, taken together, stay the same; a run that has just started has
all the writes of `count` steps to make, the same as a blocking run's. -/
def Obligations.BackgroundRunProgram : Prop :=
  (∀ (s t : State) (k : StepperId) (r : Ready), RunInv s → BusInv s → CpInv s → step s = .next t →
    (s.stepper k).cfg.ready = some r → (s.stepper k).run.running = true → (s.stepper k).held = none →
    (t.stepper k).run.running = true → (t.stepper k).held = none →
    t.engineWrites k ++ (t.stepper k).toWrite r = s.engineWrites k ++ (s.stepper k).toWrite r) ∧
  (∀ (s t : State) (k : StepperId) (r : Ready) (d : Dir) (n : W32) (tk : Ticket), s.inCommand tk → RunInv s →
    (s.stepper k).cfg.ready = some r → n ≠ 0#32 → execCheck s (.stpStep true k d n) = none →
    exec (.stpStep true k d n) s = .next t →
    (t.stepper k).toWrite r = runBytes r d n.toNat (s.stepper k).motion.phase (s.stepper k).cache)

/-! ### Invariants -/

/-- R32, R222 item 1: every step keeps every phase in the range of its microsteps. -/
def Obligations.PhaseInvKept : Prop := ∀ s t : State, PhaseInv s → step s = .next t → PhaseInv t

/-- R31, R172: after every step the derived rates are those of the configuration. -/
def Obligations.RatesInvKept : Prop := ∀ s t : State, RatesInv s → step s = .next t → RatesInv t

/-- R24 to R30, R40: every step that runs an accepted command keeps every configuration legal and the steppers' pins disjoint. -/
def Obligations.ConfigInvKept : Prop := ∀ s t : State, QueueInv s → ConfigInv s → step s = .next t → ConfigInv t

/-- R23, R36: every step keeps image ticks in 0..4096, and the caches of legal steppers in their ranges. -/
def Obligations.ValuesInvKept : Prop := ∀ s t : State, QueueInv s → ValuesInv s → step s = .next t → ValuesInv t

/-- R33, R35, R208, R214: every step keeps every run's counters in order, at most one step apart, and the busy flag set exactly during a
vector write of a run engine. It is stated between steps of the machine, and rests on two choices of the model. An active run is then
non-blocking and the busy flag is then a run engine's, because one step runs a whole command, so that a blocking run (R212) and the
writes of `STP_ONESTEP` and `STP_RELEASE` fall inside a step (log entry 5). `issued` is `done` between two vector writes, because the
engine reacts in the step of the completion (log entry 31). -/
def Obligations.RunInvKept : Prop := ∀ s t : State, RunInv s → step s = .next t → RunInv t

/-- R67, R68, R69, R121: between steps of the machine the CP is idle or waits for room in `cmplq`, and neither lock nor bus is left
with it, because one machine step of the model runs a whole command with the other agents' steps inside it (log entry 5); and each run
engine keeps to one outstanding request, for the next byte of its vector write; a request is outstanding exactly while it waits or is in
flight, because the engine reacts in the step of the completion (log entry 31). -/
def Obligations.BusInvKept : Prop :=
  ∀ s t : State, CpInv s → step s = .next t → CpInv t ∧ (RunInv s → BusInv s → BusInv t)

/-- R37, R120, R258: every step keeps both queues within their depths, and only accepted words in `cmdq`. -/
def Obligations.QueueInvKept : Prop := ∀ s t : State, QueueInv s → step s = .next t → QueueInv t
end

