-- ==== Sys2Proof/Laws/State.lean ====
section
/-! SUPPORT. The small lemmas of the state's accessors and updates: one per field per update, tagged for simp, so that no
later proof unfolds a record update. -/

namespace Sys2Proof

namespace RoleMap

/-- Reading the role just written. -/
@[simp] theorem get_set_self {α : Type} (m : RoleMap α) (r : Role) (v : α) : (m.set r v).get r = v := by
  cases r <;> rfl

/-- Writing one role leaves the others. -/
theorem get_set_of_ne {α : Type} (m : RoleMap α) {r q : Role} (v : α) (h : q ≠ r) : (m.set r v).get q = m.get q := by
  cases r <;> cases q <;> first | rfl | exact absurd rfl h

/-- Reading a role after a write. -/
theorem get_set {α : Type} (m : RoleMap α) (r q : Role) (v : α) :
    (m.set r v).get q = if q = r then v else m.get q := by
  by_cases h : q = r
  · subst h; simp
  · simp [h, get_set_of_ne]

/-- Two role maps with the same values are the same. -/
theorem ext_get {α : Type} {m n : RoleMap α} (h : ∀ r, m.get r = n.get r) : m = n := by
  cases m; cases n
  have h1 := h .pwma; have h2 := h .a1; have h3 := h .a2; have h4 := h .pwmb; have h5 := h .b1; have h6 := h .b2
  simp only [get] at h1 h2 h3 h4 h5 h6
  subst h1 h2 h3 h4 h5 h6
  rfl

end RoleMap

namespace Machine

/-- An empty cache has no value. -/
@[simp] theorem emptyCache_get (r : Role) : emptyCache.get r = none := by cases r <;> rfl

/-- Reading the stepper just changed. -/
@[simp] theorem stepper_modStp_self (s : State) (i : StepperId) (f : Stepper → Stepper) :
    (s.modStp i f).stepper i = f (s.stepper i) := by
  simp [State.stepper, State.modStp, Vector.get_eq_getElem]

/-- Changing one stepper leaves the others. -/
theorem stepper_modStp_of_ne (s : State) {i j : StepperId} (f : Stepper → Stepper) (h : j ≠ i) :
    (s.modStp i f).stepper j = s.stepper j := by
  have : i.val ≠ j.val := fun e => h (Fin.ext e.symm)
  simp [State.stepper, State.modStp, Vector.get_eq_getElem, Vector.getElem_set_ne, this]

/-- Reading a stepper after one stepper has changed. -/
theorem stepper_modStp (s : State) (i j : StepperId) (f : Stepper → Stepper) :
    (s.modStp i f).stepper j = if j = i then f (s.stepper i) else s.stepper j := by
  by_cases h : j = i
  · subst h; simp
  · simp [h, stepper_modStp_of_ne]

/-- A property of a stepper that the change keeps. -/
theorem stepper_modStp_proj {α : Type} (g : Stepper → α) (s : State) (i j : StepperId) (f : Stepper → Stepper)
    (h : g (f (s.stepper i)) = g (s.stepper i)) : g ((s.modStp i f).stepper j) = g (s.stepper j) := by
  by_cases e : j = i
  · subst e; simpa using h
  · rw [stepper_modStp_of_ne _ _ e]

/-- Reading a stepper after all have changed. -/
@[simp] theorem stepper_mapStp (s : State) (f : Stepper → Stepper) (j : StepperId) :
    (s.mapStp f).stepper j = f (s.stepper j) := by
  simp [State.stepper, State.mapStp, Vector.get_eq_getElem]

/-- A stepper's state depends on `stp` alone. -/
theorem stepper_of_stp {s t : State} (h : s.stp = t.stp) (i : StepperId) : s.stepper i = t.stepper i := by
  simp [State.stepper, h]

/-- States with the same steppers have the same `stp`. -/
theorem stp_ext {s t : State} (h : ∀ i, s.stepper i = t.stepper i) : s.stp = t.stp := by
  apply Vector.ext
  intro i hi
  simpa [State.stepper, Vector.get_eq_getElem] using h ⟨i, hi⟩

/-- The channel just written reads back. -/
@[simp] theorem onTick_setChannel_self (m : Image) (c : Chan) (on off : Tick) :
    (m.setChannel c on off).onTick c = some on := by
  simp [Image.onTick, Image.setChannel, Vector.get_eq_getElem]

/-- The channel just written reads back. -/
@[simp] theorem offTick_setChannel_self (m : Image) (c : Chan) (on off : Tick) :
    (m.setChannel c on off).offTick c = some off := by
  simp [Image.offTick, Image.setChannel, Vector.get_eq_getElem]

/-- Writing one channel leaves the others. -/
theorem onTick_setChannel_of_ne (m : Image) {c d : Chan} (on off : Tick) (h : d ≠ c) :
    (m.setChannel c on off).onTick d = m.onTick d := by
  have : c.toNat ≠ d.toNat := fun e => h (BitVec.eq_of_toNat_eq e.symm)
  simp [Image.onTick, Image.setChannel, Vector.get_eq_getElem, this]

/-- Writing one channel leaves the others. -/
theorem offTick_setChannel_of_ne (m : Image) {c d : Chan} (on off : Tick) (h : d ≠ c) :
    (m.setChannel c on off).offTick d = m.offTick d := by
  have : c.toNat ≠ d.toNat := fun e => h (BitVec.eq_of_toNat_eq e.symm)
  simp [Image.offTick, Image.setChannel, Vector.get_eq_getElem, this]

/-- After an all-channel write every channel reads the pair. -/
@[simp] theorem onTick_setAllChannels (m : Image) (c : Chan) (on off : Tick) :
    (m.setAllChannels on off).onTick c = some on := by
  simp [Image.onTick, Image.setAllChannels, Vector.get_eq_getElem]

/-- After an all-channel write every channel reads the pair. -/
@[simp] theorem offTick_setAllChannels (m : Image) (c : Chan) (on off : Tick) :
    (m.setAllChannels on off).offTick c = some off := by
  simp [Image.offTick, Image.setAllChannels, Vector.get_eq_getElem]

/-- A forgotten image has no tick. -/
@[simp] theorem onTick_forget (m : Image) (c : Chan) : m.forget.onTick c = none := by
  simp [Image.onTick, Image.forget, Vector.get_eq_getElem]

/-- A forgotten image has no tick. -/
@[simp] theorem offTick_forget (m : Image) (c : Chan) : m.forget.offTick c = none := by
  simp [Image.offTick, Image.forget, Vector.get_eq_getElem]

@[simp] theorem setChannel_busOpen (m : Image) (c : Chan) (x y : Tick) : (m.setChannel c x y).busOpen = m.busOpen := rfl
@[simp] theorem setChannel_initialised (m : Image) (c : Chan) (x y : Tick) :
    (m.setChannel c x y).initialised = m.initialised := rfl
@[simp] theorem setChannel_prescale (m : Image) (c : Chan) (x y : Tick) : (m.setChannel c x y).prescale = m.prescale := rfl
@[simp] theorem setAllChannels_busOpen (m : Image) (x y : Tick) : (m.setAllChannels x y).busOpen = m.busOpen := rfl
@[simp] theorem setAllChannels_initialised (m : Image) (x y : Tick) :
    (m.setAllChannels x y).initialised = m.initialised := rfl
@[simp] theorem setAllChannels_prescale (m : Image) (x y : Tick) : (m.setAllChannels x y).prescale = m.prescale := rfl

/-! ### One stepper changed -/

@[simp] theorem modStp_img (s : State) (i : StepperId) (f : Stepper → Stepper) : (s.modStp i f).img = s.img := rfl
@[simp] theorem modStp_nextTicket (s : State) (i : StepperId) (f : Stepper → Stepper) : (s.modStp i f).nextTicket = s.nextTicket := rfl
@[simp] theorem modStp_cmdq (s : State) (i : StepperId) (f : Stepper → Stepper) : (s.modStp i f).cmdq = s.cmdq := rfl
@[simp] theorem modStp_cp (s : State) (i : StepperId) (f : Stepper → Stepper) : (s.modStp i f).cp = s.cp := rfl
@[simp] theorem modStp_cpHeld (s : State) (i : StepperId) (f : Stepper → Stepper) : (s.modStp i f).cpHeld = s.cpHeld := rfl
@[simp] theorem modStp_cmplq (s : State) (i : StepperId) (f : Stepper → Stepper) : (s.modStp i f).cmplq = s.cmplq := rfl
@[simp] theorem modStp_hostWait (s : State) (i : StepperId) (f : Stepper → Stepper) : (s.modStp i f).hostWait = s.hostWait := rfl
@[simp] theorem modStp_bus (s : State) (i : StepperId) (f : Stepper → Stepper) : (s.modStp i f).bus = s.bus := rfl
@[simp] theorem modStp_mixedMode (s : State) (i : StepperId) (f : Stepper → Stepper) : (s.modStp i f).mixedMode = s.mixedMode := rfl
@[simp] theorem modStp_now (s : State) (i : StepperId) (f : Stepper → Stepper) : (s.modStp i f).now = s.now := rfl
@[simp] theorem modStp_trace (s : State) (i : StepperId) (f : Stepper → Stepper) : (s.modStp i f).trace = s.trace := rfl
@[simp] theorem modStp_sync (s : State) (i : StepperId) (f : Stepper → Stepper) : (s.modStp i f).sync = s.sync := rfl
@[simp] theorem modStp_popped (s : State) (i : StepperId) (f : Stepper → Stepper) : (s.modStp i f).popped = s.popped := rfl
@[simp] theorem modStp_host (s : State) (i : StepperId) (f : Stepper → Stepper) : (s.modStp i f).host = s.host := rfl
@[simp] theorem modStp_env (s : State) (i : StepperId) (f : Stepper → Stepper) : (s.modStp i f).env = s.env := rfl

/-! ### Every stepper changed -/

@[simp] theorem mapStp_img (s : State) (f : Stepper → Stepper) : (s.mapStp f).img = s.img := rfl
@[simp] theorem mapStp_nextTicket (s : State) (f : Stepper → Stepper) : (s.mapStp f).nextTicket = s.nextTicket := rfl
@[simp] theorem mapStp_cmdq (s : State) (f : Stepper → Stepper) : (s.mapStp f).cmdq = s.cmdq := rfl
@[simp] theorem mapStp_cp (s : State) (f : Stepper → Stepper) : (s.mapStp f).cp = s.cp := rfl
@[simp] theorem mapStp_cpHeld (s : State) (f : Stepper → Stepper) : (s.mapStp f).cpHeld = s.cpHeld := rfl
@[simp] theorem mapStp_cmplq (s : State) (f : Stepper → Stepper) : (s.mapStp f).cmplq = s.cmplq := rfl
@[simp] theorem mapStp_hostWait (s : State) (f : Stepper → Stepper) : (s.mapStp f).hostWait = s.hostWait := rfl
@[simp] theorem mapStp_bus (s : State) (f : Stepper → Stepper) : (s.mapStp f).bus = s.bus := rfl
@[simp] theorem mapStp_mixedMode (s : State) (f : Stepper → Stepper) : (s.mapStp f).mixedMode = s.mixedMode := rfl
@[simp] theorem mapStp_now (s : State) (f : Stepper → Stepper) : (s.mapStp f).now = s.now := rfl
@[simp] theorem mapStp_trace (s : State) (f : Stepper → Stepper) : (s.mapStp f).trace = s.trace := rfl
@[simp] theorem mapStp_sync (s : State) (f : Stepper → Stepper) : (s.mapStp f).sync = s.sync := rfl
@[simp] theorem mapStp_popped (s : State) (f : Stepper → Stepper) : (s.mapStp f).popped = s.popped := rfl
@[simp] theorem mapStp_host (s : State) (f : Stepper → Stepper) : (s.mapStp f).host = s.host := rfl
@[simp] theorem mapStp_env (s : State) (f : Stepper → Stepper) : (s.mapStp f).env = s.env := rfl

/-! ### Time -/

@[simp] theorem pass_img (s : State) (n : Nat) : (s.pass n).img = s.img := rfl
@[simp] theorem pass_stp (s : State) (n : Nat) : (s.pass n).stp = s.stp := rfl
@[simp] theorem pass_nextTicket (s : State) (n : Nat) : (s.pass n).nextTicket = s.nextTicket := rfl
@[simp] theorem pass_cmdq (s : State) (n : Nat) : (s.pass n).cmdq = s.cmdq := rfl
@[simp] theorem pass_cp (s : State) (n : Nat) : (s.pass n).cp = s.cp := rfl
@[simp] theorem pass_cpHeld (s : State) (n : Nat) : (s.pass n).cpHeld = s.cpHeld := rfl
@[simp] theorem pass_cmplq (s : State) (n : Nat) : (s.pass n).cmplq = s.cmplq := rfl
@[simp] theorem pass_hostWait (s : State) (n : Nat) : (s.pass n).hostWait = s.hostWait := rfl
@[simp] theorem pass_bus (s : State) (n : Nat) : (s.pass n).bus = s.bus := rfl
@[simp] theorem pass_mixedMode (s : State) (n : Nat) : (s.pass n).mixedMode = s.mixedMode := rfl
@[simp] theorem pass_trace (s : State) (n : Nat) : (s.pass n).trace = s.trace := rfl
@[simp] theorem pass_sync (s : State) (n : Nat) : (s.pass n).sync = s.sync := rfl
@[simp] theorem pass_popped (s : State) (n : Nat) : (s.pass n).popped = s.popped := rfl
@[simp] theorem pass_host (s : State) (n : Nat) : (s.pass n).host = s.host := rfl
@[simp] theorem pass_env (s : State) (n : Nat) : (s.pass n).env = s.env := rfl

/-! ### Time, at least until -/

@[simp] theorem passUntil_img (s : State) (t : ℚ) : (s.passUntil t).img = s.img := rfl
@[simp] theorem passUntil_stp (s : State) (t : ℚ) : (s.passUntil t).stp = s.stp := rfl
@[simp] theorem passUntil_nextTicket (s : State) (t : ℚ) : (s.passUntil t).nextTicket = s.nextTicket := rfl
@[simp] theorem passUntil_cmdq (s : State) (t : ℚ) : (s.passUntil t).cmdq = s.cmdq := rfl
@[simp] theorem passUntil_cp (s : State) (t : ℚ) : (s.passUntil t).cp = s.cp := rfl
@[simp] theorem passUntil_cpHeld (s : State) (t : ℚ) : (s.passUntil t).cpHeld = s.cpHeld := rfl
@[simp] theorem passUntil_cmplq (s : State) (t : ℚ) : (s.passUntil t).cmplq = s.cmplq := rfl
@[simp] theorem passUntil_hostWait (s : State) (t : ℚ) : (s.passUntil t).hostWait = s.hostWait := rfl
@[simp] theorem passUntil_bus (s : State) (t : ℚ) : (s.passUntil t).bus = s.bus := rfl
@[simp] theorem passUntil_mixedMode (s : State) (t : ℚ) : (s.passUntil t).mixedMode = s.mixedMode := rfl
@[simp] theorem passUntil_trace (s : State) (t : ℚ) : (s.passUntil t).trace = s.trace := rfl
@[simp] theorem passUntil_sync (s : State) (t : ℚ) : (s.passUntil t).sync = s.sync := rfl
@[simp] theorem passUntil_popped (s : State) (t : ℚ) : (s.passUntil t).popped = s.popped := rfl
@[simp] theorem passUntil_host (s : State) (t : ℚ) : (s.passUntil t).host = s.host := rfl
@[simp] theorem passUntil_env (s : State) (t : ℚ) : (s.passUntil t).env = s.env := rfl

/-! ### A request -/

@[simp] theorem request_img (s : State) (who : Requester) (t : Txn) : (s.request who t).img = s.img := rfl
@[simp] theorem request_stp (s : State) (who : Requester) (t : Txn) : (s.request who t).stp = s.stp := rfl
@[simp] theorem request_nextTicket (s : State) (who : Requester) (t : Txn) : (s.request who t).nextTicket = s.nextTicket := rfl
@[simp] theorem request_cmdq (s : State) (who : Requester) (t : Txn) : (s.request who t).cmdq = s.cmdq := rfl
@[simp] theorem request_cp (s : State) (who : Requester) (t : Txn) : (s.request who t).cp = s.cp := rfl
@[simp] theorem request_cpHeld (s : State) (who : Requester) (t : Txn) : (s.request who t).cpHeld = s.cpHeld := rfl
@[simp] theorem request_cmplq (s : State) (who : Requester) (t : Txn) : (s.request who t).cmplq = s.cmplq := rfl
@[simp] theorem request_hostWait (s : State) (who : Requester) (t : Txn) : (s.request who t).hostWait = s.hostWait := rfl
@[simp] theorem request_mixedMode (s : State) (who : Requester) (t : Txn) : (s.request who t).mixedMode = s.mixedMode := rfl
@[simp] theorem request_now (s : State) (who : Requester) (t : Txn) : (s.request who t).now = s.now := rfl
@[simp] theorem request_trace (s : State) (who : Requester) (t : Txn) : (s.request who t).trace = s.trace := rfl
@[simp] theorem request_sync (s : State) (who : Requester) (t : Txn) : (s.request who t).sync = s.sync := rfl
@[simp] theorem request_popped (s : State) (who : Requester) (t : Txn) : (s.request who t).popped = s.popped := rfl
@[simp] theorem request_host (s : State) (who : Requester) (t : Txn) : (s.request who t).host = s.host := rfl
@[simp] theorem request_env (s : State) (who : Requester) (t : Txn) : (s.request who t).env = s.env := rfl

/-! ### A grant to the CP -/

@[simp] theorem grantCp_img (s : State) (t : Txn) : (s.grantCp t).img = s.img := rfl
@[simp] theorem grantCp_stp (s : State) (t : Txn) : (s.grantCp t).stp = s.stp := rfl
@[simp] theorem grantCp_nextTicket (s : State) (t : Txn) : (s.grantCp t).nextTicket = s.nextTicket := rfl
@[simp] theorem grantCp_cmdq (s : State) (t : Txn) : (s.grantCp t).cmdq = s.cmdq := rfl
@[simp] theorem grantCp_cp (s : State) (t : Txn) : (s.grantCp t).cp = s.cp := rfl
@[simp] theorem grantCp_cpHeld (s : State) (t : Txn) : (s.grantCp t).cpHeld = s.cpHeld := rfl
@[simp] theorem grantCp_cmplq (s : State) (t : Txn) : (s.grantCp t).cmplq = s.cmplq := rfl
@[simp] theorem grantCp_hostWait (s : State) (t : Txn) : (s.grantCp t).hostWait = s.hostWait := rfl
@[simp] theorem grantCp_mixedMode (s : State) (t : Txn) : (s.grantCp t).mixedMode = s.mixedMode := rfl
@[simp] theorem grantCp_now (s : State) (t : Txn) : (s.grantCp t).now = s.now := rfl
@[simp] theorem grantCp_trace (s : State) (t : Txn) : (s.grantCp t).trace = s.trace := rfl
@[simp] theorem grantCp_sync (s : State) (t : Txn) : (s.grantCp t).sync = s.sync := rfl
@[simp] theorem grantCp_popped (s : State) (t : Txn) : (s.grantCp t).popped = s.popped := rfl
@[simp] theorem grantCp_host (s : State) (t : Txn) : (s.grantCp t).host = s.host := rfl
@[simp] theorem grantCp_env (s : State) (t : Txn) : (s.grantCp t).env = s.env := rfl

/-! ### A completion -/

@[simp] theorem completeTxn_img (s : State) (who : Requester) (t : Txn) (a : Answer) : (s.completeTxn who t a).img = s.img := rfl
@[simp] theorem completeTxn_stp (s : State) (who : Requester) (t : Txn) (a : Answer) : (s.completeTxn who t a).stp = s.stp := rfl
@[simp] theorem completeTxn_nextTicket (s : State) (who : Requester) (t : Txn) (a : Answer) : (s.completeTxn who t a).nextTicket = s.nextTicket := rfl
@[simp] theorem completeTxn_cmdq (s : State) (who : Requester) (t : Txn) (a : Answer) : (s.completeTxn who t a).cmdq = s.cmdq := rfl
@[simp] theorem completeTxn_cp (s : State) (who : Requester) (t : Txn) (a : Answer) : (s.completeTxn who t a).cp = s.cp := rfl
@[simp] theorem completeTxn_cpHeld (s : State) (who : Requester) (t : Txn) (a : Answer) : (s.completeTxn who t a).cpHeld = s.cpHeld := rfl
@[simp] theorem completeTxn_cmplq (s : State) (who : Requester) (t : Txn) (a : Answer) : (s.completeTxn who t a).cmplq = s.cmplq := rfl
@[simp] theorem completeTxn_hostWait (s : State) (who : Requester) (t : Txn) (a : Answer) : (s.completeTxn who t a).hostWait = s.hostWait := rfl
@[simp] theorem completeTxn_mixedMode (s : State) (who : Requester) (t : Txn) (a : Answer) : (s.completeTxn who t a).mixedMode = s.mixedMode := rfl
@[simp] theorem completeTxn_sync (s : State) (who : Requester) (t : Txn) (a : Answer) : (s.completeTxn who t a).sync = s.sync := rfl
@[simp] theorem completeTxn_popped (s : State) (who : Requester) (t : Txn) (a : Answer) : (s.completeTxn who t a).popped = s.popped := rfl
@[simp] theorem completeTxn_host (s : State) (who : Requester) (t : Txn) (a : Answer) : (s.completeTxn who t a).host = s.host := rfl
@[simp] theorem completeTxn_env (s : State) (who : Requester) (t : Txn) (a : Answer) : (s.completeTxn who t a).env = s.env := rfl

/-! ### A draw: answer -/

@[simp] theorem drawAnswer_img (s : State) : (s.drawAnswer.2).img = s.img := by unfold State.drawAnswer; split <;> rfl
@[simp] theorem drawAnswer_stp (s : State) : (s.drawAnswer.2).stp = s.stp := by unfold State.drawAnswer; split <;> rfl
@[simp] theorem drawAnswer_nextTicket (s : State) : (s.drawAnswer.2).nextTicket = s.nextTicket := by unfold State.drawAnswer; split <;> rfl
@[simp] theorem drawAnswer_cmdq (s : State) : (s.drawAnswer.2).cmdq = s.cmdq := by unfold State.drawAnswer; split <;> rfl
@[simp] theorem drawAnswer_cp (s : State) : (s.drawAnswer.2).cp = s.cp := by unfold State.drawAnswer; split <;> rfl
@[simp] theorem drawAnswer_cpHeld (s : State) : (s.drawAnswer.2).cpHeld = s.cpHeld := by unfold State.drawAnswer; split <;> rfl
@[simp] theorem drawAnswer_cmplq (s : State) : (s.drawAnswer.2).cmplq = s.cmplq := by unfold State.drawAnswer; split <;> rfl
@[simp] theorem drawAnswer_hostWait (s : State) : (s.drawAnswer.2).hostWait = s.hostWait := by unfold State.drawAnswer; split <;> rfl
@[simp] theorem drawAnswer_bus (s : State) : (s.drawAnswer.2).bus = s.bus := by unfold State.drawAnswer; split <;> rfl
@[simp] theorem drawAnswer_mixedMode (s : State) : (s.drawAnswer.2).mixedMode = s.mixedMode := by unfold State.drawAnswer; split <;> rfl
@[simp] theorem drawAnswer_now (s : State) : (s.drawAnswer.2).now = s.now := by unfold State.drawAnswer; split <;> rfl
@[simp] theorem drawAnswer_trace (s : State) : (s.drawAnswer.2).trace = s.trace := by unfold State.drawAnswer; split <;> rfl
@[simp] theorem drawAnswer_sync (s : State) : (s.drawAnswer.2).sync = s.sync := by unfold State.drawAnswer; split <;> rfl
@[simp] theorem drawAnswer_popped (s : State) : (s.drawAnswer.2).popped = s.popped := by unfold State.drawAnswer; split <;> rfl
@[simp] theorem drawAnswer_host (s : State) : (s.drawAnswer.2).host = s.host := by unfold State.drawAnswer; split <;> rfl

/-! ### A draw: burst -/

@[simp] theorem drawBurst_img (s : State) : (s.drawBurst.2).img = s.img := by unfold State.drawBurst; split <;> rfl
@[simp] theorem drawBurst_stp (s : State) : (s.drawBurst.2).stp = s.stp := by unfold State.drawBurst; split <;> rfl
@[simp] theorem drawBurst_nextTicket (s : State) : (s.drawBurst.2).nextTicket = s.nextTicket := by unfold State.drawBurst; split <;> rfl
@[simp] theorem drawBurst_cmdq (s : State) : (s.drawBurst.2).cmdq = s.cmdq := by unfold State.drawBurst; split <;> rfl
@[simp] theorem drawBurst_cp (s : State) : (s.drawBurst.2).cp = s.cp := by unfold State.drawBurst; split <;> rfl
@[simp] theorem drawBurst_cpHeld (s : State) : (s.drawBurst.2).cpHeld = s.cpHeld := by unfold State.drawBurst; split <;> rfl
@[simp] theorem drawBurst_cmplq (s : State) : (s.drawBurst.2).cmplq = s.cmplq := by unfold State.drawBurst; split <;> rfl
@[simp] theorem drawBurst_hostWait (s : State) : (s.drawBurst.2).hostWait = s.hostWait := by unfold State.drawBurst; split <;> rfl
@[simp] theorem drawBurst_bus (s : State) : (s.drawBurst.2).bus = s.bus := by unfold State.drawBurst; split <;> rfl
@[simp] theorem drawBurst_mixedMode (s : State) : (s.drawBurst.2).mixedMode = s.mixedMode := by unfold State.drawBurst; split <;> rfl
@[simp] theorem drawBurst_now (s : State) : (s.drawBurst.2).now = s.now := by unfold State.drawBurst; split <;> rfl
@[simp] theorem drawBurst_trace (s : State) : (s.drawBurst.2).trace = s.trace := by unfold State.drawBurst; split <;> rfl
@[simp] theorem drawBurst_sync (s : State) : (s.drawBurst.2).sync = s.sync := by unfold State.drawBurst; split <;> rfl
@[simp] theorem drawBurst_popped (s : State) : (s.drawBurst.2).popped = s.popped := by unfold State.drawBurst; split <;> rfl
@[simp] theorem drawBurst_host (s : State) : (s.drawBurst.2).host = s.host := by unfold State.drawBurst; split <;> rfl

/-! ### A draw: duration -/

@[simp] theorem drawDuration_img (s : State) : (s.drawDuration.2).img = s.img := by unfold State.drawDuration; split <;> rfl
@[simp] theorem drawDuration_stp (s : State) : (s.drawDuration.2).stp = s.stp := by unfold State.drawDuration; split <;> rfl
@[simp] theorem drawDuration_nextTicket (s : State) : (s.drawDuration.2).nextTicket = s.nextTicket := by unfold State.drawDuration; split <;> rfl
@[simp] theorem drawDuration_cmdq (s : State) : (s.drawDuration.2).cmdq = s.cmdq := by unfold State.drawDuration; split <;> rfl
@[simp] theorem drawDuration_cp (s : State) : (s.drawDuration.2).cp = s.cp := by unfold State.drawDuration; split <;> rfl
@[simp] theorem drawDuration_cpHeld (s : State) : (s.drawDuration.2).cpHeld = s.cpHeld := by unfold State.drawDuration; split <;> rfl
@[simp] theorem drawDuration_cmplq (s : State) : (s.drawDuration.2).cmplq = s.cmplq := by unfold State.drawDuration; split <;> rfl
@[simp] theorem drawDuration_hostWait (s : State) : (s.drawDuration.2).hostWait = s.hostWait := by unfold State.drawDuration; split <;> rfl
@[simp] theorem drawDuration_bus (s : State) : (s.drawDuration.2).bus = s.bus := by unfold State.drawDuration; split <;> rfl
@[simp] theorem drawDuration_mixedMode (s : State) : (s.drawDuration.2).mixedMode = s.mixedMode := by unfold State.drawDuration; split <;> rfl
@[simp] theorem drawDuration_now (s : State) : (s.drawDuration.2).now = s.now := by unfold State.drawDuration; split <;> rfl
@[simp] theorem drawDuration_trace (s : State) : (s.drawDuration.2).trace = s.trace := by unfold State.drawDuration; split <;> rfl
@[simp] theorem drawDuration_sync (s : State) : (s.drawDuration.2).sync = s.sync := by unfold State.drawDuration; split <;> rfl
@[simp] theorem drawDuration_popped (s : State) : (s.drawDuration.2).popped = s.popped := by unfold State.drawDuration; split <;> rfl
@[simp] theorem drawDuration_host (s : State) : (s.drawDuration.2).host = s.host := by unfold State.drawDuration; split <;> rfl

/-! ### A draw: turn -/

@[simp] theorem drawTurn_img (s : State) : (s.drawTurn.2).img = s.img := by unfold State.drawTurn; split <;> rfl
@[simp] theorem drawTurn_stp (s : State) : (s.drawTurn.2).stp = s.stp := by unfold State.drawTurn; split <;> rfl
@[simp] theorem drawTurn_nextTicket (s : State) : (s.drawTurn.2).nextTicket = s.nextTicket := by unfold State.drawTurn; split <;> rfl
@[simp] theorem drawTurn_cmdq (s : State) : (s.drawTurn.2).cmdq = s.cmdq := by unfold State.drawTurn; split <;> rfl
@[simp] theorem drawTurn_cp (s : State) : (s.drawTurn.2).cp = s.cp := by unfold State.drawTurn; split <;> rfl
@[simp] theorem drawTurn_cpHeld (s : State) : (s.drawTurn.2).cpHeld = s.cpHeld := by unfold State.drawTurn; split <;> rfl
@[simp] theorem drawTurn_cmplq (s : State) : (s.drawTurn.2).cmplq = s.cmplq := by unfold State.drawTurn; split <;> rfl
@[simp] theorem drawTurn_hostWait (s : State) : (s.drawTurn.2).hostWait = s.hostWait := by unfold State.drawTurn; split <;> rfl
@[simp] theorem drawTurn_bus (s : State) : (s.drawTurn.2).bus = s.bus := by unfold State.drawTurn; split <;> rfl
@[simp] theorem drawTurn_mixedMode (s : State) : (s.drawTurn.2).mixedMode = s.mixedMode := by unfold State.drawTurn; split <;> rfl
@[simp] theorem drawTurn_now (s : State) : (s.drawTurn.2).now = s.now := by unfold State.drawTurn; split <;> rfl
@[simp] theorem drawTurn_trace (s : State) : (s.drawTurn.2).trace = s.trace := by unfold State.drawTurn; split <;> rfl
@[simp] theorem drawTurn_sync (s : State) : (s.drawTurn.2).sync = s.sync := by unfold State.drawTurn; split <;> rfl
@[simp] theorem drawTurn_popped (s : State) : (s.drawTurn.2).popped = s.popped := by unfold State.drawTurn; split <;> rfl
@[simp] theorem drawTurn_host (s : State) : (s.drawTurn.2).host = s.host := by unfold State.drawTurn; split <;> rfl

/-! ### The CP's position -/

@[simp] theorem advancePc_img (s : State) : (s.advancePc).img = s.img := by unfold State.advancePc; split <;> rfl
@[simp] theorem advancePc_stp (s : State) : (s.advancePc).stp = s.stp := by unfold State.advancePc; split <;> rfl
@[simp] theorem advancePc_nextTicket (s : State) : (s.advancePc).nextTicket = s.nextTicket := by unfold State.advancePc; split <;> rfl
@[simp] theorem advancePc_cmdq (s : State) : (s.advancePc).cmdq = s.cmdq := by unfold State.advancePc; split <;> rfl
@[simp] theorem advancePc_cpHeld (s : State) : (s.advancePc).cpHeld = s.cpHeld := by unfold State.advancePc; split <;> rfl
@[simp] theorem advancePc_cmplq (s : State) : (s.advancePc).cmplq = s.cmplq := by unfold State.advancePc; split <;> rfl
@[simp] theorem advancePc_hostWait (s : State) : (s.advancePc).hostWait = s.hostWait := by unfold State.advancePc; split <;> rfl
@[simp] theorem advancePc_bus (s : State) : (s.advancePc).bus = s.bus := by unfold State.advancePc; split <;> rfl
@[simp] theorem advancePc_mixedMode (s : State) : (s.advancePc).mixedMode = s.mixedMode := by unfold State.advancePc; split <;> rfl
@[simp] theorem advancePc_now (s : State) : (s.advancePc).now = s.now := by unfold State.advancePc; split <;> rfl
@[simp] theorem advancePc_trace (s : State) : (s.advancePc).trace = s.trace := by unfold State.advancePc; split <;> rfl
@[simp] theorem advancePc_sync (s : State) : (s.advancePc).sync = s.sync := by unfold State.advancePc; split <;> rfl
@[simp] theorem advancePc_popped (s : State) : (s.advancePc).popped = s.popped := by unfold State.advancePc; split <;> rfl
@[simp] theorem advancePc_host (s : State) : (s.advancePc).host = s.host := by unfold State.advancePc; split <;> rfl
@[simp] theorem advancePc_env (s : State) : (s.advancePc).env = s.env := by unfold State.advancePc; split <;> rfl

/-! ### Pulsing -/

@[simp] theorem setPulsing_img (s : State) (i : StepperId) (v : Bool) : (s.setPulsing i v).img = s.img := rfl
@[simp] theorem setPulsing_nextTicket (s : State) (i : StepperId) (v : Bool) : (s.setPulsing i v).nextTicket = s.nextTicket := rfl
@[simp] theorem setPulsing_cmdq (s : State) (i : StepperId) (v : Bool) : (s.setPulsing i v).cmdq = s.cmdq := rfl
@[simp] theorem setPulsing_cp (s : State) (i : StepperId) (v : Bool) : (s.setPulsing i v).cp = s.cp := rfl
@[simp] theorem setPulsing_cpHeld (s : State) (i : StepperId) (v : Bool) : (s.setPulsing i v).cpHeld = s.cpHeld := rfl
@[simp] theorem setPulsing_cmplq (s : State) (i : StepperId) (v : Bool) : (s.setPulsing i v).cmplq = s.cmplq := rfl
@[simp] theorem setPulsing_hostWait (s : State) (i : StepperId) (v : Bool) : (s.setPulsing i v).hostWait = s.hostWait := rfl
@[simp] theorem setPulsing_bus (s : State) (i : StepperId) (v : Bool) : (s.setPulsing i v).bus = s.bus := rfl
@[simp] theorem setPulsing_mixedMode (s : State) (i : StepperId) (v : Bool) : (s.setPulsing i v).mixedMode = s.mixedMode := rfl
@[simp] theorem setPulsing_now (s : State) (i : StepperId) (v : Bool) : (s.setPulsing i v).now = s.now := rfl
@[simp] theorem setPulsing_trace (s : State) (i : StepperId) (v : Bool) : (s.setPulsing i v).trace = s.trace := rfl
@[simp] theorem setPulsing_sync (s : State) (i : StepperId) (v : Bool) : (s.setPulsing i v).sync = s.sync := rfl
@[simp] theorem setPulsing_popped (s : State) (i : StepperId) (v : Bool) : (s.setPulsing i v).popped = s.popped := rfl
@[simp] theorem setPulsing_host (s : State) (i : StepperId) (v : Bool) : (s.setPulsing i v).host = s.host := rfl
@[simp] theorem setPulsing_env (s : State) (i : StepperId) (v : Bool) : (s.setPulsing i v).env = s.env := rfl

/-! ### A confirmed pin -/

@[simp] theorem pinWritten_nextTicket (s : State) (i : StepperId) (t : PinTask) : (s.pinWritten i t).nextTicket = s.nextTicket := rfl
@[simp] theorem pinWritten_cmdq (s : State) (i : StepperId) (t : PinTask) : (s.pinWritten i t).cmdq = s.cmdq := rfl
@[simp] theorem pinWritten_cp (s : State) (i : StepperId) (t : PinTask) : (s.pinWritten i t).cp = s.cp := rfl
@[simp] theorem pinWritten_cpHeld (s : State) (i : StepperId) (t : PinTask) : (s.pinWritten i t).cpHeld = s.cpHeld := rfl
@[simp] theorem pinWritten_cmplq (s : State) (i : StepperId) (t : PinTask) : (s.pinWritten i t).cmplq = s.cmplq := rfl
@[simp] theorem pinWritten_hostWait (s : State) (i : StepperId) (t : PinTask) : (s.pinWritten i t).hostWait = s.hostWait := rfl
@[simp] theorem pinWritten_bus (s : State) (i : StepperId) (t : PinTask) : (s.pinWritten i t).bus = s.bus := rfl
@[simp] theorem pinWritten_mixedMode (s : State) (i : StepperId) (t : PinTask) : (s.pinWritten i t).mixedMode = s.mixedMode := rfl
@[simp] theorem pinWritten_now (s : State) (i : StepperId) (t : PinTask) : (s.pinWritten i t).now = s.now := rfl
@[simp] theorem pinWritten_trace (s : State) (i : StepperId) (t : PinTask) : (s.pinWritten i t).trace = s.trace := rfl
@[simp] theorem pinWritten_sync (s : State) (i : StepperId) (t : PinTask) : (s.pinWritten i t).sync = s.sync := rfl
@[simp] theorem pinWritten_popped (s : State) (i : StepperId) (t : PinTask) : (s.pinWritten i t).popped = s.popped := rfl
@[simp] theorem pinWritten_host (s : State) (i : StepperId) (t : PinTask) : (s.pinWritten i t).host = s.host := rfl
@[simp] theorem pinWritten_env (s : State) (i : StepperId) (t : PinTask) : (s.pinWritten i t).env = s.env := rfl

/-! ### A phase advance -/

@[simp] theorem advancePhase_img (s : State) (i : StepperId) (d : Dir) (r : Ready) : (s.advancePhase i d r).img = s.img := rfl
@[simp] theorem advancePhase_nextTicket (s : State) (i : StepperId) (d : Dir) (r : Ready) : (s.advancePhase i d r).nextTicket = s.nextTicket := rfl
@[simp] theorem advancePhase_cmdq (s : State) (i : StepperId) (d : Dir) (r : Ready) : (s.advancePhase i d r).cmdq = s.cmdq := rfl
@[simp] theorem advancePhase_cp (s : State) (i : StepperId) (d : Dir) (r : Ready) : (s.advancePhase i d r).cp = s.cp := rfl
@[simp] theorem advancePhase_cpHeld (s : State) (i : StepperId) (d : Dir) (r : Ready) : (s.advancePhase i d r).cpHeld = s.cpHeld := rfl
@[simp] theorem advancePhase_cmplq (s : State) (i : StepperId) (d : Dir) (r : Ready) : (s.advancePhase i d r).cmplq = s.cmplq := rfl
@[simp] theorem advancePhase_hostWait (s : State) (i : StepperId) (d : Dir) (r : Ready) : (s.advancePhase i d r).hostWait = s.hostWait := rfl
@[simp] theorem advancePhase_bus (s : State) (i : StepperId) (d : Dir) (r : Ready) : (s.advancePhase i d r).bus = s.bus := rfl
@[simp] theorem advancePhase_mixedMode (s : State) (i : StepperId) (d : Dir) (r : Ready) : (s.advancePhase i d r).mixedMode = s.mixedMode := rfl
@[simp] theorem advancePhase_now (s : State) (i : StepperId) (d : Dir) (r : Ready) : (s.advancePhase i d r).now = s.now := rfl
@[simp] theorem advancePhase_trace (s : State) (i : StepperId) (d : Dir) (r : Ready) : (s.advancePhase i d r).trace = s.trace := rfl
@[simp] theorem advancePhase_sync (s : State) (i : StepperId) (d : Dir) (r : Ready) : (s.advancePhase i d r).sync = s.sync := rfl
@[simp] theorem advancePhase_popped (s : State) (i : StepperId) (d : Dir) (r : Ready) : (s.advancePhase i d r).popped = s.popped := rfl
@[simp] theorem advancePhase_host (s : State) (i : StepperId) (d : Dir) (r : Ready) : (s.advancePhase i d r).host = s.host := rfl
@[simp] theorem advancePhase_env (s : State) (i : StepperId) (d : Dir) (r : Ready) : (s.advancePhase i d r).env = s.env := rfl

/-! ### A run's start -/

@[simp] theorem startRun_img (s : State) (k : StepperId) (nb : Bool) (d : Dir) (n : W32) : (s.startRun k nb d n).img = s.img := rfl
@[simp] theorem startRun_nextTicket (s : State) (k : StepperId) (nb : Bool) (d : Dir) (n : W32) : (s.startRun k nb d n).nextTicket = s.nextTicket := rfl
@[simp] theorem startRun_cmdq (s : State) (k : StepperId) (nb : Bool) (d : Dir) (n : W32) : (s.startRun k nb d n).cmdq = s.cmdq := rfl
@[simp] theorem startRun_cp (s : State) (k : StepperId) (nb : Bool) (d : Dir) (n : W32) : (s.startRun k nb d n).cp = s.cp := rfl
@[simp] theorem startRun_cpHeld (s : State) (k : StepperId) (nb : Bool) (d : Dir) (n : W32) : (s.startRun k nb d n).cpHeld = s.cpHeld := rfl
@[simp] theorem startRun_cmplq (s : State) (k : StepperId) (nb : Bool) (d : Dir) (n : W32) : (s.startRun k nb d n).cmplq = s.cmplq := rfl
@[simp] theorem startRun_hostWait (s : State) (k : StepperId) (nb : Bool) (d : Dir) (n : W32) : (s.startRun k nb d n).hostWait = s.hostWait := rfl
@[simp] theorem startRun_bus (s : State) (k : StepperId) (nb : Bool) (d : Dir) (n : W32) : (s.startRun k nb d n).bus = s.bus := rfl
@[simp] theorem startRun_mixedMode (s : State) (k : StepperId) (nb : Bool) (d : Dir) (n : W32) : (s.startRun k nb d n).mixedMode = s.mixedMode := rfl
@[simp] theorem startRun_now (s : State) (k : StepperId) (nb : Bool) (d : Dir) (n : W32) : (s.startRun k nb d n).now = s.now := rfl
@[simp] theorem startRun_trace (s : State) (k : StepperId) (nb : Bool) (d : Dir) (n : W32) : (s.startRun k nb d n).trace = s.trace := rfl
@[simp] theorem startRun_sync (s : State) (k : StepperId) (nb : Bool) (d : Dir) (n : W32) : (s.startRun k nb d n).sync = s.sync := rfl
@[simp] theorem startRun_popped (s : State) (k : StepperId) (nb : Bool) (d : Dir) (n : W32) : (s.startRun k nb d n).popped = s.popped := rfl
@[simp] theorem startRun_host (s : State) (k : StepperId) (nb : Bool) (d : Dir) (n : W32) : (s.startRun k nb d n).host = s.host := rfl
@[simp] theorem startRun_env (s : State) (k : StepperId) (nb : Bool) (d : Dir) (n : W32) : (s.startRun k nb d n).env = s.env := rfl

/-! ### A command's start -/

@[simp] theorem start_img (s : State) (i : Instr) : (s.start i).img = s.img := rfl
@[simp] theorem start_stp (s : State) (i : Instr) : (s.start i).stp = s.stp := rfl
@[simp] theorem start_nextTicket (s : State) (i : Instr) : (s.start i).nextTicket = s.nextTicket := rfl
@[simp] theorem start_cmdq (s : State) (i : Instr) : (s.start i).cmdq = s.cmdq := rfl
@[simp] theorem start_cp (s : State) (i : Instr) : (s.start i).cp = s.cp := rfl
@[simp] theorem start_cpHeld (s : State) (i : Instr) : (s.start i).cpHeld = s.cpHeld := rfl
@[simp] theorem start_cmplq (s : State) (i : Instr) : (s.start i).cmplq = s.cmplq := rfl
@[simp] theorem start_hostWait (s : State) (i : Instr) : (s.start i).hostWait = s.hostWait := rfl
@[simp] theorem start_bus (s : State) (i : Instr) : (s.start i).bus = s.bus := rfl
@[simp] theorem start_now (s : State) (i : Instr) : (s.start i).now = s.now := rfl
@[simp] theorem start_trace (s : State) (i : Instr) : (s.start i).trace = s.trace := rfl
@[simp] theorem start_sync (s : State) (i : Instr) : (s.start i).sync = s.sync := rfl
@[simp] theorem start_popped (s : State) (i : Instr) : (s.start i).popped = s.popped := rfl
@[simp] theorem start_host (s : State) (i : Instr) : (s.start i).host = s.host := rfl
@[simp] theorem start_env (s : State) (i : Instr) : (s.start i).env = s.env := rfl

/-! ### A configuration change -/

@[simp] theorem configure_img (s : State) (k : StepperId) (f : StepperConfig → StepperConfig) : (s.configure k f).img = s.img := rfl
@[simp] theorem configure_nextTicket (s : State) (k : StepperId) (f : StepperConfig → StepperConfig) : (s.configure k f).nextTicket = s.nextTicket := rfl
@[simp] theorem configure_cmdq (s : State) (k : StepperId) (f : StepperConfig → StepperConfig) : (s.configure k f).cmdq = s.cmdq := rfl
@[simp] theorem configure_cp (s : State) (k : StepperId) (f : StepperConfig → StepperConfig) : (s.configure k f).cp = s.cp := rfl
@[simp] theorem configure_cpHeld (s : State) (k : StepperId) (f : StepperConfig → StepperConfig) : (s.configure k f).cpHeld = s.cpHeld := rfl
@[simp] theorem configure_cmplq (s : State) (k : StepperId) (f : StepperConfig → StepperConfig) : (s.configure k f).cmplq = s.cmplq := rfl
@[simp] theorem configure_hostWait (s : State) (k : StepperId) (f : StepperConfig → StepperConfig) : (s.configure k f).hostWait = s.hostWait := rfl
@[simp] theorem configure_bus (s : State) (k : StepperId) (f : StepperConfig → StepperConfig) : (s.configure k f).bus = s.bus := rfl
@[simp] theorem configure_mixedMode (s : State) (k : StepperId) (f : StepperConfig → StepperConfig) : (s.configure k f).mixedMode = s.mixedMode := rfl
@[simp] theorem configure_now (s : State) (k : StepperId) (f : StepperConfig → StepperConfig) : (s.configure k f).now = s.now := rfl
@[simp] theorem configure_trace (s : State) (k : StepperId) (f : StepperConfig → StepperConfig) : (s.configure k f).trace = s.trace := rfl
@[simp] theorem configure_sync (s : State) (k : StepperId) (f : StepperConfig → StepperConfig) : (s.configure k f).sync = s.sync := rfl
@[simp] theorem configure_popped (s : State) (k : StepperId) (f : StepperConfig → StepperConfig) : (s.configure k f).popped = s.popped := rfl
@[simp] theorem configure_host (s : State) (k : StepperId) (f : StepperConfig → StepperConfig) : (s.configure k f).host = s.host := rfl
@[simp] theorem configure_env (s : State) (k : StepperId) (f : StepperConfig → StepperConfig) : (s.configure k f).env = s.env := rfl

/-! ### A stopped run's report -/

@[simp] theorem report_img (s : State) (i : StepperId) (b : Bool) : ((s.report i b).2).img = s.img := by simp [State.report]
@[simp] theorem report_stp (s : State) (i : StepperId) (b : Bool) : ((s.report i b).2).stp = s.stp := by simp [State.report]
@[simp] theorem report_nextTicket (s : State) (i : StepperId) (b : Bool) : ((s.report i b).2).nextTicket = s.nextTicket := by simp [State.report]
@[simp] theorem report_cmdq (s : State) (i : StepperId) (b : Bool) : ((s.report i b).2).cmdq = s.cmdq := by simp [State.report]
@[simp] theorem report_cp (s : State) (i : StepperId) (b : Bool) : ((s.report i b).2).cp = s.cp := by simp [State.report]
@[simp] theorem report_cpHeld (s : State) (i : StepperId) (b : Bool) : ((s.report i b).2).cpHeld = s.cpHeld := by simp [State.report]
@[simp] theorem report_cmplq (s : State) (i : StepperId) (b : Bool) : ((s.report i b).2).cmplq = s.cmplq := by simp [State.report]
@[simp] theorem report_hostWait (s : State) (i : StepperId) (b : Bool) : ((s.report i b).2).hostWait = s.hostWait := by simp [State.report]
@[simp] theorem report_bus (s : State) (i : StepperId) (b : Bool) : ((s.report i b).2).bus = s.bus := by simp [State.report]
@[simp] theorem report_mixedMode (s : State) (i : StepperId) (b : Bool) : ((s.report i b).2).mixedMode = s.mixedMode := by simp [State.report]
@[simp] theorem report_now (s : State) (i : StepperId) (b : Bool) : ((s.report i b).2).now = s.now := by simp [State.report]
@[simp] theorem report_trace (s : State) (i : StepperId) (b : Bool) : ((s.report i b).2).trace = s.trace := by simp [State.report]
@[simp] theorem report_sync (s : State) (i : StepperId) (b : Bool) : ((s.report i b).2).sync = s.sync := by simp [State.report]
@[simp] theorem report_popped (s : State) (i : StepperId) (b : Bool) : ((s.report i b).2).popped = s.popped := by simp [State.report]
@[simp] theorem report_host (s : State) (i : StepperId) (b : Bool) : ((s.report i b).2).host = s.host := by simp [State.report]

/-! ### The lock -/

@[simp] theorem setLock_img (s : State) (v : Bool) : (s.setLock v).img = s.img := rfl
@[simp] theorem setLock_stp (s : State) (v : Bool) : (s.setLock v).stp = s.stp := rfl
@[simp] theorem setLock_nextTicket (s : State) (v : Bool) : (s.setLock v).nextTicket = s.nextTicket := rfl
@[simp] theorem setLock_cmdq (s : State) (v : Bool) : (s.setLock v).cmdq = s.cmdq := rfl
@[simp] theorem setLock_cp (s : State) (v : Bool) : (s.setLock v).cp = s.cp := rfl
@[simp] theorem setLock_cpHeld (s : State) (v : Bool) : (s.setLock v).cpHeld = s.cpHeld := rfl
@[simp] theorem setLock_cmplq (s : State) (v : Bool) : (s.setLock v).cmplq = s.cmplq := rfl
@[simp] theorem setLock_hostWait (s : State) (v : Bool) : (s.setLock v).hostWait = s.hostWait := rfl
@[simp] theorem setLock_mixedMode (s : State) (v : Bool) : (s.setLock v).mixedMode = s.mixedMode := rfl
@[simp] theorem setLock_now (s : State) (v : Bool) : (s.setLock v).now = s.now := rfl
@[simp] theorem setLock_trace (s : State) (v : Bool) : (s.setLock v).trace = s.trace := rfl
@[simp] theorem setLock_sync (s : State) (v : Bool) : (s.setLock v).sync = s.sync := rfl
@[simp] theorem setLock_popped (s : State) (v : Bool) : (s.setLock v).popped = s.popped := rfl
@[simp] theorem setLock_host (s : State) (v : Bool) : (s.setLock v).host = s.host := rfl
@[simp] theorem setLock_env (s : State) (v : Bool) : (s.setLock v).env = s.env := rfl
@[simp] theorem setLock_lock (s : State) (v : Bool) : (s.setLock v).bus.lock = v := rfl
@[simp] theorem setLock_reqq (s : State) (v : Bool) : (s.setLock v).bus.reqq = s.bus.reqq := rfl
@[simp] theorem setLock_inflight (s : State) (v : Bool) : (s.setLock v).bus.inflight = s.bus.inflight := rfl
@[simp] theorem setLock_lastDone (s : State) (v : Bool) : (s.setLock v).bus.lastDone = s.bus.lastDone := rfl

/-! ### The parts an update does change -/

@[simp] theorem pinWritten_img (s : State) (i : StepperId) (t : PinTask) :
    (s.pinWritten i t).img = s.img.setChannel t.chan t.on t.off := rfl
@[simp] theorem request_bus_inflight (s : State) (who : Requester) (t : Txn) : (s.request who t).bus.inflight = s.bus.inflight := rfl
@[simp] theorem request_bus_lock (s : State) (who : Requester) (t : Txn) : (s.request who t).bus.lock = s.bus.lock := rfl
@[simp] theorem request_bus_reqq (s : State) (who : Requester) (t : Txn) :
    (s.request who t).bus.reqq = s.bus.reqq ++ [{ who := who, txn := t }] := rfl
@[simp] theorem grantCp_bus_inflight (s : State) (t : Txn) :
    (s.grantCp t).bus.inflight = some { who := .cp, txn := t } := rfl
@[simp] theorem grantCp_bus_lock (s : State) (t : Txn) : (s.grantCp t).bus.lock = s.bus.lock := rfl
@[simp] theorem completeTxn_bus_inflight (s : State) (who : Requester) (t : Txn) (a : Answer) :
    (s.completeTxn who t a).bus.inflight = none := rfl
@[simp] theorem completeTxn_bus_lock (s : State) (who : Requester) (t : Txn) (a : Answer) :
    (s.completeTxn who t a).bus.lock = s.bus.lock := rfl
@[simp] theorem completeTxn_bus_reqq (s : State) (who : Requester) (t : Txn) (a : Answer) :
    (s.completeTxn who t a).bus.reqq = s.bus.reqq := rfl
@[simp] theorem completeTxn_trace (s : State) (who : Requester) (t : Txn) (a : Answer) :
    (s.completeTxn who t a).trace = .txn who t a.ok (replyByte t a) :: s.trace := rfl

end Machine

end Sys2Proof
end

