-- ==== Sys2Proof/Laws/Background.lean ====
section
/-! SUPPORT. What the agents beside the command processor can do, said once. `Kept` lists what no timer, run engine or bus step
ever changes; `Beside` what the host does not change either, as long as it does not assert `rst`; and after `rst` the state is
`Discarded` (R290), whatever the agents do then. -/

namespace Sys2Proof.Machine

open Sys2Proof

/-- What no background agent changes between `s` and `t`: the configurations and the identity of the runs, the driver's flags
and prescale, the command interface but for `cmplq`, the lock, and the trace of the CP. -/
structure Kept (s t : State) : Prop where
  cfg : ∀ i, (t.stepper i).cfg = (s.stepper i).cfg
  runNB : ∀ i, (t.stepper i).run.runNB = (s.stepper i).run.runNB
  runDir : ∀ i, (t.stepper i).run.runDir = (s.stepper i).run.runDir
  runCount : ∀ i, (t.stepper i).run.runCount = (s.stepper i).run.runCount
  runTicket : ∀ i, (t.stepper i).run.runTicket = (s.stepper i).run.runTicket
  busOpen : t.img.busOpen = s.img.busOpen
  initialised : t.img.initialised = s.img.initialised
  prescale : t.img.prescale = s.img.prescale
  nextTicket : t.nextTicket = s.nextTicket
  cmdq : t.cmdq = s.cmdq
  cp : t.cp = s.cp
  cpHeld : t.cpHeld = s.cpHeld
  hostWait : t.hostWait = s.hostWait
  lock : t.bus.lock = s.bus.lock
  mixedMode : t.mixedMode = s.mixedMode
  sync : t.sync = s.sync
  popped : t.popped = s.popped
  host : t.host = s.host
  turns : t.env.turns = s.env.turns
  trace : ∃ l, t.trace = l ++ s.trace ∧ ∀ x, x ∈ l → x.ofCp = false
  cmplq : ∃ l, t.cmplq = s.cmplq ++ l

theorem Kept.refl (s : State) : Kept s s := by
  constructor <;> first | (intros; rfl) | exact ⟨[], by simp⟩

theorem Kept.trans {s t u : State} (a : Kept s t) (b : Kept t u) : Kept s u where
  cfg i := (b.cfg i).trans (a.cfg i)
  runNB i := (b.runNB i).trans (a.runNB i)
  runDir i := (b.runDir i).trans (a.runDir i)
  runCount i := (b.runCount i).trans (a.runCount i)
  runTicket i := (b.runTicket i).trans (a.runTicket i)
  busOpen := b.busOpen.trans a.busOpen
  initialised := b.initialised.trans a.initialised
  prescale := b.prescale.trans a.prescale
  nextTicket := b.nextTicket.trans a.nextTicket
  cmdq := b.cmdq.trans a.cmdq
  cp := b.cp.trans a.cp
  cpHeld := b.cpHeld.trans a.cpHeld
  hostWait := b.hostWait.trans a.hostWait
  lock := b.lock.trans a.lock
  mixedMode := b.mixedMode.trans a.mixedMode
  sync := b.sync.trans a.sync
  popped := b.popped.trans a.popped
  host := b.host.trans a.host
  turns := b.turns.trans a.turns
  trace := by
    obtain ⟨l, hl, h1⟩ := a.trace
    obtain ⟨m, hm, h2⟩ := b.trace
    refine ⟨m ++ l, by rw [hm, hl, List.append_assoc], ?_⟩
    intro x hx
    rcases List.mem_append.1 hx with h | h
    · exact h2 x h
    · exact h1 x h
  cmplq := by
    obtain ⟨l, hl⟩ := a.cmplq
    obtain ⟨m, hm⟩ := b.cmplq
    exact ⟨l ++ m, by rw [hm, hl, List.append_assoc]⟩

/-- A run engine's step for stepper `i`: besides `Kept`, no other stepper changes. -/
structure EngineKept (i : StepperId) (s t : State) : Prop extends Kept s t where
  others : ∀ j, j ≠ i → t.stepper j = s.stepper j

theorem EngineKept.refl (i : StepperId) (s : State) : EngineKept i s s :=
  { Kept.refl s with others := fun _ _ => rfl }

theorem EngineKept.trans {i : StepperId} {s t u : State} (a : EngineKept i s t) (b : EngineKept i t u) :
    EngineKept i s u :=
  { a.toKept.trans b.toKept with others := fun j h => (b.others j h).trans (a.others j h) }

/-- A change of one stepper that leaves its configuration and the identity of its run. -/
theorem engineKept_modStp (s : State) (i : StepperId) (f : Stepper → Stepper)
    (hc : (f (s.stepper i)).cfg = (s.stepper i).cfg)
    (hn : (f (s.stepper i)).run.runNB = (s.stepper i).run.runNB)
    (hd : (f (s.stepper i)).run.runDir = (s.stepper i).run.runDir)
    (hk : (f (s.stepper i)).run.runCount = (s.stepper i).run.runCount)
    (ht : (f (s.stepper i)).run.runTicket = (s.stepper i).run.runTicket) : EngineKept i s (s.modStp i f) where
  cfg j := stepper_modStp_proj (·.cfg) s i j f hc
  runNB j := stepper_modStp_proj (·.run.runNB) s i j f hn
  runDir j := stepper_modStp_proj (·.run.runDir) s i j f hd
  runCount j := stepper_modStp_proj (·.run.runCount) s i j f hk
  runTicket j := stepper_modStp_proj (·.run.runTicket) s i j f ht
  busOpen := rfl
  initialised := rfl
  prescale := rfl
  nextTicket := rfl
  cmdq := rfl
  cp := rfl
  cpHeld := rfl
  hostWait := rfl
  lock := rfl
  mixedMode := rfl
  sync := rfl
  popped := rfl
  host := rfl
  turns := rfl
  trace := ⟨[], by simp⟩
  cmplq := ⟨[], by simp⟩
  others j h := stepper_modStp_of_ne s f h

/-- A change of fields that are not listed in `Kept`, with the steppers untouched. -/
theorem engineKept_of_fields {i : StepperId} {s t : State} (hs : t.stp = s.stp) (hi : t.img = s.img)
    (h1 : t.nextTicket = s.nextTicket) (h2 : t.cmdq = s.cmdq) (h3 : t.cp = s.cp) (h4 : t.cpHeld = s.cpHeld)
    (h5 : t.hostWait = s.hostWait) (h6 : t.bus.lock = s.bus.lock) (h7 : t.mixedMode = s.mixedMode)
    (h8 : t.sync = s.sync) (h9 : t.popped = s.popped) (h10 : t.host = s.host) (h11 : t.env.turns = s.env.turns)
    (h12 : ∃ l, t.trace = l ++ s.trace ∧ ∀ x, x ∈ l → x.ofCp = false) (h13 : ∃ l, t.cmplq = s.cmplq ++ l) :
    EngineKept i s t where
  cfg j := by rw [stepper_of_stp hs]
  runNB j := by rw [stepper_of_stp hs]
  runDir j := by rw [stepper_of_stp hs]
  runCount j := by rw [stepper_of_stp hs]
  runTicket j := by rw [stepper_of_stp hs]
  busOpen := by rw [hi]
  initialised := by rw [hi]
  prescale := by rw [hi]
  nextTicket := h1
  cmdq := h2
  cp := h3
  cpHeld := h4
  hostWait := h5
  lock := h6
  mixedMode := h7
  sync := h8
  popped := h9
  host := h10
  turns := h11
  trace := h12
  cmplq := h13
  others j _ := stepper_of_stp hs j

theorem drawDuration_kept (i : StepperId) (s : State) : EngineKept i s s.drawDuration.2 := by
  refine engineKept_of_fields ?_ ?_ ?_ ?_ ?_ ?_ ?_ ?_ ?_ ?_ ?_ ?_ ?_ ⟨[], ?_⟩ ⟨[], ?_⟩ <;> try simp
  unfold State.drawDuration; split <;> rfl

theorem drawAnswer_kept (i : StepperId) (s : State) : EngineKept i s s.drawAnswer.2 := by
  refine engineKept_of_fields ?_ ?_ ?_ ?_ ?_ ?_ ?_ ?_ ?_ ?_ ?_ ?_ ?_ ⟨[], ?_⟩ ⟨[], ?_⟩ <;> try simp
  unfold State.drawAnswer; split <;> rfl

theorem drawBurst_kept (i : StepperId) (s : State) : EngineKept i s s.drawBurst.2 := by
  refine engineKept_of_fields ?_ ?_ ?_ ?_ ?_ ?_ ?_ ?_ ?_ ?_ ?_ ?_ ?_ ⟨[], ?_⟩ ⟨[], ?_⟩ <;> try simp
  unfold State.drawBurst; split <;> rfl

theorem pass_kept (i : StepperId) (s : State) (n : Nat) : EngineKept i s (s.pass n) :=
  engineKept_of_fields rfl rfl rfl rfl rfl rfl rfl rfl rfl rfl rfl rfl rfl ⟨[], by simp⟩ ⟨[], by simp⟩

theorem passUntil_kept (i : StepperId) (s : State) (t : ℚ) : EngineKept i s (s.passUntil t) :=
  engineKept_of_fields rfl rfl rfl rfl rfl rfl rfl rfl rfl rfl rfl rfl rfl ⟨[], by simp⟩ ⟨[], by simp⟩

theorem request_kept (i : StepperId) (s : State) (who : Requester) (t : Txn) : EngineKept i s (s.request who t) :=
  engineKept_of_fields rfl rfl rfl rfl rfl rfl rfl rfl rfl rfl rfl rfl rfl ⟨[], by simp⟩ ⟨[], by simp⟩

theorem completeTxn_engine_kept (i : StepperId) (s : State) (t : Txn) (a : Answer) :
    EngineKept i s (s.completeTxn (.engine i) t a) :=
  engineKept_of_fields rfl rfl rfl rfl rfl rfl rfl rfl rfl rfl rfl rfl rfl
    ⟨[.txn (.engine i) t a.ok (replyByte t a)], by simp [TraceItem.ofCp]⟩ ⟨[], by simp⟩

theorem appendRecord_kept (i : StepperId) (s : State) (r : Response) :
    EngineKept i s { s with cmplq := s.cmplq ++ [r] } :=
  engineKept_of_fields rfl rfl rfl rfl rfl rfl rfl rfl rfl rfl rfl rfl rfl ⟨[], by simp⟩ ⟨[r], rfl⟩

theorem report_kept (i j : StepperId) (s : State) (b : Bool) : EngineKept i s (s.report j b).2 := drawDuration_kept i s

theorem endRun_kept (i : StepperId) (s : State) (e : Option BusError) (b : Bool) : EngineKept i s (s.endRun i e b) := by
  unfold State.endRun
  dsimp only
  split
  · exact ((report_kept i i s b).trans (appendRecord_kept i _ _)).trans (engineKept_modStp _ _ _ rfl rfl rfl rfl rfl)
  · exact (report_kept i i s b).trans (engineKept_modStp _ _ _ rfl rfl rfl rfl rfl)

theorem deliverRun_kept (i : StepperId) (s : State) : EngineKept i s (s.deliverRun i) := by
  unfold State.deliverRun
  split
  · exact .refl i s
  · split
    · exact (appendRecord_kept i _ _).trans (engineKept_modStp _ _ _ rfl rfl rfl rfl rfl)
    · exact .refl i s

theorem vectorDone_kept (i : StepperId) (s : State) (e : Option BusError) : EngineKept i s (s.vectorDone i e) := by
  have h1 : EngineKept i s (s.modStp i
      (fun st => { st with motion := { st.motion with pulsing := false }, job := none })) :=
    engineKept_modStp _ _ _ rfl rfl rfl rfl rfl
  unfold State.vectorDone
  cases e with
  | some info => exact h1.trans (endRun_kept i _ _ _)
  | none =>
    dsimp only
    have h2 := h1.trans (engineKept_modStp (s.modStp i
      (fun st => { st with motion := { st.motion with pulsing := false }, job := none })) i
      (fun st => { st with run := { st.run with done := st.run.done + 1#32 } }) rfl rfl rfl rfl rfl)
    split
    · exact h2.trans (endRun_kept i _ _ _)
    · split
      · exact h2.trans (endRun_kept i _ _ _)
      · exact h2

theorem nextPin_kept (i : StepperId) (s : State) (l : List PinTask) : EngineKept i s (s.nextPin i l) := by
  unfold State.nextPin
  split
  · exact vectorDone_kept i s none
  · exact engineKept_modStp _ _ _ rfl rfl rfl rfl rfl

theorem pinWritten_kept (i : StepperId) (s : State) (t : PinTask) : EngineKept i s (s.pinWritten i t) := by
  have h := engineKept_modStp s i (fun st => { st with cache := st.cache.set t.role (some t.value) }) rfl rfl rfl rfl rfl
  exact { cfg := h.cfg, runNB := h.runNB, runDir := h.runDir, runCount := h.runCount, runTicket := h.runTicket,
          busOpen := rfl, initialised := rfl, prescale := rfl, nextTicket := rfl, cmdq := rfl, cp := rfl, cpHeld := rfl,
          hostWait := rfl, lock := rfl, mixedMode := rfl, sync := rfl, popped := rfl, host := rfl, turns := rfl,
          trace := ⟨[], by simp⟩, cmplq := ⟨[], by simp⟩, others := h.others }

theorem engineIssue_kept (i : StepperId) (s : State) : EngineKept i s (s.engineIssue i) := by
  unfold State.engineIssue
  split
  · exact .refl i s
  · split
    · exact .refl i s
    · split
      · exact .refl i s
      · exact (engineKept_modStp s i _ rfl rfl rfl rfl rfl).trans (request_kept i _ _ _)

theorem engineReply_kept (i : StepperId) (s : State) (t : Txn) (ok : Bool) : EngineKept i s (s.engineReply i t ok) := by
  unfold State.engineReply
  split
  · exact .refl i s
  · split
    · exact vectorDone_kept i s _
    · split
      · exact (pinWritten_kept i s _).trans (nextPin_kept i _ _)
      · exact engineKept_modStp s i _ rfl rfl rfl rfl rfl

theorem startPulse_kept (i : StepperId) (s : State) (r : Ready) : EngineKept i s (s.startPulse i r) := by
  unfold State.startPulse
  exact (engineKept_modStp s i _ rfl rfl rfl rfl rfl).trans (nextPin_kept i _ _)

theorem onTick_kept (i : StepperId) (s : State) : EngineKept i s (s.onTick i) := by
  unfold State.onTick
  dsimp only
  split
  · exact .refl i s
  · have h := (passUntil_kept i s
        ((s.stepper i).run.t0 + ((s.stepper i).run.k.toNat : ℚ) * runPeriod (s.stepper i).cfg)).trans
      (engineKept_modStp _ i (fun st => { st with run := { st.run with k := st.run.k + 1#32 } }) rfl rfl rfl rfl rfl)
    split
    · exact h
    · split
      · exact h
      · split
        · exact h.trans (engineKept_modStp _ i _ rfl rfl rfl rfl rfl)
        · split
          · exact h
          · exact h.trans (startPulse_kept i _ _)

theorem busStep_kept (s : State) : Kept s s.busStep := by
  unfold State.busStep
  split
  · rename_i q _
    split
    · exact .refl s
    · rename_i i _
      exact (((drawAnswer_kept i s).trans (completeTxn_engine_kept i _ _ _)).trans (engineReply_kept i _ _ _)).toKept
  · split
    · exact .refl s
    · split
      · exact .refl s
      · split
        · exact .refl s
        · refine EngineKept.toKept (i := 0) (engineKept_of_fields ?_ ?_ ?_ ?_ ?_ ?_ ?_ ?_ ?_ ?_ ?_ ?_ ?_ ⟨[], ?_⟩ ⟨[], ?_⟩)
            <;> simp

/-- No step of a timer, a run engine or the bus master changes what `Kept` lists. -/
theorem background_kept (s : State) (b : Background) (h : b ≠ .host) : Kept s (s.background b) := by
  cases b with
  | tick i => exact (onTick_kept i s).toKept
  | engine i =>
    unfold State.background
    dsimp only
    split
    · exact (deliverRun_kept i s).toKept
    · exact (engineIssue_kept i s).toKept
  | bus => exact busStep_kept s
  | host => exact absurd rfl h

/-! ### The host (R120, R258, R290) -/

/-- What a submission that goes through does: a ticket, at most one accepted word in `cmdq`, at most one record on the
synchronous path, and perhaps the wait for a blocking command. -/
theorem submit_some {s u : State} {w : CmdWord} (h : s.submit w = some u) :
    s.hostWait = none ∧ ∃ q l v,
      u = { s with nextTicket := s.nextTicket + 1#16, cmdq := s.cmdq ++ q, sync := l ++ s.sync, hostWait := v } ∧
      (∀ r, r ∈ l → ∃ tk w st why, r = submitRecord tk w st why) ∧ (∀ x, x ∈ q → ∃ i, decode x.word = .ok i) ∧
      (q = [] ∨ (q.length = 1 ∧ s.cmdq.length < Config.cmdqDepth)) := by
  unfold State.submit at h
  split at h
  · cases h
  · rename_i hw
    have hw : s.hostWait = none := by simpa using hw
    refine ⟨hw, ?_⟩
    split at h
    · cases h
      rename_i why _
      exact ⟨[], [submitRecord s.nextTicket w .validation (reasonCode why)], none, by simp [State.useTicket, hw],
        fun r hr => ⟨_, _, _, _, List.mem_singleton.1 hr⟩, by simp, .inl rfl⟩
    · rename_i i hi
      split at h
      · cases h
      · rename_i hd
        have hq : ∀ x, x ∈ [({ ticket := s.nextTicket, word := w } : Queued)] → ∃ i, decode x.word = .ok i := by
          intro x hx; rw [List.mem_singleton.1 hx]; exact ⟨i, hi⟩
        dsimp only at h
        split at h
        · cases h
          exact ⟨_, [submitRecord s.nextTicket w .accepted 0#8], none, by simp [State.useTicket, hw],
            fun r hr => ⟨_, _, _, _, List.mem_singleton.1 hr⟩, hq, .inr ⟨rfl, by omega⟩⟩
        · cases h
          exact ⟨_, [], some s.nextTicket, by simp [State.useTicket], by simp, hq, .inr ⟨rfl, by omega⟩⟩

/-- Everything the host's turn can do. -/
theorem hostTurn_cases (s : State) :
    s.hostTurn = s ∨
    (∃ w rest q l v, s.host = .submit w :: rest ∧ s.hostWait = none ∧
      s.hostTurn = { s with nextTicket := s.nextTicket + 1#16, cmdq := s.cmdq ++ q, sync := l ++ s.sync, hostWait := v,
                            host := rest } ∧
      (∀ r, r ∈ l → ∃ tk w st why, r = submitRecord tk w st why) ∧ (∀ x, x ∈ q → ∃ i, decode x.word = .ok i) ∧
      (q = [] ∨ (q.length = 1 ∧ s.cmdq.length < Config.cmdqDepth))) ∨
    (∃ r rest more, s.host = .pop :: rest ∧ s.cmplq = r :: more ∧
      s.hostTurn = { s with cmplq := more, popped := r :: s.popped, host := rest }) ∨
    (∃ rest, s.host = .rst :: rest ∧ s.hostTurn = { s.hardReset with host := rest }) := by
  cases hh : s.host with
  | nil => left; simp [State.hostTurn, hh]
  | cons a rest =>
    cases a with
    | submit w =>
      cases hs : s.submit w with
      | none => left; simp [State.hostTurn, hh, hs]
      | some u =>
        obtain ⟨hw, q, l, v, hu, h1, h2, h3⟩ := submit_some hs
        refine .inr (.inl ⟨w, rest, q, l, v, rfl, hw, ?_, h1, h2, h3⟩)
        subst hu
        simp [State.hostTurn, hh, hs]
    | pop =>
      cases hc : s.cmplq with
      | nil => left; simp [State.hostTurn, hh, State.popRecord, hc]
      | cons r more =>
        exact .inr (.inr (.inl ⟨r, rest, more, rfl, rfl, by simp [State.hostTurn, hh, State.popRecord, hc]⟩))
    | rst => exact .inr (.inr (.inr ⟨rest, rfl, by simp [State.hostTurn, hh]⟩))

/-- What no agent beside the CP changes between `s` and `t` while the host does not assert `rst`: what `Kept` lists of the
configurations, the runs' identity, the driver, the CP and the lock; what comes out on the synchronous path are records of
submissions; and a host that waits for a blocking command goes on waiting. -/
structure Beside (s t : State) : Prop where
  cfg : ∀ i, (t.stepper i).cfg = (s.stepper i).cfg
  runNB : ∀ i, (t.stepper i).run.runNB = (s.stepper i).run.runNB
  runDir : ∀ i, (t.stepper i).run.runDir = (s.stepper i).run.runDir
  runCount : ∀ i, (t.stepper i).run.runCount = (s.stepper i).run.runCount
  runTicket : ∀ i, (t.stepper i).run.runTicket = (s.stepper i).run.runTicket
  busOpen : t.img.busOpen = s.img.busOpen
  initialised : t.img.initialised = s.img.initialised
  prescale : t.img.prescale = s.img.prescale
  cp : t.cp = s.cp
  cpHeld : t.cpHeld = s.cpHeld
  lock : t.bus.lock = s.bus.lock
  mixedMode : t.mixedMode = s.mixedMode
  turns : t.env.turns = s.env.turns
  trace : ∃ l, t.trace = l ++ s.trace ∧ ∀ x, x ∈ l → x.ofCp = false
  waiting : s.hostWait ≠ none → t.hostWait = s.hostWait
  sync : ∃ l, t.sync = l ++ s.sync ∧ ∀ r, r ∈ l → ∃ tk w st why, r = submitRecord tk w st why
  popped : ∃ l, t.popped = l ++ s.popped
  host : ∃ l, s.host = l ++ t.host

/-- Growing at the head twice is growing at the head. -/
theorem grown_trans {α : Type} {P : α → Prop} {a b c : List α} (h : ∃ l, b = l ++ a ∧ ∀ x, x ∈ l → P x)
    (k : ∃ l, c = l ++ b ∧ ∀ x, x ∈ l → P x) : ∃ l, c = l ++ a ∧ ∀ x, x ∈ l → P x := by
  obtain ⟨l, rfl, hl⟩ := h
  obtain ⟨m, rfl, hm⟩ := k
  exact ⟨m ++ l, by simp, fun x hx => (List.mem_append.1 hx).elim (hm x) (hl x)⟩

/-- Growing at the head twice is growing at the head. -/
theorem prefix_trans {α : Type} {a b c : List α} (h : ∃ l, b = l ++ a) (k : ∃ l, c = l ++ b) : ∃ l, c = l ++ a := by
  obtain ⟨l, rfl⟩ := h
  obtain ⟨m, rfl⟩ := k
  exact ⟨m ++ l, by simp⟩

theorem Kept.toBeside {s t : State} (h : Kept s t) : Beside s t :=
  { cfg := h.cfg, runNB := h.runNB, runDir := h.runDir, runCount := h.runCount, runTicket := h.runTicket, busOpen := h.busOpen,
    initialised := h.initialised, prescale := h.prescale, cp := h.cp, cpHeld := h.cpHeld, lock := h.lock,
    mixedMode := h.mixedMode, turns := h.turns, trace := h.trace, waiting := fun _ => h.hostWait,
    sync := ⟨[], by simp [h.sync]⟩, popped := ⟨[], by simp [h.popped]⟩, host := ⟨[], by simp [h.host]⟩ }

theorem Beside.refl (s : State) : Beside s s := (Kept.refl s).toBeside

theorem Beside.trans {s t u : State} (a : Beside s t) (b : Beside t u) : Beside s u where
  cfg i := (b.cfg i).trans (a.cfg i)
  runNB i := (b.runNB i).trans (a.runNB i)
  runDir i := (b.runDir i).trans (a.runDir i)
  runCount i := (b.runCount i).trans (a.runCount i)
  runTicket i := (b.runTicket i).trans (a.runTicket i)
  busOpen := b.busOpen.trans a.busOpen
  initialised := b.initialised.trans a.initialised
  prescale := b.prescale.trans a.prescale
  cp := b.cp.trans a.cp
  cpHeld := b.cpHeld.trans a.cpHeld
  lock := b.lock.trans a.lock
  mixedMode := b.mixedMode.trans a.mixedMode
  turns := b.turns.trans a.turns
  trace := grown_trans a.trace b.trace
  waiting h := (b.waiting (by rw [a.waiting h]; exact h)).trans (a.waiting h)
  sync := grown_trans a.sync b.sync
  popped := prefix_trans a.popped b.popped
  host := prefix_trans b.host a.host

/-- The host's turn, but for `rst`. -/
theorem hostTurn_beside (s : State) (h : s.host.head? ≠ some .rst) : Beside s s.hostTurn := by
  rcases hostTurn_cases s with e | ⟨w, rest, q, l, v, hh, hw, e, h1, _, _⟩ | ⟨r, rest, more, hh, _, e⟩ | ⟨rest, hh, _⟩
  · rw [e]; exact .refl s
  · rw [e]
    constructor <;> first
      | (intros; rfl) | exact ⟨l, rfl, h1⟩ | exact ⟨[_], hh⟩ | exact ⟨[], by simp⟩ | exact fun hn => absurd hw hn
  · rw [e]
    constructor <;> first
      | (intros; rfl) | exact ⟨[_], hh⟩ | exact ⟨[_], rfl⟩ | exact ⟨[], by simp⟩
  · exact absurd (by rw [hh]; rfl) h

/-- Reading a stepper after `rst`. -/
theorem hardReset_stepper (s : State) (i : StepperId) : s.hardReset.stepper i = Stepper.reset := by
  simp [State.stepper, State.hardReset, State.reset, Vector.get_eq_getElem]

/-- `rst` discards what the CP holds (R290). -/
theorem hostTurn_rst (s : State) {rest : List HostAct} (h : s.host = .rst :: rest) : Discarded s s.hostTurn := by
  have e : s.hostTurn = { s.hardReset with host := rest } := by simp [State.hostTurn, h]
  have hs : ∀ i, s.hostTurn.stepper i = Stepper.reset := fun i => by
    rw [e]; exact hardReset_stepper s i
  refine ⟨by rw [e]; rfl, fun i => by rw [hs], by rw [e]; exact ⟨rfl, rfl, rfl⟩, by rw [e]; exact ⟨rfl, rfl⟩, by rw [e]; rfl,
    by rw [e]; rfl, ⟨[], by rw [e]; simp [State.hardReset]⟩, ⟨[], by rw [e]; simp [State.hardReset]⟩,
    ⟨[], by rw [e]; simp [State.hardReset]⟩⟩

/-- A step of an agent beside the CP, but for `rst`. -/
theorem background_beside (s : State) (b : Background) (h : NotRst b s) : Beside s (s.background b) := by
  by_cases hb : b = .host
  · subst hb; exact hostTurn_beside s (h rfl)
  · exact (background_kept s b hb).toBeside

/-- What was discarded before the others' steps was discarded. -/
theorem Beside.discarded {s t u : State} (a : Beside s t) (b : Discarded t u) : Discarded s u :=
  ⟨b.img, b.stp, b.bus, b.cp, b.cmplq, b.mixedMode, grown_trans a.sync b.sync, prefix_trans a.popped b.popped,
    prefix_trans (by obtain ⟨l, h, _⟩ := a.trace; exact ⟨l, h⟩) b.trace⟩

/-- After `rst` the timers, the run engines and the bus master have nothing to do, and the host can only submit or assert `rst`
again. -/
theorem Discarded.background {s t : State} (h : Discarded s t) (b : Background) : Discarded s (t.background b) := by
  have hst : ∀ i, (t.stepper i).inBackground = false ∧ (t.stepper i).held = none ∧ (t.stepper i).job = none := by
    intro i; rw [h.stp i]; exact ⟨rfl, rfl, rfl⟩
  cases b with
  | tick i =>
    have : t.background (.tick i) = t := by simp [State.background, State.onTick, (hst i).1]
    rw [this]; exact h
  | engine i =>
    have : t.background (.engine i) = t := by simp [State.background, State.engineIssue, (hst i).2.1, (hst i).2.2]
    rw [this]; exact h
  | bus =>
    have : t.background .bus = t := by simp [State.background, State.busStep, h.bus.1, h.bus.2.1]
    rw [this]; exact h
  | host =>
    rcases hostTurn_cases t with e | ⟨w, rest, q, l, v, _, _, e, h1, _, _⟩ | ⟨r, rest, more, _, hc, _⟩ | ⟨rest, hh, _⟩
    · rw [State.background, e]; exact h
    · rw [State.background, e]
      exact ⟨h.img, h.stp, h.bus, h.cp, h.cmplq, h.mixedMode, grown_trans h.sync ⟨l, rfl, h1⟩, h.popped, h.trace⟩
    · rw [h.cmplq] at hc; cases hc
    · have d := hostTurn_rst t hh
      exact ⟨d.img, d.stp, d.bus, d.cp, d.cmplq, d.mixedMode, grown_trans h.sync d.sync, prefix_trans h.popped d.popped,
        prefix_trans h.trace d.trace⟩

/-! ### Bursts of the others' steps -/

/-- What holds of `t`, some steps of the others after `s`: `P`, with all that `Beside` lists, or `rst` has taken the command. -/
def Since (s : State) (P : State → Prop) (t : State) : Prop := (Beside s t ∧ P t) ∨ TakenByRst s t

theorem Since.background {s t : State} {P : State → Prop} (h : Since s P t) (b : Background)
    (hP : ∀ u, Beside s u → P u → NotRst b u → P (u.background b)) : Since s P (t.background b) := by
  rcases h with ⟨hb, hp⟩ | ⟨hr, hd⟩
  · by_cases hn : NotRst b t
    · exact .inl ⟨hb.trans (background_beside t b hn), hP t hb hp hn⟩
    · obtain ⟨rfl, hh⟩ : b = .host ∧ t.host.head? = some .rst := by simpa [NotRst] using hn
      obtain ⟨l, hl⟩ := hb.host
      cases ht : t.host with
      | nil => rw [ht] at hh; cases hh
      | cons a rest =>
        have : a = .rst := by rw [ht] at hh; simpa using hh
        subst this
        exact .inr ⟨by rw [hl, ht]; simp, hb.discarded (hostTurn_rst t ht)⟩
  · exact .inr ⟨hr, hd.background b⟩

theorem Since.burst {s : State} {P : State → Prop} (hP : ∀ u b, Beside s u → P u → NotRst b u → P (u.background b))
    (l : List Background) {t : State} (h : Since s P t) : Since s P (t.burst l) := by
  induction l generalizing t with
  | nil => exact h
  | cons b l ih => exact ih (h.background b (fun u => hP u b))

/-- What every step of the others keeps, and a draw does not touch, their interference keeps, unless `rst` falls. -/
theorem Since.interfere {s t : State} {P : State → Prop} (hP : ∀ u b, Beside s u → P u → NotRst b u → P (u.background b))
    (hd : ∀ u : State, P u → P u.drawBurst.2) (h : Since s P t) : Since s P t.interfere := by
  unfold State.interfere
  split
  · refine Since.burst hP _ ?_
    rcases h with ⟨hb, hp⟩ | ⟨hr, hk⟩
    · exact .inl ⟨hb.trans (drawBurst_kept 0 t).toKept.toBeside, hd t hp⟩
    · refine .inr ⟨hr, ⟨by simpa using hk.img, fun i => ?_, by simpa using hk.bus, by simpa using hk.cp, by simpa using hk.cmplq,
        by simpa using hk.mixedMode, by simpa using hk.sync, by simpa using hk.popped, by simpa using hk.trace⟩⟩
      rw [stepper_of_stp (t := t) (by simp)]; exact hk.stp i
  · exact h

/-- The interference of the others, in general. -/
theorem interfere_cases (s : State) : Beside s s.interfere ∨ TakenByRst s s.interfere := by
  rcases Since.interfere (s := s) (t := s) (P := fun _ => True) (fun _ _ _ _ _ => trivial) (fun _ _ => trivial)
    (.inl ⟨.refl s, trivial⟩) with h | h
  · exact .inl h.1
  · exact .inr h

/-! ### Steppers without background work -/

/-- The stepper has no background run, no vector write in progress and no report to deliver: its run engine and its pacing
timer have nothing to do. -/
def Stepper.dormant (st : Stepper) : Prop := st.inBackground = false ∧ st.job = none ∧ st.held = none

/-- The host's turn, but for `rst`, leaves the steppers as they are. -/
theorem hostTurn_stp (s : State) (h : s.host.head? ≠ some .rst) : s.hostTurn.stp = s.stp ∧ s.hostTurn.img = s.img ∧
    s.hostTurn.bus = s.bus ∧ s.hostTurn.trace = s.trace ∧ s.hostTurn.now = s.now ∧ s.hostTurn.env = s.env := by
  rcases hostTurn_cases s with e | ⟨w, rest, q, l, v, hh, hw, e, h1, _, _⟩ | ⟨r, rest, more, hh, _, e⟩ | ⟨rest, hh, _⟩
  · rw [e]; exact ⟨rfl, rfl, rfl, rfl, rfl, rfl⟩
  · rw [e]; exact ⟨rfl, rfl, rfl, rfl, rfl, rfl⟩
  · rw [e]; exact ⟨rfl, rfl, rfl, rfl, rfl, rfl⟩
  · exact absurd (by rw [hh]; rfl) h

/-- No step of the others but `rst` changes a dormant stepper. -/
theorem background_dormant (s : State) (b : Background) (i : StepperId) (h : (s.stepper i).dormant) (hn : NotRst b s) :
    (s.background b).stepper i = s.stepper i := by
  obtain ⟨h1, h2, h3⟩ := h
  cases b with
  | tick j =>
    by_cases e : i = j
    · subst e; simp [State.background, State.onTick, h1]
    · exact (onTick_kept j s).others i e
  | engine j =>
    by_cases e : i = j
    · subst e; simp [State.background, State.engineIssue, h2, h3]
    · simp only [State.background]
      split
      · exact (deliverRun_kept j s).others i e
      · exact (engineIssue_kept j s).others i e
  | bus =>
    simp only [State.background, State.busStep]
    split
    · split
      · rfl
      · rename_i q _ _ j _
        by_cases e : i = j
        · subst e
          have hj : ((s.drawAnswer.2.completeTxn (.engine i) q.txn s.drawAnswer.1).stepper i).job = none := by
            rw [stepper_of_stp (t := s) (by simp)]; exact h2
          rw [State.engineReply, hj]
          exact stepper_of_stp (by simp) i
        · rw [((engineReply_kept j _ _ _).others i e)]
          exact stepper_of_stp (by simp) i
    · split
      · rfl
      · split
        · rfl
        · split
          · rfl
          · rfl
  | host => exact stepper_of_stp (hostTurn_stp s (hn rfl)).1 i

/-- With nothing for the others to do there is no interference. -/
theorem interfere_eq_self (s : State) (h : s.othersActive = false) : s.interfere = s := by
  simp [State.interfere, h]

/-- What every step of the others keeps, `rst` included, and a draw does not touch, the interference keeps. -/
theorem interfere_keeps {P : State → Prop} (hb : ∀ s b, P s → P (s.background b))
    (hd : ∀ s : State, P s → P s.drawBurst.2) (s : State) (h : P s) : P s.interfere := by
  unfold State.interfere
  split
  · suffices ∀ (l : List Background) (t : State), P t → P (t.burst l) from this _ _ (hd s h)
    intro l
    induction l with
    | nil => exact fun t ht => ht
    | cons b l ih => exact fun t ht => ih _ (hb t b ht)
  · exact h

end Sys2Proof.Machine
end

