-- ==== Sys2Proof/Laws/Sequence.lean ====
section
/-! SUPPORT. What one transaction of the command processor can do, said once: in general, with `rst` possible at every point
(`SeqKept`, `SeqSince`, `transact_since`), and exactly, where no other agent has anything to do (`transact_alone`). -/

namespace Sys2Proof.Machine

open Sys2Proof

/-! ### Draws -/

/-- The answer drawn is the next one. -/
theorem drawAnswer_fst (s : State) : s.drawAnswer.1 = s.answerAt 0 := by
  unfold State.drawAnswer State.answerAt
  cases h : s.env.answers <;> simp

/-- After a draw, the answers to come are those after the first. -/
theorem answerAt_drawAnswer (s : State) (n : Nat) : s.drawAnswer.2.answerAt n = s.answerAt (n + 1) := by
  unfold State.drawAnswer
  cases h : s.env.answers with
  | nil => simp [State.answerAt, h, Nat.add_assoc, Nat.add_comm 1 n]
  | cons a l => simp [State.answerAt, h]

/-- The answers to come depend on the environment's choices alone. -/
theorem answerAt_of_env {s t : State} (h : s.env = t.env) (n : Nat) : s.answerAt n = t.answerAt n := by
  simp [State.answerAt, h]

/-! ### What a part of a CP sequence keeps -/

/-- What a part of a CP sequence never changes while the CP holds its command: all that `Beside` lists but the driver's flags,
the CP's position and the CP's own trace items. -/
structure SeqKept (s t : State) : Prop where
  cfg : ∀ i, (t.stepper i).cfg = (s.stepper i).cfg
  runNB : ∀ i, (t.stepper i).run.runNB = (s.stepper i).run.runNB
  runDir : ∀ i, (t.stepper i).run.runDir = (s.stepper i).run.runDir
  runCount : ∀ i, (t.stepper i).run.runCount = (s.stepper i).run.runCount
  runTicket : ∀ i, (t.stepper i).run.runTicket = (s.stepper i).run.runTicket
  cpHeld : t.cpHeld = s.cpHeld
  lock : t.bus.lock = s.bus.lock
  mixedMode : t.mixedMode = s.mixedMode
  turns : t.env.turns = s.env.turns
  ticket : t.ticket = s.ticket
  idle : t.cp = .idle ↔ s.cp = .idle
  trace : ∃ l, t.trace = l ++ s.trace
  waiting : s.hostWait ≠ none → t.hostWait = s.hostWait
  sync : ∃ l, t.sync = l ++ s.sync ∧ ∀ r, r ∈ l → ∃ tk w st why, r = submitRecord tk w st why
  popped : ∃ l, t.popped = l ++ s.popped
  host : ∃ l, s.host = l ++ t.host

theorem Beside.toSeq {s t : State} (h : Beside s t) : SeqKept s t where
  cfg := h.cfg
  runNB := h.runNB
  runDir := h.runDir
  runCount := h.runCount
  runTicket := h.runTicket
  cpHeld := h.cpHeld
  lock := h.lock
  mixedMode := h.mixedMode
  turns := h.turns
  ticket := by simp only [State.ticket, h.cp]
  idle := by rw [h.cp]
  trace := by obtain ⟨l, hl, _⟩ := h.trace; exact ⟨l, hl⟩
  waiting := h.waiting
  sync := h.sync
  popped := h.popped
  host := h.host

theorem Kept.toSeq {s t : State} (h : Kept s t) : SeqKept s t := h.toBeside.toSeq

theorem SeqKept.refl (s : State) : SeqKept s s := (Kept.refl s).toSeq

theorem SeqKept.trans {s t u : State} (a : SeqKept s t) (b : SeqKept t u) : SeqKept s u where
  cfg i := (b.cfg i).trans (a.cfg i)
  runNB i := (b.runNB i).trans (a.runNB i)
  runDir i := (b.runDir i).trans (a.runDir i)
  runCount i := (b.runCount i).trans (a.runCount i)
  runTicket i := (b.runTicket i).trans (a.runTicket i)
  cpHeld := b.cpHeld.trans a.cpHeld
  lock := b.lock.trans a.lock
  mixedMode := b.mixedMode.trans a.mixedMode
  turns := b.turns.trans a.turns
  ticket := b.ticket.trans a.ticket
  idle := b.idle.trans a.idle
  trace := prefix_trans a.trace b.trace
  waiting h := (b.waiting (by rw [a.waiting h]; exact h)).trans (a.waiting h)
  sync := grown_trans a.sync b.sync
  popped := prefix_trans a.popped b.popped
  host := prefix_trans b.host a.host

/-- A command taken later was taken. -/
theorem SeqKept.taken {s t u : State} (a : SeqKept s t) (b : TakenByRst t u) : TakenByRst s u := by
  obtain ⟨l, hl⟩ := a.host
  exact ⟨by rw [hl]; exact List.mem_append_right _ b.1, b.2.img, b.2.stp, b.2.bus, b.2.cp, b.2.cmplq, b.2.mixedMode,
    grown_trans a.sync b.2.sync, prefix_trans a.popped b.2.popped, prefix_trans a.trace b.2.trace⟩

@[simp] theorem advancePc_ticket (s : State) : s.advancePc.ticket = s.ticket := by
  cases h : s.cp <;> simp [State.advancePc, State.ticket, h]

@[simp] theorem advancePc_idle (s : State) : s.advancePc.cp = .idle ↔ s.cp = .idle := by
  cases h : s.cp <;> simp [State.advancePc, h]

/-- A change of fields that `SeqKept` does not list, with the steppers untouched. -/
theorem seqKept_of_fields {s t : State} (hs : t.stp = s.stp) (h4 : t.cpHeld = s.cpHeld)
    (h5 : t.hostWait = s.hostWait) (h6 : t.bus.lock = s.bus.lock) (h7 : t.mixedMode = s.mixedMode)
    (h8 : t.sync = s.sync) (h9 : t.popped = s.popped) (h10 : t.host = s.host) (h11 : t.env.turns = s.env.turns)
    (h3 : t.ticket = s.ticket) (h14 : t.cp = .idle ↔ s.cp = .idle) (h12 : ∃ l, t.trace = l ++ s.trace) : SeqKept s t where
  cfg j := by rw [stepper_of_stp hs]
  runNB j := by rw [stepper_of_stp hs]
  runDir j := by rw [stepper_of_stp hs]
  runCount j := by rw [stepper_of_stp hs]
  runTicket j := by rw [stepper_of_stp hs]
  cpHeld := h4
  lock := h6
  mixedMode := h7
  turns := h11
  ticket := h3
  idle := h14
  trace := h12
  waiting _ := h5
  sync := ⟨[], by simp [h8]⟩
  popped := ⟨[], by simp [h9]⟩
  host := ⟨[], by simp [h10]⟩

theorem advancePc_seqKept (s : State) : SeqKept s s.advancePc := by
  refine seqKept_of_fields ?_ ?_ ?_ ?_ ?_ ?_ ?_ ?_ ?_ ?_ ?_ ⟨[], ?_⟩ <;> simp

theorem completeTxn_cp_seqKept (s : State) (t : Txn) (a : Answer) : SeqKept s (s.completeTxn .cp t a) :=
  seqKept_of_fields rfl rfl rfl rfl rfl rfl rfl rfl rfl rfl Iff.rfl ⟨[_], rfl⟩

theorem grantCp_seqKept (s : State) (t : Txn) : SeqKept s (s.grantCp t) :=
  seqKept_of_fields rfl rfl rfl rfl rfl rfl rfl rfl rfl rfl Iff.rfl ⟨[], by simp⟩

theorem completeCp_seqKept (s : State) (t : Txn) : SeqKept s (s.completeCp t).2 :=
  ((drawAnswer_kept 0 s).toKept.toSeq.trans (completeTxn_cp_seqKept _ t _)).trans (advancePc_seqKept _)

@[simp] theorem completeCp_img (s : State) (t : Txn) : (s.completeCp t).2.img = s.img := by simp [State.completeCp]
@[simp] theorem completeCp_stp (s : State) (t : Txn) : (s.completeCp t).2.stp = s.stp := by simp [State.completeCp]
@[simp] theorem completeCp_cmplq (s : State) (t : Txn) : (s.completeCp t).2.cmplq = s.cmplq := by simp [State.completeCp]
@[simp] theorem completeCp_cmdq (s : State) (t : Txn) : (s.completeCp t).2.cmdq = s.cmdq := by simp [State.completeCp]
@[simp] theorem completeCp_trace (s : State) (t : Txn) : (s.completeCp t).2.trace =
    .txn .cp t (s.completeCp t).1.ok (replyByte t (s.completeCp t).1) :: s.trace := by simp [State.completeCp]
@[simp] theorem completeCp_lock (s : State) (t : Txn) : (s.completeCp t).2.bus.lock = s.bus.lock := by simp [State.completeCp]
@[simp] theorem completeCp_reqq (s : State) (t : Txn) : (s.completeCp t).2.bus.reqq = s.bus.reqq := by simp [State.completeCp]
@[simp] theorem completeCp_inflight (s : State) (t : Txn) : (s.completeCp t).2.bus.inflight = none := by
  simp [State.completeCp]

/-- The rest of a sequence that goes on. -/
theorem thenSeq_none {r : SeqEnd} (h : r.2 = none) (f : State → SeqEnd) : thenSeq r f = f r.1 := by simp [thenSeq, h]

/-- A sequence that has been cut off does not go on. -/
theorem thenSeq_some {r : SeqEnd} (h : r.2 ≠ none) (f : State → SeqEnd) : thenSeq r f = r := by
  cases e : r.2 <;> simp_all [thenSeq]

/-! ### Sequences with `rst` possible at every point (R16, R290) -/

/-- What holds after a part of the sequence of a command that the CP holds in `s`: what `SeqKept` lists, and `P`; or, where
`rst` has cut it off, that the command is discarded. -/
def SeqSince (s : State) (P : State → Prop) (r : SeqEnd) : Prop :=
  (r.2 ≠ some .rst → SeqKept s r.1 ∧ P r.1) ∧ (r.2 = some .rst → TakenByRst s r.1)

/-- The steps of the CP's own bus work, as far as image, steppers and queues do not matter to them, and a draw. -/
inductive CpMove (u : State) : State → Prop where
  | draw : CpMove u u.drawBurst.2
  | request (t : Txn) : CpMove u (u.request .cp t)
  | grant (t : Txn) : CpMove u (u.grantCp t)
  | complete (t : Txn) : CpMove u (u.completeCp t).2
  | settle (ms : Nat) (t : ℚ) : CpMove u ({ u.passUntil t with trace := .settle ms :: u.trace } : State).advancePc
  | wait (t : ℚ) : CpMove u (u.passUntil t).advancePc

/-- A step of the CP's own bus work touches neither image, steppers nor queues. -/
theorem CpMove.fields {u v : State} (h : CpMove u v) : v.img = u.img ∧ v.stp = u.stp ∧ v.cmplq = u.cmplq ∧ v.cmdq = u.cmdq := by
  cases h <;> exact ⟨by simp, by simp, by simp, by simp⟩

theorem CpMove.seqKept {u v : State} (h : CpMove u v) : SeqKept u v := by
  cases h with
  | draw => exact (drawBurst_kept 0 u).toKept.toSeq
  | request t => exact (request_kept 0 u .cp t).toKept.toSeq
  | grant t => exact grantCp_seqKept u t
  | complete t => exact completeCp_seqKept u t
  | settle ms t =>
    refine SeqKept.trans ?_ (advancePc_seqKept _)
    exact seqKept_of_fields rfl rfl rfl rfl rfl rfl rfl rfl rfl rfl Iff.rfl ⟨[.settle ms], rfl⟩
  | wait t => exact (passUntil_kept 0 u t).toKept.toSeq.trans (advancePc_seqKept _)

/-- `P` is kept by every step of the others but `rst`, and by the CP's own bus work. -/
structure OthersKeep (s : State) (P : State → Prop) : Prop where
  background : ∀ u b, SeqKept s u → P u → NotRst b u → P (u.background b)
  moves : ∀ u v, SeqKept s u → CpMove u v → P u → P v

/-- A property of image, steppers and queues. -/
theorem OthersKeep.of_fields {s : State} {P : State → Prop}
    (hb : ∀ u b, SeqKept s u → P u → NotRst b u → P (u.background b))
    (hf : ∀ u v : State, v.img = u.img → v.stp = u.stp → v.cmplq = u.cmplq → v.cmdq = u.cmdq → P u → P v) :
    OthersKeep s P :=
  ⟨hb, fun u v _ m hp => hf u v m.fields.1 m.fields.2.1 m.fields.2.2.1 m.fields.2.2.2 hp⟩

theorem OthersKeep.trivial (s : State) : OthersKeep s (fun _ => True) :=
  ⟨fun _ _ _ _ _ => True.intro, fun _ _ _ _ _ => True.intro⟩

theorem SeqSince.done {s u : State} {P : State → Prop} (h : SeqKept s u) (hp : P u) : SeqSince s P (u, none) :=
  ⟨fun _ => ⟨h, hp⟩, fun hc => by cases hc⟩

theorem SeqSince.failed {s u : State} {P : State → Prop} (h : SeqKept s u) (hp : P u) (e : BusError) :
    SeqSince s P (u, some (.bus e)) := ⟨fun _ => ⟨h, hp⟩, fun hc => by cases hc⟩

/-- One part after another. -/
theorem SeqSince.seq {s : State} {P : State → Prop} {r : SeqEnd} {f : State → SeqEnd} (h : SeqSince s P r)
    (hf : ∀ u, SeqKept s u → P u → SeqSince s P (f u)) : SeqSince s P (thenSeq r f) := by
  by_cases e : r.2 = none
  · rw [thenSeq_none e]
    obtain ⟨hk, hp⟩ := h.1 (by rw [e]; simp)
    exact hf _ hk hp
  · rw [thenSeq_some e]; exact h

theorem SeqSince.mono {s : State} {P Q : State → Prop} {r : SeqEnd} (h : SeqSince s P r) (hq : ∀ u, SeqKept s u → P u → Q u) :
    SeqSince s Q r := ⟨fun hr => ⟨(h.1 hr).1, hq _ (h.1 hr).1 (h.1 hr).2⟩, h.2⟩

/-- Every point at which the others move. -/
theorem yield_since {s u : State} {P : State → Prop} (k : OthersKeep s P) (hc : s.cp ≠ .idle) (h : SeqKept s u) (hp : P u) :
    SeqSince s P u.yield := by
  have hu : u.cp ≠ .idle := fun e => hc (h.idle.1 e)
  have : Since u (fun v => SeqKept s v ∧ P v) u.interfere := by
    refine Since.interfere (fun v b _ hpv hn => ?_) (fun v hv => ?_) (.inl ⟨.refl u, h, hp⟩)
    · exact ⟨hpv.1.trans (background_beside v b hn).toSeq, k.background v b hpv.1 hpv.2 hn⟩
    · exact ⟨hv.1.trans (CpMove.seqKept .draw), k.moves v _ hv.1 .draw hv.2⟩
  rcases this with ⟨hk, hq⟩ | ht
  · have e : u.interfere.cp ≠ .idle := by rw [hk.cp]; exact hu
    refine ⟨fun _ => hq, fun hr => ?_⟩
    simp [State.yield, e] at hr
  · refine ⟨fun hr => ?_, fun _ => h.taken ht⟩
    simp [State.yield, ht.2.cp.1] at hr

/-- A step of the CP's own bus work, and then the others move. -/
theorem move_yield_since {s u v : State} {P : State → Prop} (m : CpMove u v) (k : OthersKeep s P) (hc : s.cp ≠ .idle)
    (h : SeqKept s u) (hp : P u) : SeqSince s P v.yield :=
  yield_since k hc (h.trans m.seqKept) (k.moves u v h m hp)

theorem drainAhead_since {s u : State} {P : State → Prop} (n : Nat) (k : OthersKeep s P) (hc : s.cp ≠ .idle) (h : SeqKept s u)
    (hp : P u) : SeqSince s P (State.drainAhead n u) := by
  induction n generalizing u with
  | zero => exact .done h hp
  | succ n ih =>
    refine (yield_since k hc (h.trans (busStep_kept u).toSeq) ?_).seq (fun v hv hpv => ih hv hpv)
    exact k.background u .bus h hp (fun e => by cases e)

theorem await_since {s u : State} {P : State → Prop} (t : Txn) (k : OthersKeep s P) (hc : s.cp ≠ .idle) (h : SeqKept s u)
    (hp : P u) : SeqSince s P (u.await t) :=
  (yield_since k hc h hp).seq fun _ hv hpv =>
    (move_yield_since (.request t) k hc hv hpv).seq fun _ hw hpw =>
      (drainAhead_since _ k hc hw hpw).seq fun _ hx hpx => move_yield_since (.grant t) k hc hx hpx

/-- A CP transaction, and what follows it. -/
theorem transact_since {s u : State} {P : State → Prop} (t : Txn) {f : Answer → State → SeqEnd} (k : OthersKeep s P)
    (hc : s.cp ≠ .idle) (h : SeqKept s u) (hp : P u) (hf : ∀ a v, SeqKept s v → P v → SeqSince s P (f a v)) :
    SeqSince s P (u.transact t f) :=
  (await_since t k hc h hp).seq (fun v hv hpv =>
    hf _ _ (hv.trans (completeCp_seqKept v t)) (k.moves v _ hv (.complete t) hpv))

theorem transactSeq_since {s u : State} {P : State → Prop} (t : Txn) (k : OthersKeep s P) (hc : s.cp ≠ .idle) (h : SeqKept s u)
    (hp : P u) : SeqSince s P (u.transactSeq t) := by
  refine transact_since t k hc h hp (fun a v hv hpv => ?_)
  split
  · exact .done hv hpv
  · exact .failed hv hpv _

theorem memRead_since {s u : State} {P : State → Prop} (reg : Byte) {f : Byte → State → SeqEnd} (k : OthersKeep s P)
    (hc : s.cp ≠ .idle) (h : SeqKept s u) (hp : P u) (hf : ∀ a v, SeqKept s v → P v → SeqSince s P (f a v)) :
    SeqSince s P (u.memRead reg f) := by
  refine transact_since _ k hc h hp (fun a v hv hpv => ?_)
  split
  · exact hf _ v hv hpv
  · exact .failed hv hpv _

theorem settle_since {s u : State} {P : State → Prop} (ms : Nat) (k : OthersKeep s P) (hc : s.cp ≠ .idle) (h : SeqKept s u)
    (hp : P u) : SeqSince s P (u.settle ms) := move_yield_since (.settle ms _) k hc h hp

theorem waitPeriod_since {s u : State} {P : State → Prop} (t : ℚ) (k : OthersKeep s P) (hc : s.cp ≠ .idle) (h : SeqKept s u)
    (hp : P u) : SeqSince s P (u.waitPeriod t) := move_yield_since (.wait _) k hc h hp

theorem writeAll_since {s : State} {P : State → Prop} (l : List (Byte × Byte)) (k : OthersKeep s P) (hc : s.cp ≠ .idle) {u : State}
    (h : SeqKept s u) (hp : P u) : SeqSince s P (writeAll l u) := by
  induction l generalizing u with
  | nil => exact .done h hp
  | cons w l ih => exact (transactSeq_since _ k hc h hp).seq (fun v hv hpv => ih hv hpv)

/-- A dormant stepper stays as it is. -/
theorem dormant_othersKeep {s : State} {i : StepperId} (h : (s.stepper i).dormant) :
    OthersKeep s (fun u => u.stepper i = s.stepper i) :=
  .of_fields (fun u b _ hu hn => by rw [background_dormant u b i (by rw [hu]; exact h) hn, hu])
    (fun u v _ hs _ _ hu => by rw [stepper_of_stp hs, hu])

/-! ### Where no other agent has anything to do -/

/-- The state after a CP transaction that no other agent's step comes near. -/
def State.afterTxn (s : State) (t : Txn) : State := (s.completeCp t).2

/-- The CP holds a command, the others have nothing to do, and nothing is requested or in flight. -/
def State.alone (s : State) : Prop :=
  s.othersActive = false ∧ s.cp ≠ .idle ∧ s.bus.reqq = [] ∧ s.bus.inflight = none

theorem anyBackground_of_stp {s t : State} (h : s.stp = t.stp) : s.anyBackground = t.anyBackground := by
  simp [State.anyBackground, h]

theorem othersActive_of {s t : State} (h : s.stp = t.stp) (hh : s.host = t.host) : s.othersActive = t.othersActive := by
  simp [State.othersActive, anyBackground_of_stp h, hh]

/-- With nothing for the others to do, the CP goes on at once. -/
theorem yield_alone (s : State) (h : s.othersActive = false) (hc : s.cp ≠ .idle) : s.yield = (s, none) := by
  simp [State.yield, interfere_eq_self s h, hc]

/-- A request of the CP at the head of the queue is not the background bus step's to move. -/
theorem drainAhead_cp_head (n : Nat) (s : State) (t : Txn) (rest : List Request) (hb : s.othersActive = false)
    (hc : s.cp ≠ .idle) (hq : s.bus.reqq = { who := .cp, txn := t } :: rest) (hi : s.bus.inflight = none) :
    State.drainAhead n s = (s, none) := by
  induction n with
  | zero => rfl
  | succ n ih =>
    have : s.busStep = s := by simp [State.busStep, hi, hq]
    simp only [State.drainAhead, this, yield_alone s hb hc]
    exact ih

/-- Exactly what a CP transaction does when it is alone on the bus. -/
theorem transact_alone (s : State) (t : Txn) (f : Answer → State → SeqEnd) (h : s.alone) :
    s.transact t f = f (s.answerAt 0) (s.afterTxn t) := by
  obtain ⟨hb, hc, hq, hi⟩ := h
  have ha : s.await t = ((s.request .cp t).grantCp t, none) := by
    have hb' : (s.request .cp t).othersActive = false := (othersActive_of (by simp) (by simp)).trans hb
    have hg : ((s.request .cp t).grantCp t).othersActive = false := (othersActive_of (by simp) (by simp)).trans hb
    have hd := drainAhead_cp_head (s.request .cp t).drainBound (s.request .cp t) t [] hb' hc (by simp [hq]) (by simpa using hi)
    unfold State.await
    rw [thenSeq_none (by rw [yield_alone s hb hc]), yield_alone s hb hc, thenSeq_none (by rw [yield_alone _ hb' hc]),
      yield_alone _ hb' hc]
    dsimp only
    rw [thenSeq_none (by rw [hd]), hd, yield_alone _ hg hc]
  have he : ((s.request .cp t).grantCp t).env = s.env := rfl
  have h1 : ((s.request .cp t).grantCp t).drawAnswer.1 = s.drawAnswer.1 := by
    rw [drawAnswer_fst, drawAnswer_fst]; exact answerAt_of_env he 0
  have h2 : ((s.request .cp t).grantCp t).completeCp t = (s.answerAt 0, s.afterTxn t) := by
    refine Prod.ext (h1.trans (drawAnswer_fst s)) ?_
    unfold State.afterTxn State.completeCp
    dsimp only
    rw [h1]
    congr 1
    unfold State.drawAnswer
    rw [he]
    cases ha : s.env.answers <;>
      simp [State.completeTxn, State.request, State.grantCp, State.pass, hq, hi, ha]
  unfold State.transact
  rw [thenSeq_none (by rw [ha]), ha]
  dsimp only
  rw [h2]

theorem afterTxn_stp (s : State) (t : Txn) : (s.afterTxn t).stp = s.stp := by simp [State.afterTxn]
theorem afterTxn_img (s : State) (t : Txn) : (s.afterTxn t).img = s.img := by simp [State.afterTxn]

/-- After a transaction alone on the bus, the CP is alone on the bus again. -/
theorem afterTxn_alone (s : State) (t : Txn) (h : s.alone) : (s.afterTxn t).alone := by
  refine ⟨(othersActive_of (afterTxn_stp s t) ?_).trans h.1, ?_, ?_, ?_⟩
  · simp [State.afterTxn, State.completeCp]
  · intro e
    exact h.2.1 ((completeCp_seqKept s t).idle.1 e)
  · simp [State.afterTxn, h.2.2.1]
  · simp [State.afterTxn]

theorem afterTxn_trace (s : State) (t : Txn) :
    (s.afterTxn t).trace = .txn .cp t (s.answerAt 0).ok (replyByte t (s.answerAt 0)) :: s.trace := by
  simp [State.afterTxn, State.completeCp, drawAnswer_fst]

theorem afterTxn_answerAt (s : State) (t : Txn) (n : Nat) : (s.afterTxn t).answerAt n = s.answerAt (n + 1) := by
  rw [← answerAt_drawAnswer]
  exact answerAt_of_env (by simp [State.afterTxn, State.completeCp]) n

end Sys2Proof.Machine
end

