-- ==== Sys2Proof/Laws/Bus.lean ====
section
/-! SUPPORT. The bus master (`20_memory.md` R67 to R69): which steps touch the bus, that the CP's request is granted only when
nothing else is in flight and it is at the head of the queue (or the CP holds the lock), and that nothing but the CP reaches
the bus while it holds the lock. -/

namespace Sys2Proof.Machine

open Sys2Proof

/-! ### Steps that do not touch the bus -/

@[simp] theorem endRun_bus (s : State) (i : StepperId) (e : Option BusError) (b : Bool) : (s.endRun i e b).bus = s.bus := by
  unfold State.endRun; dsimp only; split <;> simp

@[simp] theorem endRun_trace (s : State) (i : StepperId) (e : Option BusError) (b : Bool) :
    (s.endRun i e b).trace = s.trace := by
  unfold State.endRun; dsimp only; split <;> simp

@[simp] theorem deliverRun_bus (s : State) (i : StepperId) : (s.deliverRun i).bus = s.bus := by
  unfold State.deliverRun; split
  · rfl
  · split <;> simp

@[simp] theorem deliverRun_trace (s : State) (i : StepperId) : (s.deliverRun i).trace = s.trace := by
  unfold State.deliverRun; split
  · rfl
  · split <;> simp

@[simp] theorem vectorDone_bus (s : State) (i : StepperId) (e : Option BusError) : (s.vectorDone i e).bus = s.bus := by
  unfold State.vectorDone
  cases e
  · dsimp only; split
    · simp
    · split <;> simp
  · simp

@[simp] theorem vectorDone_trace (s : State) (i : StepperId) (e : Option BusError) : (s.vectorDone i e).trace = s.trace := by
  unfold State.vectorDone
  cases e
  · dsimp only; split
    · simp
    · split <;> simp
  · simp

@[simp] theorem nextPin_bus (s : State) (i : StepperId) (l : List PinTask) : (s.nextPin i l).bus = s.bus := by
  unfold State.nextPin; split <;> simp

@[simp] theorem nextPin_trace (s : State) (i : StepperId) (l : List PinTask) : (s.nextPin i l).trace = s.trace := by
  unfold State.nextPin; split <;> simp

@[simp] theorem engineReply_bus (s : State) (i : StepperId) (t : Txn) (ok : Bool) : (s.engineReply i t ok).bus = s.bus := by
  unfold State.engineReply; split
  · rfl
  · split
    · simp
    · split <;> simp

@[simp] theorem engineReply_trace (s : State) (i : StepperId) (t : Txn) (ok : Bool) :
    (s.engineReply i t ok).trace = s.trace := by
  unfold State.engineReply; split
  · rfl
  · split
    · simp
    · split <;> simp

@[simp] theorem onTick_bus (s : State) (i : StepperId) : (s.onTick i).bus = s.bus := by
  unfold State.onTick State.startPulse
  dsimp only
  split
  · rfl
  · split
    · simp
    · split
      · simp
      · split
        · simp
        · split <;> simp

@[simp] theorem onTick_trace (s : State) (i : StepperId) : (s.onTick i).trace = s.trace := by
  unfold State.onTick State.startPulse
  dsimp only
  split
  · rfl
  · split
    · simp
    · split
      · simp
      · split
        · simp
        · split <;> simp

/-- A run engine's own step only adds requests at the end of the queue. -/
theorem engineIssue_bus (s : State) (i : StepperId) :
    ∃ l, (s.engineIssue i).bus = { s.bus with reqq := s.bus.reqq ++ l } ∧ ∀ q, q ∈ l → q.who ≠ .cp := by
  unfold State.engineIssue
  split
  · exact ⟨[], by simp⟩
  · split
    · exact ⟨[], by simp⟩
    · split
      · exact ⟨[], by simp⟩
      · exact ⟨[_], rfl, by simp⟩

@[simp] theorem engineIssue_trace (s : State) (i : StepperId) : (s.engineIssue i).trace = s.trace := by
  unfold State.engineIssue
  split
  · rfl
  · split
    · rfl
    · split <;> simp

/-! ### The CP's place in the queue (R68) -/

/-- The CP's request waits, with no other CP request ahead, and the bus has at most `n` steps of other requesters to do
before it: two for each request ahead, one for the transaction in flight. -/
def CpWaits (n : Nat) (s : State) : Prop :=
  ∃ pre t post, s.bus.reqq = pre ++ { who := .cp, txn := t } :: post ∧ (∀ q, q ∈ pre → q.who ≠ .cp) ∧
    (∀ q, s.bus.inflight = some q → q.who ≠ .cp) ∧ 2 * pre.length + (if s.bus.inflight.isSome then 1 else 0) ≤ n

theorem CpWaits.mono {m n : Nat} {s : State} (h : CpWaits m s) (hmn : m ≤ n) : CpWaits n s := by
  obtain ⟨pre, t, post, h1, h2, h3, h4⟩ := h
  exact ⟨pre, t, post, h1, h2, h3, h4.trans hmn⟩

theorem CpWaits.of_bus {n : Nat} {s t : State} (h : CpWaits n s) (hb : t.bus.reqq = s.bus.reqq)
    (hi : t.bus.inflight = s.bus.inflight) : CpWaits n t := by
  obtain ⟨pre, x, post, h1, h2, h3, h4⟩ := h
  exact ⟨pre, x, post, by rw [hb, h1], h2, by rw [hi]; exact h3, by rw [hi]; exact h4⟩

/-- While the CP waits without the lock, a bus step brings it closer. -/
theorem CpWaits.busStep {n : Nat} {s : State} (h : CpWaits n s) :
    (s.bus.lock = false → CpWaits (n - 1) s.busStep) ∧ CpWaits n s.busStep := by
  obtain ⟨pre, t, post, h1, h2, h3, h4⟩ := h
  cases hi : s.bus.inflight with
  | some q =>
    have hq := h3 q hi
    rw [hi] at h4
    simp only [Option.isSome_some, if_true] at h4
    cases hw : q.who with
    | cp => exact absurd hw hq
    | engine i =>
      have e : s.busStep =
          (s.drawAnswer.2.completeTxn (.engine i) q.txn s.drawAnswer.1).engineReply i q.txn s.drawAnswer.1.ok := by
        simp [State.busStep, hi, hw]
      have key : CpWaits (n - 1) s.busStep := by
        refine ⟨pre, t, post, by simp [e, h1], h2, by simp [e], ?_⟩
        simp [e]; omega
      exact ⟨fun _ => key, key.mono (by omega)⟩
  | none =>
    have stay : CpWaits n s := ⟨pre, t, post, h1, h2, h3, h4⟩
    rw [hi] at h4
    simp only [Option.isSome_none, Bool.false_eq_true, if_false, Nat.add_zero] at h4
    cases hl : s.bus.lock with
    | true =>
      have e : s.busStep = s := by simp [State.busStep, hi, hl]
      exact ⟨fun hf => by simp at hf, by rw [e]; exact stay⟩
    | false =>
      cases pre with
      | nil =>
        rw [List.nil_append] at h1
        have e : s.busStep = s := by simp [State.busStep, hi, hl, h1]
        exact ⟨fun _ => by rw [e]; exact ⟨[], t, post, h1, by simp, h3, by simp [hi]⟩, by rw [e]; exact stay⟩
      | cons q l =>
        rw [List.cons_append] at h1
        have hq := h2 q (by simp)
        cases hw : q.who with
        | cp => exact absurd hw hq
        | engine i =>
          simp only [List.length_cons] at h4
          have e : s.busStep =
              { s with bus := { s.bus with reqq := l ++ { who := .cp, txn := t } :: post, inflight := some q } } := by
            simp [State.busStep, hi, hl, h1, hw]
          have key : CpWaits (n - 1) s.busStep := by
            refine ⟨l, t, post, by rw [e], fun x hx => h2 x (by simp [hx]), ?_, ?_⟩
            · intro x hx
              simp only [e, Option.some.injEq] at hx
              rw [← hx, hw]; simp
            · simp [e]; omega
          exact ⟨fun _ => key, key.mono (by omega)⟩

theorem CpWaits.background {n : Nat} {s : State} (h : CpWaits n s) (b : Background) (hn : NotRst b s) :
    CpWaits n (s.background b) := by
  cases b with
  | tick i => exact h.of_bus (by simp [State.background]) (by simp [State.background])
  | engine i =>
    unfold State.background
    dsimp only
    split
    · exact h.of_bus (by simp) (by simp)
    · obtain ⟨l, hl, hc⟩ := engineIssue_bus s i
      obtain ⟨pre, t, post, h1, h2, h3, h4⟩ := h
      refine ⟨pre, t, post ++ l, by rw [hl]; simp [h1], h2, by rw [hl]; exact h3, by rw [hl]; exact h4⟩
  | bus => exact h.busStep.2
  | host =>
    have e : s.hostTurn.bus = s.bus := (hostTurn_stp s (hn rfl)).2.2.1
    exact h.of_bus (by simp [State.background, e]) (by simp [State.background, e])

/-- The CP keeps its place while the others move, unless `rst` takes its command. -/
theorem CpWaits.yield {n : Nat} {s : State} (h : CpWaits n s) (hc : s.cp ≠ .idle) (hr : s.yield.2 = none) :
    CpWaits n s.yield.1 ∧ s.yield.1.bus.lock = s.bus.lock ∧ s.yield.1.cp ≠ .idle := by
  have : Since s (CpWaits n) s.interfere :=
    Since.interfere (fun u b _ hu hn => hu.background b hn) (fun u hu => hu.of_bus (by simp) (by simp)) (.inl ⟨.refl s, h⟩)
  rcases this with ⟨hb, hw⟩ | ht
  · exact ⟨hw, hb.lock, by rw [show s.yield.1.cp = s.cp from hb.cp]; exact hc⟩
  · simp [State.yield, ht.2.cp.1] at hr

/-- Once the bus has served what was ahead, nothing is in flight and the CP's request is at the head (R67, R68). -/
theorem drainAhead_serves (n : Nat) (s : State) (h : CpWaits n s) (hl : s.bus.lock = false) (hc : s.cp ≠ .idle)
    (hr : (State.drainAhead n s).2 = none) : CpWaits 0 (State.drainAhead n s).1 := by
  induction n generalizing s with
  | zero => exact h
  | succ n ih =>
    have h1 : CpWaits n s.busStep := by simpa using h.busStep.1 hl
    unfold State.drainAhead at hr ⊢
    by_cases e : s.busStep.yield.2 = none
    · rw [thenSeq_none e] at hr ⊢
      obtain ⟨hw, hlk, hcp⟩ := h1.yield (by rw [(busStep_kept s).cp]; exact hc) e
      exact ih _ hw (by rw [hlk, (busStep_kept s).lock, hl]) hcp hr
    · rw [thenSeq_some e] at hr; exact absurd hr e

/-- The bound the CP uses is enough. -/
theorem CpWaits.bound {s : State} (h : ∃ m, CpWaits m s) : CpWaits s.drainBound s := by
  obtain ⟨m, pre, t, post, h1, h2, h3, h4⟩ := h
  refine ⟨pre, t, post, h1, h2, h3, ?_⟩
  have : s.bus.reqq.length = pre.length + (post.length + 1) := by rw [h1]; simp
  unfold State.drainBound
  split <;> omega

/-- R67, R68: when the CP's request is granted on an unlocked bus, no transaction is in flight, and the request is the head of
the queue: all that were ahead of it have been served. -/
theorem grant_finds_bus_free (s : State) (t : Txn) (hc : s.cp ≠ .idle) (hl : s.bus.lock = false)
    (hr : ∀ q, q ∈ s.bus.reqq → q.who ≠ .cp) (hi : ∀ q, s.bus.inflight = some q → q.who ≠ .cp)
    (h1 : (s.request .cp t).yield.2 = none) :
    let w := (s.request .cp t).yield.1
    (State.drainAhead w.drainBound w).2 = none →
    (State.drainAhead w.drainBound w).1.bus.inflight = none ∧
      ∃ u post, (State.drainAhead w.drainBound w).1.bus.reqq = { who := .cp, txn := u } :: post := by
  intro w h2
  have h0 : CpWaits (2 * s.bus.reqq.length + 1) (s.request .cp t) := by
    refine ⟨s.bus.reqq, t, [], by simp, hr, by simpa using hi, ?_⟩
    split <;> omega
  obtain ⟨hw, hlw, hcw⟩ := h0.yield hc h1
  obtain ⟨pre, u, post, h3, _, _, h4⟩ :=
    drainAhead_serves _ _ (CpWaits.bound ⟨_, hw⟩) (by rw [hlw]; simpa using hl) hcw h2
  have hp : pre = [] := by
    have : pre.length = 0 := by omega
    exact List.eq_nil_of_length_eq_zero this
  subst hp
  refine ⟨?_, u, post, by simpa using h3⟩
  cases he : (State.drainAhead w.drainBound w).1.bus.inflight with
  | none => rfl
  | some q => rw [he] at h4; simp at h4

/-! ### Under the lock (R69) -/

/-- The CP holds the bus: it has the lock, and nothing of another requester is in flight. -/
def Locked (s : State) : Prop := s.bus.lock = true ∧ ∀ q, s.bus.inflight = some q → q.who = .cp

/-- While the CP holds the bus, no step of the others but `rst` completes or starts a transaction. -/
theorem background_locked (s : State) (b : Background) (h : Locked s) (hn : NotRst b s) :
    Locked (s.background b) ∧ (s.background b).trace = s.trace := by
  cases b with
  | tick i => exact ⟨by simpa [State.background, Locked] using h, by simp [State.background]⟩
  | engine i =>
    unfold State.background
    dsimp only
    split
    · exact ⟨by simpa [Locked] using h, by simp⟩
    · obtain ⟨l, hl, _⟩ := engineIssue_bus s i
      exact ⟨by rw [Locked, hl]; exact h, by simp⟩
  | bus =>
    have e : s.busStep = s := by
      unfold State.busStep
      cases hi : s.bus.inflight with
      | none => simp [h.1]
      | some q => simp [h.2 q hi]
    simp only [State.background, e]
    exact ⟨h, trivial⟩
  | host =>
    obtain ⟨_, _, hb, ht, _⟩ := hostTurn_stp s (hn rfl)
    exact ⟨by simp only [State.background, Locked, hb]; exact h, ht⟩

/-- While the CP holds the bus, the trace grows by its own items alone (R69). -/
def OwnTrace (s u : State) : Prop := Locked u ∧ ∃ l, u.trace = l ++ s.trace ∧ ∀ x, x ∈ l → x.ofCp = true

theorem ownTrace_othersKeep (s c : State) : OthersKeep c (OwnTrace s) := by
  refine ⟨fun u b _ hu hn => ?_, fun u v _ m hu => ?_⟩
  · obtain ⟨h1, h2⟩ := background_locked u b hu.1 hn
    exact ⟨h1, by rw [h2]; exact hu.2⟩
  · obtain ⟨⟨h1, h2⟩, h3⟩ := hu
    cases m with
    | draw => exact ⟨⟨by simpa using h1, by simpa using h2⟩, by simpa using h3⟩
    | request t => exact ⟨⟨h1, h2⟩, h3⟩
    | grant t => exact ⟨⟨h1, by simp⟩, h3⟩
    | complete t =>
      exact ⟨⟨by simpa using h1, by simp⟩, grown_trans h3 ⟨[_], by simp; rfl, by simp [TraceItem.ofCp]⟩⟩
    | settle ms t =>
      exact ⟨⟨by simpa using h1, by simpa using h2⟩, grown_trans h3 ⟨[.settle ms], by simp, by simp [TraceItem.ofCp]⟩⟩
    | wait t => exact ⟨⟨by simpa using h1, by simpa using h2⟩, by simpa using h3⟩

end Sys2Proof.Machine
end

