-- ==== Sys2Proof/Laws/Commands.lean ====
section
/-! SUPPORT. What ending a command can do, said once (R121, R255, R258): the fields the response leaves, and where it goes; and
what a command without bus I/O does as a whole. -/

namespace Sys2Proof.Machine

open Sys2Proof

@[simp] theorem respond_img (s : State) (nb : Bool) (r : Response) : (s.respond nb r).img = s.img := by
  unfold State.respond; split
  · split <;> rfl
  · rfl

@[simp] theorem respond_stp (s : State) (nb : Bool) (r : Response) : (s.respond nb r).stp = s.stp := by
  unfold State.respond; split
  · split <;> rfl
  · rfl

@[simp] theorem respond_nextTicket (s : State) (nb : Bool) (r : Response) : (s.respond nb r).nextTicket = s.nextTicket := by
  unfold State.respond; split
  · split <;> rfl
  · rfl

@[simp] theorem respond_cmdq (s : State) (nb : Bool) (r : Response) : (s.respond nb r).cmdq = s.cmdq := by
  unfold State.respond; split
  · split <;> rfl
  · rfl

@[simp] theorem respond_bus (s : State) (nb : Bool) (r : Response) : (s.respond nb r).bus = s.bus := by
  unfold State.respond; split
  · split <;> rfl
  · rfl

@[simp] theorem respond_mixedMode (s : State) (nb : Bool) (r : Response) : (s.respond nb r).mixedMode = s.mixedMode := by
  unfold State.respond; split
  · split <;> rfl
  · rfl

@[simp] theorem respond_now (s : State) (nb : Bool) (r : Response) : (s.respond nb r).now = s.now := by
  unfold State.respond; split
  · split <;> rfl
  · rfl

@[simp] theorem respond_trace (s : State) (nb : Bool) (r : Response) : (s.respond nb r).trace = s.trace := by
  unfold State.respond; split
  · split <;> rfl
  · rfl

@[simp] theorem respond_popped (s : State) (nb : Bool) (r : Response) : (s.respond nb r).popped = s.popped := by
  unfold State.respond; split
  · split <;> rfl
  · rfl

@[simp] theorem respond_host (s : State) (nb : Bool) (r : Response) : (s.respond nb r).host = s.host := by
  unfold State.respond; split
  · split <;> rfl
  · rfl

@[simp] theorem respond_env (s : State) (nb : Bool) (r : Response) : (s.respond nb r).env = s.env := by
  unfold State.respond; split
  · split <;> rfl
  · rfl

@[simp] theorem endCommand_img (s : State) (i : Instr) (e : CmdEnd) : (s.endCommand i e).img = s.img := by
  simp [State.endCommand]

@[simp] theorem endCommand_stp (s : State) (i : Instr) (e : CmdEnd) : (s.endCommand i e).stp = s.stp := by
  simp [State.endCommand]

@[simp] theorem endCommand_nextTicket (s : State) (i : Instr) (e : CmdEnd) : (s.endCommand i e).nextTicket = s.nextTicket := by
  simp [State.endCommand]

@[simp] theorem endCommand_cmdq (s : State) (i : Instr) (e : CmdEnd) : (s.endCommand i e).cmdq = s.cmdq := by
  simp [State.endCommand]

@[simp] theorem endCommand_bus (s : State) (i : Instr) (e : CmdEnd) : (s.endCommand i e).bus = s.bus := by
  simp [State.endCommand]

@[simp] theorem endCommand_mixedMode (s : State) (i : Instr) (e : CmdEnd) : (s.endCommand i e).mixedMode = s.mixedMode := by
  simp [State.endCommand]

@[simp] theorem endCommand_now (s : State) (i : Instr) (e : CmdEnd) : (s.endCommand i e).now = s.now := by
  simp [State.endCommand]

@[simp] theorem endCommand_trace (s : State) (i : Instr) (e : CmdEnd) : (s.endCommand i e).trace = s.trace := by
  simp [State.endCommand]

@[simp] theorem endCommand_popped (s : State) (i : Instr) (e : CmdEnd) : (s.endCommand i e).popped = s.popped := by
  simp [State.endCommand]

@[simp] theorem endCommand_host (s : State) (i : Instr) (e : CmdEnd) : (s.endCommand i e).host = s.host := by
  simp [State.endCommand]

@[simp] theorem endCommand_env (s : State) (i : Instr) (e : CmdEnd) : (s.endCommand i e).env = s.env := by
  simp [State.endCommand]

/-- The response of a command, from a state that agrees with `s` in the ports and the queue of responses. -/
theorem respond_responded {s u : State} (nb : Bool) (r : Response) (h1 : u.sync = s.sync) (h2 : u.hostWait = s.hostWait)
    (h3 : u.cmplq = s.cmplq) (h4 : u.cpHeld = s.cpHeld) (h5 : u.ticket = s.ticket) (h6 : u.cp = .idle ↔ s.cp = .idle) :
    Responded s (u.respond nb r) nb r := by
  have hr : u.cmplRoom = s.cmplRoom := by simp [State.cmplRoom, h3]
  refine ⟨?_, ?_⟩
  · rintro rfl
    simp [State.respond, h1, h3, h4]
  · rintro rfl
    cases hc : s.cmplRoom with
    | true => simp [State.respond, hr, hc, h1, h2, h3, h4]
    | false =>
      have ht : (u.respond true r).ticket = s.ticket := by simpa [State.respond, hr, hc, State.ticket] using h5
      have hi : (u.respond true r).cp = .idle ↔ s.cp = .idle := by simpa [State.respond, hr, hc] using h6
      simp only [ht, hi]
      simp [State.respond, hr, hc, h1, h2, h3]

/-- The response of a command, whatever other agents have delivered meanwhile. -/
theorem respond_answered (u : State) (nb : Bool) (r : Response) : Answered (u.respond nb r) nb r := by
  refine ⟨?_, ?_⟩
  · rintro rfl
    simp [State.respond]
  · rintro rfl
    by_cases hc : u.cmplRoom = true
    · left; simp [State.respond, hc]
    · right; simp [State.respond, hc]

/-- The ticket of a command in the CP. -/
theorem ticket_of_inCommand {s : State} {t : Ticket} (h : s.inCommand t) : s.ticket = t := by
  obtain ⟨w, n, h⟩ := h
  simp [State.ticket, h]

/-- A command that ends with a validation error at its checks. -/
theorem turnedAway {i : Instr} {s : State} {tk : Ticket} {why : Reason} (hc : s.inCommand tk)
    (h : exec i s = .next (s.endCommand i (.validation why))) :
    TurnedAway i s tk i.opcode.code (reasonCode why) := by
  refine ⟨_, h, ⟨?_, ?_, ⟨?_, ?_, ?_, ?_⟩, ?_, ⟨?_, ?_, ?_, ?_⟩⟩, ?_⟩ <;> try simp
  unfold State.endCommand
  rw [ticket_of_inCommand hc]
  exact respond_responded i.nb _ rfl rfl rfl rfl rfl Iff.rfl

end Sys2Proof.Machine
end

