-- ==== Sys2Proof/Laws/PerInstr.lean ====
section
/-! SUPPORT. The family `EncodedFields`, one lemma per command: the word of a command has the command's opcode and mode, and
no must-be-zero field of it is set (R90, R92, R98, R99). -/

namespace Sys2Proof.Laws

open Sys2Proof

/-! ### The fields of a built word -/

@[simp] theorem wordOp_buildWord (op : Byte) (nb : Bool) (t : BitVec 4) (a : BitVec 16) (b : W32) :
    wordOp (buildWord op nb t a b) = op := by
  unfold wordOp buildWord
  ext i hi
  simp only [BitVec.getElem_extractLsb', BitVec.getLsbD_append]
  rw [if_neg (by omega), show 56 + i - (1 + (3 + (4 + (16 + 32)))) = i by omega, BitVec.getLsbD_eq_getElem hi]

@[simp] theorem wordNb_buildWord (op : Byte) (nb : Bool) (t : BitVec 4) (a : BitVec 16) (b : W32) :
    wordNb (buildWord op nb t a b) = nb := by
  unfold wordNb buildWord
  simp only [BitVec.getLsbD_append]
  simp [-BitVec.getLsbD_eq_getElem]

@[simp] theorem wordRsv_buildWord (op : Byte) (nb : Bool) (t : BitVec 4) (a : BitVec 16) (b : W32) :
    wordRsv (buildWord op nb t a b) = 0#3 := by
  unfold wordRsv buildWord
  ext i hi
  simp only [BitVec.getElem_extractLsb', BitVec.getLsbD_append]
  rw [if_pos (by omega), if_pos (by omega), if_neg (by omega)]
  simp

@[simp] theorem wordTgt_buildWord (op : Byte) (nb : Bool) (t : BitVec 4) (a : BitVec 16) (b : W32) :
    wordTgt (buildWord op nb t a b) = t := by
  unfold wordTgt buildWord
  ext i hi
  simp only [BitVec.getElem_extractLsb', BitVec.getLsbD_append]
  rw [if_pos (by omega), if_pos (by omega), if_pos (by omega), if_neg (by omega),
    show 48 + i - (16 + 32) = i by omega, BitVec.getLsbD_eq_getElem hi]

@[simp] theorem wordA_buildWord (op : Byte) (nb : Bool) (t : BitVec 4) (a : BitVec 16) (b : W32) :
    wordA (buildWord op nb t a b) = a := by
  unfold wordA buildWord
  ext i hi
  simp only [BitVec.getElem_extractLsb', BitVec.getLsbD_append]
  rw [if_pos (by omega), if_pos (by omega), if_pos (by omega), if_pos (by omega), if_neg (by omega),
    show 32 + i - 32 = i by omega, BitVec.getLsbD_eq_getElem hi]

@[simp] theorem wordB_buildWord (op : Byte) (nb : Bool) (t : BitVec 4) (a : BitVec 16) (b : W32) :
    wordB (buildWord op nb t a b) = b := by
  unfold wordB buildWord
  ext i hi
  simp only [BitVec.getElem_extractLsb', BitVec.getLsbD_append]
  rw [if_pos (by omega), if_pos (by omega), if_pos (by omega), if_pos (by omega), if_pos (by omega),
    show 0 + i = i by omega, BitVec.getLsbD_eq_getElem hi]

/-! ### The family -/

/-- The word of a command carries its opcode and its mode, and passes the reserved-bits check. -/
def EncodedFields.Statement (i : Instr) : Prop :=
  opcodeOf (wordOp (encode i)) = some i.opcode ∧ wordNb (encode i) = i.nb ∧ reservedSet i.opcode (encode i) = false

/-- The top byte of a packed pin operand is 0 (R95). -/
theorem packPins_top (p : Pins) : (packPins p).extractLsb' 24 8 = 0#8 := by
  unfold packPins
  ext i hi
  simp only [BitVec.getElem_extractLsb', BitVec.getLsbD_append]
  rw [if_neg (by omega)]
  simp

/-- The bits above the one-hot unit are 0 (R96). -/
theorem unitCode_top (u : SpeedUnit) : u.code.extractLsb' 3 13 = 0#13 := by cases u <;> decide

theorem EncodedFields.drvInit (nb : Bool) :
    EncodedFields.Statement (.drvInit nb) := by
  simp [EncodedFields.Statement, encode, reservedSet, Instr.opcode, Opcode.code, opcodeOf, Instr.nb, targetKind, usesA, usesB,
    Instr.tgtField, Instr.aField, Instr.bField]

theorem EncodedFields.drvReset (nb : Bool) :
    EncodedFields.Statement (.drvReset nb) := by
  simp [EncodedFields.Statement, encode, reservedSet, Instr.opcode, Opcode.code, opcodeOf, Instr.nb, targetKind, usesA, usesB,
    Instr.tgtField, Instr.aField, Instr.bField]

theorem EncodedFields.drvSetfreq (nb : Bool) (rate : W32) :
    EncodedFields.Statement (.drvSetfreq nb rate) := by
  simp [EncodedFields.Statement, encode, reservedSet, Instr.opcode, Opcode.code, opcodeOf, Instr.nb, targetKind, usesA, usesB,
    Instr.tgtField, Instr.aField, Instr.bField]

theorem EncodedFields.drvGetfreq (nb : Bool) :
    EncodedFields.Statement (.drvGetfreq nb) := by
  simp [EncodedFields.Statement, encode, reservedSet, Instr.opcode, Opcode.code, opcodeOf, Instr.nb, targetKind, usesA, usesB,
    Instr.tgtField, Instr.aField, Instr.bField]

theorem EncodedFields.drvSetchan (nb : Bool) (c : Chan) (on off : Tick) :
    EncodedFields.Statement (.drvSetchan nb c on off) := by
  simp [EncodedFields.Statement, encode, reservedSet, Instr.opcode, Opcode.code, opcodeOf, Instr.nb, targetKind, usesA, usesB,
    Instr.tgtField, Instr.aField, Instr.bField]

theorem EncodedFields.drvSetpin (nb : Bool) (c : Chan) (level : Bool) :
    EncodedFields.Statement (.drvSetpin nb c level) := by
  simp [EncodedFields.Statement, encode, reservedSet, Instr.opcode, Opcode.code, opcodeOf, Instr.nb, targetKind, usesA, usesB,
    Instr.tgtField, Instr.aField, Instr.bField]

theorem EncodedFields.drvSetall (nb : Bool) (on off : Tick) :
    EncodedFields.Statement (.drvSetall nb on off) := by
  simp [EncodedFields.Statement, encode, reservedSet, Instr.opcode, Opcode.code, opcodeOf, Instr.nb, targetKind, usesA, usesB,
    Instr.tgtField, Instr.aField, Instr.bField]

theorem EncodedFields.stpPins (nb : Bool) (k : StepperId) (pins : Pins) :
    EncodedFields.Statement (.stpPins nb k pins) := by
  simp [EncodedFields.Statement, encode, reservedSet, Instr.opcode, Opcode.code, opcodeOf, Instr.nb, targetKind, usesA, usesB,
    Instr.tgtField, Instr.aField, Instr.bField, packPins_top]

theorem EncodedFields.stpSetsteps (nb : Bool) (k : StepperId) (spr : BitVec 16) :
    EncodedFields.Statement (.stpSetsteps nb k spr) := by
  simp [EncodedFields.Statement, encode, reservedSet, Instr.opcode, Opcode.code, opcodeOf, Instr.nb, targetKind, usesA, usesB,
    Instr.tgtField, Instr.aField, Instr.bField]

theorem EncodedFields.stpSetmicro (nb : Bool) (k : StepperId) (ms : Micro) :
    EncodedFields.Statement (.stpSetmicro nb k ms) := by
  simp [EncodedFields.Statement, encode, reservedSet, Instr.opcode, Opcode.code, opcodeOf, Instr.nb, targetKind, usesA, usesB,
    Instr.tgtField, Instr.aField, Instr.bField]

theorem EncodedFields.stpSetstyle (nb : Bool) (k : StepperId) (style : Style) :
    EncodedFields.Statement (.stpSetstyle nb k style) := by
  simp [EncodedFields.Statement, encode, reservedSet, Instr.opcode, Opcode.code, opcodeOf, Instr.nb, targetKind, usesA, usesB,
    Instr.tgtField, Instr.aField, Instr.bField]

theorem EncodedFields.stpSetcurrent (nb : Bool) (k : StepperId) (current : BitVec 16) :
    EncodedFields.Statement (.stpSetcurrent nb k current) := by
  simp [EncodedFields.Statement, encode, reservedSet, Instr.opcode, Opcode.code, opcodeOf, Instr.nb, targetKind, usesA, usesB,
    Instr.tgtField, Instr.aField, Instr.bField]

theorem EncodedFields.stpSetspeed (nb : Bool) (k : StepperId) (unit : SpeedUnit) (value : W32) :
    EncodedFields.Statement (.stpSetspeed nb k unit value) := by
  simp [EncodedFields.Statement, encode, reservedSet, Instr.opcode, Opcode.code, opcodeOf, Instr.nb, targetKind, usesA, usesB,
    Instr.tgtField, Instr.aField, Instr.bField, unitCode_top]

theorem EncodedFields.stpSetfreq (nb : Bool) (k : StepperId) (rate : W32) :
    EncodedFields.Statement (.stpSetfreq nb k rate) := by
  simp [EncodedFields.Statement, encode, reservedSet, Instr.opcode, Opcode.code, opcodeOf, Instr.nb, targetKind, usesA, usesB,
    Instr.tgtField, Instr.aField, Instr.bField]

theorem EncodedFields.stpInit (nb : Bool) (k : StepperId) :
    EncodedFields.Statement (.stpInit nb k) := by
  simp [EncodedFields.Statement, encode, reservedSet, Instr.opcode, Opcode.code, opcodeOf, Instr.nb, targetKind, usesA, usesB,
    Instr.tgtField, Instr.aField, Instr.bField]

theorem EncodedFields.stpOnestep (nb : Bool) (k : StepperId) (dir : Dir) :
    EncodedFields.Statement (.stpOnestep nb k dir) := by
  simp [EncodedFields.Statement, encode, reservedSet, Instr.opcode, Opcode.code, opcodeOf, Instr.nb, targetKind, usesA, usesB,
    Instr.tgtField, Instr.aField, Instr.bField]

theorem EncodedFields.stpStep (nb : Bool) (k : StepperId) (dir : Dir) (count : W32) :
    EncodedFields.Statement (.stpStep nb k dir count) := by
  simp [EncodedFields.Statement, encode, reservedSet, Instr.opcode, Opcode.code, opcodeOf, Instr.nb, targetKind, usesA, usesB,
    Instr.tgtField, Instr.aField, Instr.bField]

theorem EncodedFields.stpRelease (nb : Bool) (k : StepperId) :
    EncodedFields.Statement (.stpRelease nb k) := by
  simp [EncodedFields.Statement, encode, reservedSet, Instr.opcode, Opcode.code, opcodeOf, Instr.nb, targetKind, usesA, usesB,
    Instr.tgtField, Instr.aField, Instr.bField]

theorem EncodedFields.stpStop (nb : Bool) (k : StepperId) :
    EncodedFields.Statement (.stpStop nb k) := by
  simp [EncodedFields.Statement, encode, reservedSet, Instr.opcode, Opcode.code, opcodeOf, Instr.nb, targetKind, usesA, usesB,
    Instr.tgtField, Instr.aField, Instr.bField]

theorem EncodedFields.stpStatus (nb : Bool) (k : StepperId) :
    EncodedFields.Statement (.stpStatus nb k) := by
  simp [EncodedFields.Statement, encode, reservedSet, Instr.opcode, Opcode.code, opcodeOf, Instr.nb, targetKind, usesA, usesB,
    Instr.tgtField, Instr.aField, Instr.bField]

theorem EncodedFields.stpGetrates (nb : Bool) (k : StepperId) :
    EncodedFields.Statement (.stpGetrates nb k) := by
  simp [EncodedFields.Statement, encode, reservedSet, Instr.opcode, Opcode.code, opcodeOf, Instr.nb, targetKind, usesA, usesB,
    Instr.tgtField, Instr.aField, Instr.bField]

end Sys2Proof.Laws
end

