-- ==== Sys2Proof/Laws/Decode.lean ====
section
/-! SUPPORT. The decoder said once per path (R105): what it answers once the opcode and the must-be-zero fields of a word are
known, and the range checks of the operands as conditions on their values. -/

namespace Sys2Proof.Laws

open Sys2Proof

@[simp] theorem stepperTgt_toNat (k : StepperId) : (stepperTgt k).toNat = k.val := by revert k; decide

/-- A reserved opcode ends the decoding. -/
theorem decode_reserved {w : CmdWord} (h : opcodeOf (wordOp w) = none) : decode w = .error .illegalOpcode := by
  simp [decode, h]

/-- A must-be-zero field that is set ends the decoding. -/
theorem decode_reservedBits {w : CmdWord} {op : Opcode} (h : opcodeOf (wordOp w) = some op) (hr : reservedSet op w = true) :
    decode w = .error .reservedBits := by
  simp [decode, h, hr]

/-- A stepper command's operands are checked once its target is known. -/
theorem decode_stepper {w : CmdWord} {op : Opcode} {k : StepperId} (h : opcodeOf (wordOp w) = some op)
    (hr : reservedSet op w = false) (hk : targetKind op = .stepper) (ht : wordTgt w = stepperTgt k) :
    decode w = decodeStepper op k w := by
  have hlt : (stepperTgt k).toNat < Config.nSteppers := by rw [stepperTgt_toNat]; exact k.isLt
  have he : (⟨(stepperTgt k).toNat, hlt⟩ : StepperId) = k := Fin.ext (stepperTgt_toNat k)
  simp only [decode, h, hr, hk, ht, hlt, he, Bool.false_eq_true, if_false, if_true, dite_true]

/-- A stepper command's target out of range. -/
theorem decode_badTarget {w : CmdWord} {op : Opcode} (h : opcodeOf (wordOp w) = some op) (hr : reservedSet op w = false)
    (hk : targetKind op = .stepper) (ht : 2 ≤ (wordTgt w).toNat) : decode w = .error .badTarget := by
  have hlt : ¬ (wordTgt w).toNat < Config.nSteppers := Nat.not_lt.mpr ht
  simp only [decode, h, hr, hk, hlt, Bool.false_eq_true, if_false, if_true, dite_false]

/-- A driver command. -/
theorem decode_driver {w : CmdWord} {op : Opcode} (h : opcodeOf (wordOp w) = some op) (hr : reservedSet op w = false)
    (hk : targetKind op ≠ .stepper) : decode w = decodeDriver op w := by
  simp only [decode, h, hr, hk, Bool.false_eq_true, if_false]

/-- Packing six channels and unpacking them gives them back (R95). -/
theorem unpackPins_packPins (p : Pins) : unpackPins (packPins p) = p := by
  unfold unpackPins packPins
  cases p
  simp only [RoleMap.mk.injEq]
  refine ⟨?_, ?_, ?_, ?_, ?_, ?_⟩ <;> (ext i hi; simp only [BitVec.getElem_extractLsb', BitVec.getLsbD_append])
  · rw [if_pos (by omega), if_pos (by omega), if_pos (by omega), if_pos (by omega), if_pos (by omega), if_pos (by omega),
      show 0 + i = i by omega, BitVec.getLsbD_eq_getElem hi]
  · rw [if_pos (by omega), if_pos (by omega), if_pos (by omega), if_pos (by omega), if_pos (by omega), if_neg (by omega),
      show 4 + i - 4 = i by omega, BitVec.getLsbD_eq_getElem hi]
  · rw [if_pos (by omega), if_pos (by omega), if_pos (by omega), if_pos (by omega), if_neg (by omega),
      show 8 + i - (4 + 4) = i by omega, BitVec.getLsbD_eq_getElem hi]
  · rw [if_pos (by omega), if_pos (by omega), if_pos (by omega), if_neg (by omega),
      show 12 + i - (4 + (4 + 4)) = i by omega, BitVec.getLsbD_eq_getElem hi]
  · rw [if_pos (by omega), if_pos (by omega), if_neg (by omega), show 16 + i - (4 + (4 + (4 + 4))) = i by omega,
      BitVec.getLsbD_eq_getElem hi]
  · rw [if_pos (by omega), if_neg (by omega), show 20 + i - (4 + (4 + (4 + (4 + 4)))) = i by omega,
      BitVec.getLsbD_eq_getElem hi]

end Sys2Proof.Laws
end

