-- ==== Sys2Proof/Laws/Programs.lean ====
section
/-! SUPPORT. A sequence of the CP is the list it is written as, said once for each shared operation (R13, R14): a transaction,
`memWrite`, `memRead`, `settle`, `writeAll`, `pinWrite` and `allWrite` are each `Played`, `Played.seq` puts parts together, and
the lemmas named `_alone` say what each does to the image and the steppers where no other agent has anything to do. Where `rst`
takes the command, what has been carried out is the start of the list. -/

namespace Sys2Proof.Machine

open Sys2Proof

/-! ### Lists carried out -/

/-- How many transactions a list has. -/
def txnCount : List SeqItem → ℕ
  | [] => 0
  | .settle _ :: r => txnCount r
  | .txn _ :: r => txnCount r + 1

theorem txnCount_append (a b : List SeqItem) : txnCount (a ++ b) = txnCount a + txnCount b := by
  induction a with
  | nil => simp [txnCount]
  | cons x a ih => cases x <;> simp [txnCount, ih]; omega

/-- A list that is carried out whole goes on with what follows it. -/
theorem play_append_of_done (ans : ℕ → Answer) (a b : List SeqItem) (n : ℕ) (h : (play ans n a).2 = none) :
    play ans n (a ++ b) = ((play ans n a).1 ++ (play ans (n + txnCount a) b).1, (play ans (n + txnCount a) b).2) := by
  induction a generalizing n with
  | nil => simp [play, txnCount]
  | cons x a ih =>
    cases x with
    | settle ms => simp only [play] at h; simp [play, txnCount, ih n h]
    | txn t =>
      simp only [play] at h
      cases hok : (ans n).ok with
      | false => rw [hok] at h; simp at h
      | true => rw [hok] at h; simp at h; simp [play, txnCount, hok, ih _ h, Nat.add_assoc, Nat.add_comm 1]

/-- A list that a bus error cuts off ends there, whatever follows it (R14). -/
theorem play_append_of_cut (ans : ℕ → Answer) (a b : List SeqItem) (n : ℕ) (h : (play ans n a).2 ≠ none) :
    play ans n (a ++ b) = play ans n a := by
  induction a generalizing n with
  | nil => simp [play] at h
  | cons x a ih =>
    cases x with
    | settle ms => simp only [play] at h; simp [play, ih n h]
    | txn t =>
      simp only [play] at h
      cases hok : (ans n).ok with
      | false => simp [play, hok]
      | true => rw [hok] at h; simp at h; simp [play, hok, ih _ h]

/-- What a list carries out is the start of what it carries out with more to come. -/
theorem play_take_append (ans : ℕ → Answer) (a b : List SeqItem) (n m : ℕ) :
    ∃ k, (play ans n a).1.take m = (play ans n (a ++ b)).1.take k := by
  by_cases h : (play ans n a).2 = none
  · rw [play_append_of_done ans a b n h]
    refine ⟨min m (play ans n a).1.length, ?_⟩
    rw [List.take_append_of_le_length (by omega), ← List.take_eq_take_min]
  · rw [play_append_of_cut ans a b n h]; exact ⟨m, rfl⟩

/-! ### A sequence is its list -/

/-- A list of items that may depend on the answers to come, from number `n` on. -/
abbrev Items := (ℕ → Answer) → ℕ → List SeqItem

/-- The answers from number `n` on begin with the list `as`. -/
def Agrees (ans : ℕ → Answer) (n : ℕ) (as : List Answer) : Prop := ∀ j (h : j < as.length), ans (n + j) = as[j]

theorem Agrees.left {ans : ℕ → Answer} {n : ℕ} {a b : List Answer} (h : Agrees ans n (a ++ b)) : Agrees ans n a :=
  fun j hj => by rw [h j (by simp; omega), List.getElem_append_left hj]

theorem Agrees.right {ans : ℕ → Answer} {n : ℕ} {a b : List Answer} (h : Agrees ans n (a ++ b)) : Agrees ans (n + a.length) b :=
  fun j hj => by
    rw [Nat.add_assoc, h (a.length + j) (by simp; omega), List.getElem_append_right (by omega)]; simp

/-- What a part of a sequence does besides, where no other agent has anything to do: `as` are the answers it drew, the next ones
of `s` in order; time passes; every trace item is the CP's; the ports and queues are as before. -/
structure PlayedAlone (s t : State) (as : List Answer) : Prop where
  alone : t.alone
  answers : ∀ m, t.answerAt m = s.answerAt (as.length + m)
  same : ∀ j (h : j < as.length), as[j] = s.answerAt j
  now : s.now ≤ t.now
  done : as ≠ [] → s.now ≤ t.bus.lastDone
  last : s.bus.lastDone ≤ t.bus.lastDone ∨ s.now ≤ t.bus.lastDone
  cmplq : t.cmplq = s.cmplq
  cmdq : t.cmdq = s.cmdq
  nextTicket : t.nextTicket = s.nextTicket
  sync : t.sync = s.sync
  hostWait : t.hostWait = s.hostWait
  popped : t.popped = s.popped
  host : t.host = s.host
  own : ∃ l, t.trace = l ++ s.trace ∧ ∀ x, x ∈ l → x.ofCp = true

/-- The sequence that took `s` to `r`, with the answers `as` drawn by the CP, is the list `items`: the end and the CP's trace
are those of the list carried out with these answers, and the rest is kept; or `rst` has cut it off, and the CP's trace has the
start of it. -/
structure Played (s : State) (items : Items) (r : SeqEnd) (as : List Answer) : Prop where
  plays : r.2 ≠ some .rst → ∀ ans n, Agrees ans n as →
    r.2 = (play ans n (items ans n)).2.map Cut.bus ∧ r.1.cpTrace = (play ans n (items ans n)).1.reverse ++ s.cpTrace
  count : r.2 = none → ∀ ans n, Agrees ans n as → as.length = txnCount (items ans n)
  kept : r.2 ≠ some .rst → SeqKept s r.1
  quiet : s.alone → r.2 ≠ some .rst ∧ PlayedAlone s r.1 as
  cut : r.2 = some .rst → TakenByRst s r.1 ∧
    ∀ ans n, Agrees ans n as → ∃ m, r.1.cpTrace = ((play ans n (items ans n)).1.take m).reverse ++ s.cpTrace

/-- A fixed list. -/
abbrev fixed (l : List SeqItem) : Items := fun _ _ => l

/-- One list of items after another. -/
def Items.then (l m : Items) : Items := fun ans n => l ans n ++ m ans (n + txnCount (l ans n))

theorem PlayedAlone.refl (s : State) (h : s.alone) : PlayedAlone s s [] :=
  ⟨h, by simp, by simp, le_refl _, by simp, .inl (le_refl _), rfl, rfl, rfl, rfl, rfl, rfl, rfl, [], by simp⟩

theorem PlayedAlone.trans {s t u : State} {a b} (x : PlayedAlone s t a) (y : PlayedAlone t u b) : PlayedAlone s u (a ++ b) where
  alone := y.alone
  answers m := by rw [y.answers, x.answers]; simp [Nat.add_assoc]
  same j h := by
    by_cases hj : j < a.length
    · rw [List.getElem_append_left hj]; exact x.same j hj
    · rw [List.getElem_append_right (by omega), y.same, x.answers]; congr 1; omega
  now := x.now.trans y.now
  done h := by
    by_cases hb : b = []
    · subst hb
      by_cases ha : a = []
      · subst ha; simp at h
      · rcases y.last with h1 | h1
        · exact (x.done ha).trans h1
        · exact x.now.trans h1
    · exact x.now.trans (y.done hb)
  last := by
    rcases y.last with h1 | h1
    · rcases x.last with h2 | h2
      · exact .inl (h2.trans h1)
      · exact .inr (h2.trans h1)
    · exact .inr (x.now.trans h1)
  cmplq := y.cmplq.trans x.cmplq
  cmdq := y.cmdq.trans x.cmdq
  nextTicket := y.nextTicket.trans x.nextTicket
  sync := y.sync.trans x.sync
  hostWait := y.hostWait.trans x.hostWait
  popped := y.popped.trans x.popped
  host := y.host.trans x.host
  own := grown_trans x.own y.own

/-- Nothing to do. -/
theorem Played.refl (s : State) : Played s (fixed []) (s, none) [] :=
  ⟨by intro _ ans n _; simp [play], by simp [txnCount], fun _ => .refl s, fun h => ⟨by simp, PlayedAlone.refl s h⟩,
    fun h => by cases h⟩

/-- The same items, written otherwise. -/
theorem Played.congr {s : State} {l m : Items} {r : SeqEnd} {a : List Answer} (h : Played s l r a) (e : ∀ ans n, l ans n = m ans n) :
    Played s m r a := by
  have : l = m := funext fun ans => funext fun n => e ans n
  rw [← this]; exact h

/-- A change that leaves the trace of the CP before the sequence goes on. -/
theorem Played.after {s u : State} (hk : SeqKept s u) (ht : u.cpTrace = s.cpTrace) (hq : s.alone → PlayedAlone s u []) :
    Played s (fixed []) (u, none) [] :=
  ⟨by intro _ ans n _; simp [play, ht], by simp [txnCount], fun _ => hk, fun h => ⟨by simp, hq h⟩, fun h => by cases h⟩

/-- One part after another, the second where nothing has cut the first off (R14, R290). -/
theorem Played.seq {s : State} {l m : Items} {r : SeqEnd} {f : State → SeqEnd} {a : List Answer} (hc : s.cp ≠ .idle)
    (h : Played s l r a) (hf : r.2 = none → r.1.cp ≠ .idle → ∃ b, Played r.1 m (f r.1) b) :
    ∃ b, Played s (l.then m) (thenSeq r f) b := by
  by_cases he : r.2 = none
  · rw [thenSeq_none he]
    have hk := h.kept (by rw [he]; simp)
    obtain ⟨b, hb⟩ := hf he (fun e => hc (hk.idle.1 e))
    have hl : ∀ ans n, Agrees ans n (a ++ b) → (play ans n (l ans n)).2 = none ∧
        r.1.cpTrace = (play ans n (l ans n)).1.reverse ++ s.cpTrace ∧ Agrees ans (n + txnCount (l ans n)) b := by
      intro ans n hh
      have h1 := h.plays (by rw [he]; simp) ans n hh.left
      refine ⟨?_, h1.2, ?_⟩
      · have := h1.1; rw [he] at this; simpa using this.symm
      · rw [← h.count he ans n hh.left]; exact hh.right
    refine ⟨a ++ b, ?_, ?_, fun hr => hk.trans (hb.kept hr), ?_, ?_⟩
    · intro hr ans n hh
      obtain ⟨hn, ht, hg⟩ := hl ans n hh
      have h2 := hb.plays hr ans _ hg
      simp only [Items.then]
      rw [play_append_of_done _ _ _ _ hn]
      exact ⟨h2.1, by rw [h2.2, ht]; simp⟩
    · intro hc ans n hh
      obtain ⟨_, _, hg⟩ := hl ans n hh
      simp only [Items.then]
      rw [txnCount_append, List.length_append, h.count he ans n hh.left, hb.count hc ans _ hg]
    · intro hq
      have hr1 := (h.quiet hq).2
      exact ⟨(hb.quiet hr1.alone).1, hr1.trans (hb.quiet hr1.alone).2⟩
    · intro hr
      obtain ⟨ht, hm⟩ := hb.cut hr
      refine ⟨hk.taken ht, fun ans n hh => ?_⟩
      obtain ⟨hn, ht', hg⟩ := hl ans n hh
      obtain ⟨k, hk⟩ := hm ans _ hg
      refine ⟨(play ans n (l ans n)).1.length + k, ?_⟩
      simp only [Items.then]
      rw [play_append_of_done _ _ _ _ hn]
      rw [hk, ht']; simp [List.take_append]
  · rw [thenSeq_some he]
    refine ⟨a, ?_, fun hn => absurd hn he, h.kept, h.quiet, ?_⟩
    · intro hr ans n hh
      have := h.plays hr ans n hh
      simp only [Items.then]
      rw [play_append_of_cut]
      · exact this
      · intro hp; rw [hp] at this; exact he this.1
    · intro hr
      obtain ⟨ht, hm⟩ := h.cut hr
      refine ⟨ht, fun ans n hh => ?_⟩
      obtain ⟨k, hk⟩ := hm ans n hh
      obtain ⟨k', hk'⟩ := play_take_append ans (l ans n) (m ans (n + txnCount (l ans n))) n k
      exact ⟨k', by rw [hk, hk']; rfl⟩

/-- One fixed list after another. -/
theorem Played.seq_fixed {s : State} {l m : List SeqItem} {r : SeqEnd} {f : State → SeqEnd} {a : List Answer} (hc : s.cp ≠ .idle)
    (h : Played s (fixed l) r a) (hf : r.2 = none → r.1.cp ≠ .idle → ∃ b, Played r.1 (fixed m) (f r.1) b) :
    ∃ b, Played s (fixed (l ++ m)) (thenSeq r f) b := h.seq hc hf

/-! ### Transactions and settles -/

theorem cpTrace_append_other {l t : List TraceItem} (h : ∀ x, x ∈ l → x.ofCp = false) :
    (l ++ t).filter TraceItem.ofCp = t.filter TraceItem.ofCp := by
  rw [List.filter_append, List.filter_eq_nil_iff.2 (by intro x hx; simp [h x hx]), List.nil_append]

theorem Beside.cpTrace {s t : State} (h : Beside s t) : t.cpTrace = s.cpTrace := by
  obtain ⟨l, h1, h2⟩ := h.trace
  unfold State.cpTrace; rw [h1, cpTrace_append_other h2]

/-- The others add nothing to the trace of the CP, `rst` included. -/
theorem background_cpTrace (s : State) (b : Background) : (s.background b).cpTrace = s.cpTrace := by
  by_cases hn : NotRst b s
  · exact (background_beside s b hn).cpTrace
  · obtain ⟨rfl, hh⟩ : b = .host ∧ s.host.head? = some .rst := by simpa [NotRst] using hn
    cases ht : s.host with
    | nil => rw [ht] at hh; cases hh
    | cons a rest =>
      have : a = .rst := by rw [ht] at hh; simpa using hh
      subst this
      simp [State.background, State.hostTurn, ht, State.hardReset, State.cpTrace]

theorem interfere_cpTrace (s : State) : s.interfere.cpTrace = s.cpTrace :=
  interfere_keeps (P := fun u => u.cpTrace = s.cpTrace) (fun u b h => (background_cpTrace u b).trans h)
    (fun u h => by simpa [State.cpTrace] using h) s rfl

theorem drainAhead_cpTrace (n : ℕ) (s : State) : (State.drainAhead n s).1.cpTrace = s.cpTrace := by
  induction n generalizing s with
  | zero => rfl
  | succ n ih =>
    have e : s.busStep.yield.1.cpTrace = s.cpTrace := (interfere_cpTrace _).trans (busStep_kept s).toBeside.cpTrace
    unfold State.drainAhead
    by_cases h : s.busStep.yield.2 = none
    · rw [thenSeq_none h, ih, e]
    · rw [thenSeq_some h, e]

/-- Waiting for its turn adds nothing to the trace of the CP, and only `rst` cuts it off. -/
theorem await_cpTrace (s : State) (t : Txn) : (s.await t).1.cpTrace = s.cpTrace := by
  have y : ∀ u : State, u.yield.1.cpTrace = u.cpTrace := interfere_cpTrace
  unfold State.await
  by_cases h1 : s.yield.2 = none
  · rw [thenSeq_none h1]
    have e2 : (s.yield.1.request .cp t).yield.1.cpTrace = s.cpTrace := (y _).trans (y s)
    by_cases h2 : (s.yield.1.request .cp t).yield.2 = none
    · rw [thenSeq_none h2]
      generalize (s.yield.1.request .cp t).yield.1 = w at e2
      have e3 := (drainAhead_cpTrace w.drainBound w).trans e2
      by_cases h3 : (State.drainAhead w.drainBound w).2 = none
      · rw [thenSeq_none h3]; exact (y _).trans e3
      · rw [thenSeq_some h3]; exact e3
    · rw [thenSeq_some h2]; exact e2
  · rw [thenSeq_some h1]; exact y s

theorem yield_cut (s : State) : s.yield.2 = none ∨ s.yield.2 = some .rst := by
  by_cases h : s.interfere.cp = .idle
  · right; simp [State.yield, h]
  · left; simp [State.yield, h]

theorem thenSeq_cut {r : SeqEnd} {f : State → SeqEnd} (h : r.2 = none ∨ r.2 = some .rst)
    (hf : ∀ u, (f u).2 = none ∨ (f u).2 = some .rst) : (thenSeq r f).2 = none ∨ (thenSeq r f).2 = some .rst := by
  by_cases e : r.2 = none
  · rw [thenSeq_none e]; exact hf _
  · rw [thenSeq_some e]; exact h

theorem drainAhead_cut (n : ℕ) (s : State) : (State.drainAhead n s).2 = none ∨ (State.drainAhead n s).2 = some .rst := by
  induction n generalizing s with
  | zero => exact .inl rfl
  | succ n ih => exact thenSeq_cut (yield_cut _) ih

theorem await_cut (s : State) (t : Txn) : (s.await t).2 = none ∨ (s.await t).2 = some .rst :=
  thenSeq_cut (yield_cut _) fun _ => thenSeq_cut (yield_cut _) fun _ => thenSeq_cut (drainAhead_cut _ _) fun _ => yield_cut _

/-- The state in which the CP's transaction completes. -/
def State.atTxn (s : State) (t : Txn) : State := (s.await t).1

theorem completeCp_cpTrace (s : State) (t : Txn) : (s.completeCp t).2.cpTrace =
    .txn .cp t (s.completeCp t).1.ok (replyByte t (s.completeCp t).1) :: s.cpTrace := by
  simp only [State.cpTrace, completeCp_trace]
  rw [List.filter_cons_of_pos (by rfl)]

theorem afterTxn_now (s : State) (t : Txn) :
    s.now ≤ (s.afterTxn t).now ∧ (s.afterTxn t).bus.lastDone = (s.afterTxn t).now := by
  simp [State.afterTxn, State.completeCp, State.completeTxn, State.pass]
  positivity

theorem completeCp_alone (s : State) (t : Txn) (h : s.alone) : PlayedAlone s (s.afterTxn t) [s.answerAt 0] := by
  have hn := afterTxn_now s t
  refine { alone := afterTxn_alone s t h, answers := fun m => by rw [afterTxn_answerAt]; simp [Nat.add_comm],
           same := by intro j h; simp at h; subst h; rfl
           now := hn.1, done := fun _ => by rw [hn.2]; exact hn.1, last := .inr (by rw [hn.2]; exact hn.1)
           cmplq := ?_, cmdq := ?_, nextTicket := ?_, sync := ?_, hostWait := ?_, popped := ?_, host := ?_
           own := ⟨[_], by rw [afterTxn_trace]; rfl, by simp [TraceItem.ofCp]⟩ } <;>
    simp [State.afterTxn, State.completeCp]

/-- A transaction, and the rest of the sequence with its answer. -/
theorem transact_played (s : State) (t : Txn) (f : Answer → State → SeqEnd) (m : Answer → Items) (hc : s.cp ≠ .idle)
    (hok : ∀ a u, u.cp ≠ .idle → a.ok = true → ∃ b, Played u (m a) (f a u) b)
    (hfail : ∀ a u, a.ok = false → f a u = (u, some (.bus (busErrorOf t)))) :
    ∃ b, Played s (fun ans n => .txn t :: (if (ans n).ok then m (ans n) ans (n + 1) else [])) (s.transact t f) b := by
  have hs := await_since t (.trivial s) hc (.refl s) trivial
  rcases await_cut s t with hn | hr
  · obtain ⟨hk, -⟩ := hs.1 (by rw [hn]; simp)
    have hkc := hk.trans (completeCp_seqKept (s.await t).1 t)
    have hcp : ((s.await t).1.completeCp t).2.cp ≠ .idle := fun e => hc (hkc.idle.1 e)
    have htr : ((s.await t).1.completeCp t).2.cpTrace = .txn .cp t ((s.await t).1.completeCp t).1.ok
        (replyByte t ((s.await t).1.completeCp t).1) :: s.cpTrace := by rw [completeCp_cpTrace, await_cpTrace]
    have hq : s.alone → (s.await t).1.completeCp t = (s.answerAt 0, s.afterTxn t) := by
      intro hq
      have := transact_alone s t (fun a u => (u, if a = s.answerAt 0 then none else some .rst)) hq
      unfold State.transact at this
      rw [thenSeq_none hn] at this
      simp only [if_true, Prod.mk.injEq] at this
      refine Prod.ext ?_ this.1
      by_contra hne
      have h2 := this.2
      rw [if_neg hne] at h2
      cases h2
    unfold State.transact
    rw [thenSeq_none hn]
    generalize hd : (s.await t).1.completeCp t = d at *
    have agree0 : ∀ {b : List Answer} {ans : ℕ → Answer} {n : ℕ}, Agrees ans n (d.1 :: b) → ans n = d.1 ∧ Agrees ans (n + 1) b := by
      intro b ans n hh
      exact ⟨hh 0 (by simp), Agrees.right (a := [d.1]) hh⟩
    cases hok' : d.1.ok with
    | true =>
      obtain ⟨b, hb⟩ := hok d.1 d.2 hcp hok'
      refine ⟨d.1 :: b, ?_, ?_, fun hr => hkc.trans (hb.kept hr), ?_, ?_⟩
      · intro hr ans n hh
        obtain ⟨h0, h1⟩ := agree0 hh
        have h2 := hb.plays hr ans (n + 1) h1
        simp only [h0, hok', if_true, play]
        exact ⟨h2.1, by rw [h2.2, htr]; simp [hok']⟩
      · intro hc ans n hh
        obtain ⟨h0, h1⟩ := agree0 hh
        simp [h0, hok', txnCount, hb.count hc ans (n + 1) h1]
      · intro hqq
        have hx := completeCp_alone s t hqq
        have e := hq hqq
        rw [e] at hb ⊢
        exact ⟨(hb.quiet hx.alone).1, PlayedAlone.trans hx (hb.quiet hx.alone).2⟩
      · intro hr
        obtain ⟨ht, hm⟩ := hb.cut hr
        refine ⟨hkc.taken ht, fun ans n hh => ?_⟩
        obtain ⟨h0, h1⟩ := agree0 hh
        obtain ⟨k, hk'⟩ := hm ans (n + 1) h1
        refine ⟨k + 1, ?_⟩
        simp only [h0, hok', if_true, play, List.take_succ_cons]
        rw [hk', htr]; simp [hok']
    | false =>
      rw [hfail d.1 d.2 hok']
      refine ⟨[d.1], ?_, by simp, fun _ => hkc, ?_, by simp⟩
      · intro hr ans n hh
        obtain ⟨h0, _⟩ := agree0 hh
        simp [h0, hok', play, htr]
      · intro hqq
        have e := hq hqq
        rw [e]
        exact ⟨by simp, completeCp_alone s t hqq⟩
  · have e : s.transact t f = s.await t := by unfold State.transact; rw [thenSeq_some (by rw [hr]; simp)]
    rw [e]
    refine ⟨[], fun h => absurd hr h, fun h => (by rw [hr] at h; cases h), fun h => absurd hr h, fun hq => ?_,
      fun h => ⟨hs.2 h, fun ans n _ => ⟨0, by rw [await_cpTrace]; simp⟩⟩⟩
    have := transact_alone s t (fun _ u => (u, none)) hq
    unfold State.transact at this
    rw [thenSeq_some (by rw [hr]; simp)] at this
    rw [this] at hr; cases hr

theorem transactSeq_played (s : State) (t : Txn) (hc : s.cp ≠ .idle) : ∃ b, Played s (fixed [.txn t]) (s.transactSeq t) b := by
  obtain ⟨b, hb⟩ := transact_played s t (fun a s => (s, if a.ok then none else some (.bus (busErrorOf t)))) (fun _ => fixed [])
    hc (fun a u _ h => ⟨[], by rw [h]; exact Played.refl u⟩) (fun a u h => by rw [h]; rfl)
  exact ⟨b, hb.congr (fun ans n => by simp)⟩

/-- A byte write. -/
theorem memWrite_played (s : State) (w : Byte × Byte) (hc : s.cp ≠ .idle) :
    ∃ a, Played s (fixed [writeItem w]) (s.memWrite w.1 w.2) a := transactSeq_played s _ hc

/-- On a bus no other agent uses, a transaction keeps the image and the steppers. -/
theorem transactSeq_alone (s : State) (t : Txn) (h : s.alone) :
    (s.transactSeq t).1.img = s.img ∧ (s.transactSeq t).1.stp = s.stp := by
  unfold State.transactSeq
  rw [transact_alone s t _ h]
  exact ⟨afterTxn_img s t, afterTxn_stp s t⟩

/-- A byte read, and what follows it with the byte it returns. -/
theorem memRead_played (s : State) (reg : Byte) (f : Byte → State → SeqEnd) (m : Byte → List SeqItem) (hc : s.cp ≠ .idle)
    (hf : ∀ v u, u.cp ≠ .idle → ∃ b, Played u (fixed (m v)) (f v u) b) :
    ∃ b, Played s (fun ans n => .txn (.read Config.devAddr reg) :: m (ans n).byte) (s.memRead reg f) b := by
  unfold State.memRead
  obtain ⟨b, hb⟩ := transact_played s (.read Config.devAddr reg)
    (fun a s => if a.ok then f a.byte s else (s, some (.bus (busErrorOf (.read Config.devAddr reg)))))
    (fun a => fixed (m a.byte)) hc (fun a u hu h => by rw [if_pos h]; exact hf _ u hu) (fun a u h => by simp [h])
  have hp : ∀ (ans : ℕ → Answer) n, play ans n (.txn (.read Config.devAddr reg) :: (if (ans n).ok then m (ans n).byte else [])) =
      play ans n (.txn (.read Config.devAddr reg) :: m (ans n).byte) := by
    intro ans n
    cases h : (ans n).ok <;> simp [play, h]
  refine ⟨b, ?_, ?_, hb.kept, hb.quiet, ?_⟩
  · intro hr ans n hh
    have := hb.plays hr ans n hh
    rw [hp] at this; exact this
  · intro hn ans n hh
    have h1 := hb.count hn ans n hh
    have h2 := (hb.plays (by rw [hn]; simp) ans n hh).1
    cases h : (ans n).ok with
    | true => simp only [h, if_true] at h1; exact h1
    | false =>
      rw [hn] at h2
      simp only [h, play] at h2
      simp at h2
  · intro hr
    refine ⟨(hb.cut hr).1, fun ans n hh => ?_⟩
    have := (hb.cut hr).2 ans n hh
    rw [hp] at this; exact this

/-- A point at which the others move. -/
theorem yield_played (s : State) (hc : s.cp ≠ .idle) : Played s (fixed []) s.yield [] := by
  have h := yield_since (.trivial s) hc (.refl s) trivial
  refine ⟨fun hr ans n _ => ?_, by simp [txnCount], fun hr => (h.1 hr).1, fun hq => ?_, fun hr => ⟨h.2 hr, fun ans n _ => ⟨0, ?_⟩⟩⟩
  · rcases yield_cut s with e | e
    · simp only [e, play, Option.map_none]
      exact ⟨trivial, by rw [show s.yield.1.cpTrace = s.cpTrace from interfere_cpTrace s]; simp⟩
    · exact absurd e hr
  · rw [yield_alone s hq.1 hq.2.1]
    exact ⟨by simp, PlayedAlone.refl s hq⟩
  · rw [show s.yield.1.cpTrace = s.cpTrace from interfere_cpTrace s]; simp

/-- A settle, before the others move. -/
theorem settled_played (s : State) (ms : ℕ) :
    Played s (fixed [.settle ms])
      (({ s.passUntil (s.bus.lastDone + (ms : ℚ)) with trace := .settle ms :: s.trace } : State).advancePc, none) [] := by
  refine ⟨fun _ ans n _ => ?_, by simp [txnCount], fun _ => CpMove.seqKept (.settle ms _), fun hq => ⟨by simp, ?_⟩, fun h => by cases h⟩
  · simp only [play, Option.map_none, State.cpTrace, advancePc_trace, true_and]
    rw [List.filter_cons_of_pos (by rfl)]; rfl
  · refine ⟨⟨(othersActive_of (by simp) (by simp)).trans hq.1, by simpa using hq.2.1, by simpa using hq.2.2.1,
      by simpa using hq.2.2.2⟩,
      fun m => by rw [answerAt_of_env (t := s) (by simp)]; simp, by simp, by simp [State.passUntil], by simp,
      .inl (by simp), by simp, by simp, by simp, by simp, by simp, by simp, by simp, ⟨[_], by simp; rfl, by simp [TraceItem.ofCp]⟩⟩

/-- A settle. -/
theorem settle_played (s : State) (ms : ℕ) (hc : s.cp ≠ .idle) : ∃ b, Played s (fixed [.settle ms]) (s.settle ms) b := by
  have h := settled_played s ms
  obtain ⟨b, hb⟩ := h.seq_fixed (m := []) (f := State.yield) hc (fun _ hu => ⟨[], yield_played _ hu⟩)
  exact ⟨b, hb⟩

/-- A wait of a blocking run. -/
theorem waitPeriod_played (s : State) (t : ℚ) (hc : s.cp ≠ .idle) : ∃ b, Played s (fixed []) (s.waitPeriod t) b := by
  have h : Played s (fixed []) ((s.passUntil (s.now + t)).advancePc, none) [] := by
    refine .after (CpMove.seqKept (.wait _)) (by simp [State.cpTrace]) (fun hq => ?_)
    refine ⟨⟨(othersActive_of (by simp) (by simp)).trans hq.1, by simpa using hq.2.1, by simpa using hq.2.2.1,
      by simpa using hq.2.2.2⟩,
      fun m => by rw [answerAt_of_env (t := s) (by simp)]; simp, by simp, by simp [State.passUntil], by simp,
      .inl (by simp), by simp, by simp, by simp, by simp, by simp, by simp, by simp, ⟨[], by simp⟩⟩
  exact h.seq_fixed (m := []) (f := State.yield) hc (fun _ hu => ⟨[], yield_played _ hu⟩)

/-- A settle where no other agent has anything to do: it ends the given time after the last transaction ended (R13). -/
theorem settle_alone (s : State) (ms : ℕ) (h : s.alone) : (s.settle ms).1.img = s.img ∧ (s.settle ms).1.stp = s.stp ∧
    s.bus.lastDone + ms ≤ (s.settle ms).1.now ∧ s.now ≤ (s.settle ms).1.now := by
  unfold State.settle
  dsimp only
  rw [yield_alone _ ((othersActive_of (by simp) (by simp)).trans h.1) (by simpa using h.2.1)]
  simp [State.passUntil]

/-- A list of byte writes. -/
theorem writeAll_played (l : List (Byte × Byte)) (s : State) (hc : s.cp ≠ .idle) :
    ∃ a, Played s (fixed (l.map writeItem)) (writeAll l s) a := by
  induction l generalizing s with
  | nil => exact ⟨[], Played.refl s⟩
  | cons w l ih =>
    obtain ⟨a, h⟩ := memWrite_played s w hc
    exact h.seq_fixed (m := l.map writeItem) hc (fun _ hu => ih _ hu)

/-- Byte writes change neither the image nor a stepper by themselves. -/
theorem writeAll_alone (l : List (Byte × Byte)) (s : State) (h : s.alone) :
    (writeAll l s).1.img = s.img ∧ (writeAll l s).1.stp = s.stp := by
  induction l generalizing s with
  | nil => exact ⟨rfl, rfl⟩
  | cons w l ih =>
    have h1 := transactSeq_alone s (.write Config.devAddr w.1 w.2) h
    obtain ⟨a, hd⟩ := memWrite_played s w h.2.1
    have h2 := (hd.quiet h).2.alone
    unfold writeAll
    by_cases e : (s.memWrite w.1 w.2).2 = none
    · rw [thenSeq_none e]
      have := ih _ h2
      exact ⟨this.1.trans h1.1, this.2.trans h1.2⟩
    · rw [thenSeq_some e]; exact h1

/-! ### Register groups -/

/-- The bytes of a register group, in the arithmetic of R63. -/
theorem groupWrites_eq (base : Byte) (on off : Tick) : groupWrites base on off = groupBytes base on off := by
  have hl : ∀ t : Tick, lowByte t = BitVec.ofNat 8 (t.toNat % 256) := by
    intro t; apply BitVec.eq_of_toNat_eq; simp [lowByte]
  have hh : ∀ t : Tick, highByte t = BitVec.ofNat 8 (t.toNat / 256) := by
    intro t; apply BitVec.eq_of_toNat_eq; simp [highByte, Nat.shiftRight_eq_div_pow]
  simp [groupWrites, groupBytes, hl, hh]

theorem chanBase_eq (c : Chan) : chanBase c = Config.regLed0OnL + BitVec.ofNat 8 (4 * c.toNat) := by
  unfold chanBase
  congr 1

theorem pinWrites_items (c : Chan) (on off : Tick) : (pinWrites c on off).map writeItem = pinItems c on off := by
  simp only [pinWrites, pinItems, groupWrites_eq, chanBase_eq]

theorem allWrites_items (on off : Tick) : (allWrites on off).map writeItem = allItems on off := by
  simp only [allWrites, allItems, groupWrites_eq]

/-- A change of the image or of the steppers that leaves what may act beside the CP. -/
theorem silent_played {s u : State} (hk : SeqKept s u) (ht : u.trace = s.trace) (hb : u.bus = s.bus) (he : u.env = s.env)
    (hn : u.now = s.now) (hc : u.cp = s.cp) (h1 : u.cmplq = s.cmplq) (h2 : u.cmdq = s.cmdq) (h3 : u.nextTicket = s.nextTicket)
    (h4 : u.sync = s.sync) (h5 : u.hostWait = s.hostWait) (h6 : u.popped = s.popped) (h7 : u.host = s.host)
    (ha : u.anyBackground = s.anyBackground) : Played s (fixed []) (u, none) [] :=
  Played.after hk (by simp [State.cpTrace, ht]) (fun hq =>
    ⟨⟨by rw [← hq.1]; simp [State.othersActive, ha, h7], by rw [hc]; exact hq.2.1, by rw [hb]; exact hq.2.2.1, by rw [hb]; exact hq.2.2.2⟩,
     fun m => by simp [answerAt_of_env he], by simp, by rw [hn], by simp, .inl (by rw [hb]), h1, h2, h3, h4, h5, h6, h7, [], by simp [ht]⟩)

/-- A change of the image. -/
theorem image_played (s : State) (m : Image) : Played s (fixed []) ({ s with img := m }, none) [] :=
  silent_played (seqKept_of_fields rfl rfl rfl rfl rfl rfl rfl rfl rfl rfl Iff.rfl ⟨[], rfl⟩)
    rfl rfl rfl rfl rfl rfl rfl rfl rfl rfl rfl rfl rfl

/-- `PinWrite` (R62, R64). -/
theorem pinWrite_played (c : Chan) (on off : Tick) (s : State) (hc : s.cp ≠ .idle) :
    ∃ a, Played s (fixed (pinItems c on off)) (pinWrite c on off s) a := by
  rw [← pinWrites_items, ← List.append_nil (List.map _ _)]
  obtain ⟨a, h⟩ := writeAll_played (pinWrites c on off) s hc
  exact h.seq_fixed hc (fun _ _ => ⟨[], image_played _ _⟩)

/-- `AllWrite` (R64). -/
theorem allWrite_played (on off : Tick) (s : State) (hc : s.cp ≠ .idle) :
    ∃ a, Played s (fixed (allItems on off)) (allWrite on off s) a := by
  rw [← allWrites_items, ← List.append_nil (List.map _ _)]
  obtain ⟨a, h⟩ := writeAll_played (allWrites on off) s hc
  exact h.seq_fixed hc (fun _ _ => ⟨[], image_played _ _⟩)

/-- What `PinWrite` does to the image where no other agent has anything to do: the channel where all is confirmed, nothing where
not. -/
theorem pinWrite_alone (c : Chan) (on off : Tick) (s : State) (h : s.alone) : (pinWrite c on off s).1.stp = s.stp ∧
    ((pinWrite c on off s).2 = none → (pinWrite c on off s).1.img = s.img.setChannel c on off) ∧
    ((pinWrite c on off s).2 ≠ none → (pinWrite c on off s).1.img = s.img) := by
  have := writeAll_alone (pinWrites c on off) s h
  by_cases he : (writeAll (pinWrites c on off) s).2 = none
  · simp [pinWrite, thenSeq_none he, this]
  · simp [pinWrite, thenSeq_some he, this, he]

/-- What `AllWrite` does to the image where no other agent has anything to do. -/
theorem allWrite_alone (on off : Tick) (s : State) (h : s.alone) : (allWrite on off s).1.stp = s.stp ∧
    ((allWrite on off s).2 = none → (allWrite on off s).1.img = s.img.setAllChannels on off) ∧
    ((allWrite on off s).2 ≠ none → (allWrite on off s).1.img = s.img) := by
  have := writeAll_alone (allWrites on off) s h
  by_cases he : (writeAll (allWrites on off) s).2 = none
  · simp [allWrite, thenSeq_none he, this]
  · simp [allWrite, thenSeq_some he, this, he]

/-! ### The exclusive bus -/

/-- Waiting for the transaction in flight is a step of the bus master. -/
theorem completeInflight_kept (s : State) : Kept s s.completeInflight := by
  unfold State.completeInflight
  split
  · exact busStep_kept s
  · exact .refl s

/-- Taking the exclusive bus where no other agent has anything to do only sets the lock (R69). -/
theorem acquire_alone (s : State) (h : s.alone) : s.acquire = (s.setLock true, none) := by
  unfold State.acquire
  rw [thenSeq_none (by rw [yield_alone s h.1 h.2.1]), yield_alone s h.1 h.2.1]
  simp [State.completeInflight, h.2.2.2]

end Sys2Proof.Machine
end

