-- ==== Sys2Proof/Tests/Slice0.lean ====
section
/-! SUPPORT. Our own tests: the smoke test of each well-formedness check, decoding of the words of `95_test_vectors.md`, small
one-step tests of the meanings with the values of that file, and a witness for every statement that has hypotheses. -/

namespace Sys2Proof.Tests

open Sys2Proof Sys2Proof.Machine

/-! ### Well-formedness: each check accepts its boundary value and refuses an ill-formed term (R94, R131) -/

theorem test_wf_channel_ticks : (Instr.drvSetchan false 0#4 4096#13 4096#13).wf = true := by decide
theorem test_wf_channel_on_refused : (Instr.drvSetchan false 0#4 4097#13 0#13).wf = false := by decide
theorem test_wf_channel_off_refused : (Instr.drvSetchan false 0#4 0#13 4097#13).wf = false := by decide
theorem test_wf_all_on_refused : (Instr.drvSetall false 4097#13 0#13).wf = false := by decide
theorem test_wf_all_off_refused : (Instr.drvSetall false 0#13 8191#13).wf = false := by decide
theorem test_wf_rate : (Instr.drvSetfreq false 1562500#32).wf = true := by decide
theorem test_wf_rate_refused : (Instr.drvSetfreq false 1562499#32).wf = false := by decide
theorem test_wf_stepper_rate_refused : (Instr.stpSetfreq false 0 0#32).wf = false := by decide
theorem test_wf_steps_refused : (Instr.stpSetsteps false 0 0#16).wf = false := by decide
theorem test_wf_current : (Instr.stpSetcurrent false 0 32768#16).wf = true := by decide
theorem test_wf_current_refused : (Instr.stpSetcurrent false 0 32769#16).wf = false := by decide
theorem test_wf_speed_refused : (Instr.stpSetspeed false 0 .rpm 0#32).wf = false := by decide

/-- The default pins 8/9/10/13/11/12. -/
def pins : Pins := { pwma := 8#4, a1 := 9#4, a2 := 10#4, pwmb := 13#4, b1 := 11#4, b2 := 12#4 }

theorem test_wf_pins : (Instr.stpPins false 0 pins).wf = true := by decide
theorem test_wf_pins_refused : (Instr.stpPins false 0 { pins with a1 := 8#4 }).wf = false := by decide
theorem test_wf_last_pins_refused : (Instr.stpPins false 0 { pins with b2 := 11#4 }).wf = false := by decide

/-! ### Decoding: a word of every command (V-E1), and rejections by name (V-E2, V-E5, V-P3 to V-P17) -/

theorem test_decode_drvInit : decode 0x0100000000000000#64 = .ok (.drvInit false) := by decide
theorem test_decode_drvReset : decode 0x0200000000000000#64 = .ok (.drvReset false) := by decide
theorem test_decode_drvSetfreq : decode 0x0300000006400000#64 = .ok (.drvSetfreq false 104857600#32) := by decide
theorem test_decode_drvGetfreq : decode 0x0400000000000000#64 = .ok (.drvGetfreq false) := by decide
theorem test_decode_drvSetchan : decode 0x0503000000001000#64 = .ok (.drvSetchan false 3#4 0#13 4096#13) := by decide
theorem test_decode_drvSetpin : decode 0x060F000000000001#64 = .ok (.drvSetpin false 15#4 true) := by decide
theorem test_decode_drvSetall : decode 0x0700000000001000#64 = .ok (.drvSetall false 0#13 4096#13) := by decide
theorem test_decode_stpPins : decode 0x1000000000CBDA98#64 = .ok (.stpPins false 0 pins) := by decide
theorem test_decode_stpSetsteps : decode 0x11000000000000C8#64 = .ok (.stpSetsteps false 0 200#16) := by decide
theorem test_decode_stpSetmicro : decode 0x1200000000000008#64 = .ok (.stpSetmicro false 0 .eight) := by decide
theorem test_decode_stpSetstyle : decode 0x1300000000000003#64 = .ok (.stpSetstyle false 0 .microstep) := by decide
theorem test_decode_stpSetcurrent : decode 0x1400000000008000#64 = .ok (.stpSetcurrent false 0 32768#16) := by decide
theorem test_decode_stpSetspeed : decode 0x15800002001E0000#64 = .ok (.stpSetspeed true 0 .rpm 1966080#32) := by decide
theorem test_decode_stpSetfreq : decode 0x1601000006400000#64 = .ok (.stpSetfreq false 1 104857600#32) := by decide
theorem test_decode_stpInit : decode 0x1700000000000000#64 = .ok (.stpInit false 0) := by decide
theorem test_decode_stpOnestep : decode 0x1800000100000000#64 = .ok (.stpOnestep false 0 .back) := by decide
theorem test_decode_stpStep : decode 0x19800000000003E8#64 = .ok (.stpStep true 0 .fwd 1000#32) := by decide
theorem test_decode_stpRelease : decode 0x1A00000000000000#64 = .ok (.stpRelease false 0) := by decide
theorem test_decode_stpStop : decode 0x1B00000000000000#64 = .ok (.stpStop false 0) := by decide
theorem test_decode_stpStatus : decode 0x1C01000000000000#64 = .ok (.stpStatus false 1) := by decide
theorem test_decode_stpGetrates : decode 0x1D00000000000000#64 = .ok (.stpGetrates false 0) := by decide

theorem test_reject_opcode_zero : decode 0#64 = .error .illegalOpcode := by decide
theorem test_reject_opcode_gap : decode 0x0800000000000000#64 = .error .illegalOpcode := by decide
theorem test_reject_opcode_top_bit : decode 0x8100000000000000#64 = .error .illegalOpcode := by decide
theorem test_reject_rsv : decode 0x0110000000000000#64 = .error .reservedBits := by decide
theorem test_reject_target_bits : decode 0x0101000000000000#64 = .error .reservedBits := by decide
theorem test_reject_b_bits : decode 0x0100000000000001#64 = .error .reservedBits := by decide
theorem test_reject_rsv_first : decode 0x1130000000000000#64 = .error .reservedBits := by decide
theorem test_reject_target_first : decode 0x1102000000000000#64 = .error .badTarget := by decide
theorem test_reject_reserved_before_dir : decode 0x1800000200000001#64 = .error .reservedBits := by decide
theorem test_reject_dir : decode 0x1800000200000000#64 = .error .badDirection := by decide
theorem test_reject_tick : decode 0x0500100100001388#64 = .error .badTick := by decide
theorem test_reject_frequency : decode 0x0300000000000000#64 = .error .badFrequency := by decide
theorem test_reject_prescale : decode 0x030000000017D783#64 = .error .prescaleRange := by decide
theorem test_reject_unit_first : decode 0x1500000300000000#64 = .error .badSpeedUnit := by decide
theorem test_reject_unit_bits : decode 0x1500000800010000#64 = .error .reservedBits := by decide
theorem test_reject_speed : decode 0x1500000200000000#64 = .error .badSpeedValue := by decide
theorem test_reject_pins_bits : decode 0x1000000001CBDA98#64 = .error .reservedBits := by decide
theorem test_reject_pins : decode 0x1000000000CBDA88#64 = .error .badPins := by decide
theorem test_reject_micro : decode 0x1200000000000004#64 = .error .badMicrosteps := by decide
theorem test_reject_style : decode 0x1300000000000004#64 = .error .badStyle := by decide
theorem test_reject_current : decode 0x1400000000008001#64 = .error .badCurrent := by decide
theorem test_reject_steps : decode 0x1100000000010000#64 = .error .badSteps := by decide
theorem test_reject_state : decode 0x0600000000000002#64 = .error .badStateValue := by decide

/-! ### Pure functions (V-D1, V-D2, V-C1, V-S1 to V-S6) -/

theorem test_prescale_1600 : computePrescale 0x06400000#32 = 3 := by decide
theorem test_prescale_1000 : computePrescale 0x03E80000#32 = 6 := by decide
theorem test_prescale_6103 : computePrescale 0x17D78400#32 = 0 := by decide
theorem test_freq_254 : fraction (computeFreq 254#8) = { num := 78125#64, den := 3264#64 } := by
  unfold computeFreq fraction Config.oscHz Config.ticks; norm_num; rfl
theorem test_advance_unaligned : advance 3#6 .fwd .single .eight = 11#6 := by decide
theorem test_advance_back_wraps : advance 0#6 .back .microstep .eight = 31#6 := by decide
theorem test_double_wraps : vectorOf .double 28#6 .eight = ⟨255#8, 255#8, true, false, false, false⟩ := by decide
theorem test_microstep_phase_0 : vectorOf .microstep 0#6 .eight = ⟨0#8, 255#8, true, true, false, false⟩ := by decide
theorem test_microstep_phase_31 : vectorOf .microstep 31#6 .eight = ⟨50#8, 250#8, true, false, false, true⟩ := by decide
theorem test_scale_rounds_down : scaleDuty 32767#16 255#8 = 4079#13 := by decide
theorem test_scale_half : scaleDuty 16384#16 255#8 = 2040#13 := by decide

/-! ### Small states -/

/-- The state a meaning answers. -/
def after (o : Host.Outcome State Fault Refusal) : State :=
  match o with
  | .next t => t
  | .fault _ => State.reset
  | .refused _ => State.reset

/-- An answer of the transport: success, with the byte 0x20. -/
def good : Answer := { ok := true, byte := 0x20#8, micros := 100 }
/-- A failure. -/
def bad : Answer := { ok := false, byte := 0#8, micros := 100 }

/-- The CP holds a command with ticket 7, and the transport answers `l`. -/
def busyWith (s : State) (l : List Answer) : State :=
  { s with cp := .busy 7#16 0#64 0, env := { s.env with answers := l } }

/-- After `DRV_INIT`: the chip is open and initialised. -/
def opened (l : List Answer) : State :=
  { busyWith State.reset l with img := { Image.reset with busOpen := true, initialised := true } }

/-- The configuration of P2: double style, 200 steps, 8 microsteps, full current, RPM 30. -/
def config : StepperConfig :=
  { pin := some pins, spr := some 200#16, ms := some .eight, style := some .double, current := some 32768#16,
    speedUnit := some .rpm, speedValue := some 0x1E0000#32, initialised := true, stepFreq := some 100, pulseFreq := some 100 }

/-- What a vector write of that configuration uses. -/
def ready : Ready := { pins := pins, ms := .eight, style := .double, current := 32768#16 }

/-- P2's state after t7: stepper 0 configured, phase 0, cache empty. -/
def configured (l : List Answer) : State := (opened l).modStp 0 (fun st => { st with cfg := config })

/-- The record the host got on the synchronous path last. -/
def answer (s : State) : Option Response := s.sync.head?

/-- A byte write in the trace. -/
def wrote (reg v : Byte) : TraceItem := .txn .cp (.write Config.devAddr reg v) true 0#8

/-! ### One step of each command (P1, P2, V-P18 to V-P30, V-L2 to V-L9) -/

theorem test_drvInit_trace :
    (after (exec (.drvInit false) (busyWith State.reset (List.replicate 9 good)))).trace.reverse =
      [.txn .cp (.busOpen Config.busId) true 0#8, wrote Config.regAllOnL 0#8, wrote (Config.regAllOnL + 1#8) 0#8,
       wrote (Config.regAllOnL + 2#8) 0#8, wrote (Config.regAllOnL + 3#8) 0#8, wrote Config.regMode2 Config.bitOutdrv,
       wrote Config.regMode1 Config.bitAi, .settle 5, .txn .cp (.read Config.devAddr Config.regMode1) true 0x20#8,
       wrote Config.regMode1 (0x20#8 &&& ~~~Config.bitSleep), .settle 5] := by rfl
theorem test_drvInit_open_fails :
    answer (after (exec (.drvInit false) (busyWith State.reset [bad]))) = some (busRecord 7#16 1#8 ⟨1#3, 0#8⟩ .none) := by
  rfl
theorem test_drvReset :
    (after (exec (.drvReset false) (opened [good]))).trace = [.txn .cp (.send Config.resetAddr Config.swrstByte) true 0#8] ∧
    (after (exec (.drvReset false) (opened [good]))).img.initialised = false := by exact ⟨rfl, rfl⟩
theorem test_drvReset_before_init :
    answer (after (exec (.drvReset false) (busyWith State.reset []))) = some (validationRecord 7#16 2#8 16#8) := by rfl
theorem test_drvSetfreq_trace :
    (after (exec (.drvSetfreq false 0x06400000#32) (opened (List.replicate 5 good)))).trace.reverse =
      [.txn .cp (.read Config.devAddr Config.regMode1) true 0x20#8,
       wrote Config.regMode1 ((0x20#8 &&& ~~~Config.bitRestart) ||| Config.bitSleep), wrote Config.regPrescale 3#8,
       wrote Config.regMode1 0x20#8, .settle 5, wrote Config.regMode1 (0x20#8 ||| Config.wakeMask)] := by rfl
theorem test_drvSetfreq_last_fails :
    (after (exec (.drvSetfreq false 0x06400000#32) (opened [good, good, good, good, bad]))).img.prescale = some 3#8 := by
  rfl
theorem test_drvGetfreq_unset :
    answer (after (exec (.drvGetfreq false) (opened []))) = some (validationRecord 7#16 4#8 20#8) := by rfl
theorem test_drvSetchan :
    (after (exec (.drvSetchan false 15#4 4095#13 1#13) (opened (List.replicate 4 good)))).trace.reverse =
      [wrote (Config.regLed0OnL + 60#8) 0xFF#8, wrote (Config.regLed0OnL + 60#8 + 1#8) 0x0F#8,
       wrote (Config.regLed0OnL + 60#8 + 2#8) 0x01#8, wrote (Config.regLed0OnL + 60#8 + 3#8) 0#8] := by rfl
theorem test_drvSetchan_third_fails :
    (after (exec (.drvSetchan false 3#4 0#13 4096#13) (opened [good, good, bad]))).img = (opened []).img ∧
    answer (after (exec (.drvSetchan false 3#4 0#13 4096#13) (opened [good, good, bad]))) =
      some (busRecord 7#16 5#8 ⟨3#3, Config.regLed0OnL + 12#8 + 2#8⟩ .none) := by exact ⟨rfl, rfl⟩
theorem test_drvSetpin_on :
    (after (exec (.drvSetpin false 15#4 true) (opened (List.replicate 4 good)))).img.onTick 15#4 = some 4096#13 := by rfl
theorem test_drvSetpin_off :
    (after (exec (.drvSetpin false 8#4 false) (opened (List.replicate 4 good)))).img.offTick 8#4 = some 4096#13 := by rfl
theorem test_drvSetall :
    (after (exec (.drvSetall false 4096#13 0#13) (opened (List.replicate 4 good)))).img.onTick 9#4 = some 4096#13 := by rfl
theorem test_stpPins :
    ((after (exec (.stpPins false 0 pins) (opened []))).stepper 0).cfg.pin = some pins := by rfl
theorem test_stpPins_shared :
    answer (after (exec (.stpPins false 1 { pins with pwma := 0#4, a1 := 1#4, a2 := 2#4, pwmb := 3#4, b1 := 4#4, b2 := 8#4 })
      (configured []))) = some (validationRecord 7#16 16#8 15#8) := by rfl
theorem test_stpSetsteps :
    ((after (exec (.stpSetsteps false 0 400#16) (configured []))).stepper 0).cfg.pulseFreq = some 200 := by
  show some (q16 0x1E0000#32 * ((400#16).toNat : ℚ) / 60 * ((1 * 1 : Nat) : ℚ)) = some 200
  norm_num [q16]
theorem test_stpSetmicro_phase :
    ((after (exec (.stpSetmicro false 0 .eight) ((configured []).modStp 0 (fun st =>
      { st with motion := { st.motion with phase := 50#6 } })))).stepper 0).motion.phase = 18#6 := by rfl
theorem test_stpSetstyle :
    ((after (exec (.stpSetstyle false 0 .single) (configured []))).stepper 0).cfg.style = some .single := by rfl
theorem test_stpSetcurrent_zero :
    ((after (exec (.stpSetcurrent false 0 0#16) (configured []))).stepper 0).cfg.current = some 0#16 := by rfl
theorem test_stpSetspeed :
    ((after (exec (.stpSetspeed false 0 .pps 0x06400000#32) (configured []))).stepper 0).cfg.speedUnit = some .pps := by rfl
theorem test_stpSetfreq :
    (after (exec (.stpSetfreq false 1 0x06400000#32) (opened (List.replicate 5 good)))).img.prescale = some 3#8 := by rfl
theorem test_stpInit_incomplete :
    answer (after (exec (.stpInit false 0) (opened []))) = some (validationRecord 7#16 0x17#8 17#8) := by rfl
theorem test_stpOnestep_phase :
    answer (after (exec (.stpOnestep false 0 .fwd) (configured (List.replicate 24 good)))) =
      some (okRecord 7#16 0x18#8 (.phase 8#6)) := by rfl
theorem test_stpOnestep_bus_error :
    ((after (exec (.stpOnestep false 0 .fwd) (configured [good, good, good, good, good, bad]))).stepper 0).cache =
      { emptyCache with pwma := some 4080#13 } := by rfl
theorem test_stpStep_none :
    (after (exec (.stpStep false 0 .fwd 0#32) (configured []))).trace = [] := by rfl
theorem test_stpStep_background :
    ((after (exec (.stpStep true 0 .fwd 3#32) (configured []))).stepper 0).run =
      { running := true, runNB := true, runDir := .fwd, runCount := 3#32, issued := 0#32, done := 0#32, k := 0#32,
        stopReq := false, runTicket := 7#16, t0 := 0 } := by rfl
theorem test_stpRelease_needs_config :
    answer (after (exec (.stpRelease false 0) (opened []))) = some (validationRecord 7#16 0x1A#8 17#8) := by rfl
theorem test_stpRelease_from_empty_cache :
    (after (exec (.stpRelease false 0) (configured (List.replicate 24 good)))).trace.length = 24 := by rfl
theorem test_stpStop_no_run :
    answer (after (exec (.stpStop false 0) (opened []))) = some (okRecord 7#16 0x1B#8 .none) := by rfl
theorem test_stpStatus_reset :
    answer (after (exec (.stpStatus false 0) (busyWith State.reset []))) = some (okRecord 7#16 0x1C#8 (.status
      { pinsSet := false, pin := ⟨0#4, 0#4, 0#4, 0#4, 0#4, 0#4⟩, spr := 0#16, ms := 0#5, style := 4#3, current := 0xFFFF#16,
        phase := 0#6, initialised := false, pulsing := false, running := false, runNB := false, runDir := 0#1,
        stopReq := false, runCount := 0#32, issued := 0#32, done := 0#32, retried := 0#32, k := 0#32, cacheValid := 0#6,
        cache := ⟨0#13, 0#13, 0#13, 0#13, 0#13, 0#13⟩, drvInitialised := false, busOpen := false })) := by rfl
theorem test_stpGetrates_reset :
    answer (after (exec (.stpGetrates false 0) (busyWith State.reset []))) = some (okRecord 7#16 0x1D#8 (.rates
      { unit := 0#2, value := 0#32, step := ⟨0#64, 0#64⟩, pulse := ⟨0#64, 0#64⟩, period := ⟨0#64, 0#64⟩ })) := by rfl

/-! ### A placed word runs as the machine's next step (R121, V-P19) -/

theorem test_step_runs_placed_word : answer (after (step (State.reset.withFetchWord 64 0x0500000000000000))) =
    some (validationRecord 0#16 5#8 16#8) := by rfl
theorem test_step_submits : (after (step { State.reset with
    host := [.submit 0x0800000000000000#64], env := { State.reset.env with turns := [.background .host] } })).sync =
    [validationRecord 0#16 8#8 1#8] := by rfl

/-! ### Witnesses: concrete states and operands that meet the hypotheses of a statement, clause by clause -/

theorem witness_DecodeEncode : (Instr.stpSetspeed true 1 .sps 1#32).wf = true := by decide
theorem witness_EncodeDecode : decode 0x19800000000003E8#64 = .ok (.stpStep true 0 .fwd 1000#32) := by decide
theorem witness_ReservedEncodingsRejected_port :
    State.reset.hostWait = none ∧ decode 0x1E00000000000000#64 = .error .illegalOpcode := by decide
theorem witness_ReservedEncodingsRejected_bits :
    ¬ ((wordOp 0x1500000800010000#64).toNat = 0 ∨ 0x1E ≤ (wordOp 0x1500000800010000#64).toNat) ∧
    (wordOp 0x1500000800010000#64).toNat = 0x15 ∧ 8 ≤ (wordA 0x1500000800010000#64).toNat := by decide
/-- The target check of `OperandRanges`, at the first and the last opcode and at the last operands of each must-be-zero rule. -/
theorem witness_OperandRanges_target : ∀ x : Byte × BitVec 4 × BitVec 16 × W32,
    x ∈ [(0x10#8, 2#4, 0#16, 0xFFFFFF#32), (0x13#8, 2#4, 0#16, 0xFFFFFFFF#32), (0x15#8, 15#4, 7#16, 0#32),
         (0x18#8, 2#4, 0xFFFF#16, 0#32), (0x1D#8, 15#4, 0#16, 0#32)] →
    0x10 ≤ x.1.toNat ∧ x.1.toNat ≤ 0x1D ∧ 2 ≤ x.2.1.toNat ∧
    (x.1.toNat ≠ 0x15 → x.1.toNat ≠ 0x18 → x.1.toNat ≠ 0x19 → x.2.2.1 = 0#16) ∧ (x.1.toNat = 0x15 → x.2.2.1.toNat < 8) ∧
    (x.1.toNat = 0x10 → x.2.2.2.toNat < 2 ^ 24) ∧
    (x.1.toNat ∈ [0x17, 0x18, 0x1A, 0x1B, 0x1C, 0x1D] → x.2.2.2 = 0#32) := by simp
theorem witness_PrescaleFormula : (1#32 : W32) ≠ 0#32 := by decide
theorem witness_PrescaleRounding : 1562500 ≤ (1562500#32).toNat := by decide
theorem witness_FractionsFit_any : (0 : ℚ) ≤ 1 ∧ (1 : ℚ).num < 2 ^ 64 ∧ (1 : ℚ).den < 2 ^ 64 := by
  refine ⟨by norm_num, ?_, ?_⟩ <;> decide
theorem witness_FractionsFit_rates : ∃ q, config.withRates.stepFreq = some q := ⟨_, rfl⟩
theorem witness_FractionsFit_period : ∃ q, pulsePeriod config.withRates = some q := ⟨_, rfl⟩
theorem witness_ConverterTable_unset : (config.style = none ∨ config.speedUnit = none ∨
    (Stepper.reset.cfg).speedValue = none) := by decide
theorem witness_ConverterTable_no_micro : ∃ c : StepperConfig, c.style = some .microstep ∧ c.ms = none :=
  ⟨{ config with style := some .microstep, ms := none }, rfl, rfl⟩
theorem witness_ConverterTable_no_spr : ∃ c : StepperConfig, c.speedUnit = some .rpm ∧ c.spr = none :=
  ⟨{ config with spr := none }, rfl, rfl⟩
theorem witness_ConverterTable_rpm : config.style = some .double ∧ config.speedValue = some 0x1E0000#32 ∧
    config.speedUnit = some .rpm ∧ config.spr = some 200#16 := by decide
theorem witness_ConverterTable_microstep : ({ config with style := some .microstep } : StepperConfig).ms = some .eight ∧
    (8 : ℕ) = Micro.eight.count := by decide
theorem witness_ConverterRoundTrip : ∃ f g, recompute config = (some f, some g) ∧ (200#16 : BitVec 16) ≠ 0#16 ∧
    microMult .double config.ms = some 1 := ⟨_, _, rfl, by decide, rfl⟩
theorem witness_AdvanceRoundTrip : (31#6).toNat < 4 * Micro.eight.count ∧ (63#6).toNat < 4 * Micro.sixteen.count := by
  decide
theorem witness_CoilVectors : (31#6).toNat < 4 * Micro.eight.count ∧ (8 : ℕ) ≤ 8 := by decide
theorem witness_DutyScaling : (32768#16).toNat ≤ 32768 := by decide
theorem witness_VectorPins : (pwmTask ready .pwma 255#8 ∈ vectorTasks ready ⟨255#8, 255#8, false, true, true, false⟩) ∧
    (coilTask ready .a2 true ∈ vectorTasks ready ⟨255#8, 255#8, false, true, true, false⟩) ∧
    (coilTask ready .b2 false ∈ vectorTasks ready ⟨255#8, 255#8, false, true, true, false⟩) := by decide

/-- The host's turn, with `l` to do. -/
def hostReady (l : List HostAct) : State :=
  { State.reset with host := l, env := { State.reset.env with turns := [.background .host] } }

/-- The CP's turn, with the word `w` queued. -/
def cpReady (w : CmdWord) : State :=
  { State.reset with cmdq := [{ ticket := 0#16, word := w }], env := { State.reset.env with turns := [.cp] } }

theorem cmplqDepth_pos : 0 < Config.cmplqDepth := by unfold Config.cmplqDepth Config.nSteppers; omega
theorem cmdqDepth_pos : 0 < Config.cmdqDepth := Nat.succ_pos _

/-- A record. -/
def record : Response := okRecord 3#16 0x1B#8 .none

/-- `cmplq` is full. -/
def full (s : State) : State := { s with cmplq := List.replicate Config.cmplqDepth record }

theorem full_cmplq (s : State) : Config.cmplqDepth ≤ (full s).cmplq.length := by simp [full]

theorem witness_HardwareReset :
    (hostReady [.rst]).host = .rst :: [] ∧ (hostReady [.rst]).env.turns = .background .host :: [] := by decide
theorem witness_Submission_waiting : ({ State.reset with hostWait := some 0#16 } : State).hostWait ≠ none := by decide
theorem witness_Submission_rejected :
    State.reset.hostWait = none ∧ decode 0x0300000000000000#64 = .error .badFrequency := by decide
theorem witness_Submission_full : ∃ s : State, s.hostWait = none ∧ decode 0x0100000000000000#64 = .ok (.drvInit false) ∧
    Config.cmdqDepth ≤ s.cmdq.length :=
  ⟨{ State.reset with cmdq := List.replicate Config.cmdqDepth { ticket := 0#16, word := 0#64 } }, rfl, by decide, by simp⟩
theorem witness_Submission_accepted : State.reset.hostWait = none ∧
    decode 0x15800002001E0000#64 = .ok (.stpSetspeed true 0 .rpm 0x1E0000#32) ∧
    State.reset.cmdq.length < Config.cmdqDepth ∧ wordNb 0x15800002001E0000#64 = true :=
  ⟨rfl, by decide, cmdqDepth_pos, by decide⟩
theorem witness_Submission_blocking : State.reset.hostWait = none ∧ decode 0x0100000000000000#64 = .ok (.drvInit false) ∧
    State.reset.cmdq.length < Config.cmdqDepth ∧ wordNb 0x0100000000000000#64 = false :=
  ⟨rfl, by decide, cmdqDepth_pos, by decide⟩

theorem witness_CompletionQueue_pop : ∃ s : State, s.cmplq = record :: [] ∧ s.host = .pop :: [] ∧ s.env.turns = .background .host :: [] :=
  ⟨{ hostReady [.pop] with cmplq := [record] }, rfl, rfl, rfl⟩
theorem witness_CompletionQueue_empty :
    (hostReady [.pop]).cmplq = [] ∧ (hostReady [.pop]).host = .pop :: [] ∧ (hostReady [.pop]).env.turns = .background .host :: [] := by
  decide
theorem witness_CompletionQueue_full : Config.cmplqDepth ≤ (full (cpReady 0#64)).cmplq.length ∧
    (full (cpReady 0#64)).env.turns = .cp :: [] := ⟨full_cmplq _, rfl⟩
theorem witness_CompletionQueue_held : ∃ s : State, s.cpHeld = some record ∧ s.cmplq.length < Config.cmplqDepth ∧
    s.env.turns = .cp :: [] := ⟨{ cpReady 0#64 with cpHeld := some record }, rfl, cmplqDepth_pos, rfl⟩
theorem witness_StepRunsCommand : (cpReady 0x0100000000000000#64).env.turns = .cp :: [] ∧
    (cpReady 0x0100000000000000#64).cp = .idle ∧ (cpReady 0x0100000000000000#64).cpHeld = none ∧
    (cpReady 0x0100000000000000#64).cmplq.length < Config.cmplqDepth ∧
    (cpReady 0x0100000000000000#64).cmdq = { ticket := 0#16, word := 0x0100000000000000#64 } :: [] ∧
    decode 0x0100000000000000#64 = .ok (.drvInit false) := ⟨rfl, rfl, rfl, cmplqDepth_pos, rfl, by decide⟩

/-! #### Commands -/

theorem configured_inCommand (l : List Answer) : (configured l).inCommand 7#16 := ⟨0#64, 0, rfl⟩
theorem configured_quiet (l : List Answer) : (configured l).quiet := ⟨rfl, rfl, rfl, rfl, rfl⟩
theorem configured_ready (l : List Answer) : ((configured l).stepper 0).cfg.ready = some ready := rfl

theorem witness_FailedCheck :
    (opened []).inCommand 7#16 ∧ execCheck (opened []) (.stpOnestep true 0 .fwd) = some .notConfigured :=
  ⟨⟨0#64, 0, rfl⟩, rfl⟩

/-- The configuration commands run (SetSteps, SetMicro, SetStyle, SetCurrent, SetSpeed, StepperInit, SetPins unshared). -/
theorem witness_Configure : (configured []).inCommand 7#16 ∧ ((configured []).stepper 0).run.running = false ∧
    ((configured []).stepper 0).motion.pulsing = false := ⟨configured_inCommand _, rfl, rfl⟩
theorem witness_StepperInit : (configured []).inCommand 7#16 ∧ ((configured []).stepper 0).run.running = false ∧
    ((configured []).stepper 0).motion.pulsing = false ∧ config.pin ≠ none ∧ config.spr ≠ none ∧ config.ms ≠ none ∧
    config.style ≠ none ∧ config.current ≠ none :=
  ⟨configured_inCommand _, rfl, rfl, by decide, by decide, by decide, by decide, by decide⟩
theorem witness_StepperInit_incomplete : (opened []).inCommand 7#16 ∧ ((opened []).stepper 0).run.running = false ∧
    ((opened []).stepper 0).motion.pulsing = false ∧ ((opened []).stepper 0).cfg.pin = none := ⟨⟨0#64, 0, rfl⟩, rfl, rfl, rfl⟩
theorem witness_SetPins_shared : ∃ (j : StepperId) (q : Pins), j ≠ 1 ∧ ((configured []).stepper j).cfg.pin = some q ∧
    ∃ x y, pins.get x = q.get y := ⟨0, pins, by decide, rfl, .pwma, .pwma, rfl⟩
theorem witness_SetPins_unshared : ∀ (j : StepperId) (q : Pins), j ≠ 0 → ((configured []).stepper j).cfg.pin = some q →
    ∀ x y, pins.get x ≠ q.get y := by
  intro j q hj h
  have : j = 1 := by clear h; revert hj; revert j; decide
  subst this
  exact absurd h (by intro h; cases h)
theorem witness_GetFreq_unset : (opened []).inCommand 7#16 ∧ (opened []).img.prescale = none := ⟨⟨0#64, 0, rfl⟩, rfl⟩
theorem witness_GetFreq : ∃ s : State, s.inCommand 7#16 ∧ s.img.prescale = some 3#8 :=
  ⟨{ opened [] with img := { (opened []).img with prescale := some 3#8 } }, ⟨0#64, 0, rfl⟩, rfl⟩
theorem witness_Reports : State.inCommand (busyWith State.reset []) 7#16 := ⟨0#64, 0, rfl⟩

/-- `DriverInit`, with a transport that completes the whole sequence. -/
theorem witness_DriverInit : ∃ s : State, s.inCommand 7#16 ∧ s.anyRunning = false ∧ s.quiet ∧ s.answersOk 9 ∧
    (play s.answerAt 0 (initItems (s.answerAt 7).byte)).2 = none := by
  refine ⟨busyWith State.reset (List.replicate 9 good), ⟨0#64, 0, rfl⟩, rfl, ⟨rfl, rfl, rfl, rfl, rfl⟩, ?_, rfl⟩
  show ∀ m, m < 9 → _
  decide
/-- `DriverInit`, with a broken all-channel write. -/
theorem witness_DriverInit_fails :
    (busyWith State.reset [good, good, bad]).quiet ∧ ¬ (busyWith State.reset [good, good, bad]).answersOk 5 :=
  ⟨⟨rfl, rfl, rfl, rfl, rfl⟩, fun h => absurd (h 2 (by decide)) (by decide)⟩
theorem witness_DriverReset : (configured [good]).inCommand 7#16 ∧ (configured [good]).img.busOpen = true ∧
    (configured [good]).anyRunning = false ∧ (configured [good]).quiet ∧ ((configured [good]).answerAt 0).ok = true ∧
    ((configured [bad]).answerAt 0).ok = false := ⟨configured_inCommand _, rfl, rfl, configured_quiet _, rfl, rfl⟩
/-- `SetFrequency`, `SetChannel` and `SetAll`, completed and cut off. -/
theorem witness_DriverWrites : (configured [good, good, good, good, good]).inCommand 7#16 ∧
    (configured [good, good, good, good, good]).img.initialised = true ∧ (configured [good, good, good, good, good]).quiet ∧
    (configured [good, good, good, good, good]).answersOk 3 ∧
    (play (configured [good, good, good, good, good]).answerAt 0 (freqItems 3#8 0x20#8)).2 = none ∧
    (play (configured [good, good, good, good]).answerAt 0 (pinItems 3#4 0#13 4096#13)).2 = none ∧
    (play (configured [good, good, good, good]).answerAt 0 (allItems 0#13 4096#13)).2 = none := by
  refine ⟨configured_inCommand _, rfl, configured_quiet _, ?_, rfl, rfl, rfl⟩
  show ∀ m, m < 3 → _
  decide
theorem witness_DriverWrites_fail : ¬ (configured [good, good, bad]).answersOk 3 ∧
    (play (configured [good, good, bad]).answerAt 0 (pinItems 3#4 0#13 4096#13)).2 ≠ none ∧
    (play (configured [good, good, bad]).answerAt 0 (allItems 0#13 4096#13)).2 ≠ none := by
  refine ⟨fun h => absurd (h 2 (by decide)) (by decide), ?_, ?_⟩ <;> exact Option.some_ne_none _
/-- `OneStep` and `Release`. -/
theorem witness_Motion : (configured []).inCommand 7#16 ∧ (configured []).img.initialised = true ∧
    ((configured []).stepper 0).cfg.ready = some ready ∧ ((configured []).stepper 0).run.running = false ∧
    ((configured []).stepper 0).motion.pulsing = false ∧ (configured []).quiet :=
  ⟨configured_inCommand _, rfl, rfl, rfl, rfl, configured_quiet _⟩

/-- The configured machine with a cache. -/
def cached (c : RoleMap (Option Tick)) : State := (configured []).modStp 0 (fun st => { st with cache := c })

theorem witness_UnchangedVectorIsSilent_release : ∃ s : State, s.inCommand 7#16 ∧ s.img.initialised = true ∧
    (s.stepper 0).cfg.ready = some ready ∧ (s.stepper 0).run.running = false ∧ (s.stepper 0).motion.pulsing = false ∧
    ∀ x, x ∈ vectorTasks ready releaseVector → (s.stepper 0).cache.get x.role = some x.value :=
  ⟨cached ⟨some 0#13, some 0#13, some 0#13, some 0#13, some 0#13, some 0#13⟩, ⟨0#64, 0, rfl⟩, rfl, rfl, rfl, rfl, by decide⟩
/-- Forward from phase 0 in double style: phase 8, coils 0110 (V-S2). -/
theorem witness_UnchangedVectorIsSilent_onestep : ∃ s : State, s.inCommand 7#16 ∧ s.img.initialised = true ∧
    (s.stepper 0).cfg.ready = some ready ∧ (s.stepper 0).run.running = false ∧ (s.stepper 0).motion.pulsing = false ∧
    ∀ x, x ∈ stepTasks ready (advance (s.stepper 0).motion.phase .fwd ready.style ready.ms) →
      (s.stepper 0).cache.get x.role = some x.value :=
  ⟨cached ⟨some 4080#13, some 0#13, some 1#13, some 4080#13, some 1#13, some 0#13⟩, ⟨0#64, 0, rfl⟩, rfl, rfl, rfl, rfl,
    by decide⟩
theorem witness_BlockingRun : ∃ s : State, s.inCommand 7#16 ∧ s.img.initialised = true ∧
    (s.stepper 0).cfg.ready = some ready ∧ pulsePeriod (s.stepper 0).cfg = some (1000 / 100) ∧ (0 : ℚ) ≤ 1000 / 100 ∧
    (s.stepper 0).run.running = false ∧ (s.stepper 0).motion.pulsing = false ∧ s.quiet ∧ s.answersOk (24 * (2#32).toNat) := by
  refine ⟨configured (List.replicate 48 good), configured_inCommand _, rfl, rfl, rfl, by norm_num, rfl, rfl,
    configured_quiet _, ?_⟩
  show ∀ m, m < 48 → _
  decide
/-- What every case of `BlockingRunBusError` assumes of the state. -/
theorem witness_BlockingRunBusError (l : List Answer) : (configured l).inCommand 7#16 ∧ (configured l).img.initialised = true ∧
    ((configured l).stepper 0).cfg.ready = some ready ∧ ((configured l).stepper 0).cfg.pulseFreq ≠ none ∧
    ((configured l).stepper 0).run.running = false ∧ ((configured l).stepper 0).motion.pulsing = false ∧
    (configured l).quiet :=
  ⟨configured_inCommand _, rfl, rfl, Option.some_ne_none _, rfl, rfl, configured_quiet _⟩
/-- A run whose first step fails at its first byte, and (V-L7) one whose second step does. -/
theorem witness_BlockingRunBusError_first : ∃ e, (0 : ℕ) < (4#32).toNat ∧
    (play (configured [bad]).answerAt 0 (runItems ready .fwd 0 0#6 emptyCache)).2 = none ∧
    (play (configured [bad]).answerAt 0 (runItems ready .fwd (0 + 1) 0#6 emptyCache)).2 = some e :=
  ⟨_, by decide, rfl, rfl⟩
theorem witness_BlockingRunBusError_second : ∃ e, (1 : ℕ) < (4#32).toNat ∧
    (play (configured (List.replicate 24 good ++ [bad])).answerAt 0 (runItems ready .fwd 1 0#6 emptyCache)).2 = none ∧
    (play (configured (List.replicate 24 good ++ [bad])).answerAt 0 (runItems ready .fwd (1 + 1) 0#6 emptyCache)).2 =
      some e := ⟨_, by decide, rfl, rfl⟩
/-- `BackgroundRunStarts`, for a run of some steps and for one of none, with room in `cmplq` and without. -/
theorem witness_BackgroundRunStarts : ∀ s, s = configured [] ∨ s = full (configured []) →
    s.inCommand 7#16 ∧ s.img.initialised = true ∧ (s.stepper 0).cfg.ready = some ready ∧ (s.stepper 0).cfg.pulseFreq ≠ none ∧
    (s.stepper 0).run.running = false ∧ (s.stepper 0).motion.pulsing = false := by
  rintro s (rfl | rfl) <;> exact ⟨⟨0#64, 0, rfl⟩, rfl, rfl, Option.some_ne_none _, rfl, rfl⟩
theorem witness_BackgroundRunStarts_room :
    (configured []).cmplq.length < Config.cmplqDepth ∧ Config.cmplqDepth ≤ (full (configured [])).cmplq.length :=
  ⟨cmplqDepth_pos, full_cmplq _⟩

/-! #### Runs in progress -/

/-- A background run of three steps, `issued` and `done` so far. -/
def runOf (issued done : W32) (stopReq : Bool) : Run :=
  { running := true, runNB := true, runDir := .fwd, runCount := 3#32, issued := issued, done := done, k := issued,
    stopReq := stopReq, runTicket := 7#16, t0 := 0 }

/-- The configured machine with that run between two steps, agent `a` next. -/
def betweenSteps (a : List Agent) (r : Run) : State :=
  { (configured []).modStp 0 (fun st => { st with run := r }) with
    cp := .idle, env := { State.reset.env with turns := a } }

/-- The first vector write of P4, with `left` of the pin `task` and then the pins `rest` to write. -/
def jobOf (task : PinTask) (left : List (Byte × Byte)) (rest : List PinTask) (outstanding : Bool) : VecJob :=
  { task := task, left := left, rest := rest, outstanding := outstanding }

/-- The pins of that vector: `(255,255,0,1,1,0)`. -/
def firstPins : List PinTask :=
  [pwmTask ready .pwma 255#8, pwmTask ready .pwmb 255#8, coilTask ready .a1 false, coilTask ready .a2 true,
   coilTask ready .b1 true, coilTask ready .b2 false]

/-- The run's first vector write in progress, with its next byte write asked for or not. -/
def pulsing (a : List Agent) (r : Run) (j : VecJob) (bus : Bus) : State :=
  { (betweenSteps a r).modStp 0 (fun st => { st with
      motion := { phase := 8#6, pulsing := true, retried := 0#32 }, job := some j }) with bus := bus }

/-- The bus with run engine 0's write `w` in flight. -/
def inFlight (w : Byte × Byte) : Bus :=
  { reqq := [], inflight := some { who := .engine 0, txn := .write Config.devAddr w.1 w.2 }, lock := false, lastDone := 0 }

/-- The bus with that write requested. -/
def asked (w : Byte × Byte) (lock : Bool) : Bus :=
  { reqq := [{ who := .engine 0, txn := .write Config.devAddr w.1 w.2 }], inflight := none, lock := lock, lastDone := 0 }

/-- The first byte write. -/
def firstByte : Byte × Byte := (chanBase 8#4, 0#8)

/-- The first pin's four byte writes are to come, and the first of them is requested or not. -/
def startJob (outstanding : Bool) : VecJob :=
  jobOf (pwmTask ready .pwma 255#8) (pinWrites 8#4 0#13 4080#13) firstPins.tail outstanding

theorem witness_TurnedAway_busy :
    ∃ s : State, s.inCommand 7#16 ∧ ((s.stepper 0).run.running = true ∨ (s.stepper 0).motion.pulsing = true) :=
  ⟨busyWith (betweenSteps [] (runOf 0#32 0#32 false)) [], ⟨0#64, 0, rfl⟩, .inl rfl⟩
theorem witness_StopRun_none : (configured []).inCommand 7#16 ∧ ((configured []).stepper 0).run.running = false :=
  ⟨configured_inCommand _, rfl⟩
theorem witness_StopRun_pulsing : ∃ s : State, s.inCommand 7#16 ∧ (s.stepper 0).run.running = true ∧
    (s.stepper 0).motion.pulsing = true :=
  ⟨busyWith (pulsing [] (runOf 1#32 0#32 false) (startJob true) (inFlight firstByte)) [], ⟨0#64, 0, rfl⟩, rfl, rfl⟩
/-- A run that has ended and waits with its report. -/
theorem witness_StopRun_held : ∃ s : State, s.inCommand 7#16 ∧ (s.stepper 0).run.running = true ∧ (s.stepper 0).held ≠ none :=
  ⟨busyWith ((betweenSteps [] (runOf 3#32 3#32 false)).modStp 0 (fun st => { st with held := some record })) [],
    ⟨0#64, 0, rfl⟩, rfl, Option.some_ne_none _⟩
theorem witness_StopRun_between : ∃ s : State, s.inCommand 7#16 ∧ (s.stepper 0).run.running = true ∧
    (s.stepper 0).motion.pulsing = false ∧ (s.stepper 0).held = none ∧ s.cmplq.length < Config.cmplqDepth :=
  ⟨busyWith (betweenSteps [] (runOf 2#32 2#32 false)) [], ⟨0#64, 0, rfl⟩, rfl, rfl, rfl, cmplqDepth_pos⟩

/-- The state after a background agent's turn. -/
theorem moves {b : Background} {s : State} {rest : List Agent} (h : s.env.turns = .background b :: rest) :
    ∃ t, Moves b s t := by
  refine ⟨State.background { s with env := { s.env with turns := rest } } b, rest, h, ?_⟩
  unfold step State.drawTurn
  rw [h]

theorem witness_TickRule_no_run : (∃ t, Moves (.tick 1) (betweenSteps [.background (.tick 1)] (runOf 0#32 0#32 false)) t) ∧
    ((betweenSteps [.background (.tick 1)] (runOf 0#32 0#32 false)).stepper 1).run.running = false := ⟨moves rfl, rfl⟩
theorem witness_TickRule_all_issued :
    (∃ t, Moves (.tick 0) (betweenSteps [.background (.tick 0)] (runOf 3#32 3#32 false)) t) ∧
    (runOf 3#32 3#32 false).issued = (runOf 3#32 3#32 false).runCount := ⟨moves rfl, rfl⟩
theorem witness_TickRule_stopping :
    (∃ t, Moves (.tick 0) (betweenSteps [.background (.tick 0)] (runOf 1#32 1#32 true)) t) ∧
    (runOf 1#32 1#32 true).stopReq = true := ⟨moves rfl, rfl⟩
/-- What the clauses of `TickRule` about an active run without a pending stop or a last step assume. -/
def ticking (s : State) (pulsing : Bool) : Prop :=
  (∃ t, Moves (.tick 0) s t) ∧ (s.stepper 0).run.running = true ∧ (s.stepper 0).run.runNB = true ∧ (s.stepper 0).held = none ∧
  (s.stepper 0).run.stopReq = false ∧ (s.stepper 0).run.issued ≠ (s.stepper 0).run.runCount ∧
  (s.stepper 0).motion.pulsing = pulsing

/-- V-L-P4 item 2: tick 1 finds the vector write in progress; and one more tick of a run with as many retries as `retried` holds. -/
theorem witness_TickRule_skip : ∀ n, n = 0#32 ∨ n = 0xFFFFFFFF#32 → ∃ s, ticking s true ∧ (s.stepper 0).motion.retried = n := by
  rintro n (rfl | rfl)
  · exact ⟨pulsing [.background (.tick 0)] (runOf 1#32 0#32 false) (startJob true) (inFlight firstByte),
      ⟨moves rfl, rfl, rfl, rfl, rfl, show (1#32 : W32) ≠ 3#32 by decide, rfl⟩, rfl⟩
  · exact ⟨(pulsing [.background (.tick 0)] (runOf 1#32 0#32 false) (startJob true) (inFlight firstByte)).modStp 0
      (fun st => { st with motion := { st.motion with retried := 0xFFFFFFFF#32 } }),
      ⟨moves rfl, rfl, rfl, rfl, rfl, show (1#32 : W32) ≠ 3#32 by decide, rfl⟩, rfl⟩
theorem witness_TickRule_issue : ∃ s, ticking s false ∧ (s.stepper 0).cfg.ready = some ready ∧
    pulsePeriod (s.stepper 0).cfg = some (1000 / 100) ∧
    changedTasks (s.stepper 0).cache (stepTasks ready 8#6) = pwmTask ready .pwma 255#8 :: firstPins.tail :=
  ⟨betweenSteps [.background (.tick 0)] (runOf 0#32 0#32 false),
    ⟨moves rfl, rfl, rfl, rfl, rfl, show (0#32 : W32) ≠ 3#32 by decide, rfl⟩, rfl, rfl, by decide⟩

/-- A run all of whose pins hold the next vector already. -/
def settled (done : W32) : State :=
  (betweenSteps [.background (.tick 0)] (runOf done done false)).modStp 0 (fun st => { st with
    cache := ⟨some 4080#13, some 0#13, some 1#13, some 4080#13, some 1#13, some 0#13⟩ })

theorem witness_TickRule_unchanged : ticking (settled 0#32) false ∧
    changedTasks ((settled 0#32).stepper 0).cache (stepTasks ready 8#6) = [] ∧ (0#32 : W32) + 1#32 ≠ 3#32 :=
  ⟨⟨moves rfl, rfl, rfl, rfl, rfl, show (0#32 : W32) ≠ 3#32 by decide, rfl⟩, by decide, by decide⟩
/-- The last step of a run, unchanged, with room in `cmplq` and without. -/
theorem witness_TickRule_ends : ∀ s, s = settled 2#32 ∨ s = full (settled 2#32) → ticking s false ∧
    (s.stepper 0).run.done + 1#32 = (s.stepper 0).run.runCount ∧
    changedTasks (s.stepper 0).cache (stepTasks ready 8#6) = [] := by
  rintro s (rfl | rfl) <;>
    exact ⟨⟨moves rfl, rfl, rfl, rfl, rfl, show (2#32 : W32) ≠ 3#32 by decide, rfl⟩, by decide, by decide⟩

/-- The bus completes the write in flight of run engine 0, with the answer `x`. -/
def completing (r : Run) (j : VecJob) (w : Byte × Byte) (x : Answer) : State :=
  { pulsing [] r j (inFlight w) with env := { State.reset.env with turns := [.background .bus], answers := [x] } }

/-- What every clause of `EngineCompletion` assumes. -/
theorem completing_meets (r : Run) (j : VecJob) (w : Byte × Byte) (x : Answer) :
    (∃ t, Moves .bus (completing r j w x) t) ∧
    (completing r j w x).bus.inflight = some { who := .engine 0, txn := .write Config.devAddr w.1 w.2 } ∧
    ((completing r j w x).stepper 0).job = some j ∧ (completing r j w x).cmplq.length < Config.cmplqDepth ∧
    (completing r j w x).answerAt 0 = x := ⟨moves rfl, rfl, rfl, cmplqDepth_pos, rfl⟩
/-- The same with `cmplq` full. -/
theorem completing_full_meets (r : Run) (j : VecJob) (w : Byte × Byte) (x : Answer) :
    (∃ t, Moves .bus (full (completing r j w x)) t) ∧
    (full (completing r j w x)).bus.inflight = some { who := .engine 0, txn := .write Config.devAddr w.1 w.2 } ∧
    ((full (completing r j w x)).stepper 0).job = some j ∧
    Config.cmplqDepth ≤ (full (completing r j w x)).cmplq.length ∧ (full (completing r j w x)).answerAt 0 = x :=
  ⟨moves rfl, rfl, rfl, full_cmplq _, rfl⟩

theorem witness_EngineCompletion_fails :
    ((completing (runOf 1#32 0#32 false) (startJob true) firstByte bad).answerAt 0).ok = false := rfl
theorem witness_EngineCompletion_more_bytes : ∃ w v more, (startJob true).left = w :: v :: more ∧
    ((completing (runOf 1#32 0#32 false) (startJob true) firstByte good).answerAt 0).ok = true := ⟨_, _, _, rfl, rfl⟩
theorem witness_EngineCompletion_more_pins : ∃ w y rest,
    (jobOf (pwmTask ready .pwma 255#8) [w] firstPins.tail true).left = [w] ∧
    changedTasks (emptyCache.set .pwma (some 4080#13)) firstPins.tail = y :: rest := ⟨firstByte, _, _, rfl, rfl⟩
theorem witness_EngineCompletion_step_done : changedTasks (emptyCache.set .b2 (some 0#13)) [] = [] ∧
    (runOf 1#32 0#32 false).done + 1#32 ≠ (runOf 1#32 0#32 false).runCount ∧ (runOf 1#32 0#32 false).stopReq = false := by
  decide
theorem witness_EngineCompletion_run_done : (runOf 3#32 2#32 false).done + 1#32 = (runOf 3#32 2#32 false).runCount ∧
    (runOf 1#32 0#32 true).stopReq = true := by decide

theorem witness_BusMaster_grant : ∃ s : State, (∃ t, Moves .bus s t) ∧ s.bus.inflight = none ∧
    s.bus.reqq = { who := .engine 0, txn := .write Config.devAddr firstByte.1 firstByte.2 } :: [] ∧ s.bus.lock = false :=
  ⟨pulsing [.background .bus] (runOf 1#32 0#32 false) (startJob true) (asked firstByte false), moves rfl, rfl, rfl, rfl⟩
theorem witness_BusMaster_locked : ∃ s : State, (∃ t, Moves .bus s t) ∧ s.bus.inflight = none ∧
    s.bus.reqq = { who := .engine 0, txn := .write Config.devAddr firstByte.1 firstByte.2 } :: [] ∧ s.bus.lock = true :=
  ⟨pulsing [.background .bus] (runOf 1#32 0#32 false) (startJob true) (asked firstByte true), moves rfl, rfl, rfl, rfl⟩
theorem witness_BusMaster_request (outstanding : Bool) : ∃ s : State, (∃ t, Moves (.engine 0) s t) ∧ (s.stepper 0).held = none ∧
    (s.stepper 0).job = some (startJob outstanding) ∧ ∃ w rest, (startJob outstanding).left = w :: rest :=
  ⟨pulsing [.background (.engine 0)] (runOf 1#32 0#32 false) (startJob outstanding) (inFlight firstByte), moves rfl, rfl, rfl,
    _, _, rfl⟩
theorem witness_BusMaster_in_flight : ∃ s q, (∃ t, Moves (.tick 0) s t) ∧ NotRst (.tick 0) s ∧ s.bus.inflight = some q :=
  ⟨pulsing [.background (.tick 0)] (runOf 1#32 0#32 false) (startJob true) (inFlight firstByte), _, moves rfl,
    (by intro h; cases h), rfl⟩

/-- A CP in a command while run engine 0 has asked for a write; nothing else of the other agents happens meanwhile. -/
def beside (bus : Bus) : State :=
  let s := busyWith (pulsing [] (runOf 1#32 0#32 false) (startJob true) bus) (List.replicate 5 good)
  { s with env := { s.env with bursts := List.replicate 64 [] } }

/-- A driver write of the CP behind the run engine's requested write. -/
theorem witness_BusMaster_fifo : (beside (asked firstByte false)).inCommand 7#16 ∧
    ¬ hasExclusiveSequence (.drvSetpin false 0#4 true) ∧ (beside (asked firstByte false)).bus.lock = false ∧
    (∀ q, q ∈ (beside (asked firstByte false)).bus.inflight.toList ++ (beside (asked firstByte false)).bus.reqq → q.who ≠ .cp) ∧
    ∃ t, exec (.drvSetpin false 0#4 true) (beside (asked firstByte false)) = .next t ∧
      t.cpTrace ≠ (beside (asked firstByte false)).cpTrace := by
  refine ⟨⟨0#64, 0, rfl⟩, (by rintro ⟨nb, h | h | ⟨rate, h | ⟨k, h⟩⟩⟩ <;> cases h), rfl, ?_, _, rfl, ?_⟩
  · intro q h
    cases h with
    | head => exact fun h => nomatch h
    | tail _ h => cases h
  · exact fun h => absurd (congrArg List.length h) (by decide)
theorem witness_CompletionQueue_engine : ∃ s : State, (s.stepper 0).held = some record ∧ (∃ t, Moves (.engine 0) s t) ∧
    s.cmplq.length < Config.cmplqDepth :=
  ⟨(betweenSteps [.background (.engine 0)] (runOf 3#32 3#32 false)).modStp 0 (fun st => { st with held := some record }), rfl,
    moves rfl, cmplqDepth_pos⟩
theorem witness_CompletionQueue_engine_waits : ∃ s : State, (s.stepper 0).held = some record ∧
    (∃ t, Moves (.engine 0) s t) ∧ Config.cmplqDepth ≤ s.cmplq.length :=
  ⟨full ((betweenSteps [.background (.engine 0)] (runOf 3#32 3#32 false)).modStp 0 (fun st => { st with held := some record })),
    rfl, moves rfl, full_cmplq _⟩

/-! #### The whole machine -/

/-- Stepper 1 after reset, and stepper 0 as given: every stepper is coherent. -/
theorem runInv_of {s : State} (h0 : RunLegal (s.stepper 0)) (h1 : s.stepper 1 = Stepper.reset) : RunInv s := by
  have hr : RunLegal Stepper.reset :=
    ⟨by decide, by decide, by decide, by decide, by decide, by decide, fun j h => by cases h⟩
  exact Fin.forall_fin_two.mpr ⟨h0, h1 ▸ hr⟩

theorem configured_runInv (l : List Answer) : RunInv (configured l) :=
  runInv_of (show RunLegal { Stepper.reset with cfg := config } from
    ⟨by decide, by decide, rfl, by decide, by decide, by decide, fun j h => by cases h⟩) rfl

/-- P4 after the first tick: the first byte write is in flight, and the bus master moves next. -/
def midRun : State := completing (runOf 1#32 0#32 false) (startJob true) firstByte good

theorem witness_RunInvKept : RunInv midRun ∧ ∃ t, step midRun = .next t := by
  refine ⟨runInv_of ⟨by decide, fun _ => rfl, rfl, fun _ => ⟨rfl, rfl, rfl⟩, fun h => (by cases h), fun _ h => (by cases h), ?_⟩ rfl,
    _, rfl⟩
  intro j h
  cases h
  decide
theorem witness_PhaseInvKept : PhaseInv midRun ∧ ∃ t, step midRun = .next t := by
  refine ⟨Fin.forall_fin_two.mpr ⟨fun m h => ?_, fun m h => ?_⟩, _, rfl⟩
  · cases h; decide
  · cases h
theorem witness_RatesInvKept : RatesInv midRun ∧ ∃ t, step midRun = .next t := by
  refine ⟨Fin.forall_fin_two.mpr ⟨?_, rfl⟩, _, rfl⟩
  show (some (100 : ℚ), some (100 : ℚ)) = (some (q16 0x1E0000#32 * ((200#16).toNat : ℚ) / 60),
    some (q16 0x1E0000#32 * ((200#16).toNat : ℚ) / 60 * ((1 * 1 : Nat) : ℚ)))
  norm_num [q16]
theorem midRun_queueInv : QueueInv midRun :=
  ⟨Nat.zero_le _, Nat.zero_le _, fun q h => by cases h⟩
theorem witness_QueueInvKept : QueueInv midRun ∧ ∃ t, step midRun = .next t := ⟨midRun_queueInv, _, rfl⟩
theorem witness_ConfigInvKept : QueueInv midRun ∧ ConfigInv midRun ∧ ∃ t, step midRun = .next t := by
  refine ⟨midRun_queueInv, ⟨Fin.forall_fin_two.mpr ⟨⟨?_, ?_, ?_, ?_, rfl, fun _ => rfl⟩, ⟨?_, ?_, ?_, ?_, rfl, ?_⟩⟩, ?_⟩, _, rfl⟩
  · intro p h; cases h; decide
  · intro p h; cases h; decide
  · intro p h; cases h; decide
  · intro p h; cases h; decide
  · intro p h; cases h
  · intro p h; cases h
  · intro p h; cases h
  · intro p h; cases h
  · intro h; cases h
  · refine Fin.forall_fin_two.mpr ⟨Fin.forall_fin_two.mpr ⟨fun h => absurd rfl h, ?_⟩,
      Fin.forall_fin_two.mpr ⟨?_, fun h => absurd rfl h⟩⟩
    · intro _ c _ h; cases h
    · intro _ c h _; cases h
theorem witness_ValuesInvKept : QueueInv midRun ∧ ValuesInv midRun ∧ ∃ t, step midRun = .next t := by
  refine ⟨midRun_queueInv, ⟨?_, ?_, ?_, ?_⟩, _, rfl⟩
  · intro c
    have h : midRun.img.onTick c = none ∧ midRun.img.offTick c = none := by revert c; decide
    rw [h.1, h.2]
    exact ⟨rfl, fun v h => (by cases h), fun v h => (by cases h)⟩
  · exact Fin.forall_fin_two.mpr ⟨fun r v h => (by cases r <;> cases h), fun r v h => (by cases r <;> cases h)⟩
  · exact Fin.forall_fin_two.mpr ⟨fun n h => (by cases h; decide), fun n h => (by cases h)⟩
  · refine Fin.forall_fin_two.mpr ⟨?_, fun j h => (by cases h)⟩
    intro j h
    cases h
    unfold TaskLegal cacheLegal
    decide
theorem midRun_cpInv : CpInv midRun :=
  ⟨.inl rfl, rfl, fun q h => (by cases h), fun q h => (by cases h; decide)⟩
theorem midRun_busInv : BusInv midRun :=
  Fin.forall_fin_two.mpr ⟨⟨firstByte, _, rfl, by rfl⟩, by rfl⟩
theorem witness_BusInvKept : CpInv midRun ∧ RunInv midRun ∧ BusInv midRun ∧ ∃ t, step midRun = .next t :=
  ⟨midRun_cpInv, witness_RunInvKept.1, midRun_busInv, _, rfl⟩
theorem witness_BackgroundRunProgram_step : RunInv midRun ∧ BusInv midRun ∧ CpInv midRun ∧
    (midRun.stepper 0).cfg.ready = some ready ∧ (midRun.stepper 0).run.running = true ∧ (midRun.stepper 0).held = none ∧
    ∃ t, step midRun = .next t ∧ (t.stepper 0).run.running = true ∧ (t.stepper 0).held = none :=
  ⟨witness_RunInvKept.1, midRun_busInv, midRun_cpInv, rfl, rfl, rfl, _, rfl, rfl, rfl⟩
theorem witness_BackgroundRunProgram_start : (configured []).inCommand 7#16 ∧ RunInv (configured []) ∧
    ((configured []).stepper 0).cfg.ready = some ready ∧ (3#32 : W32) ≠ 0#32 ∧
    execCheck (configured []) (.stpStep true 0 .fwd 3#32) = none ∧
    ∃ t, exec (.stpStep true 0 .fwd 3#32) (configured []) = .next t :=
  ⟨configured_inCommand _, configured_runInv _, rfl, by decide, rfl, _, rfl⟩
theorem witness_CommandProgram : (configured []).inCommand 7#16 ∧ RunInv (configured []) ∧
    execCheck (configured []) (.stpOnestep false 0 .fwd) = none := ⟨configured_inCommand _, configured_runInv _, rfl⟩
theorem witness_CommandProgram_check : execCheck (configured []) (.drvGetfreq true) = some .freqUnset := rfl
theorem witness_CommandProgram_bus_error : ∃ e, (play (configured [good, bad]).answerAt 0
    (program (configured [good, bad]) (configured [good, bad]).answerAt (.stpOnestep true 0 .fwd))).2 = some e := ⟨_, rfl⟩
theorem witness_CommandProgram_background : execCheck (configured []) (.stpStep true 0 .fwd 3#32) = none := rfl

/-- A CP in a command, with one host action to come after `n` of the points at which other agents move. -/
def hostWithin (n : Nat) (act : HostAct) (l : List Answer) : State :=
  { opened l with host := [act], env := { (opened l).env with bursts := List.replicate n [] ++ [[.host]] } }

/-- `HardwareReset`: `rst` falls before the first transaction of a command. -/
theorem witness_HardwareReset_inside : (hostWithin 0 .rst [good]).inCommand 7#16 ∧ (hostWithin 0 .rst [good]).host = .rst :: [] ∧
    (hostWithin 0 .rst [good]).env.bursts = [.host] :: [] ∧ execCheck (hostWithin 0 .rst [good]) (.drvReset true) = none ∧
    program (hostWithin 0 .rst [good]) (hostWithin 0 .rst [good]).answerAt (.drvReset true) ≠ [] :=
  ⟨⟨0#64, 0, rfl⟩, rfl, rfl, rfl, List.cons_ne_nil _ _⟩
/-- `rst` falls after the first byte of a pin write: the command has no response and leaves one write in the trace (R290). -/
theorem witness_TakenByRst : ∃ t, exec (.drvSetpin false 3#4 true) (hostWithin 6 .rst [good]) = .next t ∧
    TakenByRst (hostWithin 6 .rst [good]) t ∧ t.trace = [wrote (chanBase 3#4) 0#8] := by
  refine ⟨_, rfl, ⟨List.mem_singleton.mpr rfl, rfl, ?_, ⟨rfl, rfl, rfl⟩, ⟨rfl, rfl⟩, rfl, rfl, ⟨[], rfl, fun r h => by cases h⟩,
    ⟨[], rfl⟩, _, (List.append_nil _).symm⟩, rfl⟩
  exact Fin.forall_fin_two.mpr ⟨rfl, rfl⟩
/-- R120: the host submits a word while a command is in the CP, here a reserved one, and has its answer before the command's. -/
theorem test_submit_inside_a_command :
    (after (exec (.drvReset false) (hostWithin 3 (.submit 0x0800000000000000#64) [good]))).sync =
      [okRecord 7#16 2#8 .none, validationRecord 0#16 8#8 1#8] := by rfl
/-- R103: the result fields of a response that is not OK are 0. -/
theorem test_failed_onestep_reports_zero :
    answer (after (exec (.stpOnestep false 0 .fwd) (configured [bad]))) =
      some (busRecord 7#16 0x18#8 ⟨3#3, chanBase 8#4⟩ (.phase 0#6)) := by rfl

theorem witness_ExclusiveSequences : (opened []).inCommand 7#16 ∧ execCheck (opened []) (.drvInit false) = none ∧
    execCheck (opened []) (.drvReset true) = none ∧ execCheck (opened []) (.drvSetfreq false 1562500#32) = none ∧
    execCheck (opened []) (.stpSetfreq false 1 1562500#32) = none ∧ (opened []).bus.lock = false ∧
    (opened []).bus.inflight = none := ⟨⟨0#64, 0, rfl⟩, rfl, rfl, rfl, rfl, rfl, rfl⟩
/-- A frequency change while a run engine's write is in flight. -/
theorem witness_ExclusiveSequences_beside : (beside (inFlight firstByte)).inCommand 7#16 ∧
    execCheck (beside (inFlight firstByte)) (.drvSetfreq false 1562500#32) = none ∧
    (beside (inFlight firstByte)).bus.lock = false ∧
    ∀ q, (beside (inFlight firstByte)).bus.inflight = some q → q.who ≠ .cp :=
  ⟨⟨0#64, 0, rfl⟩, rfl, rfl, fun q h => by cases h; exact fun h => nomatch h⟩
theorem witness_ExclusiveSequences_locked : ∃ s : State, NotRst .host s ∧ s.bus.lock = true ∧ s.bus.inflight = none :=
  ⟨{ State.reset with bus := { State.reset.bus with lock := true }, host := [.pop] }, (by intro _ h; cases h), rfl, rfl⟩
theorem witness_WritersOfState : (opened (List.replicate 5 good)).inCommand 7#16 ∧
    ∃ t, exec (.drvSetfreq false 0x06400000#32) (opened (List.replicate 5 good)) = .next t ∧
      t.img.prescale ≠ (opened []).img.prescale := ⟨⟨0#64, 0, rfl⟩, _, rfl, Option.some_ne_none _⟩
theorem witness_CacheChanges_emptied : ∃ s t : State, s.inCommand 7#16 ∧ exec (.stpPins false 0 pins) s = .next t ∧
    (s.stepper 0).cache.get .pwma = some 0#13 ∧ (t.stepper 0).cache.get .pwma = none :=
  ⟨cached ⟨some 0#13, none, none, none, none, none⟩, _, ⟨0#64, 0, rfl⟩, rfl, rfl, rfl⟩
theorem witness_CacheChanges_written : (configured (List.replicate 24 good)).inCommand 7#16 ∧
    ∃ t, exec (.stpOnestep false 0 .fwd) (configured (List.replicate 24 good)) = .next t ∧
      ((configured []).stepper 0).run.running = false ∧ ((configured []).stepper 0).job = none ∧
      ((configured []).stepper 0).held = none ∧ (t.stepper 0).cache ≠ emptyCache := by
  refine ⟨configured_inCommand _, _, rfl, rfl, rfl, rfl, ?_⟩
  show (⟨some 4080#13, some 0#13, some 1#13, some 4080#13, some 1#13, some 0#13⟩ : RoleMap (Option Tick)) ≠ emptyCache
  decide
/-- V-L8: a blocking write of a channel of an active background run sets the sticky flag. -/
theorem witness_MixedModeFlag : (beside (inFlight firstByte)).inCommand 7#16 ∧
    ∃ t, exec (.drvSetchan false 8#4 0#13 0#13) (beside (inFlight firstByte)) = .next t ∧ t.mixedMode = true :=
  ⟨⟨0#64, 0, rfl⟩, _, rfl, rfl⟩

end Sys2Proof.Tests
end

section
/-! SUPPORT (10_state.md). What the motion of one stepper may change, said once (`MotionMove`), whether its run engine carries it
out or the CP: a move of its own state that leaves configuration and cache, or a confirmed pin of a vector it owes; the queues keep their bounds (R37). Every step
of a run engine, a pacing timer and the bus master is made of such moves (`background_moves`). -/

namespace Sys2Proof.Machine

open Sys2Proof

/-! ### One stepper changed -/

/-- A confirmed pin changes the cache of its stepper alone. -/
@[simp] theorem pinWritten_stepper_self (s : State) (i : StepperId) (t : PinTask) :
    (s.pinWritten i t).stepper i =
      { s.stepper i with cache := (s.stepper i).cache.set t.role (some t.value) } := by
  unfold State.pinWritten
  rw [stepper_modStp_self]
  rfl

theorem pinWritten_stepper_of_ne (s : State) {i j : StepperId} (t : PinTask) (h : j ≠ i) :
    (s.pinWritten i t).stepper j = s.stepper j := by
  unfold State.pinWritten
  rw [stepper_modStp_of_ne _ _ h]
  rfl

/-- What the end of a run leaves of its stepper (R215, R258): the run is over; or its report is held, and `running` stays. -/
theorem endRun_stepper (s : State) (i : StepperId) (e : Option BusError) (b : Bool) :
    (s.endRun i e b).stepper i = { s.stepper i with run := (s.stepper i).run.ended } ∨
    ∃ r, (s.endRun i e b).stepper i =
      { s.stepper i with run := { (s.stepper i).run with stopReq := false }, held := some r } := by
  have hd : (s.report i b).2.stepper i = s.stepper i := stepper_of_stp (by simp) i
  unfold State.endRun
  dsimp only
  split
  · left
    rw [stepper_modStp_self]
    exact congrArg (fun st : Stepper => { st with run := st.run.ended }) hd
  · right
    exact ⟨_, by rw [stepper_modStp_self, hd]⟩

@[simp] theorem endRun_img (s : State) (i : StepperId) (e : Option BusError) (b : Bool) : (s.endRun i e b).img = s.img := by
  unfold State.endRun; dsimp only; split <;> simp

/-! ### The queues (R37, R258) -/

/-- The queues' invariant reads the queues alone. -/
theorem QueueInv.of_queues {u v : State} (h : QueueInv u) (hc : v.cmdq = u.cmdq) (hl : v.cmplq = u.cmplq) : QueueInv v :=
  ⟨by rw [hc]; exact h.cmdq, by rw [hl]; exact h.cmplq, by rw [hc]; exact h.accepted⟩

/-- A record joins `cmplq` while there is room. -/
theorem QueueInv.append {u v : State} {r : Response} (h : QueueInv u) (hroom : u.cmplRoom = true) (hc : v.cmdq = u.cmdq)
    (hl : v.cmplq = u.cmplq ++ [r]) : QueueInv v := by
  have hlt : u.cmplq.length < Config.cmplqDepth := by simpa [State.cmplRoom] using hroom
  exact ⟨by rw [hc]; exact h.cmdq, by rw [hl, List.length_append]; exact hlt, by rw [hc]; exact h.accepted⟩

theorem endRun_queueInv {s : State} (i : StepperId) (e : Option BusError) (b : Bool) (h : QueueInv s) :
    QueueInv (s.endRun i e b) := by
  have hd : QueueInv (s.report i b).2 := h.of_queues (by simp) (by simp)
  unfold State.endRun
  dsimp only
  split
  · rename_i hroom
    exact hd.append hroom rfl rfl
  · exact hd.of_queues rfl rfl

theorem hostTurn_queueInv {s : State} (h : QueueInv s) : QueueInv s.hostTurn := by
  rcases hostTurn_cases s with e | ⟨w, rest, q, l, v, _, _, e, _, hq, hlen⟩ | ⟨r, rest, more, _, hc, e⟩ | ⟨rest, _, e⟩ <;>
    rw [e]
  · exact h
  · refine ⟨?_, h.cmplq, fun x hx => (List.mem_append.1 hx).elim (h.accepted x) (hq x)⟩
    rcases hlen with rfl | ⟨h1, hlt⟩
    · simpa using h.cmdq
    · rw [List.length_append, h1]
      exact hlt
  · have := h.cmplq
    rw [hc, List.length_cons] at this
    exact ⟨h.cmdq, Nat.le_of_succ_le this, h.accepted⟩
  · exact ⟨Nat.zero_le _, Nat.zero_le _, fun x hx => nomatch hx⟩

/-! ### Moves -/

/-- A pin write that a stepper may still make: of a vector of its configuration, or of its vector write in progress. -/
def Owed (st : Stepper) (t : PinTask) : Prop :=
  (∃ r v, st.cfg.ready = some r ∧ t ∈ vectorTasks r v) ∨ ∃ j, st.job = some j ∧ t ∈ j.task :: j.rest

/-- A stepper's own state moves from `st` to `st'`: configuration and cache stay, the phase stays or advances (R201), and a vector
write in progress is of pins that were owed. -/
structure Works (st st' : Stepper) : Prop where
  cfg : st'.cfg = st.cfg
  cache : st'.cache = st.cache
  phase : st'.motion.phase = st.motion.phase ∨
    ∃ r d, st.cfg.ready = some r ∧ st'.motion.phase = advance st.motion.phase d r.style r.ms
  job : ∀ j, st'.job = some j → ∀ t, t ∈ j.task :: j.rest → Owed st t

/-- A move that leaves the vector write as it is. -/
theorem Works.of_job {st st' : Stepper} (hc : st'.cfg = st.cfg) (hm : st'.cache = st.cache)
    (hp : st'.motion.phase = st.motion.phase) (hj : st'.job = st.job) : Works st st' :=
  ⟨hc, hm, .inl hp, fun j h _ ht => .inr ⟨j, by rw [← hj, h], ht⟩⟩

/-- A move that ends the vector write. -/
theorem Works.of_no_job {st st' : Stepper} (hc : st'.cfg = st.cfg) (hm : st'.cache = st.cache)
    (hp : st'.motion.phase = st.motion.phase) (hj : st'.job = none) : Works st st' :=
  ⟨hc, hm, .inl hp, fun j h => by rw [hj] at h; cases h⟩

/-- One move of the motion of stepper `k`, as image, steppers and queues show it. -/
inductive MotionMove (k : StepperId) (u v : State) : Prop
  | work (img : v.img = u.img) (others : ∀ j, j ≠ k → v.stepper j = u.stepper j) (own : Works (u.stepper k) (v.stepper k))
    (queues : QueueInv u → QueueInv v)
  | pin (t : PinTask) (owed : Owed (u.stepper k) t) (eq : v = u.pinWritten k t)

/-- Moves of the motion of stepper `k`, one after another. -/
abbrev MotionMoves (k : StepperId) : State → State → Prop := Relation.ReflTransGen (MotionMove k)

/-- A step that image and steppers do not show. -/
theorem MotionMove.of_same {k : StepperId} {u v : State} (hi : v.img = u.img) (hs : v.stp = u.stp)
    (hq : QueueInv u → QueueInv v) : MotionMove k u v :=
  .work hi (fun j _ => stepper_of_stp hs j) (by rw [stepper_of_stp hs k]; exact .of_job rfl rfl rfl rfl) hq

theorem MotionMove.of_modStp {k : StepperId} {u : State} {f : Stepper → Stepper} (h : Works (u.stepper k) (f (u.stepper k))) :
    MotionMove k u (u.modStp k f) :=
  .work rfl (fun _ hj => stepper_modStp_of_ne u f hj) (by rw [stepper_modStp_self]; exact h) (fun hq => hq.of_queues rfl rfl)

/-- The motion of one stepper leaves the others. -/
theorem MotionMove.others {k : StepperId} {u v : State} (h : MotionMove k u v) {j : StepperId} (hj : j ≠ k) :
    v.stepper j = u.stepper j := by
  cases h with
  | work _ others _ _ => exact others j hj
  | pin t _ eq => rw [eq, pinWritten_stepper_of_ne _ _ hj]

/-- No motion changes a configuration. -/
theorem MotionMove.cfg {k : StepperId} {u v : State} (h : MotionMove k u v) (j : StepperId) :
    (v.stepper j).cfg = (u.stepper j).cfg := by
  by_cases e : j = k
  · subst e
    cases h with
    | work _ _ own _ => exact own.cfg
    | pin t _ eq => rw [eq, pinWritten_stepper_self]
  · rw [h.others e]

/-- No motion changes the driver's flags or the prescale. -/
theorem MotionMove.flags {k : StepperId} {u v : State} (h : MotionMove k u v) :
    v.img.prescale = u.img.prescale ∧ v.img.busOpen = u.img.busOpen ∧ v.img.initialised = u.img.initialised := by
  cases h with
  | work img _ _ _ => rw [img]; exact ⟨rfl, rfl, rfl⟩
  | pin t _ eq => rw [eq]; exact ⟨rfl, rfl, rfl⟩

theorem endRun_move (k : StepperId) (s : State) (e : Option BusError) (b : Bool) : MotionMove k s (s.endRun k e b) := by
  refine .work (by simp) (endRun_kept k s e b).others ?_ (endRun_queueInv k e b)
  rcases endRun_stepper s k e b with h | ⟨r, h⟩ <;> rw [h] <;> exact .of_job rfl rfl rfl rfl

theorem deliverRun_moves (k : StepperId) (s : State) : MotionMoves k s (s.deliverRun k) := by
  unfold State.deliverRun
  split
  · exact .refl
  · split
    · rename_i hroom
      exact .head (.of_same (v := { s with cmplq := s.cmplq ++ [_] }) rfl rfl fun hq => hq.append hroom rfl rfl)
        (.single (.of_modStp (.of_job rfl rfl rfl rfl)))
    · exact .refl

theorem vectorDone_moves (k : StepperId) (s : State) (e : Option BusError) : MotionMoves k s (s.vectorDone k e) := by
  have h1 : MotionMoves k s (s.modStp k
      (fun st => { st with motion := { st.motion with pulsing := false }, job := none })) :=
    .single (.of_modStp (.of_no_job rfl rfl rfl rfl))
  unfold State.vectorDone
  cases e with
  | some info => exact h1.tail (endRun_move k _ _ _)
  | none =>
    dsimp only
    have h2 := h1.tail (.of_modStp (k := k) (f := fun st => { st with run := { st.run with done := st.run.done + 1#32 } })
      (.of_job rfl rfl rfl rfl))
    split
    · exact h2.tail (endRun_move k _ _ _)
    · split
      · exact h2.tail (endRun_move k _ _ _)
      · exact h2

/-- The first changed pin and those after it are pins of the vector. -/
theorem firstChanged_sublist {cache : RoleMap (Option Tick)} {tasks rest : List PinTask} {t : PinTask}
    (h : firstChanged cache tasks = some (t, rest)) : (t :: rest).Sublist tasks := by
  induction tasks with
  | nil => cases h
  | cons a l ih =>
    unfold firstChanged at h
    split at h
    · exact (ih h).cons a
    · cases h; exact List.Sublist.refl _

theorem nextPin_moves (k : StepperId) (s : State) {tasks : List PinTask} (h : ∀ t, t ∈ tasks → Owed (s.stepper k) t) :
    MotionMoves k s (s.nextPin k tasks) := by
  unfold State.nextPin
  split
  · exact vectorDone_moves k s none
  · rename_i t rest hf
    refine .single (.of_modStp ⟨rfl, rfl, .inl rfl, fun j hj x hx => ?_⟩)
    cases hj
    exact h x ((firstChanged_sublist hf).subset hx)

theorem engineIssue_moves (k : StepperId) (s : State) : MotionMoves k s (s.engineIssue k) := by
  unfold State.engineIssue
  split
  · exact .refl
  · rename_i j hj
    split
    · exact .refl
    · split
      · exact .refl
      · refine .head (.of_modStp (f := fun st => { st with job := some { j with outstanding := true } })
          ⟨rfl, rfl, .inl rfl, fun j' hj' x hx => ?_⟩) (.single (.of_same rfl rfl fun hq => hq.of_queues rfl rfl))
        cases hj'
        exact .inr ⟨j, hj, hx⟩

theorem engineReply_moves (k : StepperId) (s : State) (t : Txn) (ok : Bool) : MotionMoves k s (s.engineReply k t ok) := by
  unfold State.engineReply
  split
  · exact .refl
  · rename_i j hj
    split
    · exact vectorDone_moves k s _
    · split
      · refine .trans (.single (.pin j.task (.inr ⟨j, hj, by simp⟩) rfl)) (nextPin_moves k _ fun x hx => ?_)
        exact .inr ⟨j, by simp [hj], List.mem_cons_of_mem _ hx⟩
      · refine .single (.of_modStp ⟨rfl, rfl, .inl rfl, fun j' hj' x hx => ?_⟩)
        cases hj'
        exact .inr ⟨j, hj, hx⟩

theorem startPulse_moves (k : StepperId) (s : State) (r : Ready) (hr : (s.stepper k).cfg.ready = some r) :
    MotionMoves k s (s.startPulse k r) := by
  unfold State.startPulse
  refine .trans (.single (.of_modStp ⟨rfl, rfl, .inr ⟨r, _, hr, rfl⟩, fun j hj x hx => .inr ⟨j, hj, hx⟩⟩))
    (nextPin_moves k _ fun t ht => .inl ⟨r, _, by rw [stepper_modStp_self]; exact hr, ht⟩)

theorem onTick_moves (k : StepperId) (s : State) : MotionMoves k s (s.onTick k) := by
  unfold State.onTick
  dsimp only
  split
  · exact .refl
  · have h : MotionMoves k s ((s.passUntil ((s.stepper k).run.t0 + ((s.stepper k).run.k.toNat : ℚ) *
        runPeriod (s.stepper k).cfg)).modStp k (fun st => { st with run := { st.run with k := st.run.k + 1#32 } })) :=
      .head (.of_same (v := s.passUntil _) rfl rfl fun hq => hq.of_queues rfl rfl)
        (.single (.of_modStp (.of_job rfl rfl rfl rfl)))
    split
    · exact h
    · split
      · exact h
      · split
        · exact h.tail (.of_modStp (.of_job rfl rfl rfl rfl))
        · split
          · exact h
          · rename_i r hr
            exact h.trans (startPulse_moves k _ r (by rw [stepper_modStp_self]; exact hr))

/-- Every step of a timer, a run engine, the bus master or the host, but for `rst`, is moves of the motion of one stepper. -/
theorem background_moves (s : State) (b : Background) (hn : NotRst b s) : ∃ k, MotionMoves k s (s.background b) := by
  cases b with
  | tick k => exact ⟨k, onTick_moves k s⟩
  | engine k =>
    refine ⟨k, ?_⟩
    simp only [State.background]
    split
    · exact deliverRun_moves k s
    · exact engineIssue_moves k s
  | bus =>
    simp only [State.background, State.busStep]
    split
    · split
      · exact ⟨0, .refl⟩
      · rename_i q _ _ k _
        have hdone : MotionMove k s (s.drawAnswer.2.completeTxn (.engine k) q.txn s.drawAnswer.1) :=
          .of_same (by simp) (by simp) fun hq => hq.of_queues (by simp) (by simp)
        exact ⟨k, .head hdone (engineReply_moves k _ _ _)⟩
    · split
      · exact ⟨0, .refl⟩
      · split
        · exact ⟨0, .refl⟩
        · split
          · exact ⟨0, .refl⟩
          · exact ⟨0, .single (.of_same rfl rfl fun hq => hq.of_queues rfl rfl)⟩
  | host =>
    obtain ⟨hs, hi, _⟩ := hostTurn_stp s (hn rfl)
    exact ⟨0, .single (.of_same hi hs hostTurn_queueInv)⟩

/-- What every move keeps, every sequence of moves keeps. -/
theorem MotionMoves.keeps {P : State → Prop} {k : StepperId} (hm : ∀ u v, MotionMove k u v → P u → P v) {s t : State}
    (h : MotionMoves k s t) (hp : P s) : P t := by
  induction h with
  | refl => exact hp
  | tail _ m ih => exact hm _ _ m ih

end Sys2Proof.Machine
end

section
/-! SUPPORT (10_state.md). The sequences of the commands with `rst` possible at every point, said once for any property that the
other agents keep: each lemma asks only that the property survives the CP's own writes, at the points where they are made. -/

namespace Sys2Proof.Machine

open Sys2Proof

/-! ### The CP's own writes, as far as `SeqKept` sees them -/

theorem img_seqKept (s : State) (m : Image) : SeqKept s { s with img := m } :=
  seqKept_of_fields rfl rfl rfl rfl rfl rfl rfl rfl rfl rfl Iff.rfl ⟨[], rfl⟩

/-- A change of one stepper that leaves its configuration and the identity of its run. -/
theorem modStp_seqKept (s : State) (k : StepperId) {f : Stepper → Stepper} (hc : (f (s.stepper k)).cfg = (s.stepper k).cfg)
    (hn : (f (s.stepper k)).run.runNB = (s.stepper k).run.runNB) (hd : (f (s.stepper k)).run.runDir = (s.stepper k).run.runDir)
    (hm : (f (s.stepper k)).run.runCount = (s.stepper k).run.runCount)
    (ht : (f (s.stepper k)).run.runTicket = (s.stepper k).run.runTicket) : SeqKept s (s.modStp k f) :=
  (engineKept_modStp s k f hc hn hd hm ht).toKept.toSeq

theorem pinWritten_seqKept (s : State) (k : StepperId) (t : PinTask) : SeqKept s (s.pinWritten k t) :=
  (pinWritten_kept k s t).toKept.toSeq

theorem setPulsing_seqKept (s : State) (k : StepperId) (v : Bool) : SeqKept s (s.setPulsing k v) :=
  modStp_seqKept s k rfl rfl rfl rfl rfl

theorem forget_seqKept (s : State) : SeqKept s
    (({ s with img := s.img.forget } : State).mapStp (fun st => { st with cache := emptyCache })) where
  cfg _ := by rw [stepper_mapStp]; rfl
  runNB _ := by rw [stepper_mapStp]; rfl
  runDir _ := by rw [stepper_mapStp]; rfl
  runCount _ := by rw [stepper_mapStp]; rfl
  runTicket _ := by rw [stepper_mapStp]; rfl
  cpHeld := rfl
  lock := rfl
  mixedMode := rfl
  turns := rfl
  ticket := rfl
  idle := Iff.rfl
  trace := ⟨[], rfl⟩
  waiting _ := rfl
  sync := ⟨[], by simp⟩
  popped := ⟨[], rfl⟩
  host := ⟨[], rfl⟩

/-- The configuration a command has read stays readable while the CP holds the command. -/
theorem SeqKept.ready {s u : State} {k : StepperId} {r : Ready} (h : SeqKept s u) (hr : (s.stepper k).cfg.ready = some r) :
    (u.stepper k).cfg.ready = some r := by rw [h.cfg k]; exact hr

/-! ### Register writes -/

section

variable {s u : State} {P : State → Prop} (k : OthersKeep s P) (hc : s.cp ≠ .idle) (h : SeqKept s u) (hp : P u)

include k hc h hp

theorem pinWrite_since (c : Chan) (on off : Tick)
    (hw : ∀ v : State, P v → P { v with img := v.img.setChannel c on off }) : SeqSince s P (pinWrite c on off u) :=
  (writeAll_since _ k hc h hp).seq fun v hv hpv => .done (hv.trans (img_seqKept v _)) (hw v hpv)

theorem allWrite_since (on off : Tick)
    (hw : ∀ v : State, P v → P { v with img := v.img.setAllChannels on off }) : SeqSince s P (allWrite on off u) :=
  (writeAll_since _ k hc h hp).seq fun v hv hpv => .done (hv.trans (img_seqKept v _)) (hw v hpv)

theorem freqSequence_since (p : Byte)
    (hw : ∀ v : State, P v → P { v with img := { v.img with prescale := some p } }) : SeqSince s P (freqSequence p u) :=
  memRead_since _ k hc h hp fun _ _ h1 p1 =>
  (transactSeq_since _ k hc h1 p1).seq fun _ h2 p2 =>
  (transactSeq_since _ k hc h2 p2).seq fun v h3 p3 =>
  (transactSeq_since _ k hc (h3.trans (img_seqKept v _)) (hw v p3)).seq fun _ h4 p4 =>
  (settle_since _ k hc h4 p4).seq fun _ h5 p5 => transactSeq_since _ k hc h5 p5

theorem initSequence_since (ho : ∀ v : State, P v → P { v with img := { v.img with busOpen := true } })
    (ha : ∀ v : State, P v → P { v with img := v.img.setAllChannels 0#13 0#13 })
    (hi : ∀ v : State, P v → P { v with img := { v.img with initialised := true } }) : SeqSince s P (initSequence u) :=
  (transactSeq_since _ k hc h hp).seq fun v h1 p1 =>
  (allWrite_since k hc (h1.trans (img_seqKept v _)) (ho v p1) _ _ ha).seq fun _ h2 p2 =>
  (transactSeq_since _ k hc h2 p2).seq fun _ h3 p3 =>
  (transactSeq_since _ k hc h3 p3).seq fun _ h4 p4 =>
  (settle_since _ k hc h4 p4).seq fun _ h5 p5 =>
  memRead_since _ k hc h5 p5 fun _ _ h6 p6 =>
  (transactSeq_since _ k hc h6 p6).seq fun _ h7 p7 =>
  (settle_since _ k hc h7 p7).seq fun w h8 p8 => .done (h8.trans (img_seqKept w _)) (hi w p8)

theorem resetSequence_since (hw : ∀ v : State, P v →
    P (({ v with img := v.img.forget } : State).mapStp (fun st => { st with cache := emptyCache }))) :
    SeqSince s P (resetSequence u) :=
  (transactSeq_since _ k hc h hp).seq fun v hv hpv => .done (hv.trans (forget_seqKept v)) (hw v hpv)

end

/-! ### Vector writes -/

/-- The pins of a vector in order, where `P` survives each confirmed one. -/
theorem lazyPins_since {s : State} {P : State → Prop} {i : StepperId} (tasks : List PinTask) (k : OthersKeep s P)
    (hc : s.cp ≠ .idle) (hw : ∀ t, t ∈ tasks → ∀ v, SeqKept s v → P v → P (v.pinWritten i t)) {u : State}
    (h : SeqKept s u) (hp : P u) : SeqSince s P (lazyPins i tasks u) := by
  induction tasks generalizing u with
  | nil => exact .done h hp
  | cons t rest ih =>
    have h1 : SeqSince s P (lazyPin i t u) := by
      unfold lazyPin
      split
      · exact .done h hp
      · exact (writeAll_since _ k hc h hp).seq fun v hv hpv =>
          .done (hv.trans (pinWritten_seqKept v i t)) (hw t (by simp) v hv hpv)
    exact h1.seq fun v hv hpv => ih (fun x hx => hw x (List.mem_cons_of_mem _ hx)) hv hpv

/-- After `rst` no vector write is in progress, so that clearing `pulsing` changes nothing. -/
theorem TakenByRst.setPulsing {s t : State} (h : TakenByRst s t) (k : StepperId) : TakenByRst s (t.setPulsing k false) := by
  refine ⟨h.1, { h.2 with stp := fun i => ?_ }⟩
  have e : (t.setPulsing k false).stepper i = t.stepper i := by
    unfold State.setPulsing
    by_cases hi : i = k
    · subst hi
      rw [stepper_modStp_self, h.2.stp i]
      rfl
    · exact stepper_modStp_of_ne _ _ hi
  rw [e]
  exact h.2.stp i

/-- A vector write of the CP: `P` holds while it is in progress, `Q` once `pulsing` has fallen. -/
theorem vectorWrite_since {s u : State} {P Q : State → Prop} {i : StepperId} {tasks : List PinTask} (k : OthersKeep s P)
    (hc : s.cp ≠ .idle) (h : SeqKept s u) (hp : P (u.setPulsing i true))
    (hw : ∀ t, t ∈ tasks → ∀ v, SeqKept s v → P v → P (v.pinWritten i t))
    (hq : ∀ v, SeqKept s v → P v → Q (v.setPulsing i false)) : SeqSince s Q (vectorWrite i tasks u) := by
  have hs := lazyPins_since tasks k hc hw (h.trans (setPulsing_seqKept u i true)) hp
  refine ⟨fun hr => ?_, fun hr => (hs.2 hr).setPulsing i⟩
  obtain ⟨hk, hpv⟩ := hs.1 hr
  exact ⟨hk.trans (setPulsing_seqKept _ i false), hq _ hk hpv⟩

/-- The counter `issued` of stepper `k` goes up: the run starts one more step. -/
def State.countIssued (s : State) (k : StepperId) : State :=
  s.modStp k (fun st => { st with run := { st.run with issued := st.run.issued + 1#32 } })

/-- The counter `done` of stepper `k` goes up: a vector write of the run has completed. -/
def State.countDone (s : State) (k : StepperId) : State :=
  s.modStp k (fun st => { st with run := { st.run with done := st.run.done + 1#32 } })

theorem blockingSteps_succ (k : StepperId) (r : Ready) (n : ℕ) (s : State) : blockingSteps k r (n + 1) s =
    thenSeq (stepOnce k ((s.countIssued k).stepper k).run.runDir r (s.countIssued k)) (fun u =>
      thenSeq (if n = 0 then (u.countDone k, none) else
        (u.countDone k).waitPeriod (runPeriod ((u.countDone k).stepper k).cfg)) (blockingSteps k r n)) := rfl

/-- One part after another, where what holds changes from one to the next. -/
theorem SeqSince.seq_mono {s : State} {P Q : State → Prop} {r : SeqEnd} {f : State → SeqEnd} (h : SeqSince s P r)
    (hq : ∀ u, SeqKept s u → P u → Q u) (hf : ∀ u, SeqKept s u → P u → SeqSince s Q (f u)) :
    SeqSince s Q (thenSeq r f) := by
  by_cases e : r.2 = none
  · rw [thenSeq_none e]
    obtain ⟨hk, hp⟩ := h.1 (by rw [e]; simp)
    exact hf _ hk hp
  · rw [thenSeq_some e]
    exact h.mono hq

/-- The loop of a blocking run: `B n` holds between two steps with `n` to go, `M n` after the vector write of a step with `n` more
to go, and `Q` wherever the loop may end. -/
theorem blockingSteps_since {s : State} {B M : ℕ → State → Prop} {Q : State → Prop} {k : StepperId} {r : Ready}
    (hc : s.cp ≠ .idle) (hkeep : ∀ n, OthersKeep s (B n))
    (hstep : ∀ n u, SeqKept s u → B (n + 1) u →
      SeqSince s (M n) (stepOnce k ((u.countIssued k).stepper k).run.runDir r (u.countIssued k)))
    (hdone : ∀ n u, M n u → B n (u.countDone k)) (hM : ∀ n u, M n u → Q u) (hB : ∀ n u, B n u → Q u) :
    ∀ (n : ℕ) {u : State}, SeqKept s u → B n u → SeqSince s Q (blockingSteps k r n u) := by
  intro n
  induction n with
  | zero => exact fun h hb => .done h (hB 0 _ hb)
  | succ n ih =>
    intro u h hb
    rw [blockingSteps_succ]
    refine (hstep n u h hb).seq_mono (fun v _ => hM n v) fun v hv hm => ?_
    have hk := hv.trans (modStp_seqKept v k rfl rfl rfl rfl rfl : SeqKept v (v.countDone k))
    have hwait : SeqSince s (B n) (if n = 0 then (v.countDone k, none) else
        (v.countDone k).waitPeriod (runPeriod ((v.countDone k).stepper k).cfg)) := by
      split
      · exact .done hk (hdone n v hm)
      · exact waitPeriod_since _ (hkeep n) hc hk (hdone n v hm)
    exact hwait.seq_mono (fun w _ => hB n w) fun w hw hbw => ih hw hbw

/-! ### Exclusive sequences -/

/-- What holds where a command's sequence ends: `P`; or, where `rst` has cut it off, that the command is discarded. -/
def EndsWith (s : State) (P : State → Prop) (r : SeqEnd) : Prop :=
  (r.2 ≠ some .rst → P r.1) ∧ (r.2 = some .rst → TakenByRst s r.1)

theorem SeqSince.endsWith {s : State} {P : State → Prop} {r : SeqEnd} (h : SeqSince s P r) : EndsWith s P r :=
  ⟨fun hr => (h.1 hr).2, h.2⟩

/-- A command taken since a state that the outside cannot tell from `s`. -/
theorem TakenByRst.of_same {s u t : State} (h : TakenByRst u t) (hh : u.host = s.host) (hs : u.sync = s.sync)
    (hp : u.popped = s.popped) (ht : u.trace = s.trace) : TakenByRst s t :=
  ⟨hh ▸ h.1, { h.2 with sync := hs ▸ h.2.sync, popped := hp ▸ h.2.popped, trace := ht ▸ h.2.trace }⟩

theorem EndsWith.of_same {s u : State} {P : State → Prop} {r : SeqEnd} (h : EndsWith u P r) (hh : u.host = s.host)
    (hs : u.sync = s.sync) (hp : u.popped = s.popped) (ht : u.trace = s.trace) : EndsWith s P r :=
  ⟨h.1, fun hr => (h.2 hr).of_same hh hs hp ht⟩

/-- `rst` has released the lock, so that releasing it again changes nothing. -/
theorem TakenByRst.unlock {s t : State} (h : TakenByRst s t) : TakenByRst s (t.setLock false) :=
  ⟨h.1, { h.2 with bus := ⟨h.2.bus.1, h.2.bus.2.1, rfl⟩ }⟩

/-- A sequence under the lock (R69): the others move and the transaction in flight completes before the lock is taken. -/
theorem exclusive_ends {s : State} {P : State → Prop} {f : State → SeqEnd} (k : ∀ c, OthersKeep c P)
    (hl : ∀ u v, P u → P (u.setLock v)) (hc : s.cp ≠ .idle) (hp : P s)
    (hf : ∀ u, u.cp ≠ .idle → P u → SeqSince u P (f u)) : EndsWith s P (exclusive f s) := by
  have hy := yield_since (k s) hc (.refl s) hp
  unfold exclusive State.acquire
  by_cases e : s.yield.2 = none
  · obtain ⟨hk, hpu⟩ := hy.1 (by rw [e]; simp)
    have hlocked : P (s.yield.1.completeInflight.setLock true) := by
      refine hl _ _ ?_
      unfold State.completeInflight
      split
      · exact (k s).background _ .bus hk hpu (fun hb => by cases hb)
      · exact hpu
    have hcp : (s.yield.1.completeInflight.setLock true).cp ≠ .idle := by
      simpa [(completeInflight_kept s.yield.1).cp, hk.idle] using hc
    have hr := hf _ hcp hlocked
    rw [thenSeq_none e, thenSeq_none rfl]
    refine ⟨fun hne => hl _ _ (hr.1 hne).2, fun he => ?_⟩
    exact (hk.trans (completeInflight_kept _).toSeq).taken ((hr.2 he).of_same rfl rfl rfl rfl) |>.unlock
  · have hcut : (thenSeq s.yield (fun u => (u.completeInflight.setLock true, none))).2 ≠ none := by
      rw [thenSeq_some e]; exact e
    rw [thenSeq_some hcut, thenSeq_some e]
    exact hy.endsWith

/-- How a command with a sequence ends (R14, R290). -/
theorem finish_ends {s : State} {P : State → Prop} {r : SeqEnd} (h : EndsWith s P r)
    (hresp : ∀ u i e, P u → P (State.endCommand u i e)) (i : Instr) (res : Result) :
    P (r.1.finish i res r.2) ∨ TakenByRst s (r.1.finish i res r.2) := by
  obtain ⟨u, c⟩ := r
  rcases c with _ | (e | _)
  · exact .inl (hresp _ _ _ (h.1 (by simp)))
  · exact .inl (hresp _ _ _ (h.1 (by simp)))
  · exact .inr (h.2 rfl)

/-- A command with a sequence, from its checks to its end. -/
theorem runSequence_ends {s : State} {P : State → Prop} {i : Instr} {check : Option Reason} {f : State → SeqEnd} (hp : P s)
    (hresp : ∀ u i e, P u → P (State.endCommand u i e)) (hf : EndsWith (s.start i) P (f (s.start i))) :
    P (runSequence i check f s) ∨ TakenByRst s (runSequence i check f s) := by
  cases check with
  | some why => exact .inl (hresp _ _ _ hp)
  | none => exact finish_ends (s := s) (hf.of_same rfl rfl rfl rfl) hresp i .none

/-- A command without bus I/O, from its checks to its end. -/
theorem runLocal_keeps {s : State} {P : State → Prop} {i : Instr} {check : Option Reason} {res : Result} {f : State → State}
    (hp : P s) (hresp : ∀ u i e, P u → P (State.endCommand u i e)) (hf : check = none → P (f s)) :
    P (runLocal i check res f s) := by
  cases check with
  | some why => exact hresp _ _ _ hp
  | none => exact hresp _ _ _ (hf rfl)

end Sys2Proof.Machine
end

section
/-! SUPPORT (10_state.md). What a command may change of image and steppers, said once (`CommandMove`), and that every command, in
every state and whatever the other agents do meanwhile, is made of such moves and the others' steps, unless `rst` takes it
(`exec_keeps`); and what every step of the machine keeps (`step_keeps`). -/

namespace Sys2Proof.Machine

open Sys2Proof

/-! ### The moves of a command -/

/-- What a command writes to the image, but for a completed `DRV_RESET` (R123, R125, R127 to R129, R167). -/
inductive ImageWrite : Instr → Image → Image → Prop
  | opened (nb : Bool) (m : Image) : ImageWrite (.drvInit nb) m { m with busOpen := true }
  | fallen (nb : Bool) (m : Image) : ImageWrite (.drvInit nb) m { m with initialised := false }
  | risen (nb : Bool) (m : Image) : ImageWrite (.drvInit nb) m { m with initialised := true }
  | cleared (nb : Bool) (m : Image) : ImageWrite (.drvInit nb) m (m.setAllChannels 0#13 0#13)
  | freq (nb : Bool) (rate : W32) (p : Byte) (m : Image) : ImageWrite (.drvSetfreq nb rate) m { m with prescale := some p }
  | stpFreq (nb : Bool) (k : StepperId) (rate : W32) (p : Byte) (m : Image) :
    ImageWrite (.stpSetfreq nb k rate) m { m with prescale := some p }
  | chan (nb : Bool) (c : Chan) (on off : Tick) (m : Image) : ImageWrite (.drvSetchan nb c on off) m (m.setChannel c on off)
  | pin (nb : Bool) (c : Chan) (v : Bool) (m : Image) :
    ImageWrite (.drvSetpin nb c v) m (m.setChannel c (levelTicks v).1 (levelTicks v).2)
  | all (nb : Bool) (on off : Tick) (m : Image) : ImageWrite (.drvSetall nb on off) m (m.setAllChannels on off)

/-- What a configuration command makes of its own stepper in `u`, its checks passed (R161 to R168). -/
inductive ConfigWrite (u : State) (k : StepperId) : Instr → Stepper → Prop
  | pins (nb : Bool) (p : Pins) (h : pinsCheck u k p = none) : ConfigWrite u k (.stpPins nb k p)
    { u.stepper k with
      cfg := { (u.stepper k).cfg with pin := some p, initialised := false },
      motion := { (u.stepper k).motion with phase := 0#6, retried := 0#32 }, cache := emptyCache }
  | steps (nb : Bool) (n : BitVec 16) : ConfigWrite u k (.stpSetsteps nb k n)
    { u.stepper k with cfg := ({ (u.stepper k).cfg with spr := some n } : StepperConfig).withRates }
  | micro (nb : Bool) (m : Micro) : ConfigWrite u k (.stpSetmicro nb k m)
    { u.stepper k with
      cfg := ({ (u.stepper k).cfg with ms := some m } : StepperConfig).withRates,
      motion := { (u.stepper k).motion with
        phase := BitVec.ofNat 6 ((u.stepper k).motion.phase.toNat % (4 * m.count)) } }
  | style (nb : Bool) (y : Style) : ConfigWrite u k (.stpSetstyle nb k y)
    { u.stepper k with cfg := ({ (u.stepper k).cfg with style := some y } : StepperConfig).withRates }
  | current (nb : Bool) (n : BitVec 16) : ConfigWrite u k (.stpSetcurrent nb k n)
    { u.stepper k with cfg := { (u.stepper k).cfg with current := some n } }
  | speed (nb : Bool) (x : SpeedUnit) (v : W32) : ConfigWrite u k (.stpSetspeed nb k x v)
    { u.stepper k with cfg := ({ (u.stepper k).cfg with speedUnit := some x, speedValue := some v } : StepperConfig).withRates }
  | init (nb : Bool) (h : stpInitCheck u k = none) : ConfigWrite u k (.stpInit nb k)
    { u.stepper k with cfg := ({ (u.stepper k).cfg with initialised := true } : StepperConfig).withRates }

/-- The command moves stepper `k` itself, or stops its run. -/
def OwnMotion (i : Instr) (k : StepperId) (u : State) : Prop :=
  (∃ nb, (∃ d, i = .stpOnestep nb k d) ∨ (∃ d n, i = .stpStep nb k d n) ∨ i = .stpRelease nb k) ∨
  ((∃ nb, i = .stpStop nb k) ∧ (u.stepper k).run.running = true)

/-- One move of a command, as image and steppers show it. -/
inductive CommandMove (i : Instr) (u v : State) : Prop
  | same (img : v.img = u.img) (stp : v.stp = u.stp)
  | image (img : ImageWrite i u.img v.img) (stp : v.stp = u.stp)
  | forget (nb : Bool) (cmd : i = .drvReset nb) (img : v.img = u.img.forget)
    (stp : ∀ j, v.stepper j = { u.stepper j with cache := emptyCache })
  | config (k : StepperId) (own : ConfigWrite u k i (v.stepper k)) (img : v.img = u.img)
    (others : ∀ j, j ≠ k → v.stepper j = u.stepper j)
  | motion (k : StepperId) (own : OwnMotion i k u) (move : MotionMove k u v)

/-- A property that the moves of the command `i` and the others' steps keep. -/
structure KeptDuring (i : Instr) (P : State → Prop) : Prop where
  background : ∀ u b, NotRst b u → P u → P (u.background b)
  move : ∀ u v, CommandMove i u v → P u → P v

section

variable {i : Instr} {P : State → Prop} (h : KeptDuring i P)

include h

theorem KeptDuring.same {u v : State} (hp : P u) (hi : v.img = u.img) (hs : v.stp = u.stp) : P v :=
  h.move u v (.same hi hs) hp

theorem KeptDuring.img {u : State} {m : Image} (hw : ImageWrite i u.img m) (hp : P u) : P { u with img := m } :=
  h.move u _ (.image hw rfl) hp

theorem KeptDuring.endCommand (u : State) (j : Instr) (e : CmdEnd) (hp : P u) : P (u.endCommand j e) :=
  h.same hp (by simp) (by simp)

theorem KeptDuring.othersKeep (c : State) : OthersKeep c P :=
  .of_fields (fun u b _ hp hn => h.background u b hn hp) (fun _ _ hi hs _ _ hp => h.same hp hi hs)

/-- A change of one stepper by its configuration command. -/
theorem KeptDuring.config {u : State} {k : StepperId} {f : Stepper → Stepper} (hw : ConfigWrite u k i (f (u.stepper k)))
    (hp : P u) : P (u.modStp k f) :=
  h.move u _ (.config k (by rw [stepper_modStp_self]; exact hw) rfl (fun _ hj => stepper_modStp_of_ne u f hj)) hp

/-- A change of one stepper by its motion command. -/
theorem KeptDuring.work {u : State} {k : StepperId} {f : Stepper → Stepper} (own : OwnMotion i k u)
    (hw : Works (u.stepper k) (f (u.stepper k))) (hp : P u) : P (u.modStp k f) :=
  h.move u _ (.motion k own (.of_modStp hw)) hp

/-- A vector write of the CP, for a stepper whose configuration the command has read. -/
theorem KeptDuring.vector {s u : State} {k : StepperId} {r : Ready} (v : CoilVector) (own : ∀ u, OwnMotion i k u)
    (hc : s.cp ≠ .idle) (hr : (s.stepper k).cfg.ready = some r) (hk : SeqKept s u) (hp : P u) :
    SeqSince s P (vectorWrite k (vectorTasks r v) u) := by
  refine vectorWrite_since (h.othersKeep s) hc hk (h.work (own u) (.of_job rfl rfl rfl rfl) hp) (fun t ht w hw hpw => ?_)
    (fun w _ hpw => h.work (own w) (.of_job rfl rfl rfl rfl) hpw)
  exact h.move w _ (.motion k (own w) (.pin t (.inl ⟨r, v, hw.ready hr, ht⟩) rfl)) hpw

/-- One step of the CP: the phase advances, then the vector is written. -/
theorem KeptDuring.once {s u : State} {k : StepperId} {r : Ready} (d : Dir) (own : ∀ u, OwnMotion i k u)
    (hc : s.cp ≠ .idle) (hr : (s.stepper k).cfg.ready = some r) (hk : SeqKept s u) (hp : P u) :
    SeqSince s P (stepOnce k d r u) := by
  refine h.vector _ own hc hr (hk.trans (modStp_seqKept u k rfl rfl rfl rfl rfl)) (h.work (own u) ?_ hp)
  exact ⟨rfl, rfl, .inr ⟨r, d, hk.ready hr, rfl⟩, fun j hj _ ht => .inr ⟨j, hj, ht⟩⟩

/-- The blocking run of the CP. -/
theorem KeptDuring.loop {s : State} {k : StepperId} {r : Ready} (n : ℕ) (own : ∀ u, OwnMotion i k u)
    (hc : s.cp ≠ .idle) (hr : (s.stepper k).cfg.ready = some r) (hp : P s) : SeqSince s P (blockingSteps k r n s) := by
  refine blockingSteps_since (B := fun _ => P) (M := fun _ => P) hc (fun _ => h.othersKeep s) (fun n u hk hpu => ?_)
    (fun _ u hpu => h.work (own u) (.of_job rfl rfl rfl rfl) hpu) (fun _ _ hpu => hpu) (fun _ _ hpu => hpu) n (.refl s) hp
  exact h.once _ own hc hr (hk.trans (modStp_seqKept u k rfl rfl rfl rfl rfl))
    (h.work (own u) (.of_job rfl rfl rfl rfl) hpu)

/-- An exclusive sequence of the CP. -/
theorem KeptDuring.locked {s : State} {f : State → SeqEnd} (hc : s.cp ≠ .idle) (hp : P s)
    (hf : ∀ u, u.cp ≠ .idle → P u → SeqSince u P (f u)) : EndsWith s P (exclusive f s) :=
  exclusive_ends h.othersKeep (fun _ _ hu => h.same hu rfl rfl) hc hp hf

/-- A command with a bus sequence. -/
theorem KeptDuring.sequence {s : State} {check : Option Reason} {f : State → SeqEnd} (hp : P s)
    (hf : P (s.start i) → EndsWith (s.start i) P (f (s.start i))) :
    P (runSequence i check f s) ∨ TakenByRst s (runSequence i check f s) :=
  runSequence_ends hp h.endCommand (hf (h.same hp rfl rfl))

end

/-! ### The checks of the motion commands, read backwards -/

theorem motionCheck_ok {s : State} {k : StepperId} {r : Ready} (h : motionCheck s k = .ok r) :
    (s.stepper k).cfg.ready = some r ∧ (s.stepper k).run.running = false ∧ (s.stepper k).motion.pulsing = false := by
  unfold motionCheck at h
  split at h
  · cases h
  · split at h
    · cases h
    · rename_i x hx
      split at h
      · cases h
      · rename_i hb
        cases h
        exact ⟨hx, by simpa [Stepper.busy] using hb⟩

theorem stepCheck_ok {s : State} {k : StepperId} {r : Ready} (h : stepCheck s k = .ok r) :
    (s.stepper k).cfg.ready = some r ∧ (s.stepper k).run.running = false ∧ (s.stepper k).motion.pulsing = false := by
  unfold stepCheck at h
  split at h
  · cases h
  · split at h
    · cases h
    · rename_i x hx
      split at h
      · cases h
      · split at h
        · cases h
        · rename_i hb
          cases h
          exact ⟨hx, by simpa [Stepper.busy] using hb⟩

/-! ### Every command -/

/-- Two changes of one stepper are one. -/
theorem modStp_modStp (s : State) (k : StepperId) (f g : Stepper → Stepper) :
    (s.modStp k f).modStp k g = s.modStp k (fun st => g (f st)) := by
  simp [State.modStp, Vector.get_eq_getElem]

/-- `STP_STEP`: the run's start, and then either the CP's own loop or nothing more. -/
theorem KeptDuring.stpStep {nb : Bool} {k : StepperId} {d : Dir} {n : W32} {P : State → Prop} {s t : State}
    (h : KeptDuring (.stpStep nb k d n) P) (hc : s.cp ≠ .idle) (hp : P s) (he : exec (.stpStep nb k d n) s = .next t) :
    P t ∨ TakenByRst s t := by
  have own : ∀ u, OwnMotion (.stpStep nb k d n) k u := fun _ => .inl ⟨nb, .inr (.inl ⟨d, n, rfl⟩)⟩
  simp only [exec, execStpStep] at he
  cases he
  split
  · exact .inl (h.endCommand _ _ _ hp)
  · rename_i r hr
    have hp1 : P ((s.start (.stpStep nb k d n)).startRun k nb d n) :=
      h.work (own _) (.of_job rfl rfl rfl rfl) (h.same hp rfl rfl)
    have hc1 : ((s.start (.stpStep nb k d n)).startRun k nb d n).cp ≠ .idle := hc
    have hr1 : (((s.start (.stpStep nb k d n)).startRun k nb d n).stepper k).cfg.ready = some r := by
      unfold State.startRun
      rw [stepper_modStp_self]
      exact (stepCheck_ok hr).1
    split
    · split
      · exact .inl (h.same (h.move _ _ (.motion k (own _) (endRun_move k _ none false)) hp1) rfl rfl)
      · exact .inl (h.same hp1 rfl rfl)
    · have hs := h.loop n.toNat own hc1 hr1 hp1
      generalize blockingSteps k r n.toNat _ = w at hs
      obtain ⟨u, c⟩ := w
      have hrep : ∀ e, P u → P (u.reportRun (.stpStep nb k d n) k e) := fun e hu =>
        h.endCommand _ _ _ (h.work (own _) (.of_job rfl rfl rfl rfl) (h.same hu (by simp) (by simp)))
      rcases c with _ | (e | _)
      · exact .inl (hrep none (hs.1 (by simp)).2)
      · exact .inl (hrep (some e) (hs.1 (by simp)).2)
      · exact .inr ((hs.2 rfl).of_same rfl rfl rfl rfl)

/-- `STP_ONESTEP` and `STP_RELEASE`: a vector write of the CP, the phase advanced before or not. -/
theorem finishMotion_keeps {s : State} {P : State → Prop} {i j : Instr} {r : SeqEnd} {res : Result} (h : KeptDuring i P)
    (hr : SeqSince (s.start j) P r) : P (r.1.finish i res r.2) ∨ TakenByRst s (r.1.finish i res r.2) :=
  finish_ends (s := s) (hr.endsWith.of_same rfl rfl rfl rfl) h.endCommand i res

/-- Every command, in every state and whatever the other agents do meanwhile: what its moves and the others' steps keep holds
after it, unless `rst` has taken it. -/
theorem exec_keeps {i : Instr} {P : State → Prop} {s t : State} (h : KeptDuring i P) (hc : s.cp ≠ .idle) (hp : P s)
    (he : exec i s = .next t) : P t ∨ TakenByRst s t := by
  cases i with
  | drvInit nb =>
    cases he
    refine h.sequence hp fun hp1 => ?_
    refine EndsWith.of_same (h.locked hc (h.img (.fallen nb _) hp1) fun u hu hpu => ?_) rfl rfl rfl rfl
    exact initSequence_since (h.othersKeep u) hu (.refl u) hpu (fun v hv => h.img (.opened nb _) hv)
      (fun v hv => h.img (.cleared nb _) hv) (fun v hv => h.img (.risen nb _) hv)
  | drvReset nb =>
    cases he
    refine h.sequence hp fun hp1 => h.locked hc hp1 fun u hu hpu => ?_
    refine resetSequence_since (h.othersKeep u) hu (.refl u) hpu fun v hv => ?_
    exact h.move v _ (.forget nb rfl rfl fun j => by rw [stepper_mapStp]; rfl) hv
  | drvSetfreq nb rate =>
    cases he
    refine h.sequence hp fun hp1 => h.locked hc hp1 fun u hu hpu => ?_
    exact freqSequence_since (h.othersKeep u) hu (.refl u) hpu _ fun v hv => h.img (.freq nb rate _ _) hv
  | stpSetfreq nb k rate =>
    cases he
    refine h.sequence hp fun hp1 => h.locked hc hp1 fun u hu hpu => ?_
    exact freqSequence_since (h.othersKeep u) hu (.refl u) hpu _ fun v hv => h.img (.stpFreq nb k rate _ _) hv
  | drvSetchan nb c on off =>
    cases he
    refine h.sequence hp fun hp1 =>
      (pinWrite_since (s := s.start _) (h.othersKeep _) hc (.refl _) hp1 _ _ _ fun v hv => ?_).endsWith
    exact h.img (.chan nb c on off _) hv
  | drvSetpin nb c v =>
    cases he
    refine h.sequence hp fun hp1 =>
      (pinWrite_since (s := s.start _) (h.othersKeep _) hc (.refl _) hp1 _ _ _ fun w hw => ?_).endsWith
    exact h.img (.pin nb c v _) hw
  | drvSetall nb on off =>
    cases he
    refine h.sequence hp fun hp1 =>
      (allWrite_since (s := s.start _) (h.othersKeep _) hc (.refl _) hp1 _ _ fun v hv => ?_).endsWith
    exact h.img (.all nb on off _) hv
  | drvGetfreq nb =>
    simp only [exec, execDrvGetfreq] at he
    cases he
    split <;> exact .inl (h.endCommand _ _ _ hp)
  | stpPins nb k p =>
    cases he
    exact .inl (runLocal_keeps hp h.endCommand fun hk => h.config (.pins nb p hk) hp)
  | stpSetsteps nb k n =>
    cases he
    exact .inl (runLocal_keeps hp h.endCommand fun _ => h.config (.steps nb n) hp)
  | stpSetmicro nb k m =>
    cases he
    refine .inl (runLocal_keeps hp h.endCommand fun _ => ?_)
    rw [State.configure, modStp_modStp]
    exact h.config (.micro nb m) hp
  | stpSetstyle nb k y =>
    cases he
    exact .inl (runLocal_keeps hp h.endCommand fun _ => h.config (.style nb y) hp)
  | stpSetcurrent nb k n =>
    cases he
    exact .inl (runLocal_keeps hp h.endCommand fun _ => h.config (.current nb n) hp)
  | stpSetspeed nb k x v =>
    cases he
    exact .inl (runLocal_keeps hp h.endCommand fun _ => h.config (.speed nb x v) hp)
  | stpInit nb k =>
    cases he
    exact .inl (runLocal_keeps hp h.endCommand fun hk => h.config (.init nb hk) hp)
  | stpOnestep nb k d =>
    simp only [exec, execStpOnestep] at he
    cases he
    split
    · exact .inl (h.endCommand _ _ _ hp)
    · rename_i r hr
      exact finishMotion_keeps h (h.once d (fun _ => .inl ⟨nb, .inl ⟨d, rfl⟩⟩) hc (motionCheck_ok hr).1 (.refl _)
        (h.same hp rfl rfl))
  | stpStep nb k d n => exact h.stpStep hc hp he
  | stpRelease nb k =>
    simp only [exec, execStpRelease] at he
    cases he
    split
    · exact .inl (h.endCommand _ _ _ hp)
    · rename_i r hr
      exact finishMotion_keeps h (h.vector _ (fun _ => .inl ⟨nb, .inr (.inr rfl)⟩) hc (motionCheck_ok hr).1 (.refl _)
        (h.same hp rfl rfl))
  | stpStop nb k =>
    cases he
    refine .inl (runLocal_keeps hp h.endCommand fun _ => ?_)
    unfold State.stopRun
    split
    · rename_i hrun
      have hp1 := h.work (k := k) (f := fun st => { st with run := { st.run with stopReq := true } })
        (.inr ⟨⟨nb, rfl⟩, hrun⟩) (.of_job rfl rfl rfl rfl) hp
      dsimp only
      split
      · exact hp1
      · exact h.move _ _ (.motion k (.inr ⟨⟨nb, rfl⟩, by rw [stepper_modStp_self]; exact hrun⟩) (endRun_move k _ none true)) hp1
    · exact hp
  | stpStatus nb k => cases he; exact .inl (h.endCommand _ _ _ hp)
  | stpGetrates nb k => cases he; exact .inl (h.endCommand _ _ _ hp)

/-! ### Every step of the machine -/

/-- What a step of the machine is: an agent beside the CP moves, the CP delivers what it holds or has nothing to take, or it takes
the head of `cmdq` and carries it out. -/
theorem step_cases {s t : State} (h : step s = .next t) :
    (∃ b, t = s.drawTurn.2.background b) ∨ t = s.drawTurn.2.deliverCp ∨ t = s.drawTurn.2 ∨
    ∃ q rest, s.cmdq = q :: rest ∧
      ((∃ why, t = (s.drawTurn.2.take q rest).rejectQueued q why) ∨
       ∃ i, decode q.word = .ok i ∧ exec i (s.drawTurn.2.take q rest) = .next t) := by
  unfold step at h
  dsimp only at h
  split at h
  · unfold cpTurn at h
    split at h
    · split at h
      · cases h; exact .inr (.inr (.inl rfl))
      · rename_i q rest hq
        refine .inr (.inr (.inr ⟨q, rest, by simpa using hq, ?_⟩))
        split at h
        · rename_i i hi
          exact .inr ⟨i, hi, h⟩
        · cases h; exact .inl ⟨_, rfl⟩
    · cases h; exact .inr (.inl rfl)
  · cases h; exact .inl ⟨_, rfl⟩

/-- After a step of an agent beside the CP: it was not `rst`, or everything is discarded. -/
theorem background_notRst_or (s : State) (b : Background) : NotRst b s ∨ Discarded s (s.background b) := by
  by_cases hn : NotRst b s
  · exact .inl hn
  · right
    obtain ⟨rfl, hh⟩ : b = .host ∧ s.host.head? = some .rst := by simpa [NotRst] using hn
    obtain ⟨rest, hr⟩ := List.head?_eq_some_iff.1 hh
    exact hostTurn_rst s hr

@[simp] theorem deliverCp_img (s : State) : s.deliverCp.img = s.img := by
  unfold State.deliverCp; split
  · rfl
  · split <;> rfl

@[simp] theorem deliverCp_stp (s : State) : s.deliverCp.stp = s.stp := by
  unfold State.deliverCp; split
  · rfl
  · split <;> rfl

/-- A property of image and steppers that the agents beside the CP keep, `rst` included. -/
structure KeptBeside (P : State → Prop) : Prop where
  same : ∀ u v : State, v.img = u.img → v.stp = u.stp → P u → P v
  background : ∀ u b, NotRst b u → P u → P (u.background b)
  discarded : ∀ u v, Discarded u v → P v

/-- A property of image and steppers that the agents beside the CP keep and every decoded command keeps, every step keeps. -/
theorem step_keeps {P : State → Prop} (h : KeptBeside P)
    (he : ∀ (w : CmdWord) i (s t : State), decode w = .ok i → s.cp ≠ .idle → P s → exec i s = .next t → P t ∨ TakenByRst s t)
    {s t : State} (hp : P s) (hs : step s = .next t) : P t := by
  have hd : P s.drawTurn.2 := h.same s _ (by simp) (by simp) hp
  rcases step_cases hs with ⟨b, rfl⟩ | rfl | rfl | ⟨q, rest, _, ⟨why, rfl⟩ | ⟨i, hi, hx⟩⟩
  · rcases background_notRst_or s.drawTurn.2 b with hn | hr
    · exact h.background _ b hn hd
    · exact h.discarded _ _ hr
  · exact h.same _ _ (by simp) (by simp) hd
  · exact hd
  · exact h.same s.drawTurn.2 _ rfl rfl hd
  · have ht : P (s.drawTurn.2.take q rest) := h.same s.drawTurn.2 _ rfl rfl hd
    rcases he q.word i _ t hi (by simp [State.take]) ht hx with hpt | hr
    · exact hpt
    · exact h.discarded _ _ hr.2

/-- As `step_keeps`, from the moves of the agents and the commands. -/
theorem step_keeps_of_moves {P : State → Prop} (hm : ∀ k u v, MotionMove k u v → P u → P v)
    (he : ∀ (w : CmdWord) i u v, decode w = .ok i → CommandMove i u v → P u → P v) (hr : ∀ u v, Discarded u v → P v)
    (hs : ∀ u v : State, v.img = u.img → v.stp = u.stp → P u → P v) {s t : State} (hp : P s) (h : step s = .next t) : P t := by
  have hb : ∀ u b, NotRst b u → P u → P (u.background b) := by
    intro u b hn hu
    obtain ⟨k, hk⟩ := background_moves u b hn
    exact hk.keeps (hm k) hu
  exact step_keeps ⟨hs, hb, hr⟩ (fun w i u v hi hc hu hx => exec_keeps ⟨hb, fun a c => he w i a c hi⟩ hc hu hx) hp h

end Sys2Proof.Machine
end

section
/-! The run state (10_state.md R33, R35; 42_stepper_motion.md R208, R214): each part of a run engine's reaction keeps `RunLegal` of its
stepper; a motion command of the CP holds a stepper that no run engine works for (`CpOwned`) and gives it back legal. -/

namespace Sys2Proof.Machine

open Sys2Proof

/-! ### The run engine -/

/-- `RunLegal` reads the run, `pulsing`, the vector write in progress and the held report alone. -/
theorem RunLegal.of_same {st st' : Stepper} (h : RunLegal st) (hr : st'.run = st.run)
    (hp : st'.motion.pulsing = st.motion.pulsing) (hj : st'.job = st.job) (hh : st'.held = st.held) : RunLegal st' := by
  obtain ⟨order, background, pulsing, job, held, between, roles⟩ := h
  exact ⟨by rw [hr]; exact order, by rw [hr]; exact background, by rw [hp, hj]; exact pulsing, by rw [hj, hr, hh]; exact job,
    by rw [hh, hr]; exact held, by rw [hr, hj, hh]; exact between, by rw [hj]; exact roles⟩

theorem runLegal_reset : RunLegal Stepper.reset := by
  constructor <;> simp [Stepper.reset]

/-- The counters of a run in order, at most one step apart (R35). -/
def Run.ordered (r : Run) : Prop :=
  r.done.toNat ≤ r.issued.toNat ∧ r.issued.toNat ≤ r.runCount.toNat ∧ r.issued.toNat ≤ r.done.toNat + 1

/-- No vector write is in progress, and no report waits. -/
def Stepper.still (st : Stepper) : Prop := st.motion.pulsing = false ∧ st.job = none ∧ st.held = none

/-- A run that is over. -/
theorem RunLegal.of_ended {st : Stepper} (ho : st.run.ordered) (hr : st.run.running = false) (hs : st.still) : RunLegal st := by
  obtain ⟨hp, hj, hh⟩ := hs
  exact ⟨ho, by simp [hr], by simp [hp, hj], by simp [hj], by simp [hh], by simp [hr], by simp [hj]⟩

/-- A run that waits for its next tick. -/
theorem RunLegal.of_waiting {st : Stepper} (ho : st.run.ordered) (hn : st.run.runNB = true) (hs : st.still)
    (he : st.run.issued = st.run.done) : RunLegal st := by
  obtain ⟨hp, hj, hh⟩ := hs
  exact ⟨ho, fun _ => hn, by simp [hp, hj], by simp [hj], by simp [hh], fun _ _ _ => he, by simp [hj]⟩

/-- A run whose report waits for room in `cmplq`. -/
theorem RunLegal.of_held {st : Stepper} (ho : st.run.ordered) (hr : st.run.running = true) (hn : st.run.runNB = true)
    (hp : st.motion.pulsing = false) (hj : st.job = none) (hh : st.held.isSome = true) : RunLegal st :=
  ⟨ho, fun _ => hn, by simp [hp, hj], by simp [hj], fun _ => hr, fun _ _ h => by simp [h] at hh, by simp [hj]⟩

theorem endRun_runLegal {s : State} {i : StepperId} (e : Option BusError) (b : Bool) (ho : (s.stepper i).run.ordered)
    (hr : (s.stepper i).run.running = true) (hn : (s.stepper i).run.runNB = true) (hs : (s.stepper i).still) :
    RunLegal ((s.endRun i e b).stepper i) := by
  rcases endRun_stepper s i e b with h | ⟨r, h⟩ <;> rw [h]
  · exact .of_ended ho rfl hs
  · exact .of_held ho hr hn hs.1 hs.2.1 rfl

theorem deliverRun_runLegal {s : State} {i : StepperId} (h : RunLegal (s.stepper i)) :
    RunLegal ((s.deliverRun i).stepper i) := by
  unfold State.deliverRun
  split
  · exact h
  · rename_i r hr
    split
    · have hj : (s.stepper i).job = none := by
        cases hj : (s.stepper i).job with
        | none => rfl
        | some j => simp [(h.job (by simp [hj])).2.1] at hr
      rw [stepper_modStp_self]
      exact .of_ended h.order rfl ⟨h.pulsing.trans (by rw [hj]; rfl), hj, rfl⟩
    · exact h

/-- The run engine is in a vector write of a step that has been issued and is not done. -/
structure Stepping (st : Stepper) : Prop where
  running : st.run.running = true
  runNB : st.run.runNB = true
  held : st.held = none
  ahead : st.run.issued.toNat = st.run.done.toNat + 1
  bound : st.run.issued.toNat ≤ st.run.runCount.toNat

theorem RunLegal.stepping {st : Stepper} {j : VecJob} (h : RunLegal st) (hj : st.job = some j) : Stepping st := by
  obtain ⟨hr, hh, ha⟩ := h.job (by simp [hj])
  exact ⟨hr, h.background hr, hh, ha, h.order.2.1⟩

theorem vectorDone_runLegal {s : State} {i : StepperId} (e : Option BusError) (h : Stepping (s.stepper i)) :
    RunLegal ((s.vectorDone i e).stepper i) := by
  obtain ⟨hr, hn, hh, ha, hb⟩ := h
  have hord : (s.stepper i).run.ordered := ⟨by omega, hb, by omega⟩
  have hdone : ((s.stepper i).run.done + 1#32).toNat = (s.stepper i).run.issued.toNat := by
    have := (s.stepper i).run.issued.isLt
    simp only [BitVec.toNat_add, BitVec.toNat_ofNat]
    omega
  have hord' : ({ (s.stepper i).run with done := (s.stepper i).run.done + 1#32 } : Run).ordered := by
    simp only [Run.ordered, hdone]
    exact ⟨Nat.le_refl _, hb, by omega⟩
  unfold State.vectorDone
  cases e with
  | some info => exact endRun_runLegal _ _ (by simpa using hord) (by simpa using hr) (by simpa using hn) (by simp [Stepper.still, hh])
  | none =>
    dsimp only
    rw [modStp_modStp]
    have hst := stepper_modStp_self s i (fun st => { st with
      motion := { st.motion with pulsing := false }, job := none, run := { st.run with done := st.run.done + 1#32 } })
    split
    · exact endRun_runLegal _ _ (by rw [hst]; exact hord') (by rw [hst]; exact hr) (by rw [hst]; exact hn)
        (by rw [hst]; exact ⟨rfl, rfl, hh⟩)
    · split
      · exact endRun_runLegal _ _ (by rw [hst]; exact hord') (by rw [hst]; exact hr) (by rw [hst]; exact hn)
          (by rw [hst]; exact ⟨rfl, rfl, hh⟩)
      · rw [hst]
        exact .of_waiting hord' hn ⟨rfl, rfl, hh⟩ (BitVec.eq_of_toNat_eq hdone.symm)

/-- A vector write that begins, or goes on: `pulsing` is set, and the pins to write are of different roles. -/
theorem nextPin_runLegal {s : State} {i : StepperId} {tasks : List PinTask} (h : Stepping (s.stepper i))
    (hp : (s.stepper i).motion.pulsing = true) (hd : (tasks.map PinTask.role).Nodup) :
    RunLegal ((s.nextPin i tasks).stepper i) := by
  unfold State.nextPin
  split
  · exact vectorDone_runLegal none h
  · rename_i t rest hf
    obtain ⟨hr, hn, hh, ha, hb⟩ := h
    rw [stepper_modStp_self]
    refine ⟨⟨by simp only; omega, hb, by simp only; omega⟩, fun _ => hn, hp, fun _ => ⟨hr, hh, ha⟩, by simp [hh], by simp, ?_⟩
    rintro j ⟨⟩
    exact ((firstChanged_sublist hf).map PinTask.role).nodup hd

/-- The six pins of a vector have different roles. -/
theorem vectorTasks_roles_nodup (r : Ready) (v : CoilVector) : ((vectorTasks r v).map PinTask.role).Nodup := by
  simp [vectorTasks, pwmTask, coilTask]

theorem engineIssue_runLegal {s : State} {i : StepperId} (h : RunLegal (s.stepper i)) :
    RunLegal ((s.engineIssue i).stepper i) := by
  unfold State.engineIssue
  split
  · exact h
  · rename_i j hj
    split
    · exact h
    · split
      · exact h
      · rw [stepper_of_stp (request_stp _ _ _), stepper_modStp_self]
        obtain ⟨order, background, pulsing, job, held, between, roles⟩ := h
        exact ⟨order, background, by simpa [hj] using pulsing, fun _ => job (by simp [hj]), held, by simp,
          by rintro _ ⟨⟩; exact roles j hj⟩

theorem engineReply_runLegal {s : State} {i : StepperId} (t : Txn) (ok : Bool) (h : RunLegal (s.stepper i)) :
    RunLegal ((s.engineReply i t ok).stepper i) := by
  unfold State.engineReply
  split
  · exact h
  · rename_i j hj
    have hs := h.stepping hj
    have hroles := h.roles j hj
    split
    · exact vectorDone_runLegal _ hs
    · split
      · refine nextPin_runLegal ?_ ?_ (List.nodup_cons.1 hroles).2
        · rw [pinWritten_stepper_self]
          exact ⟨hs.running, hs.runNB, hs.held, hs.ahead, hs.bound⟩
        · rw [pinWritten_stepper_self]
          simpa [hj] using h.pulsing
      · rw [stepper_modStp_self]
        exact ⟨h.order, h.background, by simpa [hj] using h.pulsing, fun _ => h.job (by simp [hj]), h.held, by simp,
          by rintro _ ⟨⟩; exact hroles⟩

/-- A step begins: the counters were equal and the run is not at its end. -/
theorem startPulse_runLegal {s : State} {i : StepperId} (r : Ready) (h : RunLegal (s.stepper i))
    (hr : (s.stepper i).run.running = true) (hs : (s.stepper i).still) (hne : (s.stepper i).run.issued ≠ (s.stepper i).run.runCount) :
    RunLegal ((s.startPulse i r).stepper i) := by
  have he := h.between hr hs.2.1 hs.2.2
  have hlt : (s.stepper i).run.issued.toNat < (s.stepper i).run.runCount.toNat :=
    Nat.lt_of_le_of_ne h.order.2.1 (fun e => hne (BitVec.eq_of_toNat_eq e))
  have hinc : ((s.stepper i).run.issued + 1#32).toNat = (s.stepper i).run.issued.toNat + 1 := by
    have := (s.stepper i).run.runCount.isLt
    simp only [BitVec.toNat_add, BitVec.toNat_ofNat]
    omega
  unfold State.startPulse
  refine nextPin_runLegal ?_ (by simp) (vectorTasks_roles_nodup r _)
  rw [stepper_modStp_self]
  exact ⟨hr, h.background hr, hs.2.2, hinc.trans (by rw [he]), by simp only [hinc]; omega⟩

theorem onTick_runLegal {s : State} {i : StepperId} (h : RunLegal (s.stepper i)) : RunLegal ((s.onTick i).stepper i) := by
  unfold State.onTick
  dsimp only
  split
  · exact h
  · rename_i hb
    obtain ⟨⟨hr, _⟩, hh⟩ : ((s.stepper i).run.running = true ∧ (s.stepper i).run.runNB = true) ∧ (s.stepper i).held = none := by
      simpa [Stepper.inBackground] using hb
    have hst := stepper_modStp_self (s.passUntil ((s.stepper i).run.t0 + ((s.stepper i).run.k.toNat : ℚ) *
        runPeriod (s.stepper i).cfg)) i (fun st => { st with run := { st.run with k := st.run.k + 1#32 } })
    have hk : RunLegal { s.stepper i with run := { (s.stepper i).run with k := (s.stepper i).run.k + 1#32 } } :=
      ⟨h.order, h.background, h.pulsing, h.job, h.held, h.between, h.roles⟩
    split
    · rw [hst]; exact hk
    · split
      · rw [hst]; exact hk
      · rename_i hne
        split
        · rw [stepper_modStp_self, hst]
          exact hk.of_same rfl rfl rfl rfl
        · rename_i hp
          split
          · rw [hst]; exact hk
          · have hp' : (s.stepper i).motion.pulsing = false := by simpa using hp
            have hj : (s.stepper i).job = none := by simpa [hp'] using h.pulsing.symm
            exact startPulse_runLegal _ (by rw [hst]; exact hk) (by rw [hst]; exact hr)
              (by rw [hst]; exact ⟨hp', hj, hh⟩) (by rw [hst]; exact hne)

/-- A step of an agent beside the CP, but for `rst`, keeps the run state of every stepper coherent, whatever the others' is. -/
theorem background_runLegal {u : State} (b : Background) (j : StepperId) (hn : NotRst b u) (h : RunLegal (u.stepper j)) :
    RunLegal ((u.background b).stepper j) := by
  cases b with
  | tick i =>
    by_cases e : j = i
    · subst e; exact onTick_runLegal h
    · rw [State.background, (onTick_kept i u).others j e]; exact h
  | engine i =>
    by_cases e : j = i
    · subst e
      simp only [State.background]
      split
      · exact deliverRun_runLegal h
      · exact engineIssue_runLegal h
    · simp only [State.background]
      split
      · rw [(deliverRun_kept i u).others j e]; exact h
      · rw [(engineIssue_kept i u).others j e]; exact h
  | bus =>
    simp only [State.background, State.busStep]
    split
    · split
      · exact h
      · rename_i q _ _ i _
        have hu : (u.drawAnswer.2.completeTxn (.engine i) q.txn u.drawAnswer.1).stepper j = u.stepper j :=
          stepper_of_stp (by simp) j
        by_cases e : j = i
        · subst e
          exact engineReply_runLegal _ _ (by rw [hu]; exact h)
        · rw [(engineReply_kept i _ _ _).others j e, hu]; exact h
    · split
      · exact h
      · split
        · exact h
        · split <;> exact h
  | host =>
    rw [State.background, stepper_of_stp (hostTurn_stp u (hn rfl)).1]
    exact h

/-! ### The CP's own motion commands -/

/-- The CP moves stepper `k`, whose run is `run`: no run engine works for it, and every other stepper is coherent. -/
structure CpOwned (k : StepperId) (run : Run) (p : Bool) (u : State) : Prop where
  others : ∀ j, j ≠ k → RunLegal (u.stepper j)
  run : (u.stepper k).run = run
  pulsing : (u.stepper k).motion.pulsing = p
  job : (u.stepper k).job = none
  held : (u.stepper k).held = none

/-- A stepper without a run and not pulsing has nothing in progress. -/
theorem RunInv.cpOwned {s : State} {k : StepperId} (h : RunInv s) (hr : (s.stepper k).run.running = false)
    (hp : (s.stepper k).motion.pulsing = false) : CpOwned k (s.stepper k).run false s where
  others j _ := h j
  run := rfl
  pulsing := hp
  job := by simpa [hp] using (h k).pulsing.symm
  held := by
    cases hh : (s.stepper k).held with
    | none => rfl
    | some r => simp [(h k).held (by simp [hh])] at hr

theorem CpOwned.of_stp {k : StepperId} {run : Run} {p : Bool} {u v : State} (h : CpOwned k run p u) (hs : v.stp = u.stp) :
    CpOwned k run p v := by
  obtain ⟨ho, hr, hp, hj, hh⟩ := h
  exact ⟨fun j hne => by rw [stepper_of_stp hs]; exact ho j hne, by rw [stepper_of_stp hs, hr], by rw [stepper_of_stp hs, hp],
    by rw [stepper_of_stp hs, hj], by rw [stepper_of_stp hs, hh]⟩

/-- A change of the stepper the CP moves. -/
theorem CpOwned.modStp {k : StepperId} {run run' : Run} {p p' : Bool} {u : State} {f : Stepper → Stepper}
    (h : CpOwned k run p u) (hr : (f (u.stepper k)).run = run') (hp : (f (u.stepper k)).motion.pulsing = p')
    (hj : (f (u.stepper k)).job = (u.stepper k).job) (hh : (f (u.stepper k)).held = (u.stepper k).held) :
    CpOwned k run' p' (u.modStp k f) := by
  refine ⟨fun j hne => by rw [stepper_modStp_of_ne _ _ hne]; exact h.others j hne, ?_, ?_, ?_, ?_⟩ <;>
    rw [stepper_modStp_self]
  · exact hr
  · exact hp
  · exact hj.trans h.job
  · exact hh.trans h.held

/-- The other agents leave the stepper that the CP moves to the CP. -/
theorem CpOwned.background {k : StepperId} {run : Run} {p : Bool} {u : State} {b : Background} (h : CpOwned k run p u)
    (hrun : (run.running && run.runNB) = false) (hn : NotRst b u) : CpOwned k run p (u.background b) := by
  have hk := background_dormant u b k ⟨by rw [Stepper.inBackground, h.run]; exact hrun, h.job, h.held⟩ hn
  exact ⟨fun j hne => background_runLegal b j hn (h.others j hne), by rw [hk, h.run], by rw [hk, h.pulsing], by rw [hk, h.job],
    by rw [hk, h.held]⟩

theorem CpOwned.othersKeep {k : StepperId} {run : Run} {p : Bool} (c : State) (hrun : (run.running && run.runNB) = false) :
    OthersKeep c (CpOwned k run p) :=
  .of_fields (fun _ _ _ h hn => h.background hrun hn) (fun _ _ _ hs _ _ h => h.of_stp hs)

/-- Given back to the run engine with its run over, the stepper is coherent again. -/
theorem CpOwned.runInv {k : StepperId} {run : Run} {u : State} (h : CpOwned k run false u) (ho : run.ordered)
    (hr : run.running = false) : RunInv u := by
  intro j
  by_cases e : j = k
  · subst e
    exact .of_ended (by rw [h.run]; exact ho) (by rw [h.run]; exact hr) ⟨h.pulsing, h.job, h.held⟩
  · exact h.others j e

theorem CpOwned.vectorWrite {s u : State} {k : StepperId} {run : Run} {tasks : List PinTask} (hc : s.cp ≠ .idle)
    (hrun : (run.running && run.runNB) = false) (hk : SeqKept s u) (h : CpOwned k run false u) :
    SeqSince s (CpOwned k run false) (vectorWrite k tasks u) := by
  refine vectorWrite_since (P := CpOwned k run true) (CpOwned.othersKeep s hrun) hc hk (h.modStp h.run rfl rfl rfl)
    (fun t _ v _ hv => ?_) (fun v _ hv => hv.modStp hv.run rfl rfl rfl)
  exact (hv.of_stp (v := { v with img := v.img.setChannel t.chan t.on t.off }) rfl).modStp hv.run hv.pulsing rfl rfl

theorem CpOwned.stepOnce {s u : State} {k : StepperId} {run : Run} {d : Dir} {r : Ready} (hc : s.cp ≠ .idle)
    (hrun : (run.running && run.runNB) = false) (hk : SeqKept s u) (h : CpOwned k run false u) :
    SeqSince s (CpOwned k run false) (stepOnce k d r u) :=
  CpOwned.vectorWrite hc hrun (hk.trans (modStp_seqKept u k rfl rfl rfl rfl rfl)) (h.modStp h.run h.pulsing rfl rfl)

/-- The CP carries out a blocking run whose counters are as `C` says. -/
def InBlockingRun (k : StepperId) (C : Run → Prop) (u : State) : Prop :=
  ∃ run, run.runNB = false ∧ C run ∧ CpOwned k run false u

theorem InBlockingRun.othersKeep (k : StepperId) (C : Run → Prop) (c : State) : OthersKeep c (InBlockingRun k C) := by
  refine .of_fields (fun u b _ h hn => ?_) (fun u v _ hs _ _ h => ?_)
  · obtain ⟨run, hnb, hC, h⟩ := h
    exact ⟨run, hnb, hC, h.background (by simp [hnb]) hn⟩
  · obtain ⟨run, hnb, hC, h⟩ := h
    exact ⟨run, hnb, hC, h.of_stp hs⟩

/-- Between two steps, with `n` to go. -/
def Run.toGo (n : ℕ) (r : Run) : Prop := r.issued = r.done ∧ r.issued.toNat + n = r.runCount.toNat

/-- After the vector write of a step, with `n` more to go. -/
def Run.written (n : ℕ) (r : Run) : Prop := r.issued = r.done + 1#32 ∧ r.done.toNat + 1 + n = r.runCount.toNat

theorem Run.toGo.ordered {n : ℕ} {r : Run} (h : r.toGo n) : r.ordered := by
  obtain ⟨he, hc⟩ := h
  rw [he] at hc
  simp only [Run.ordered, he]
  omega

/-- One more than a counter that is below another of its width. -/
theorem toNat_succ_of_lt {a c : W32} (h : a.toNat < c.toNat) : (a + 1#32).toNat = a.toNat + 1 := by
  have := c.isLt
  simp only [BitVec.toNat_add, BitVec.toNat_ofNat]
  omega

theorem Run.written.ordered {n : ℕ} {r : Run} (h : r.written n) : r.ordered := by
  obtain ⟨he, hc⟩ := h
  have hs := toNat_succ_of_lt (a := r.done) (c := r.runCount) (by omega)
  simp only [Run.ordered, he, hs]
  omega

/-- The loop of a blocking run leaves its counters in order, wherever it ends (R212, R216). -/
theorem blockingSteps_runSince {s : State} {k : StepperId} {r : Ready} (n : ℕ) (hc : s.cp ≠ .idle)
    (h : InBlockingRun k (Run.toGo n) s) : SeqSince s (InBlockingRun k Run.ordered) (blockingSteps k r n s) := by
  refine blockingSteps_since (B := fun n => InBlockingRun k (Run.toGo n)) (M := fun n => InBlockingRun k (Run.written n)) hc
    (fun n => InBlockingRun.othersKeep k _ s) (fun n u hk hu => ?_) (fun n u hu => ?_) (fun n u hu => ?_) (fun n u hu => ?_)
    n (.refl s) h
  · obtain ⟨run, hnb, ⟨he, hgo⟩, hu⟩ := hu
    refine (CpOwned.stepOnce (run := { run with issued := run.issued + 1#32 }) hc (by simp [hnb])
      (hk.trans (modStp_seqKept u k rfl rfl rfl rfl rfl)) (hu.modStp (by rw [hu.run]) hu.pulsing rfl rfl)).mono
      fun v _ hv => ⟨{ run with issued := run.issued + 1#32 }, hnb, ⟨by simp only [he], ?_⟩, hv⟩
    rw [he] at hgo
    exact (by omega : run.done.toNat + 1 + n = run.runCount.toNat)
  · obtain ⟨run, hnb, ⟨he, hgo⟩, hu⟩ := hu
    refine ⟨{ run with done := run.done + 1#32 }, hnb, ⟨he, ?_⟩, hu.modStp (by rw [hu.run]) hu.pulsing rfl rfl⟩
    simp only [he, toNat_succ_of_lt (a := run.done) (c := run.runCount) (by omega)]
    exact hgo
  · obtain ⟨run, hnb, hgo, hu⟩ := hu
    exact ⟨run, hnb, hgo.ordered, hu⟩
  · obtain ⟨run, hnb, hgo, hu⟩ := hu
    exact ⟨run, hnb, hgo.ordered, hu⟩

/-! ### Commands -/

theorem RunInv.of_stp {u v : State} (h : RunInv u) (hs : v.stp = u.stp) : RunInv v :=
  fun j => by rw [stepper_of_stp hs]; exact h j

theorem RunInv.endCommand (u : State) (i : Instr) (e : CmdEnd) (h : RunInv u) : RunInv (u.endCommand i e) :=
  h.of_stp (by simp)

theorem RunInv.modStp {u : State} {k : StepperId} {f : Stepper → Stepper} (h : RunInv u) (hk : RunLegal (f (u.stepper k))) :
    RunInv (u.modStp k f) := by
  intro j
  by_cases e : j = k
  · subst e; rw [stepper_modStp_self]; exact hk
  · rw [stepper_modStp_of_ne _ _ e]; exact h j

theorem RunInv.endRun {u : State} {k : StepperId} (e : Option BusError) (b : Bool) (h : RunInv u)
    (hr : (u.stepper k).run.running = true) (hs : (u.stepper k).still) : RunInv (u.endRun k e b) := by
  intro j
  by_cases hj : j = k
  · subst hj; exact endRun_runLegal e b (h j).order hr ((h j).background hr) hs
  · rw [(endRun_kept k u e b).others j hj]; exact h j

theorem runInv_of_discarded {u v : State} (h : Discarded u v) : RunInv v := by
  intro j
  rw [h.stp j]
  exact .of_ended ⟨Nat.le_refl _, Nat.le_refl _, Nat.le_succ _⟩ rfl ⟨rfl, rfl, rfl⟩

theorem runInv_keptBeside : KeptBeside RunInv :=
  ⟨fun _ _ _ hs h => h.of_stp hs, fun _ b hn h j => background_runLegal b j hn (h j), fun _ _ h => runInv_of_discarded h⟩

/-- What a configuration command makes of its stepper leaves the run, `pulsing`, the vector write and the held report. -/
theorem ConfigWrite.runLegal {u : State} {k : StepperId} {i : Instr} {st : Stepper} (h : ConfigWrite u k i st)
    (hl : RunLegal (u.stepper k)) : RunLegal st := by
  cases h <;> exact hl.of_same rfl rfl rfl rfl

/-- A command that moves no stepper leaves every run as it is. -/
theorem runInv_keptDuring {i : Instr} (hi : ∀ k u, ¬ OwnMotion i k u) : KeptDuring i RunInv := by
  refine ⟨runInv_keptBeside.background, fun u v m h => ?_⟩
  cases m with
  | same _ hs => exact h.of_stp hs
  | image _ hs => exact h.of_stp hs
  | forget nb _ _ hs => exact fun j => by rw [hs]; exact (h j).of_same rfl rfl rfl rfl
  | config k own _ others =>
    intro j
    by_cases e : j = k
    · subst e; exact own.runLegal (h j)
    · rw [others j e]; exact h j
  | motion k own _ => exact absurd own (hi k u)

/-- `STP_ONESTEP` and `STP_RELEASE` give their stepper back with the run it had. -/
theorem finishMotion_runInv {s : State} {i : Instr} {k : StepperId} {r : SeqEnd} {res : Result} (h : RunInv s)
    (hr : (s.stepper k).run.running = false) (hs : SeqSince (s.start i) (CpOwned k (s.stepper k).run false) r) :
    RunInv (r.1.finish i res r.2) ∨ TakenByRst s (r.1.finish i res r.2) :=
  finish_ends (s := s) ((hs.mono fun _ _ hv => hv.runInv (h k).order hr).endsWith.of_same rfl rfl rfl rfl) RunInv.endCommand i res

theorem stpStep_runInv {nb : Bool} {k : StepperId} {d : Dir} {n : W32} {s t : State} (hc : s.cp ≠ .idle) (h : RunInv s)
    (he : exec (.stpStep nb k d n) s = .next t) : RunInv t ∨ TakenByRst s t := by
  simp only [exec, execStpStep] at he
  cases he
  split
  · exact .inl (h.endCommand _ _ _)
  · rename_i r hr
    obtain ⟨_, hrun, hp⟩ := stepCheck_ok hr
    have hown := h.cpOwned hrun hp
    have hst : ((s.start (.stpStep nb k d n)).startRun k nb d n).stepper k = _ := stepper_modStp_self _ _ _
    split
    · rename_i hnb
      have hstart : RunInv ((s.start (.stpStep nb k d n)).startRun k nb d n) :=
        (h.of_stp (v := s.start (.stpStep nb k d n)) rfl).modStp
          (.of_waiting ⟨Nat.le_refl _, Nat.zero_le _, Nat.zero_le _⟩ hnb ⟨hp, hown.job, hown.held⟩ rfl)
      split
      · exact .inl ((hstart.endRun none false (by rw [hst]) (by rw [hst]; exact ⟨hp, hown.job, hown.held⟩)).of_stp rfl)
      · exact .inl (hstart.of_stp rfl)
    · rename_i hnb
      have hstart : InBlockingRun k (Run.toGo n.toNat) ((s.start (.stpStep nb k d n)).startRun k nb d n) :=
        ⟨_, by simpa using hnb, ⟨rfl, by simp⟩, (hown.of_stp (v := s.start (.stpStep nb k d n)) rfl).modStp rfl hp rfl rfl⟩
      have hs := blockingSteps_runSince (s := (s.start (.stpStep nb k d n)).startRun k nb d n) (r := r) n.toNat hc hstart
      generalize blockingSteps k r n.toNat _ = w at hs
      obtain ⟨u, c⟩ := w
      have hrep : ∀ e, InBlockingRun k Run.ordered u → RunInv (u.reportRun (.stpStep nb k d n) k e) := by
        rintro e ⟨run, _, ho, hu⟩
        refine RunInv.endCommand _ _ _ (CpOwned.runInv (k := k) (run := run.ended) ?_ ho rfl)
        have hu' := hu.of_stp (v := (u.report k false).2) (by simp)
        exact hu'.modStp (by rw [hu'.run]) hu'.pulsing rfl rfl
      rcases c with _ | (e | _)
      · exact .inl (hrep none (hs.1 (by simp)).2)
      · exact .inl (hrep (some e) (hs.1 (by simp)).2)
      · exact .inr ((hs.2 rfl).of_same rfl rfl rfl rfl)

theorem stopRun_runInv {s : State} (k : StepperId) (h : RunInv s) : RunInv (s.stopRun k) := by
  unfold State.stopRun
  split
  · rename_i hr
    have hst := stepper_modStp_self s k (fun st => { st with run := { st.run with stopReq := true } })
    have h1 : RunInv (s.modStp k (fun st => { st with run := { st.run with stopReq := true } })) := by
      obtain ⟨order, background, pulsing, job, held, between, roles⟩ := h k
      exact h.modStp ⟨order, background, pulsing, job, held, between, roles⟩
    dsimp only
    split
    · exact h1
    · rename_i hs
      rw [hst] at hs
      obtain ⟨hp, hh⟩ : (s.stepper k).motion.pulsing = false ∧ (s.stepper k).held = none := by simpa using hs
      have hj : (s.stepper k).job = none := by simpa [hp] using (h k).pulsing.symm
      exact h1.endRun none true (by rw [hst]; exact hr) (by rw [hst]; exact ⟨hp, hj, hh⟩)
  · exact h

/-- Every command keeps every run coherent, unless `rst` takes it. -/
theorem exec_runInv {i : Instr} {s t : State} (hc : s.cp ≠ .idle) (h : RunInv s) (he : exec i s = .next t) :
    RunInv t ∨ TakenByRst s t := by
  by_cases hi : ∀ k u, ¬ OwnMotion i k u
  · exact exec_keeps (runInv_keptDuring hi) hc h he
  · push Not at hi
    obtain ⟨k, u, ⟨nb, ⟨d, rfl⟩ | ⟨d, n, rfl⟩ | rfl⟩ | ⟨⟨nb, rfl⟩, _⟩⟩ := hi
    · simp only [exec, execStpOnestep] at he
      cases he
      split
      · exact .inl (h.endCommand _ _ _)
      · rename_i r hr
        obtain ⟨_, hrun, hp⟩ := motionCheck_ok hr
        exact finishMotion_runInv h hrun (CpOwned.stepOnce hc (by simp [hrun]) (.refl _) ((h.cpOwned hrun hp).of_stp rfl))
    · exact stpStep_runInv hc h he
    · simp only [exec, execStpRelease] at he
      cases he
      split
      · exact .inl (h.endCommand _ _ _)
      · rename_i r hr
        obtain ⟨_, hrun, hp⟩ := motionCheck_ok hr
        exact finishMotion_runInv h hrun (CpOwned.vectorWrite hc (by simp [hrun]) (.refl _) ((h.cpOwned hrun hp).of_stp rfl))
    · cases he
      exact .inl (runLocal_keeps h RunInv.endCommand fun _ => stopRun_runInv k h)

/-- Settles O58: the other agents' steps keep every run coherent (`background_runLegal`), and a command gives the stepper it moves
back with a run that is over or waits for its tick (`exec_runInv`). -/
theorem runInvKept : Obligations.RunInvKept := fun _ _ h hs =>
  step_keeps runInv_keptBeside (fun _ _ _ _ _ hc hu he => exec_runInv hc hu he) h hs

end Sys2Proof.Machine
end

section
/-! Who writes what (10_state.md R22, R36, R39, R40; 20_memory.md R74): the writers of the image's flags and of the configurations,
and of the caches, read off the moves of the commands. -/

namespace Sys2Proof.Machine

open Sys2Proof

/-! ### Flags and configurations -/

/-- The command `i` may have changed the flags and the prescale of the image `m` to those of `n`. -/
structure ImageWriters (i : Instr) (m n : Image) : Prop where
  prescale : n.prescale ≠ m.prescale →
    ∃ nb, i = .drvReset nb ∨ (∃ rate, i = .drvSetfreq nb rate ∨ ∃ k, i = .stpSetfreq nb k rate)
  busOpen : n.busOpen ≠ m.busOpen → n.busOpen = true ∧ ∃ nb, i = .drvInit nb
  initialised : n.initialised ≠ m.initialised →
    (∃ nb, i = .drvInit nb) ∨ (n.initialised = false ∧ ∃ nb, i = .drvReset nb)

/-- The command `i` may have changed the configuration `c` of stepper `k` to `e`. -/
structure ConfigWriters (i : Instr) (k : StepperId) (c e : StepperConfig) : Prop where
  pin : e.pin ≠ c.pin → ∃ nb p, i = .stpPins nb k p
  spr : e.spr ≠ c.spr → ∃ nb n, i = .stpSetsteps nb k n
  ms : e.ms ≠ c.ms → ∃ nb m, i = .stpSetmicro nb k m
  style : e.style ≠ c.style → ∃ nb y, i = .stpSetstyle nb k y
  current : e.current ≠ c.current → ∃ nb n, i = .stpSetcurrent nb k n
  speed : e.speedUnit ≠ c.speedUnit ∨ e.speedValue ≠ c.speedValue → ∃ nb u v, i = .stpSetspeed nb k u v
  initialised : e.initialised ≠ c.initialised →
    (e.initialised = true ∧ ∃ nb, i = .stpInit nb k) ∨ (e.initialised = false ∧ ∃ nb p, i = .stpPins nb k p)
  rates : e.stepFreq ≠ c.stepFreq ∨ e.pulseFreq ≠ c.pulseFreq → ∃ nb,
    i = .stpInit nb k ∨ (∃ n, i = .stpSetsteps nb k n) ∨ (∃ m, i = .stpSetmicro nb k m) ∨
    (∃ y, i = .stpSetstyle nb k y) ∨ (∃ u v, i = .stpSetspeed nb k u v)

theorem ImageWriters.refl (i : Instr) (m : Image) : ImageWriters i m m := by
  constructor <;> intro h <;> exact absurd rfl h

theorem ConfigWriters.refl (i : Instr) (k : StepperId) (c : StepperConfig) : ConfigWriters i k c c := by
  constructor <;> intro h <;> simp at h

/-- An image with the same flags and prescale. -/
theorem ImageWriters.of_flags {i : Instr} {m n n' : Image} (h : ImageWriters i m n) (hp : n'.prescale = n.prescale)
    (hb : n'.busOpen = n.busOpen) (hi : n'.initialised = n.initialised) : ImageWriters i m n' :=
  ⟨by rw [hp]; exact h.prescale, by rw [hb]; exact h.busOpen, by rw [hi]; exact h.initialised⟩

theorem ImageWriters.write {i : Instr} {m n n' : Image} (h : ImageWriters i m n) (w : ImageWrite i n n') :
    ImageWriters i m n' := by
  cases w with
  | opened nb => exact { h with busOpen := fun _ => ⟨rfl, nb, rfl⟩ }
  | fallen nb => exact { h with initialised := fun _ => .inl ⟨nb, rfl⟩ }
  | risen nb => exact { h with initialised := fun _ => .inl ⟨nb, rfl⟩ }
  | cleared | chan | pin | all => exact h.of_flags rfl rfl rfl
  | freq nb rate => exact { h with prescale := fun _ => ⟨nb, .inr ⟨rate, .inl rfl⟩⟩ }
  | stpFreq nb k rate => exact { h with prescale := fun _ => ⟨nb, .inr ⟨rate, .inr ⟨k, rfl⟩⟩⟩ }

theorem ConfigWriters.write {i : Instr} {k : StepperId} {c : StepperConfig} {u : State} {st : Stepper}
    (h : ConfigWriters i k c (u.stepper k).cfg) (w : ConfigWrite u k i st) : ConfigWriters i k c st.cfg := by
  cases w with
  | pins nb p => exact { h with pin := fun _ => ⟨nb, p, rfl⟩, initialised := fun _ => .inr ⟨rfl, nb, p, rfl⟩ }
  | steps nb n => exact { h with spr := fun _ => ⟨nb, n, rfl⟩, rates := fun _ => ⟨nb, .inr (.inl ⟨n, rfl⟩)⟩ }
  | micro nb m => exact { h with ms := fun _ => ⟨nb, m, rfl⟩, rates := fun _ => ⟨nb, .inr (.inr (.inl ⟨m, rfl⟩))⟩ }
  | style nb y => exact { h with
      style := fun _ => ⟨nb, y, rfl⟩, rates := fun _ => ⟨nb, .inr (.inr (.inr (.inl ⟨y, rfl⟩)))⟩ }
  | current nb n => exact { h with current := fun _ => ⟨nb, n, rfl⟩ }
  | speed nb x v => exact { h with
      speed := fun _ => ⟨nb, x, v, rfl⟩, rates := fun _ => ⟨nb, .inr (.inr (.inr (.inr ⟨x, v, rfl⟩)))⟩ }
  | init nb => exact { h with initialised := fun _ => .inl ⟨rfl, nb, rfl⟩, rates := fun _ => ⟨nb, .inl rfl⟩ }

/-- The command `i` may have changed the flags and configurations of `s` to those of `u`. -/
def WrittenBy (i : Instr) (s u : State) : Prop :=
  ImageWriters i s.img u.img ∧ ∀ k, ConfigWriters i k (s.stepper k).cfg (u.stepper k).cfg

theorem writtenBy_keptDuring (i : Instr) (s : State) : KeptDuring i (WrittenBy i s) := by
  refine ⟨fun u b hn ⟨hi, hk⟩ => ?_, fun u v m ⟨hi, hk⟩ => ?_⟩
  · have hb := background_beside u b hn
    exact ⟨hi.of_flags hb.prescale hb.busOpen hb.initialised, fun k => by rw [hb.cfg k]; exact hk k⟩
  · cases m with
    | same img stp => exact ⟨by rw [img]; exact hi, fun k => by rw [stepper_of_stp stp]; exact hk k⟩
    | image img stp => exact ⟨hi.write img, fun k => by rw [stepper_of_stp stp]; exact hk k⟩
    | forget nb cmd img stp =>
      refine ⟨?_, fun k => by rw [stp k]; exact hk k⟩
      rw [img]
      exact { hi with prescale := fun _ => ⟨nb, .inl cmd⟩, initialised := fun _ => .inr ⟨rfl, nb, cmd⟩ }
    | config k own img others =>
      refine ⟨by rw [img]; exact hi, fun j => ?_⟩
      by_cases e : j = k
      · subst e; exact (hk j).write own
      · rw [others j e]; exact hk j
    | motion k own move =>
      obtain ⟨hp, hb, hini⟩ := move.flags
      exact ⟨hi.of_flags hp hb hini, fun j => by rw [move.cfg j]; exact hk j⟩

/-- Settles O50: every move of a command is a write that R22, R39 or R40 gives to it, and the agents beside the CP write none of these
elements. -/
theorem writersOfState : Obligations.WritersOfState := by
  refine ⟨fun i s t tk hc he => ?_, fun b s hn => ?_⟩
  · have hcp : s.cp ≠ .idle := by obtain ⟨w, n, h⟩ := hc; rw [h]; simp
    have hs : WrittenBy i s s := ⟨.refl i s.img, fun k => .refl i k _⟩
    rcases exec_keeps (writtenBy_keptDuring i s) hcp hs he with ⟨hi, hk⟩ | hr
    · exact .inr ⟨hi.prescale, hi.busOpen, hi.initialised, fun k => ⟨(hk k).pin, (hk k).spr, (hk k).ms, (hk k).style,
        (hk k).current, (hk k).speed, (hk k).initialised, (hk k).rates⟩⟩
    · exact .inl hr
  · have hb := background_beside s b hn
    exact ⟨hb.prescale, hb.busOpen, hb.initialised, hb.cfg⟩

/-! ### Caches -/

/-- The commands that may unset cache entries of stepper `k` (R36, R74). -/
def EmptiesCache (i : Instr) (k : StepperId) : Prop := ∃ nb, i = .drvReset nb ∨ ∃ p, i = .stpPins nb k p

/-- The commands that may change the cache of stepper `k` while it has no run. -/
def WritesCache (i : Instr) (k : StepperId) : Prop :=
  ∃ nb, i = .drvReset nb ∨ (∃ p, i = .stpPins nb k p) ∨ (∃ d, i = .stpOnestep nb k d) ∨ (∃ d n, i = .stpStep nb k d n) ∨
    i = .stpRelease nb k

/-- What `i` leaves of a cache `c` of stepper `k`: every entry that is set stays set. -/
def EntriesStay (i : Instr) (k : StepperId) (c : RoleMap (Option Tick)) (u : State) : Prop :=
  EmptiesCache i k ∨ ∀ x, (c.get x).isSome = true → ((u.stepper k).cache.get x).isSome = true

theorem EntriesStay.motion {i : Instr} {k j : StepperId} {c : RoleMap (Option Tick)} {u v : State} (h : EntriesStay i k c u)
    (m : MotionMove j u v) : EntriesStay i k c v := by
  refine h.imp_right fun h x hx => ?_
  by_cases e : k = j
  · subst e
    cases m with
    | work _ _ own _ => rw [own.cache]; exact h x hx
    | pin t _ eq =>
      rw [eq, pinWritten_stepper_self, RoleMap.get_set]
      split
      · rfl
      · exact h x hx
  · rw [m.others e]; exact h x hx

/-- Of the configuration commands, `STP_PINS` alone touches the cache. -/
theorem ConfigWrite.cache {u : State} {k : StepperId} {i : Instr} {st : Stepper} (h : ConfigWrite u k i st) :
    (∃ nb p, i = .stpPins nb k p) ∨ st.cache = (u.stepper k).cache := by
  cases h with
  | pins nb p => exact .inl ⟨nb, p, rfl⟩
  | steps | micro | style | current | speed | init => exact .inr rfl

/-- No configuration command touches the run, the vector write in progress or the held report. -/
theorem ConfigWrite.idle {u : State} {k : StepperId} {i : Instr} {st : Stepper} (h : ConfigWrite u k i st) :
    st.run = (u.stepper k).run ∧ st.job = (u.stepper k).job ∧ st.held = (u.stepper k).held := by
  cases h <;> exact ⟨rfl, rfl, rfl⟩

theorem entriesStay_keptDuring (i : Instr) (k : StepperId) (c : RoleMap (Option Tick)) :
    KeptDuring i (EntriesStay i k c) := by
  refine ⟨fun u b hn h => ?_, fun u v m h => ?_⟩
  · obtain ⟨j, hj⟩ := background_moves u b hn
    exact hj.keeps (fun _ _ m h => h.motion m) h
  · cases m with
    | same _ stp => exact h.imp_right fun h x hx => by rw [stepper_of_stp stp]; exact h x hx
    | image _ stp => exact h.imp_right fun h x hx => by rw [stepper_of_stp stp]; exact h x hx
    | forget nb cmd _ _ => exact .inl ⟨nb, .inl cmd⟩
    | config j own _ others =>
      by_cases e : k = j
      · subst e
        rcases own.cache with ⟨nb, p, hi⟩ | hc
        · exact .inl ⟨nb, .inr ⟨p, hi⟩⟩
        · exact h.imp_right fun h x hx => by rw [hc]; exact h x hx
      · exact h.imp_right fun h x hx => by rw [others k e]; exact h x hx
    | motion j _ move => exact h.motion move

/-- What `i` leaves of a stepper `k` without a run: it still has none, and its cache is `c`. -/
def IdleCacheStays (i : Instr) (k : StepperId) (c : RoleMap (Option Tick)) (u : State) : Prop :=
  WritesCache i k ∨ ((u.stepper k).run.running = false ∧ (u.stepper k).job = none ∧ (u.stepper k).held = none ∧
    (u.stepper k).cache = c)

theorem IdleCacheStays.of_stepper {i : Instr} {k : StepperId} {c : RoleMap (Option Tick)} {u v : State}
    (h : IdleCacheStays i k c u) (e : v.stepper k = u.stepper k) : IdleCacheStays i k c v := by
  rw [IdleCacheStays, e]; exact h

theorem idleCacheStays_keptDuring (i : Instr) (k : StepperId) (c : RoleMap (Option Tick)) :
    KeptDuring i (IdleCacheStays i k c) := by
  refine ⟨fun u b hn h => ?_, fun u v m h => ?_⟩
  · rcases h with h | h
    · exact .inl h
    · have ⟨hr, hj, hh, _⟩ := h
      exact IdleCacheStays.of_stepper (.inr h)
        (background_dormant u b k ⟨by simp [Stepper.inBackground, hr], hj, hh⟩ hn)
  · cases m with
    | same _ stp => exact h.of_stepper (stepper_of_stp stp k)
    | image _ stp => exact h.of_stepper (stepper_of_stp stp k)
    | forget nb cmd _ _ => exact .inl ⟨nb, .inl cmd⟩
    | config j own _ others =>
      by_cases e : k = j
      · subst e
        rcases own.cache with ⟨nb, p, hi⟩ | hc
        · exact .inl ⟨nb, .inr (.inl ⟨p, hi⟩)⟩
        · obtain ⟨hr, hj, hh⟩ := own.idle
          rw [IdleCacheStays, hr, hj, hh, hc]
          exact h
      · exact h.of_stepper (others k e)
    | motion j own move =>
      by_cases e : k = j
      · subst e
        rcases own with ⟨nb, ⟨d, rfl⟩ | ⟨d, n, rfl⟩ | rfl⟩ | ⟨_, hrun⟩
        · exact .inl ⟨nb, .inr (.inr (.inl ⟨d, rfl⟩))⟩
        · exact .inl ⟨nb, .inr (.inr (.inr (.inl ⟨d, n, rfl⟩)))⟩
        · exact .inl ⟨nb, .inr (.inr (.inr (.inr rfl)))⟩
        · exact h.imp_right fun h => by rw [h.1] at hrun; cases hrun
      · exact h.of_stepper (move.others e)

/-- Settles O51: moves of the motion only set cache entries, the moves that empty a cache are those of `DRV_RESET` and `STP_PINS`, and
a stepper without a run is moved by its own motion commands alone. -/
theorem cacheChanges : Obligations.CacheChanges := by
  intro i s t k tk hc he
  have hcp : s.cp ≠ .idle := by obtain ⟨w, n, h⟩ := hc; rw [h]; simp
  rcases exec_keeps (entriesStay_keptDuring i k (s.stepper k).cache) hcp (.inr fun _ hx => hx) he with h1 | hr
  · by_cases hidle : (s.stepper k).run.running = false ∧ (s.stepper k).job = none ∧ (s.stepper k).held = none
    · obtain ⟨hrun, hj, hh⟩ := hidle
      rcases exec_keeps (idleCacheStays_keptDuring i k (s.stepper k).cache) hcp (.inr ⟨hrun, hj, hh, rfl⟩) he with h2 | hr
      · refine .inr ⟨fun x v hv hn => h1.resolve_right fun h => ?_, fun _ _ _ hne => h2.resolve_right fun h => hne h.2.2.2⟩
        simpa [hn] using h x (by simp [hv])
      · exact .inl hr
    · refine .inr ⟨fun x v hv hn => h1.resolve_right fun h => ?_, fun hrun hj hh => absurd ⟨hrun, hj, hh⟩ hidle⟩
      simpa [hn] using h x (by simp [hv])
  · exact .inl hr

end Sys2Proof.Machine
end

section
/-! The decoder lets through legal operands alone (30_encoding.md R94, R105), one lemma per operand that is checked. -/

namespace Sys2Proof.Laws

open Sys2Proof

/-- What a mapped check lets through comes from what the check lets through. -/
theorem ok_of_map_ok {ε α β : Type} {e : Except ε α} {f : α → β} {y : β} (h : e.map f = .ok y) : ∃ x, e = .ok x ∧ f x = y := by
  cases e with
  | error => cases h
  | ok x => cases h; exact ⟨x, rfl, rfl⟩

theorem readTicks_legal {a : BitVec 16} {b : W32} {t : Tick × Tick} (h : readTicks a b = .ok t) :
    tickLegal t.1 = true ∧ tickLegal t.2 = true := by
  unfold readTicks Config.tickMax at h
  split at h
  · cases h
  · split at h
    · cases h
    · cases h
      simp only [tickLegal, Config.tickMax, BitVec.toNat_setWidth, decide_eq_true_eq]
      omega

/-- A prescale of at most 255 needs a rate of at least 1562500 (R131). -/
theorem readRate_legal {b r : W32} (h : readRate b = .ok r) : rateLegal r = true := by
  unfold readRate at h
  split at h
  · cases h
  · rename_i hz
    split at h
    · cases h
    · rename_i hp
      cases h
      have hpos : 0 < 4096 * b.toNat := by
        have : b.toNat ≠ 0 := fun e => hz (BitVec.eq_of_toNat_eq e)
        omega
      have hdiv : (25000000 * 65536 + (4096 * b.toNat - 1)) / (4096 * b.toNat) < 257 := by
        simp only [computePrescale, Config.oscHz, Config.ticks] at hp
        omega
      rw [Nat.div_lt_iff_lt_mul hpos] at hdiv
      simp only [rateLegal, decide_eq_true_eq]
      omega

theorem decodeDriver_wf {op : Opcode} {w : CmdWord} {i : Instr} (h : decodeDriver op w = .ok i) : i.wf = true := by
  cases op with
  | drvInit | drvReset | drvGetfreq => cases h; rfl
  | drvSetfreq =>
    obtain ⟨r, hr, rfl⟩ := ok_of_map_ok h
    exact readRate_legal hr
  | drvSetchan =>
    obtain ⟨t, ht, rfl⟩ := ok_of_map_ok h
    simpa [Instr.wf] using readTicks_legal ht
  | drvSetpin =>
    obtain ⟨v, _, rfl⟩ := ok_of_map_ok h
    rfl
  | drvSetall =>
    obtain ⟨t, ht, rfl⟩ := ok_of_map_ok h
    simpa [Instr.wf] using readTicks_legal ht
  | _ => cases h

theorem decodeStepper_wf {op : Opcode} {k : StepperId} {w : CmdWord} {i : Instr} (h : decodeStepper op k w = .ok i) :
    i.wf = true := by
  cases op with
  | stpInit | stpRelease | stpStop | stpStatus | stpGetrates => cases h; rfl
  | stpPins =>
    simp only [decodeStepper] at h
    split at h
    · rename_i hp; cases h; exact hp
    · cases h
  | stpSetsteps =>
    simp only [decodeStepper] at h
    split at h
    · cases h
    · rename_i hn
      cases h
      obtain ⟨hz, hle⟩ := not_or.1 hn
      have hne : (wordB w).toNat ≠ 0 := fun e => hz (BitVec.eq_of_toNat_eq e)
      simp only [Instr.wf, bne_iff_ne, ne_eq]
      intro e
      have := congrArg BitVec.toNat e
      simp only [BitVec.toNat_setWidth, BitVec.toNat_ofNat] at this
      omega
  | stpSetcurrent =>
    simp only [decodeStepper] at h
    split at h
    · cases h
    · cases h
      simp only [Instr.wf, BitVec.toNat_setWidth, decide_eq_true_eq]
      omega
  | stpSetspeed =>
    simp only [decodeStepper] at h
    cases hu : readUnit (wordA w) with
    | error => rw [hu] at h; cases h
    | ok x =>
      rw [hu] at h
      simp only [Except.bind] at h
      split at h
      · cases h
      · rename_i hv; cases h; simpa [Instr.wf] using hv
  | stpSetfreq =>
    obtain ⟨r, hr, rfl⟩ := ok_of_map_ok h
    exact readRate_legal hr
  | stpSetmicro | stpSetstyle | stpOnestep | stpStep =>
    obtain ⟨x, _, rfl⟩ := ok_of_map_ok h
    rfl
  | _ => cases h

/-- Every command the decoder accepts has legal operands. -/
theorem decode_legal {w : CmdWord} {i : Instr} (h : decode w = .ok i) : i.wf = true := by
  unfold decode at h
  split at h
  · cases h
  · split at h
    · cases h
    · split at h
      · split at h
        · exact decodeStepper_wf h
        · cases h
      · exact decodeDriver_wf h

end Sys2Proof.Laws
end

section
/-! The invariants of phases, rates, configurations and values (10_state.md R23 to R32, R36, R40): each holds of a discarded state, the
motion of a stepper keeps it, and so does every move of a command with legal operands. -/

namespace Sys2Proof.Machine

open Sys2Proof

/-! ### Moves, stepper by stepper -/

/-- What is true of the reset stepper, and neither the motion of a stepper nor a command with legal operands undoes, stepper by
stepper. -/
structure StepperInv (Q : Stepper → Prop) : Prop where
  reset : ∀ t0, Q { Stepper.reset with run := { Stepper.reset.run with t0 := t0 } }
  work : ∀ st st', Works st st' → Q st → Q st'
  pin : ∀ (st : Stepper) t, Owed st t → Q st → Q { st with cache := st.cache.set t.role (some t.value) }
  forget : ∀ st : Stepper, Q st → Q { st with cache := emptyCache }
  config : ∀ (i : Instr) u k st, i.wf = true → ConfigWrite u k i st → Q (u.stepper k) → Q st

theorem StepperInv.motion {Q : Stepper → Prop} (h : StepperInv Q) {k : StepperId} {u v : State} (m : MotionMove k u v)
    (hu : ∀ j, Q (u.stepper j)) (j : StepperId) : Q (v.stepper j) := by
  by_cases e : j = k
  · subst e
    cases m with
    | work _ _ own _ => exact h.work _ _ own (hu j)
    | pin t owed eq => rw [eq, pinWritten_stepper_self]; exact h.pin _ t owed (hu j)
  · rw [m.others e]; exact hu j

theorem StepperInv.command {Q : Stepper → Prop} (h : StepperInv Q) {i : Instr} (hi : i.wf = true) {u v : State}
    (m : CommandMove i u v) (hu : ∀ j, Q (u.stepper j)) (j : StepperId) : Q (v.stepper j) := by
  cases m with
  | same _ stp => rw [stepper_of_stp stp]; exact hu j
  | image _ stp => rw [stepper_of_stp stp]; exact hu j
  | forget _ _ _ stp => rw [stp j]; exact h.forget _ (hu j)
  | config k own _ others =>
    by_cases e : j = k
    · subst e; exact h.config i u j _ hi own (hu j)
    · rw [others j e]; exact hu j
  | motion k _ move => exact h.motion move hu j

theorem StepperInv.discarded {Q : Stepper → Prop} (h : StepperInv Q) {u v : State} (d : Discarded u v) (j : StepperId) :
    Q (v.stepper j) := by rw [d.stp j]; exact h.reset _

/-- Every step of the machine keeps what holds stepper by stepper. -/
theorem StepperInv.step {Q : Stepper → Prop} (h : StepperInv Q) {s t : State} (hs : ∀ j, Q (s.stepper j))
    (he : step s = .next t) : ∀ j, Q (t.stepper j) :=
  step_keeps_of_moves (P := fun u => ∀ j, Q (u.stepper j)) (fun _ _ _ m hu => h.motion m hu)
    (fun _ _ _ _ hw m hu => h.command (Laws.decode_legal hw) m hu) (fun _ _ d => h.discarded d)
    (fun _ _ _ hstp hu j => by rw [stepper_of_stp hstp]; exact hu j) hs he

/-! ### Phases -/

theorem micro_count_pos (m : Micro) : 0 < m.count := by cases m <;> decide

theorem micro_count_le (m : Micro) : m.count ≤ 16 := by cases m <;> decide

/-- A number reduced modulo `4*ms` fits the phase (R32). -/
theorem phase_mod_lt (n : ℕ) (m : Micro) : (BitVec.ofNat 6 (n % (4 * m.count))).toNat < 4 * m.count := by
  have hlt : n % (4 * m.count) < 4 * m.count := Nat.mod_lt _ (by have := micro_count_pos m; omega)
  exact Nat.lt_of_le_of_lt (Nat.mod_le _ _) hlt

theorem advance_lt (p : BitVec 6) (d : Dir) (st : Style) (m : Micro) : (advance p d st m).toNat < 4 * m.count := by
  cases d <;> exact phase_mod_lt _ m

/-- The configuration a vector write uses is the stepper's own. -/
theorem ready_eq {c : StepperConfig} {r : Ready} (h : c.ready = some r) :
    c.pin = some r.pins ∧ c.ms = some r.ms ∧ c.style = some r.style ∧ c.current = some r.current := by
  unfold StepperConfig.ready at h
  split at h
  · split at h
    · rename_i hp hm hy hcur
      cases h
      exact ⟨hp, hm, hy, hcur⟩
    · cases h
  · cases h

/-- The phase of one stepper is in range (R32). -/
def PhaseLegal (st : Stepper) : Prop := ∀ m, st.cfg.ms = some m → st.motion.phase.toNat < 4 * m.count

theorem phaseLegal_config {i : Instr} {u : State} {k : StepperId} {st : Stepper} (w : ConfigWrite u k i st)
    (h : PhaseLegal (u.stepper k)) : PhaseLegal st := by
  cases w with
  | pins nb p =>
    intro m _
    have := micro_count_pos m
    simp only [BitVec.toNat_ofNat, Nat.zero_mod]
    omega
  | micro nb m =>
    intro m' hm
    obtain rfl : m = m' := Option.some.inj hm
    exact phase_mod_lt _ m
  | steps | style | current | speed | init => exact h

theorem phaseLegal_inv : StepperInv PhaseLegal where
  reset _ := fun _ hm => by cases hm
  work st st' w h := by
    intro m hm
    rw [w.cfg] at hm
    rcases w.phase with e | ⟨r, d, hr, e⟩ <;> rw [e]
    · exact h m hm
    · obtain rfl : r.ms = m := Option.some.inj ((ready_eq hr).2.1.symm.trans hm)
      exact advance_lt _ _ _ _
  pin _ _ _ h := h
  forget _ h := h
  config _ _ _ _ _ w h := phaseLegal_config w h

/-- Settles O54: the phase changes by an advance, which is modulo `4*ms`, by `STP_SETMICRO`, which reduces it modulo the new `4*ms`, and
by `STP_PINS`, which clears it. -/
theorem phaseInvKept : Obligations.PhaseInvKept := fun _ _ h hs => phaseLegal_inv.step h hs

/-! ### Rates -/

/-- The stored rates of one stepper are those of its configuration (R31). -/
def RatesFresh (st : Stepper) : Prop := (st.cfg.stepFreq, st.cfg.pulseFreq) = recompute st.cfg

/-- The converter does not read the stored rates. -/
theorem recompute_withRates (c : StepperConfig) : recompute c.withRates = recompute c := rfl

theorem ratesFresh_withRates {st : Stepper} {c : StepperConfig} (h : st.cfg = c.withRates) : RatesFresh st := by
  rw [RatesFresh, h, recompute_withRates]
  rfl

theorem ratesFresh_config {i : Instr} {u : State} {k : StepperId} {st : Stepper} (w : ConfigWrite u k i st)
    (h : RatesFresh (u.stepper k)) : RatesFresh st := by
  cases w with
  | pins | current => exact h
  | steps | micro | style | speed | init => exact ratesFresh_withRates rfl

theorem ratesFresh_inv : StepperInv RatesFresh where
  reset _ := rfl
  work _ _ w h := by rw [RatesFresh, w.cfg]; exact h
  pin _ _ _ h := h
  forget _ h := h
  config _ _ _ _ _ w h := ratesFresh_config w h

/-- Settles O55: every command that changes what the converter reads stores the converter's result. -/
theorem ratesInvKept : Obligations.RatesInvKept := fun _ _ h hs => ratesFresh_inv.step h hs

/-! ### Configurations -/

theorem incomplete_eq_false_iff (c : StepperConfig) : c.incomplete = false ↔
    c.pin.isSome = true ∧ c.spr.isSome = true ∧ c.ms.isSome = true ∧ c.style.isSome = true ∧ c.current.isSome = true := by
  simp [StepperConfig.incomplete, and_assoc, Option.isSome_iff_ne_none]

theorem configLegal_config {i : Instr} {u : State} {k : StepperId} {st : Stepper} (hi : i.wf = true)
    (w : ConfigWrite u k i st) (h : ConfigLegal (u.stepper k).cfg) : ConfigLegal st.cfg := by
  have hset := fun hini => (incomplete_eq_false_iff _).1 (h.complete hini)
  cases w with
  | pins nb p =>
    refine { h with pins := fun q hq => ?_, complete := fun hf => by cases hf }
    cases hq
    exact hi
  | steps nb n =>
    refine { h with spr := fun m hm => ?_, complete := fun hini => ?_ }
    · cases hm
      simpa [Instr.wf] using hi
    · obtain ⟨hp, _, hm, hy, hc⟩ := hset hini
      exact (incomplete_eq_false_iff _).2 ⟨hp, rfl, hm, hy, hc⟩
  | micro nb m =>
    refine { h with complete := fun hini => ?_ }
    obtain ⟨hp, hn, _, hy, hc⟩ := hset hini
    exact (incomplete_eq_false_iff _).2 ⟨hp, hn, rfl, hy, hc⟩
  | style nb y =>
    refine { h with complete := fun hini => ?_ }
    obtain ⟨hp, hn, hm, _, hc⟩ := hset hini
    exact (incomplete_eq_false_iff _).2 ⟨hp, hn, hm, rfl, hc⟩
  | current nb n =>
    refine { h with current := fun m hm => ?_, complete := fun hini => ?_ }
    · cases hm
      simpa [Instr.wf] using hi
    · obtain ⟨hp, hn, hm, hy, _⟩ := hset hini
      exact (incomplete_eq_false_iff _).2 ⟨hp, hn, hm, hy, rfl⟩
  | speed nb x v =>
    refine { h with speed := fun y hy => ?_, target := rfl }
    cases hy
    simpa [Instr.wf] using hi
  | init nb hc =>
    refine { h with complete := fun _ => ?_ }
    unfold stpInitCheck at hc
    split at hc
    · cases hc
    · split at hc
      · cases hc
      · rename_i hn
        exact Bool.eq_false_iff.2 hn

theorem configLegal_reset : ConfigLegal Stepper.reset.cfg := by
  constructor <;> simp [Stepper.reset]

theorem configLegal_inv : StepperInv (fun st => ConfigLegal st.cfg) where
  reset _ := configLegal_reset
  work _ _ w h := by rw [w.cfg]; exact h
  pin _ _ _ h := h
  forget _ h := h
  config _ _ _ _ hi w h := configLegal_config hi w h

/-- No channel is a pin of two steppers (R24). -/
def PinsDisjoint (u : State) : Prop :=
  ∀ i j, i ≠ j → ∀ c, c ∈ pinChannels (u.stepper i) → c ∉ pinChannels (u.stepper j)

/-- The channels of a stepper are read off its pins alone. -/
theorem pinChannels_of_pin {st st' : Stepper} (h : st'.cfg.pin = st.cfg.pin) : pinChannels st' = pinChannels st := by
  simp only [pinChannels, h]

theorem PinsDisjoint.of_pins {u v : State} (h : PinsDisjoint u) (hp : ∀ j, (v.stepper j).cfg.pin = (u.stepper j).cfg.pin) :
    PinsDisjoint v := by
  intro i j hij
  rw [pinChannels_of_pin (hp i), pinChannels_of_pin (hp j)]
  exact h i j hij

/-- Pins that pass the check of `STP_PINS` are no pins of another stepper (R161). -/
theorem pinsCheck_free {u : State} {k : StepperId} {p : Pins} (h : pinsCheck u k p = none) {j : StepperId} (hj : j ≠ k)
    {c : Chan} (hc : c ∈ pinChannels (u.stepper j)) : c ∉ p.toList := by
  unfold pinsCheck at h
  split at h
  · cases h
  · split at h
    · cases h
    · rename_i hfree
      intro hcp
      refine hfree (List.any_eq_true.2 ⟨j, List.mem_finRange j, ?_⟩)
      simp only [Bool.and_eq_true, bne_iff_ne, List.any_eq_true, List.contains_iff_mem]
      exact ⟨hj, c, hc, hcp⟩

/-- A configuration command changes its stepper's pins only as `STP_PINS`, and then to pins that passed the check. -/
theorem ConfigWrite.pin {u : State} {k : StepperId} {i : Instr} {st : Stepper} (w : ConfigWrite u k i st) :
    st.cfg.pin = (u.stepper k).cfg.pin ∨ ∃ p, pinsCheck u k p = none ∧ st.cfg.pin = some p := by
  cases w with
  | pins nb p hc => exact .inr ⟨p, hc, rfl⟩
  | steps | micro | style | current | speed | init => exact .inl rfl

theorem PinsDisjoint.command {i : Instr} {u v : State} (h : PinsDisjoint u) (m : CommandMove i u v) : PinsDisjoint v := by
  cases m with
  | same _ stp => exact h.of_pins fun j => by rw [stepper_of_stp stp]
  | image _ stp => exact h.of_pins fun j => by rw [stepper_of_stp stp]
  | forget _ _ _ stp => exact h.of_pins fun j => by rw [stp j]
  | motion k _ move => exact h.of_pins fun j => by rw [move.cfg j]
  | config k own _ others =>
    rcases own.pin with e | ⟨p, hfree, e⟩
    · refine h.of_pins fun j => ?_
      by_cases hj : j = k
      · subst hj; exact e
      · rw [others j hj]
    · have hk : pinChannels (v.stepper k) = p.toList := by simp only [pinChannels, e]
      intro a b hab c hca hcb
      by_cases ha : a = k
      · subst ha
        rw [hk] at hca
        rw [others b (Ne.symm hab)] at hcb
        exact pinsCheck_free hfree (Ne.symm hab) hcb hca
      · rw [others a ha] at hca
        by_cases hb : b = k
        · subst hb
          rw [hk] at hcb
          exact pinsCheck_free hfree ha hca hcb
        · rw [others b hb] at hcb
          exact h a b hab c hca hcb

theorem pinsDisjoint_of_discarded {u v : State} (d : Discarded u v) : PinsDisjoint v := by
  intro i j _ c hc
  rw [d.stp i] at hc
  cases hc

/-- Settles O56: the setters store operands that the decoder has checked, `STP_INIT` and `STP_PINS` what their own checks let
through. -/
theorem configInvKept : Obligations.ConfigInvKept := fun _ _ _ h hs =>
  ⟨configLegal_inv.step h.1 hs, step_keeps_of_moves (P := PinsDisjoint) (fun _ _ _ m hu => hu.of_pins fun j => by rw [m.cfg j])
    (fun _ _ _ _ _ m hu => hu.command m) (fun _ _ d => pinsDisjoint_of_discarded d)
    (fun _ _ _ hstp hu => hu.of_pins fun j => by rw [stepper_of_stp hstp]) h.2 hs⟩

/-! ### Values -/

/-- The image holds legal ticks, and of each channel both or none (R23). -/
def ImageLegal (m : Image) : Prop :=
  ∀ c, (m.onTick c).isSome = (m.offTick c).isSome ∧
    (∀ v, m.onTick c = some v → v.toNat ≤ 4096) ∧ (∀ v, m.offTick c = some v → v.toNat ≤ 4096)

/-- Cache, current and work in progress of one stepper hold legal values (R28, R36). -/
structure ValuesLegal (st : Stepper) : Prop where
  cache : ∀ r v, st.cache.get r = some v → cacheLegal r v
  current : ∀ n, st.cfg.current = some n → n.toNat ≤ 32768
  jobs : ∀ j, st.job = some j → TaskLegal j.task ∧ ∀ t, t ∈ j.rest → TaskLegal t

theorem imageLegal_setChannel {m : Image} (c : Chan) {on off : Tick} (h : ImageLegal m) (hon : on.toNat ≤ 4096)
    (hoff : off.toNat ≤ 4096) : ImageLegal (m.setChannel c on off) := by
  intro d
  by_cases e : d = c
  · subst e
    rw [onTick_setChannel_self, offTick_setChannel_self]
    exact ⟨rfl, fun v hv => by cases hv; exact hon, fun v hv => by cases hv; exact hoff⟩
  · rw [onTick_setChannel_of_ne _ _ _ e, offTick_setChannel_of_ne _ _ _ e]
    exact h d

theorem imageLegal_setAllChannels (m : Image) {on off : Tick} (hon : on.toNat ≤ 4096) (hoff : off.toNat ≤ 4096) :
    ImageLegal (m.setAllChannels on off) := by
  intro c
  rw [onTick_setAllChannels, offTick_setAllChannels]
  exact ⟨rfl, fun v hv => by cases hv; exact hon, fun v hv => by cases hv; exact hoff⟩

theorem imageLegal_forget (m : Image) : ImageLegal m.forget := by
  intro c
  rw [onTick_forget, offTick_forget]
  exact ⟨rfl, (fun _ hv => nomatch hv), (fun _ hv => nomatch hv)⟩

theorem imageLegal_reset : ImageLegal Image.reset := imageLegal_forget Image.reset

theorem levelTicks_legal (v : Bool) : (levelTicks v).1.toNat ≤ 4096 ∧ (levelTicks v).2.toNat ≤ 4096 := by
  cases v <;> decide

theorem tickLegal_iff (t : Tick) : tickLegal t = true ↔ t.toNat ≤ 4096 := decide_eq_true_iff

theorem imageLegal_write {i : Instr} {m n : Image} (hi : i.wf = true) (w : ImageWrite i m n) (h : ImageLegal m) :
    ImageLegal n := by
  cases w with
  | opened | fallen | risen | freq | stpFreq => exact h
  | cleared => exact imageLegal_setAllChannels m (by decide) (by decide)
  | chan nb c on off =>
    obtain ⟨hon, hoff⟩ : on.toNat ≤ 4096 ∧ off.toNat ≤ 4096 := by simpa [Instr.wf, tickLegal_iff] using hi
    exact imageLegal_setChannel c h hon hoff
  | pin nb c v => exact imageLegal_setChannel c h (levelTicks_legal v).1 (levelTicks_legal v).2
  | all nb on off =>
    obtain ⟨hon, hoff⟩ : on.toNat ≤ 4096 ∧ off.toNat ≤ 4096 := by simpa [Instr.wf, tickLegal_iff] using hi
    exact imageLegal_setAllChannels m hon hoff

/-- A scaled duty is at most 4080 for a legal current (R206). -/
theorem scaleDuty_le (current : BitVec 16) (d : Byte) (h : current.toNat ≤ 32768) : (scaleDuty current d).toNat ≤ 4080 := by
  have hd : d.toNat ≤ 255 := Nat.le_of_lt_succ d.isLt
  have hmul : d.toNat * Config.dutyScale * current.toNat ≤ 255 * 16 * 32768 :=
    Nat.mul_le_mul (Nat.mul_le_mul hd (Nat.le_refl 16)) h
  have hdiv : d.toNat * Config.dutyScale * current.toNat / 32768 ≤ 4080 := Nat.div_le_of_le_mul (by omega)
  exact Nat.le_trans (Nat.mod_le _ _) hdiv

theorem pwmTask_legal {r : Ready} {role : Role} (d : Byte) (hr : r.current.toNat ≤ 32768) (hrole : roleIsPwm role = true) :
    TaskLegal (pwmTask r role d) := by
  have h := scaleDuty_le r.current d hr
  refine ⟨Nat.zero_le _, Nat.le_trans h (by decide), ?_⟩
  simpa [pwmTask, cacheLegal, hrole] using h

theorem coilTask_legal (r : Ready) {role : Role} (v : Bool) (hrole : roleIsPwm role = false) : TaskLegal (coilTask r role v) := by
  refine ⟨(levelTicks_legal v).1, (levelTicks_legal v).2, ?_⟩
  cases v <;> simp [coilTask, cacheLegal, hrole]

/-- The pins of a vector are legal for a legal current (R206, R207). -/
theorem vectorTasks_legal {r : Ready} {v : CoilVector} (hr : r.current.toNat ≤ 32768) {t : PinTask}
    (ht : t ∈ vectorTasks r v) : TaskLegal t := by
  simp only [vectorTasks, List.mem_cons, List.not_mem_nil, or_false] at ht
  rcases ht with rfl | rfl | rfl | rfl | rfl | rfl
  · exact pwmTask_legal _ hr rfl
  · exact pwmTask_legal _ hr rfl
  · exact coilTask_legal r _ rfl
  · exact coilTask_legal r _ rfl
  · exact coilTask_legal r _ rfl
  · exact coilTask_legal r _ rfl

/-- Every pin write that a legal stepper may still make is legal. -/
theorem Owed.legal {st : Stepper} {t : PinTask} (o : Owed st t) (h : ValuesLegal st) : TaskLegal t := by
  rcases o with ⟨r, v, hr, ht⟩ | ⟨j, hj, ht⟩
  · exact vectorTasks_legal (h.current _ (ready_eq hr).2.2.2) ht
  · rcases List.mem_cons.1 ht with rfl | ht
    · exact (h.jobs j hj).1
    · exact (h.jobs j hj).2 t ht

theorem valuesLegal_config {i : Instr} {u : State} {k : StepperId} {st : Stepper} (hi : i.wf = true)
    (w : ConfigWrite u k i st) (h : ValuesLegal (u.stepper k)) : ValuesLegal st := by
  cases w with
  | pins => exact { h with cache := fun r v hv => by rw [emptyCache_get] at hv; cases hv }
  | current nb n =>
    refine { h with current := fun m hm => ?_ }
    cases hm
    simpa [Instr.wf] using hi
  | steps | micro | style | speed | init => exact { h with }

theorem valuesLegal_inv : StepperInv ValuesLegal where
  reset _ := ⟨fun r v hv => by simp [Stepper.reset] at hv, (fun _ hn => nomatch hn), (fun _ hj => nomatch hj)⟩
  work st st' w h := by
    refine ⟨by rw [w.cache]; exact h.cache, by rw [w.cfg]; exact h.current, fun j hj => ?_⟩
    exact ⟨(w.job j hj _ (by simp)).legal h, fun t ht => (w.job j hj t (List.mem_cons_of_mem _ ht)).legal h⟩
  pin st t o h := by
    refine { h with cache := fun r v hv => ?_ }
    rw [RoleMap.get_set] at hv
    split at hv
    · rename_i e
      cases hv
      rw [e]
      exact (o.legal h).2.2
    · exact h.cache r v hv
  forget st h := { h with cache := fun r v hv => by rw [emptyCache_get] at hv; cases hv }
  config _ _ _ _ hi w h := valuesLegal_config hi w h

/-- The image is legal and so is every stepper's work: `ValuesInv`, part by part. -/
def AllLegal (u : State) : Prop := ImageLegal u.img ∧ ∀ j, ValuesLegal (u.stepper j)

theorem valuesInv_iff (u : State) : ValuesInv u ↔ AllLegal u :=
  ⟨fun h => ⟨h.image, fun j => ⟨h.cache j, h.current j, h.jobs j⟩⟩,
    fun h => ⟨h.1, fun j => (h.2 j).cache, fun j => (h.2 j).current, fun j => (h.2 j).jobs⟩⟩

theorem AllLegal.motion {k : StepperId} {u v : State} (h : AllLegal u) (m : MotionMove k u v) : AllLegal v := by
  refine ⟨?_, valuesLegal_inv.motion m h.2⟩
  cases m with
  | work img _ _ _ => rw [img]; exact h.1
  | pin t owed eq =>
    obtain ⟨hon, hoff, _⟩ := owed.legal (h.2 k)
    rw [eq]
    exact imageLegal_setChannel _ h.1 hon hoff

theorem AllLegal.command {i : Instr} {u v : State} (hi : i.wf = true) (h : AllLegal u) (m : CommandMove i u v) : AllLegal v := by
  refine ⟨?_, valuesLegal_inv.command hi m h.2⟩
  cases m with
  | same img _ => rw [img]; exact h.1
  | image img _ => exact imageLegal_write hi img h.1
  | forget _ _ img _ => rw [img]; exact imageLegal_forget _
  | config _ _ img _ => rw [img]; exact h.1
  | motion k _ move => exact (h.motion move).1

/-- Settles O57: a driver command writes ticks that the decoder has checked, and a vector write those of a legal current. -/
theorem valuesInvKept : Obligations.ValuesInvKept := by
  intro s t _ h hs
  rw [valuesInv_iff] at h ⊢
  exact step_keeps_of_moves (P := AllLegal) (fun _ _ _ m hu => hu.motion m)
    (fun _ _ _ _ hw m hu => hu.command (Laws.decode_legal hw) m)
    (fun _ _ d => ⟨by rw [d.img]; exact imageLegal_reset, valuesLegal_inv.discarded d⟩)
    (fun _ _ himg hstp hu => ⟨by rw [himg]; exact hu.1, fun j => by rw [stepper_of_stp hstp]; exact hu.2 j⟩) h hs

end Sys2Proof.Machine
end

section
/-! The queues (10_state.md R37; 40_driver.md R120; 60_exceptions.md R258). Unlike the properties of image and steppers, what holds of
`cmdq` after `rst` depends on what the host has submitted since, so that the sequences are gone through here with `rst` as one more step
of the host: whatever cuts a sequence off, the queues keep their bounds. -/

namespace Sys2Proof.Machine

open Sys2Proof

theorem MotionMove.queueInv {k : StepperId} {u v : State} (m : MotionMove k u v) (h : QueueInv u) : QueueInv v := by
  cases m with
  | work _ _ _ queues => exact queues h
  | pin t _ eq => exact h.of_queues (by rw [eq]; rfl) (by rw [eq]; rfl)

/-- Every step of the others keeps the queues, `rst` included. -/
theorem background_queueInv (u : State) (b : Background) (h : QueueInv u) : QueueInv (u.background b) := by
  by_cases hn : NotRst b u
  · obtain ⟨k, hk⟩ := background_moves u b hn
    exact hk.keeps (fun _ _ m hu => m.queueInv hu) h
  · obtain ⟨rfl, _⟩ : b = .host ∧ u.host.head? = some .rst := by simpa [NotRst] using hn
    exact hostTurn_queueInv h

/-! ### The CP's bus work -/

theorem thenSeq_queueInv {r : SeqEnd} {f : State → SeqEnd} (h : QueueInv r.1) (hf : ∀ u, QueueInv u → QueueInv (f u).1) :
    QueueInv (thenSeq r f).1 := by
  by_cases e : r.2 = none
  · rw [thenSeq_none e]; exact hf _ h
  · rw [thenSeq_some e]; exact h

theorem yield_queueInv (u : State) (h : QueueInv u) : QueueInv u.yield.1 :=
  interfere_keeps background_queueInv (fun _ hv => hv.of_queues (by simp) (by simp)) u h

theorem drainAhead_queueInv (n : ℕ) (u : State) (h : QueueInv u) : QueueInv (State.drainAhead n u).1 := by
  induction n generalizing u with
  | zero => exact h
  | succ n ih => exact thenSeq_queueInv (yield_queueInv _ (background_queueInv u .bus h)) ih

theorem await_queueInv (t : Txn) (u : State) (h : QueueInv u) : QueueInv (u.await t).1 :=
  thenSeq_queueInv (yield_queueInv u h) fun _ hv =>
  thenSeq_queueInv (yield_queueInv _ (hv.of_queues rfl rfl)) fun _ hw =>
  thenSeq_queueInv (drainAhead_queueInv _ _ hw) fun _ hx => yield_queueInv _ (hx.of_queues rfl rfl)

theorem transact_queueInv (t : Txn) {f : Answer → State → SeqEnd} (hf : ∀ a v, QueueInv v → QueueInv (f a v).1) (u : State)
    (h : QueueInv u) : QueueInv (u.transact t f).1 :=
  thenSeq_queueInv (await_queueInv t u h) fun _ hv => hf _ _ (hv.of_queues (by simp) (by simp))

theorem transactSeq_queueInv (t : Txn) (u : State) (h : QueueInv u) : QueueInv (u.transactSeq t).1 :=
  transact_queueInv t (fun _ _ hv => hv) u h

theorem memRead_queueInv (reg : Byte) {f : Byte → State → SeqEnd} (hf : ∀ a v, QueueInv v → QueueInv (f a v).1) (u : State)
    (h : QueueInv u) : QueueInv (u.memRead reg f).1 := by
  refine transact_queueInv _ (fun a v hv => ?_) u h
  split
  · exact hf _ v hv
  · exact hv

theorem settle_queueInv (ms : ℕ) (u : State) (h : QueueInv u) : QueueInv (u.settle ms).1 :=
  yield_queueInv _ (h.of_queues (by simp) (by simp))

theorem waitPeriod_queueInv (t : ℚ) (u : State) (h : QueueInv u) : QueueInv (u.waitPeriod t).1 :=
  yield_queueInv _ (h.of_queues (by simp) (by simp))

theorem writeAll_queueInv (l : List (Byte × Byte)) (u : State) (h : QueueInv u) : QueueInv (writeAll l u).1 := by
  induction l generalizing u with
  | nil => exact h
  | cons w l ih => exact thenSeq_queueInv (transactSeq_queueInv _ u h) ih

theorem pinWrite_queueInv (c : Chan) (on off : Tick) (u : State) (h : QueueInv u) : QueueInv (pinWrite c on off u).1 :=
  thenSeq_queueInv (writeAll_queueInv _ u h) fun _ hv => hv.of_queues rfl rfl

theorem allWrite_queueInv (on off : Tick) (u : State) (h : QueueInv u) : QueueInv (allWrite on off u).1 :=
  thenSeq_queueInv (writeAll_queueInv _ u h) fun _ hv => hv.of_queues rfl rfl

theorem exclusive_queueInv {f : State → SeqEnd} (hf : ∀ u, QueueInv u → QueueInv (f u).1) (u : State) (h : QueueInv u) :
    QueueInv (exclusive f u).1 := by
  refine thenSeq_queueInv (thenSeq_queueInv (yield_queueInv u h) fun v hv => ?_) fun w hw => (hf w hw).of_queues rfl rfl
  have hi : QueueInv v.completeInflight := by
    unfold State.completeInflight
    split
    · exact background_queueInv v .bus hv
    · exact hv
  exact hi.of_queues rfl rfl

/-! ### The sequences of the commands -/

theorem freqSequence_queueInv (p : Byte) (u : State) (h : QueueInv u) : QueueInv (freqSequence p u).1 :=
  memRead_queueInv _ (fun _ _ h1 =>
  thenSeq_queueInv (transactSeq_queueInv _ _ h1) fun _ h2 =>
  thenSeq_queueInv (transactSeq_queueInv _ _ h2) fun v h3 =>
  thenSeq_queueInv (transactSeq_queueInv _ _ (h3.of_queues (v := { v with img := { v.img with prescale := some p } }) rfl rfl))
    fun _ h4 =>
  thenSeq_queueInv (settle_queueInv _ _ h4) fun _ h5 => transactSeq_queueInv _ _ h5) u h

theorem initSequence_queueInv (u : State) (h : QueueInv u) : QueueInv (initSequence u).1 :=
  thenSeq_queueInv (transactSeq_queueInv _ u h) fun _ h1 =>
  thenSeq_queueInv (allWrite_queueInv _ _ _ (h1.of_queues rfl rfl)) fun _ h2 =>
  thenSeq_queueInv (transactSeq_queueInv _ _ h2) fun _ h3 =>
  thenSeq_queueInv (transactSeq_queueInv _ _ h3) fun _ h4 =>
  thenSeq_queueInv (settle_queueInv _ _ h4) fun _ h5 =>
  memRead_queueInv _ (fun _ _ h6 =>
  thenSeq_queueInv (transactSeq_queueInv _ _ h6) fun _ h7 =>
  thenSeq_queueInv (settle_queueInv _ _ h7) fun _ h8 => h8.of_queues rfl rfl) _ h5

theorem resetSequence_queueInv (u : State) (h : QueueInv u) : QueueInv (resetSequence u).1 :=
  thenSeq_queueInv (transactSeq_queueInv _ u h) fun _ hv => hv.of_queues rfl rfl

theorem lazyPins_queueInv (i : StepperId) (tasks : List PinTask) (u : State) (h : QueueInv u) :
    QueueInv (lazyPins i tasks u).1 := by
  induction tasks generalizing u with
  | nil => exact h
  | cons t rest ih =>
    refine thenSeq_queueInv ?_ ih
    unfold lazyPin
    split
    · exact h
    · exact thenSeq_queueInv (writeAll_queueInv _ u h) fun _ hv => hv.of_queues rfl rfl

theorem vectorWrite_queueInv (i : StepperId) (tasks : List PinTask) (u : State) (h : QueueInv u) :
    QueueInv (vectorWrite i tasks u).1 :=
  (lazyPins_queueInv i tasks _ (h.of_queues (v := u.setPulsing i true) rfl rfl)).of_queues rfl rfl

theorem stepOnce_queueInv (i : StepperId) (d : Dir) (r : Ready) (u : State) (h : QueueInv u) : QueueInv (stepOnce i d r u).1 :=
  vectorWrite_queueInv i _ _ (h.of_queues rfl rfl)

theorem blockingSteps_queueInv (k : StepperId) (r : Ready) (n : ℕ) (u : State) (h : QueueInv u) :
    QueueInv (blockingSteps k r n u).1 := by
  induction n generalizing u with
  | zero => exact h
  | succ n ih =>
    rw [blockingSteps_succ]
    refine thenSeq_queueInv (stepOnce_queueInv _ _ _ _ (h.of_queues rfl rfl)) fun v hv => thenSeq_queueInv ?_ ih
    have hd : QueueInv (v.countDone k) := hv.of_queues rfl rfl
    split
    · exact hd
    · exact waitPeriod_queueInv _ _ hd

/-! ### The commands -/

theorem endCommand_queueInv (u : State) (i : Instr) (e : CmdEnd) (h : QueueInv u) : QueueInv (u.endCommand i e) := by
  unfold State.endCommand State.respond
  split
  · split
    · rename_i hroom
      exact h.append hroom rfl rfl
    · exact h.of_queues rfl rfl
  · exact h.of_queues rfl rfl

theorem finish_queueInv {u : State} (i : Instr) (res : Result) (c : Option Cut) (h : QueueInv u) : QueueInv (u.finish i res c) := by
  rcases c with _ | (e | _)
  · exact endCommand_queueInv _ _ _ h
  · exact endCommand_queueInv _ _ _ h
  · exact h

theorem runSequence_queueInv {i : Instr} {check : Option Reason} {f : State → SeqEnd} {s : State} (h : QueueInv s)
    (hf : ∀ u, QueueInv u → QueueInv (f u).1) : QueueInv (runSequence i check f s) := by
  cases check with
  | some why => exact endCommand_queueInv _ _ _ h
  | none => exact finish_queueInv _ _ _ (hf _ (h.of_queues rfl rfl))

theorem stopRun_queueInv {s : State} (k : StepperId) (h : QueueInv s) : QueueInv (s.stopRun k) := by
  unfold State.stopRun
  split
  · have h1 : QueueInv (s.modStp k (fun st => { st with run := { st.run with stopReq := true } })) := h.of_queues rfl rfl
    dsimp only
    split
    · exact h1
    · exact endRun_queueInv _ _ _ h1
  · exact h

theorem stpStep_queueInv {nb : Bool} {k : StepperId} {d : Dir} {n : W32} {s t : State} (h : QueueInv s)
    (he : exec (.stpStep nb k d n) s = .next t) : QueueInv t := by
  simp only [exec, execStpStep] at he
  cases he
  split
  · exact endCommand_queueInv _ _ _ h
  · rename_i r _
    have h1 : QueueInv ((s.start (.stpStep nb k d n)).startRun k nb d n) := h.of_queues rfl rfl
    split
    · split
      · exact (endRun_queueInv k none false h1).of_queues rfl rfl
      · exact h1.of_queues rfl rfl
    · have h2 := blockingSteps_queueInv k r n.toNat _ h1
      generalize blockingSteps k r n.toNat _ = w at h2
      obtain ⟨u, c⟩ := w
      have hrep : ∀ e, QueueInv (u.reportRun (.stpStep nb k d n) k e) := fun e =>
        endCommand_queueInv _ _ _ (h2.of_queues (by simp) (by simp))
      rcases c with _ | (e | _)
      · exact hrep none
      · exact hrep (some e)
      · exact h2

theorem exec_queueInv {i : Instr} {s t : State} (h : QueueInv s) (he : exec i s = .next t) : QueueInv t := by
  cases i with
  | drvInit nb =>
    cases he
    exact runSequence_queueInv h fun u hu => exclusive_queueInv initSequence_queueInv _ (hu.of_queues rfl rfl)
  | drvReset nb => cases he; exact runSequence_queueInv h (exclusive_queueInv resetSequence_queueInv)
  | drvSetfreq nb rate => cases he; exact runSequence_queueInv h (exclusive_queueInv (freqSequence_queueInv _))
  | stpSetfreq nb k rate => cases he; exact runSequence_queueInv h (exclusive_queueInv (freqSequence_queueInv _))
  | drvSetchan nb c on off => cases he; exact runSequence_queueInv h (pinWrite_queueInv c on off)
  | drvSetpin nb c v => cases he; exact runSequence_queueInv h (pinWrite_queueInv c _ _)
  | drvSetall nb on off => cases he; exact runSequence_queueInv h (allWrite_queueInv on off)
  | drvGetfreq nb =>
    simp only [exec, execDrvGetfreq] at he
    cases he
    split <;> exact endCommand_queueInv _ _ _ h
  | stpPins | stpSetsteps | stpSetmicro | stpSetstyle | stpSetcurrent | stpSetspeed | stpInit =>
    cases he
    exact runLocal_keeps h endCommand_queueInv fun _ => h.of_queues rfl rfl
  | stpOnestep nb k d =>
    simp only [exec, execStpOnestep] at he
    cases he
    split
    · exact endCommand_queueInv _ _ _ h
    · exact finish_queueInv _ _ _ (stepOnce_queueInv _ _ _ _ (h.of_queues rfl rfl))
  | stpStep nb k d n => exact stpStep_queueInv h he
  | stpRelease nb k =>
    simp only [exec, execStpRelease] at he
    cases he
    split
    · exact endCommand_queueInv _ _ _ h
    · exact finish_queueInv _ _ _ (vectorWrite_queueInv _ _ _ (h.of_queues rfl rfl))
  | stpStop nb k => cases he; exact runLocal_keeps h endCommand_queueInv fun _ => stopRun_queueInv k h
  | stpStatus nb k => cases he; exact endCommand_queueInv _ _ _ h
  | stpGetrates nb k => cases he; exact endCommand_queueInv _ _ _ h

theorem deliverCp_queueInv {s : State} (h : QueueInv s) : QueueInv s.deliverCp := by
  unfold State.deliverCp
  split
  · exact h
  · split
    · rename_i hroom
      exact h.append hroom rfl rfl
    · exact h

/-- Taking the head of `cmdq` leaves the words behind it. -/
theorem QueueInv.take {s : State} {q : Queued} {rest : List Queued} (h : QueueInv s) (hq : s.cmdq = q :: rest) :
    QueueInv (s.take q rest) := by
  have hlen := h.cmdq
  rw [hq, List.length_cons] at hlen
  exact ⟨Nat.le_of_succ_le hlen, h.cmplq, fun x hx => h.accepted x (by rw [hq]; exact List.mem_cons_of_mem _ hx)⟩

/-- Settles O60: only a submission that the decoder accepts joins `cmdq`, while it has room, and every record that joins `cmplq` waits
for room. -/
theorem queueInvKept : Obligations.QueueInvKept := by
  intro s t h hs
  have hd : QueueInv s.drawTurn.2 := h.of_queues (by simp) (by simp)
  rcases step_cases hs with ⟨b, rfl⟩ | rfl | rfl | ⟨q, rest, hq, ⟨why, rfl⟩ | ⟨i, _, hx⟩⟩
  · exact background_queueInv _ b hd
  · exact deliverCp_queueInv hd
  · exact hd
  · exact (hd.take (q := q) (rest := rest) (by simpa using hq)).of_queues rfl rfl
  · exact exec_queueInv (hd.take (q := q) (rest := rest) (by simpa using hq)) hx

end Sys2Proof.Machine
end

section
/-! Reset (10_state.md R42). -/

namespace Sys2Proof.Machine

open Sys2Proof

/-- Every stepper is reset. -/
theorem reset_stepper (i : StepperId) : State.reset.stepper i = Stepper.reset := by
  simp [State.stepper, State.reset, Vector.get_eq_getElem]

theorem busInv_reset : BusInv State.reset := by
  intro k
  rw [reset_stepper]
  rfl

/-- Settles O17: the table of R42 by the definition of the reset state, and each invariant from its own lemma about the reset
stepper. -/
theorem resetValues : Obligations.ResetValues := by
  have hst : ∀ (Q : Stepper → Prop), StepperInv Q → ∀ j, Q (State.reset.stepper j) := fun Q hQ j => by
    rw [reset_stepper]; exact hQ.reset 0
  refine ⟨rfl, rfl, rfl, fun c => ⟨onTick_forget Image.reset c, offTick_forget Image.reset c⟩, fun i => ?_, rfl, rfl, rfl, rfl,
    rfl, rfl, rfl, rfl, rfl, hst _ phaseLegal_inv, hst _ ratesFresh_inv, ⟨hst _ configLegal_inv, ?_⟩,
    (valuesInv_iff _).2 ⟨imageLegal_reset, hst _ valuesLegal_inv⟩, fun i => ?_, busInv_reset, ?_, ?_⟩
  · rw [reset_stepper]
    exact ⟨rfl, rfl, rfl, emptyCache_get⟩
  · intro i j _ c hc
    rw [reset_stepper] at hc
    cases hc
  · rw [reset_stepper]
    exact runLegal_reset
  · exact ⟨.inl rfl, rfl, (fun q hq => nomatch hq), (fun q hq => nomatch hq)⟩
  · exact ⟨Nat.zero_le _, Nat.zero_le _, fun q hq => nomatch hq⟩

end Sys2Proof.Machine
end

section
/-! Sequences of the CP as what they are made of (20_memory.md R67 to R70; 70_reset_and_hazards.md R290). `BusMove` says once what a step
of another agent does to the bus and the trace, `CpWork` which parts the sequences of the commands have, and `Lands` what holds where
such a part ends, on the command's way or taken by `rst`. `CpWork.lands` carries a property through any sequence; the bus master's
service of the CP's requests (`await_stages`, `BusRules`) is in it once for all. -/

namespace Sys2Proof.Machine

open Sys2Proof

/-! ### `rst` -/

theorem rst_of_not_notRst {b : Background} {u : State} (h : ¬ NotRst b u) : b = .host ∧ u.host.head? = some .rst := by
  simpa [NotRst] using h

/-- The host's turn that asserts `rst` discards everything (R290), and leaves the trace. -/
theorem hostTurn_discarded {u : State} (h : u.host.head? = some .rst) :
    Discarded u u.hostTurn ∧ u.hostTurn.trace = u.trace := by
  obtain ⟨rest, hr⟩ := List.head?_eq_some_iff.1 h
  exact ⟨hostTurn_rst u hr, by simp [State.hostTurn, hr, State.hardReset]⟩

theorem cp_ne_idle_of_inCommand {s : State} {tk : Ticket} (h : s.inCommand tk) : s.cp ≠ .idle := by
  obtain ⟨w, n, h⟩ := h
  rw [h]
  exact nofun

/-! ### What the others do to the bus -/

/-- What a step of an agent beside the CP, `rst` apart, makes of bus and trace: nothing, a run engine's request, a grant to a run
engine on the unlocked bus, or the completion of a run engine's transaction. -/
inductive BusMove (u v : State) : Prop
  | same (bus : v.bus = u.bus) (trace : v.trace = u.trace)
  | issue (i : StepperId) (t : Txn) (bus : v.bus = { u.bus with reqq := u.bus.reqq ++ [{ who := .engine i, txn := t }] })
    (trace : v.trace = u.trace)
  | grant (i : StepperId) (q : Request) (rest : List Request) (free : u.bus.inflight = none) (unlocked : u.bus.lock = false)
    (head : u.bus.reqq = q :: rest) (who : q.who = .engine i)
    (bus : v.bus = { u.bus with reqq := rest, inflight := some q }) (trace : v.trace = u.trace)
  | complete (i : StepperId) (q : Request) (ok : Bool) (byte : Byte) (inflight : u.bus.inflight = some q) (who : q.who = .engine i)
    (done : v.bus.inflight = none) (reqq : v.bus.reqq = u.bus.reqq) (lock : v.bus.lock = u.bus.lock)
    (trace : v.trace = .txn q.who q.txn ok byte :: u.trace)

theorem engineIssue_busMove (u : State) (i : StepperId) : BusMove u (u.engineIssue i) := by
  unfold State.engineIssue
  split
  · exact .same rfl rfl
  · split
    · exact .same rfl rfl
    · split
      · exact .same rfl rfl
      · exact .issue i _ rfl rfl

theorem busStep_busMove (u : State) : BusMove u u.busStep := by
  unfold State.busStep
  split
  · rename_i q hq
    split
    · exact .same rfl rfl
    · rename_i i hi
      exact .complete i q u.drawAnswer.1.ok (replyByte q.txn u.drawAnswer.1) hq hi (by simp) (by simp) (by simp) (by simp [hi])
  · rename_i hn
    split
    · exact .same rfl rfl
    · rename_i hl
      split
      · exact .same rfl rfl
      · rename_i q rest hq
        split
        · exact .same rfl rfl
        · rename_i i hi
          exact .grant i q rest hn (by simpa using hl) hq hi rfl rfl

theorem background_busMove (u : State) (b : Background) (hn : NotRst b u) : BusMove u (u.background b) := by
  cases b with
  | tick i => exact .same (onTick_bus u i) (onTick_trace u i)
  | engine i =>
    simp only [State.background]
    split
    · exact .same (deliverRun_bus u i) (deliverRun_trace u i)
    · exact engineIssue_busMove u i
  | bus => exact busStep_busMove u
  | host =>
    obtain ⟨_, _, hb, ht, _⟩ := hostTurn_stp u (hn rfl)
    exact .same hb ht

/-! ### Where a part of a sequence ends -/

/-- A part of a sequence ends with the CP in its command and `P`, or taken by `rst` and `Q`. -/
def Lands (P Q : State → Prop) (r : SeqEnd) : Prop :=
  (r.2 ≠ some .rst → r.1.cp ≠ .idle ∧ P r.1) ∧ (r.2 = some .rst → Q r.1)

/-- The others' steps keep `P` while the CP has its command, and `Q` once `rst` has taken it, and `rst` leads from `P` to `Q`. -/
structure AgentsKeep (P Q : State → Prop) : Prop where
  background : ∀ u b, NotRst b u → P u → P (u.background b)
  draw : ∀ u : State, P u → P u.drawBurst.2
  rst : ∀ u : State, u.host.head? = some .rst → P u → Q u.hostTurn
  after : ∀ u b, Q u → Q (u.background b)

/-- With one more property that the others keep. -/
theorem AgentsKeep.and {P P' Q : State → Prop} (k : AgentsKeep P Q) (hb : ∀ u b, NotRst b u → P' u → P' (u.background b))
    (hd : ∀ u : State, P' u → P' u.drawBurst.2) : AgentsKeep (fun u => P' u ∧ P u) Q :=
  ⟨fun u b hn h => ⟨hb u b hn h.1, k.background u b hn h.2⟩, fun u h => ⟨hd u h.1, k.draw u h.2⟩,
    fun u hr h => k.rst u hr h.2, k.after⟩

theorem Lands.done {P Q : State → Prop} {u : State} (hc : u.cp ≠ .idle) (h : P u) : Lands P Q (u, none) :=
  ⟨fun _ => ⟨hc, h⟩, fun e => nomatch e⟩

theorem Lands.failed {P Q : State → Prop} {u : State} (hc : u.cp ≠ .idle) (h : P u) (e : BusError) :
    Lands P Q (u, some (.bus e)) := ⟨fun _ => ⟨hc, h⟩, fun e => nomatch e⟩

/-- One part after another. -/
theorem Lands.seq {P P' Q : State → Prop} {r : SeqEnd} {f : State → SeqEnd} (h : Lands P Q r) (hr : r.2 = none ∨ r.2 = some .rst)
    (hf : ∀ u, r = (u, none) → u.cp ≠ .idle → P u → Lands P' Q (f u)) : Lands P' Q (thenSeq r f) := by
  rcases hr with e | e
  · rw [thenSeq_none e]
    obtain ⟨hc, hp⟩ := h.1 (by simp [e])
    exact hf r.1 (Prod.ext rfl e) hc hp
  · rw [thenSeq_some (by simp [e])]
    exact ⟨fun hn => absurd e hn, fun _ => h.2 e⟩

/-- One part after another, a bus error being one more way to end. -/
theorem Lands.seq_same {P Q : State → Prop} {r : SeqEnd} {f : State → SeqEnd} (h : Lands P Q r)
    (hf : ∀ u, u.cp ≠ .idle → P u → Lands P Q (f u)) : Lands P Q (thenSeq r f) := by
  by_cases e : r.2 = none
  · exact h.seq (.inl e) fun u _ => hf u
  · rw [thenSeq_some e]; exact h

/-- The others do not give a command back to a CP that has none. -/
theorem background_idle {u : State} (b : Background) (h : u.cp = .idle) : (u.background b).cp = .idle := by
  rcases background_notRst_or u b with hn | hd
  · rw [(background_beside u b hn).cp]; exact h
  · exact hd.cp.1

theorem interfere_lands {P Q : State → Prop} (k : AgentsKeep P Q) {u : State} (hc : u.cp ≠ .idle) (hp : P u) :
    (u.interfere.cp ≠ .idle ∧ P u.interfere) ∨ (u.interfere.cp = .idle ∧ Q u.interfere) := by
  have hburst : ∀ (l : List Background) (v : State), (v.cp ≠ .idle ∧ P v) ∨ (v.cp = .idle ∧ Q v) →
      ((v.burst l).cp ≠ .idle ∧ P (v.burst l)) ∨ ((v.burst l).cp = .idle ∧ Q (v.burst l)) := by
    intro l
    induction l with
    | nil => exact fun v h => h
    | cons b l ih =>
      intro v h
      refine ih _ ?_
      rcases h with ⟨hv, hpv⟩ | ⟨hv, hqv⟩
      · by_cases hn : NotRst b v
        · exact .inl ⟨by rw [(background_beside v b hn).cp]; exact hv, k.background v b hn hpv⟩
        · obtain ⟨rfl, hh⟩ := rst_of_not_notRst hn
          exact .inr ⟨(hostTurn_discarded hh).1.cp.1, k.rst v hh hpv⟩
      · exact .inr ⟨background_idle b hv, k.after v b hqv⟩
  unfold State.interfere
  split
  · exact hburst _ _ (.inl ⟨by simpa using hc, k.draw u hp⟩)
  · exact .inl ⟨hc, hp⟩

/-- Every point at which the others move. -/
theorem yield_lands {P Q : State → Prop} (k : AgentsKeep P Q) {u : State} (hc : u.cp ≠ .idle) (hp : P u) : Lands P Q u.yield := by
  rcases interfere_lands k hc hp with ⟨hi, h⟩ | ⟨hi, h⟩
  · exact ⟨fun _ => ⟨hi, h⟩, fun e => by simp [State.yield, hi] at e⟩
  · exact ⟨fun e => by simp [State.yield, hi] at e, fun _ => h⟩

theorem drainAhead_lands {P Q : State → Prop} (k : AgentsKeep P Q) (n : ℕ) {u : State} (hc : u.cp ≠ .idle) (hp : P u) :
    Lands P Q (State.drainAhead n u) := by
  induction n generalizing u with
  | zero => exact .done hc hp
  | succ n ih =>
    have hb : u.busStep.cp ≠ .idle := by rw [(busStep_kept u).cp]; exact hc
    exact (yield_lands k hb (k.background u .bus (fun e => nomatch e) hp)).seq (yield_cut _) fun v _ hv hpv => ih hv hpv

/-- The stages of the CP's request (R67, R68): `P` before it, `W` while it waits, `G` once it is granted. -/
theorem await_stages {P W G Q : State → Prop} (kP : AgentsKeep P Q) (kW : AgentsKeep W Q) (kG : AgentsKeep G Q) (t : Txn)
    (hreq : ∀ v, P v → W (v.request .cp t))
    (hgrant : ∀ v w, v.cp ≠ .idle → W v → State.drainAhead v.drainBound v = (w, none) → W w → G (w.grantCp t))
    {u : State} (hc : u.cp ≠ .idle) (hp : P u) : Lands G Q (u.await t) :=
  (yield_lands kP hc hp).seq (yield_cut _) fun v _ hv hpv =>
  (yield_lands kW (u := v.request .cp t) hv (hreq v hpv)).seq (yield_cut _) fun w _ hw hpw =>
  (drainAhead_lands kW _ hw hpw).seq (drainAhead_cut _ _) fun x e hx hpx =>
  yield_lands kG (u := x.grantCp t) hx (hgrant w x hw hpw e hpx)

/-! ### What a sequence of the CP is made of -/

/-- A write of the CP to its own state between two bus events: bus, trace, and what the run engines work at stay, and `pulsing` is
written only for the steppers that the command moves itself. -/
structure Silent (own : StepperId → Prop) (u v : State) : Prop extends SeqKept u v where
  bus : v.bus = u.bus
  sameTrace : v.trace = u.trace
  job : ∀ j, (v.stepper j).job = (u.stepper j).job
  held : ∀ j, (v.stepper j).held = (u.stepper j).held
  background : ∀ j, (v.stepper j).inBackground = (u.stepper j).inBackground
  pulsing : ∀ j, own j ∨ (v.stepper j).motion.pulsing = (u.stepper j).motion.pulsing

/-- The parts of the CP's sequences, with the bus lock at `l` and the steppers `own` moved by the command itself: nothing, own writes, bus
errors, settles under the lock, waits, transactions, one part after another, and the fall of `pulsing` where a vector write ends. -/
inductive CpWork (l : Bool) (own : StepperId → Prop) : State → SeqEnd → Prop
  | done (u : State) : CpWork l own u (u, none)
  | after {u v : State} {r : SeqEnd} (h : Silent own u v) (w : CpWork l own v r) : CpWork l own u r
  | failed (u : State) (e : BusError) : CpWork l own u (u, some (.bus e))
  | settle (u : State) (ms : ℕ) (h : l = true) : CpWork l own u (u.settle ms)
  | wait (u : State) (t : ℚ) : CpWork l own u (u.waitPeriod t)
  | txn (u : State) (t : Txn) {f : Answer → State → SeqEnd} (h : ∀ a w, CpWork l own w (f a w)) :
    CpWork l own u (u.transact t f)
  | seq {u : State} {r : SeqEnd} {f : State → SeqEnd} (h : CpWork l own u r) (hf : ∀ w, CpWork l own w (f w)) :
    CpWork l own u (thenSeq r f)
  | calm {u : State} {r : SeqEnd} {k : StepperId} (hk : own k) (h : CpWork l own u r) :
    CpWork l own u (r.1.setPulsing k false, r.2)

/-- What every part of a sequence keeps: `P` on the command's way, `Q` once `rst` has taken it. -/
structure WorkKeeps (l : Bool) (own : StepperId → Prop) (P Q : State → Prop) : Prop where
  agents : AgentsKeep P Q
  silent : ∀ u v, Silent own u v → P u → P v
  settle : ∀ (u : State) (ms : ℕ) (t : ℚ), l = true → P u →
    P ({ u.passUntil t with trace := .settle ms :: u.trace } : State).advancePc
  wait : ∀ (u : State) (t : ℚ), P u → P (u.passUntil t).advancePc
  txn : ∀ (u : State) (t : Txn), u.cp ≠ .idle → P u → Lands (fun v => P (v.completeCp t).2) Q (u.await t)
  calm : ∀ (u : State) (k : StepperId), Q u → Q (u.setPulsing k false)

theorem setPulsing_silent {own : StepperId → Prop} {k : StepperId} (hk : own k) (u : State) (v : Bool) :
    Silent own u (u.setPulsing k v) where
  toSeqKept := setPulsing_seqKept u k v
  bus := rfl
  sameTrace := rfl
  job j := stepper_modStp_proj (·.job) u k j _ rfl
  held j := stepper_modStp_proj (·.held) u k j _ rfl
  background j := stepper_modStp_proj Stepper.inBackground u k j _ rfl
  pulsing j := by
    by_cases e : j = k
    · subst e; exact .inl hk
    · exact .inr (congrArg (·.motion.pulsing) (stepper_modStp_of_ne u _ e))

/-- What the parts keep, the sequence keeps. -/
theorem CpWork.lands {l : Bool} {own : StepperId → Prop} {P Q : State → Prop} (k : WorkKeeps l own P Q) {u : State} {r : SeqEnd}
    (h : CpWork l own u r) (hc : u.cp ≠ .idle) (hp : P u) : Lands P Q r := by
  induction h with
  | done u => exact .done hc hp
  | after h _ ih => exact ih (fun e => hc (h.idle.1 e)) (k.silent _ _ h hp)
  | failed u e => exact .failed hc hp e
  | settle u ms h => exact yield_lands k.agents (by simpa using hc) (k.settle u ms _ h hp)
  | wait u t => exact yield_lands k.agents (by simpa using hc) (k.wait u _ hp)
  | txn u t _ ih =>
    exact (k.txn u t hc hp).seq (await_cut u t) fun v _ hv hpv =>
      ih _ _ (fun e => hv ((completeCp_seqKept v t).idle.1 e)) hpv
  | seq _ _ ih ihf => exact (ih hc hp).seq_same fun v hv hpv => ihf v hv hpv
  | @calm u r j hj _ ih =>
    obtain ⟨h1, h2⟩ := ih hc hp
    exact ⟨fun e => ⟨(h1 e).1, k.silent _ _ (setPulsing_silent hj _ _) (h1 e).2⟩, fun e => k.calm _ _ (h2 e)⟩

/-! ### The CP's requests on the bus -/

/-- The bus while the CP has nothing in flight: `n` requests of the CP wait, and while it holds the lock nothing is in flight. -/
structure CpOnBus (l : Bool) (n : ℕ) (u : State) : Prop where
  lock : u.bus.lock = l
  count : u.bus.reqq.countP (fun q => q.who == .cp) = n
  inflight : ∀ q, u.bus.inflight = some q → q.who ≠ .cp
  locked : l = true → u.bus.inflight = none

/-- The bus while the CP's transaction is in flight. -/
structure CpInFlight (l : Bool) (t : Txn) (u : State) : Prop where
  lock : u.bus.lock = l
  count : u.bus.reqq.countP (fun q => q.who == .cp) = 0
  inflight : u.bus.inflight = some { who := .cp, txn := t }

theorem CpOnBus.of_bus {l : Bool} {n : ℕ} {u v : State} (h : CpOnBus l n u) (hb : v.bus = u.bus) : CpOnBus l n v :=
  ⟨by rw [hb]; exact h.lock, by rw [hb]; exact h.count, by rw [hb]; exact h.inflight, by rw [hb]; exact h.locked⟩

theorem CpInFlight.of_bus {l : Bool} {t : Txn} {u v : State} (h : CpInFlight l t u) (hb : v.bus = u.bus) : CpInFlight l t v :=
  ⟨by rw [hb]; exact h.lock, by rw [hb]; exact h.count, by rw [hb]; exact h.inflight⟩

theorem CpOnBus.move {l : Bool} {n : ℕ} {u v : State} (h : CpOnBus l n u) (m : BusMove u v) : CpOnBus l n v := by
  obtain ⟨hl, hn, hi, hk⟩ := h
  cases m with
  | same bus _ => exact CpOnBus.of_bus ⟨hl, hn, hi, hk⟩ bus
  | issue i t bus _ => exact ⟨by rw [bus]; exact hl, by simpa [bus] using hn, by rw [bus]; exact hi, by rw [bus]; exact hk⟩
  | grant i q rest free unlocked head who bus _ =>
    rw [head] at hn
    refine ⟨by rw [bus]; exact hl, by simpa [bus, who] using hn, fun x hx => ?_, fun e => ?_⟩
    · rw [bus] at hx
      cases hx
      rw [who]
      simp
    · rw [unlocked] at hl
      rw [e] at hl
      cases hl
  | complete i q ok byte inflight who done reqq lock _ =>
    exact ⟨by rw [lock]; exact hl, by rw [reqq]; exact hn, by simp [done], fun _ => done⟩

theorem CpInFlight.move {l : Bool} {t : Txn} {u v : State} (h : CpInFlight l t u) (m : BusMove u v) : CpInFlight l t v := by
  obtain ⟨hl, hn, hi⟩ := h
  cases m with
  | same bus _ => exact CpInFlight.of_bus ⟨hl, hn, hi⟩ bus
  | issue i x bus _ => exact ⟨by rw [bus]; exact hl, by simpa [bus] using hn, by rw [bus]; exact hi⟩
  | grant _ _ _ free => rw [hi] at free; cases free
  | complete i q _ _ inflight who => rw [hi] at inflight; cases inflight; cases who

theorem CpOnBus.request {l : Bool} {n : ℕ} {u : State} (h : CpOnBus l n u) (t : Txn) : CpOnBus l (n + 1) (u.request .cp t) :=
  ⟨h.lock, by simp [h.count], h.inflight, h.locked⟩

/-- A request of the CP in the queue has a place: the first of them, which a grant takes out. -/
theorem CpOnBus.place {l : Bool} {n : ℕ} {u : State} (h : CpOnBus l (n + 1) u) : ∃ pre t post,
    u.bus.reqq = pre ++ { who := .cp, txn := t } :: post ∧ (∀ q, q ∈ pre → q.who ≠ .cp) ∧
    u.bus.reqq.eraseP (fun q => q.who == .cp) = pre ++ post := by
  obtain ⟨a, ha, hw⟩ := List.countP_pos_iff.1 (by rw [h.count]; exact Nat.succ_pos n)
  obtain ⟨⟨who, t⟩, pre, post, hpre, hq, heq, her⟩ := List.exists_of_eraseP (p := fun q : Request => q.who == .cp) ha hw
  obtain rfl : who = .cp := by simpa using hq
  exact ⟨pre, t, post, heq, fun x hx => by simpa using hpre x hx, her⟩

theorem CpOnBus.waits {l : Bool} {n : ℕ} {u : State} (h : CpOnBus l (n + 1) u) : ∃ m, CpWaits m u := by
  obtain ⟨pre, t, post, heq, hpre, _⟩ := h.place
  exact ⟨_, pre, t, post, heq, hpre, h.inflight, Nat.le_refl _⟩

/-- Where the CP's request is granted, nothing is in flight, and without the lock the request is the head of the queue (R67 to
R69). -/
structure GrantPoint (u : State) : Prop where
  free : u.bus.inflight = none
  head : u.bus.lock = false → ∃ x post, u.bus.reqq = { who := .cp, txn := x } :: post

theorem CpOnBus.grantPoint {l : Bool} {u v : State} (hc : u.cp ≠ .idle) (h : CpOnBus l 1 u)
    (e : State.drainAhead u.drainBound u = (v, none)) (hv : CpOnBus l 1 v) : GrantPoint v := by
  cases l with
  | true => exact ⟨hv.locked rfl, fun hl => by rw [hv.lock] at hl; cases hl⟩
  | false =>
    have hw := drainAhead_serves _ u (CpWaits.bound h.waits) h.lock hc (by rw [e])
    rw [e] at hw
    obtain ⟨pre, x, post, hq, _, _, hle⟩ := hw
    obtain rfl : pre = [] := List.eq_nil_of_length_eq_zero (by omega)
    refine ⟨?_, fun _ => ⟨x, post, hq⟩⟩
    cases hi : v.bus.inflight with
    | none => rfl
    | some q => simp [hi] at hle

theorem CpOnBus.grant {l : Bool} {u : State} (h : CpOnBus l 1 u) (t : Txn) : CpInFlight l t (u.grantCp t) := by
  obtain ⟨pre, x, post, heq, _, her⟩ := h.place
  have hn := h.count
  rw [heq] at hn
  simp only [List.countP_append, List.countP_cons, beq_self_eq_true, if_true] at hn
  refine ⟨h.lock, ?_, rfl⟩
  simp only [State.grantCp, her, List.countP_append]
  omega

theorem CpInFlight.complete {l : Bool} {t : Txn} {u : State} (h : CpInFlight l t u) : CpOnBus l 0 (u.completeCp t).2 :=
  ⟨by simp [h.lock], by simpa using h.count, by simp, by simp⟩

/-! ### The lock (R69) -/

/-- Once the transaction in flight has completed, nothing is in flight. -/
theorem completeInflight_free {u : State} (h : ∀ q, u.bus.inflight = some q → q.who ≠ .cp) :
    u.completeInflight.bus.inflight = none := by
  unfold State.completeInflight
  split
  · rename_i hs
    obtain ⟨q, hq⟩ := Option.isSome_iff_exists.1 hs
    cases hw : q.who with
    | cp => exact absurd hw (h q hq)
    | engine i => simp [State.busStep, hq, hw]
  · rename_i hs
    simpa using hs

theorem completeInflight_keeps {P : State → Prop} (hb : ∀ u : State, P u → P u.busStep) {u : State} (h : P u) :
    P u.completeInflight := by
  unfold State.completeInflight
  split
  · exact hb u h
  · exact h

theorem exclusive_of_cut {f : State → SeqEnd} {s : State} (h : s.yield.2 ≠ none) : exclusive f s = s.yield := by
  have ha : s.acquire = s.yield := thenSeq_some h _
  unfold exclusive
  rw [ha, thenSeq_some h]

/-- The state in which an exclusive sequence begins: the others have moved, nothing is in flight, and the lock is taken (R69). -/
def State.lockTaken (s : State) : State := s.yield.1.completeInflight.setLock true

theorem exclusive_of_yield {f : State → SeqEnd} {s : State} (h : s.yield.2 = none) :
    exclusive f s = ((f s.lockTaken).1.setLock false, (f s.lockTaken).2) := by
  have ha : s.acquire = (s.lockTaken, none) := thenSeq_none h _
  unfold exclusive
  rw [ha, thenSeq_none rfl]

/-! ### Rules for the CP's work by the bus -/

/-- The rules under which a property goes through the CP's work by the bus: with nothing of the CP in flight before it, granted at a
`GrantPoint`, completed from the flight. -/
structure BusRules (l : Bool) (own : StepperId → Prop) (P Q : State → Prop) : Prop where
  agents : AgentsKeep P Q
  silent : ∀ u v, Silent own u v → P u → P v
  settle : ∀ (u : State) (ms : ℕ) (t : ℚ), l = true → P u →
    P ({ u.passUntil t with trace := .settle ms :: u.trace } : State).advancePc
  wait : ∀ (u : State) (t : ℚ), P u → P (u.passUntil t).advancePc
  request : ∀ (u : State) (t : Txn), P u → P (u.request .cp t)
  grant : ∀ (u : State) (t : Txn), GrantPoint u → P u → P (u.grantCp t)
  complete : ∀ (u : State) (t : Txn), CpInFlight l t u → P u → P (u.completeCp t).2
  calm : ∀ (u : State) (k : StepperId), Q u → Q (u.setPulsing k false)

theorem BusRules.work {l : Bool} {own : StepperId → Prop} {P Q : State → Prop} (h : BusRules l own P Q) :
    WorkKeeps l own (fun u => CpOnBus l 0 u ∧ P u) Q := by
  have kC : ∀ n, AgentsKeep (fun u => CpOnBus l n u ∧ P u) Q := fun n =>
    h.agents.and (fun u b hn hu => hu.move (background_busMove u b hn)) (fun u hu => hu.of_bus (by simp))
  have kF : ∀ t, AgentsKeep (fun u => CpInFlight l t u ∧ P u) Q := fun t =>
    h.agents.and (fun u b hn hu => hu.move (background_busMove u b hn)) (fun u hu => hu.of_bus (by simp))
  refine ⟨kC 0, fun u v hs hu => ⟨hu.1.of_bus hs.bus, h.silent u v hs hu.2⟩,
    fun u ms t hl hu => ⟨hu.1.of_bus (by simp), h.settle u ms t hl hu.2⟩,
    fun u t hu => ⟨hu.1.of_bus (by simp), h.wait u t hu.2⟩, fun u t hc hu => ?_, h.calm⟩
  have ha := await_stages (kC 0) (kC 1) (kF t) t (fun v hv => ⟨hv.1.request t, h.request v t hv.2⟩)
    (fun v w hcv hv e hw => ⟨hw.1.grant t, h.grant w t (hv.1.grantPoint hcv e hw.1) hw.2⟩) hc hu
  exact ⟨fun e => ⟨(ha.1 e).1, (ha.1 e).2.1.complete, h.complete _ t (ha.1 e).2.1 (ha.1 e).2.2⟩, ha.2⟩

end Sys2Proof.Machine
end

section
/-! The commands as work of the CP: each sequence is `CpWork`, and every command is a local change, a sequence beside the run engines,
or a sequence under the lock (`exec_commandRun`). -/

namespace Sys2Proof.Machine

open Sys2Proof

/-! ### Own writes of the CP -/

variable {l : Bool} {own : StepperId → Prop}

theorem img_silent (u : State) (m : Image) : Silent own u { u with img := m } :=
  { img_seqKept u m with
    bus := rfl, sameTrace := rfl, job := fun _ => rfl, held := fun _ => rfl, background := fun _ => rfl
    pulsing := fun _ => .inr rfl }

theorem forget_silent (u : State) : Silent own u
    (({ u with img := u.img.forget } : State).mapStp (fun st => { st with cache := emptyCache })) where
  toSeqKept := forget_seqKept u
  bus := rfl
  sameTrace := rfl
  job j := by rw [stepper_mapStp]; rfl
  held j := by rw [stepper_mapStp]; rfl
  background j := by rw [stepper_mapStp]; rfl
  pulsing j := .inr (by rw [stepper_mapStp]; rfl)

/-- A change of one stepper that leaves what its run engine works at. -/
theorem modStp_silent (u : State) (k : StepperId) {f : Stepper → Stepper} (h : SeqKept u (u.modStp k f))
    (hj : (f (u.stepper k)).job = (u.stepper k).job) (hh : (f (u.stepper k)).held = (u.stepper k).held)
    (hb : (f (u.stepper k)).inBackground = (u.stepper k).inBackground)
    (hp : (f (u.stepper k)).motion.pulsing = (u.stepper k).motion.pulsing) : Silent own u (u.modStp k f) where
  toSeqKept := h
  bus := rfl
  sameTrace := rfl
  job j := stepper_modStp_proj (·.job) u k j f hj
  held j := stepper_modStp_proj (·.held) u k j f hh
  background j := stepper_modStp_proj Stepper.inBackground u k j f hb
  pulsing j := .inr (stepper_modStp_proj (·.motion.pulsing) u k j f hp)

theorem pinWritten_silent (u : State) (k : StepperId) (t : PinTask) : Silent own u (u.pinWritten k t) where
  toSeqKept := pinWritten_seqKept u k t
  bus := rfl
  sameTrace := rfl
  job j := stepper_modStp_proj (·.job) { u with img := u.img.setChannel t.chan t.on t.off } k j _ rfl
  held j := stepper_modStp_proj (·.held) { u with img := u.img.setChannel t.chan t.on t.off } k j _ rfl
  background j := stepper_modStp_proj Stepper.inBackground { u with img := u.img.setChannel t.chan t.on t.off } k j _ rfl
  pulsing j := .inr (stepper_modStp_proj (·.motion.pulsing) { u with img := u.img.setChannel t.chan t.on t.off } k j _ rfl)

/-! ### The sequences -/

theorem CpWork.silent {u v : State} (h : Silent own u v) : CpWork l own u (v, none) := .after h (.done v)

theorem transactSeq_work (t : Txn) (u : State) : CpWork l own u (u.transactSeq t) := by
  refine .txn u t fun a w => ?_
  split
  · exact .done w
  · exact .failed w _

theorem memRead_work (reg : Byte) {f : Byte → State → SeqEnd} (hf : ∀ b w, CpWork l own w (f b w)) (u : State) :
    CpWork l own u (u.memRead reg f) := by
  refine .txn u _ fun a w => ?_
  split
  · exact hf _ w
  · exact .failed w _

theorem writeAll_work (ws : List (Byte × Byte)) (u : State) : CpWork l own u (writeAll ws u) := by
  induction ws generalizing u with
  | nil => exact .done u
  | cons w ws ih => exact .seq (transactSeq_work _ u) ih

theorem pinWrite_work (c : Chan) (on off : Tick) (u : State) : CpWork l own u (pinWrite c on off u) :=
  .seq (writeAll_work _ u) fun w => .silent (img_silent w _)

theorem allWrite_work (on off : Tick) (u : State) : CpWork l own u (allWrite on off u) :=
  .seq (writeAll_work _ u) fun w => .silent (img_silent w _)

theorem freqSequence_work (p : Byte) (u : State) : CpWork true own u (freqSequence p u) :=
  memRead_work _ (fun _ w =>
    .seq (transactSeq_work _ w) fun w => .seq (transactSeq_work _ w) fun w =>
    .seq (.after (img_silent w _) (transactSeq_work _ _)) fun w =>
    .seq (.settle w _ rfl) fun w => transactSeq_work _ w) u

theorem initSequence_work (u : State) : CpWork true own u (initSequence u) :=
  .seq (transactSeq_work _ u) fun w => .seq (.after (img_silent w _) (allWrite_work _ _ _)) fun w =>
  .seq (transactSeq_work _ w) fun w => .seq (transactSeq_work _ w) fun w =>
  .seq (.settle w _ rfl) fun w => memRead_work _ (fun _ w =>
    .seq (transactSeq_work _ w) fun w => .seq (.settle w _ rfl) fun w => .silent (img_silent w _)) w

theorem resetSequence_work (u : State) : CpWork l own u (resetSequence u) :=
  .seq (transactSeq_work _ u) fun w => .silent (forget_silent w)

theorem lazyPin_work (k : StepperId) (t : PinTask) (u : State) : CpWork l own u (lazyPin k t u) := by
  unfold lazyPin
  split
  · exact .done u
  · exact .seq (writeAll_work _ u) fun w => .silent (pinWritten_silent w k t)

theorem lazyPins_work (k : StepperId) (tasks : List PinTask) (u : State) : CpWork l own u (lazyPins k tasks u) := by
  induction tasks generalizing u with
  | nil => exact .done u
  | cons t rest ih => exact .seq (lazyPin_work k t u) ih

theorem vectorWrite_work {k : StepperId} (hk : own k) (tasks : List PinTask) (u : State) :
    CpWork l own u (vectorWrite k tasks u) :=
  .calm hk (.after (setPulsing_silent hk u true) (lazyPins_work k tasks _))

theorem stepOnce_work {k : StepperId} (hk : own k) (d : Dir) (r : Ready) (u : State) : CpWork l own u (stepOnce k d r u) :=
  .after (modStp_silent u k (modStp_seqKept u k rfl rfl rfl rfl rfl) rfl rfl rfl rfl) (vectorWrite_work hk _ _)

theorem blockingSteps_work {k : StepperId} (hk : own k) (r : Ready) (n : ℕ) (u : State) :
    CpWork l own u (blockingSteps k r n u) := by
  induction n generalizing u with
  | zero => exact .done u
  | succ n ih =>
    have issued : Silent own u (u.countIssued k) :=
      modStp_silent u k (modStp_seqKept u k rfl rfl rfl rfl rfl) rfl rfl rfl rfl
    rw [blockingSteps_succ]
    refine .seq (.after issued (stepOnce_work hk _ r _)) fun w => ?_
    have done : Silent own w (w.countDone k) :=
      modStp_silent w k (modStp_seqKept w k rfl rfl rfl rfl rfl) rfl rfl rfl rfl
    refine .seq ?_ ih
    split
    · exact .silent done
    · exact .after done (.wait _ _)

/-! ### The commands -/

/-- Bus, trace, and every vector write in progress with its `pulsing` are as before. -/
structure Apart (u v : State) : Prop where
  bus : v.bus = u.bus
  trace : v.trace = u.trace
  job : ∀ j, (v.stepper j).job = (u.stepper j).job
  pulsing : ∀ j, (v.stepper j).motion.pulsing = (u.stepper j).motion.pulsing

theorem Apart.of_stp {u v : State} (hb : v.bus = u.bus) (ht : v.trace = u.trace) (hs : v.stp = u.stp) : Apart u v :=
  ⟨hb, ht, fun j => by rw [stepper_of_stp hs], fun j => by rw [stepper_of_stp hs]⟩

theorem Apart.refl (u : State) : Apart u u := .of_stp rfl rfl rfl

theorem Apart.trans {u v w : State} (a : Apart u v) (b : Apart v w) : Apart u w :=
  ⟨b.bus.trans a.bus, b.trace.trans a.trace, fun j => (b.job j).trans (a.job j), fun j => (b.pulsing j).trans (a.pulsing j)⟩

theorem modStp_apart (u : State) (k : StepperId) {f : Stepper → Stepper} (hj : (f (u.stepper k)).job = (u.stepper k).job)
    (hp : (f (u.stepper k)).motion.pulsing = (u.stepper k).motion.pulsing) : Apart u (u.modStp k f) :=
  ⟨rfl, rfl, fun j => stepper_modStp_proj (·.job) u k j f hj, fun j => stepper_modStp_proj (·.motion.pulsing) u k j f hp⟩

theorem start_apart (u : State) (i : Instr) : Apart u (u.start i) := .of_stp rfl rfl rfl

theorem endRun_apart (u : State) (k : StepperId) (e : Option BusError) (b : Bool) : Apart u (u.endRun k e b) := by
  have hk : ((u.endRun k e b).stepper k).job = (u.stepper k).job ∧
      ((u.endRun k e b).stepper k).motion.pulsing = (u.stepper k).motion.pulsing := by
    rcases endRun_stepper u k e b with h | ⟨r, h⟩ <;> rw [h] <;> exact ⟨rfl, rfl⟩
  have hj : ∀ j, ((u.endRun k e b).stepper j).job = (u.stepper j).job ∧
      ((u.endRun k e b).stepper j).motion.pulsing = (u.stepper j).motion.pulsing := fun j => by
    by_cases hjk : j = k
    · subst hjk; exact hk
    · rw [(endRun_kept k u e b).others j hjk]; exact ⟨rfl, rfl⟩
  exact ⟨endRun_bus u k e b, endRun_trace u k e b, fun j => (hj j).1, fun j => (hj j).2⟩

theorem stopRun_apart (u : State) (k : StepperId) : Apart u (u.stopRun k) := by
  unfold State.stopRun
  split
  · have hs : Apart u (u.modStp k (fun st => { st with run := { st.run with stopReq := true } })) := modStp_apart u k rfl rfl
    dsimp only
    split
    · exact hs
    · exact hs.trans (endRun_apart _ k none true)
  · exact .refl u

/-- How the sequence `r` of the command `i` ends in `t`: `rst` has taken the command, or its response is given. -/
def EndsAs (i : Instr) (r : SeqEnd) (t : State) : Prop :=
  (r.2 = some .rst ∧ t = r.1) ∨ (r.2 ≠ some .rst ∧ ∃ u e, Apart r.1 u ∧ t = State.endCommand u i e)

theorem finish_endsAs (i : Instr) (res : Result) (r : SeqEnd) : EndsAs i r (r.1.finish i res r.2) := by
  obtain ⟨u, c⟩ := r
  rcases c with _ | (e | _)
  · exact .inr ⟨nofun, u, _, .refl u, rfl⟩
  · exact .inr ⟨nofun, u, _, .refl u, rfl⟩
  · exact .inl ⟨rfl, rfl⟩

theorem reportRun_apart (u : State) (k : StepperId) :
    Apart u ((u.report k false).2.modStp k (fun st => { st with run := st.run.ended })) :=
  Apart.trans (.of_stp (by simp) (by simp) (by simp)) (modStp_apart _ k rfl rfl)

theorem endBlockingRun_endsAs (i : Instr) (k : StepperId) (r : SeqEnd) : EndsAs i r (r.1.endBlockingRun i k r.2) := by
  obtain ⟨u, c⟩ := r
  rcases c with _ | (e | _)
  · exact .inr ⟨nofun, _, _, reportRun_apart u k, rfl⟩
  · exact .inr ⟨nofun, _, _, reportRun_apart u k, rfl⟩
  · exact .inl ⟨rfl, rfl⟩

/-- What a command is to the bus. -/
inductive CommandRun (i : Instr) (s : State) : State → Prop
  /-- It ends without bus I/O. -/
  | ended {u : State} (h : Apart s u) (e : CmdEnd) : CommandRun i s (u.endCommand i e)
  /-- It leaves a run to the run engine. -/
  | left {u : State} (h : Apart s u) : CommandRun i s u.leaveToEngine
  /-- It works through its sequence beside the run engines, and the steppers that it moves have no background work. -/
  | worked {u t : State} {r : SeqEnd} {own : StepperId → Prop} (h : Apart s u) (hc : u.cp = s.cp)
    (idle : RunInv s → ∀ k, own k → (u.stepper k).dormant) (w : CpWork false own u r) (e : EndsAs i r t) : CommandRun i s t
  /-- It works through its sequence under the lock. -/
  | locked {u t : State} {f : State → SeqEnd} (h : Apart s u) (hc : u.cp = s.cp) (x : hasExclusiveSequence i)
    (w : ∀ v, CpWork true (fun _ => False) v (f v)) (e : EndsAs i (exclusive f u) t) : CommandRun i s t

section

variable {i : Instr} {s : State}

theorem runLocal_commandRun {check : Option Reason} {res : Result} {f : State → State} (h : Apart s (f s)) :
    CommandRun i s (runLocal i check res f s) := by
  cases check with
  | some why => exact .ended (.refl s) _
  | none => exact .ended h _

theorem runSequence_commandRun {check : Option Reason} {f : State → SeqEnd} (w : ∀ u, CpWork false (fun _ => False) u (f u)) :
    CommandRun i s (runSequence i check f s) := by
  cases check with
  | some why => exact .ended (.refl s) _
  | none => exact .worked (start_apart s i) rfl (fun _ _ h => h.elim) (w _) (finish_endsAs i .none _)

theorem runExclusive_commandRun {check : Option Reason} {f : State → SeqEnd} (x : hasExclusiveSequence i)
    (w : ∀ u, CpWork true (fun _ => False) u (f u)) : CommandRun i s (runSequence i check (exclusive f) s) := by
  cases check with
  | some why => exact .ended (.refl s) _
  | none => exact .locked (start_apart s i) rfl x w (finish_endsAs i .none _)

/-- The end of a motion command's sequence on a stepper without a run. -/
theorem finishMotion_commandRun {k : StepperId} {r : SeqEnd} {res : Result} (hr : (s.stepper k).run.running = false)
    (hp : (s.stepper k).motion.pulsing = false) (w : CpWork false (k = ·) (s.start i) r) :
    CommandRun i s (r.1.finish i res r.2) := by
  refine .worked (start_apart s i) rfl (fun h j hj => ?_) w (finish_endsAs i res r)
  subst hj
  have ho := h.cpOwned hr hp
  rw [stepper_of_stp (start_stp s i)]
  exact ⟨by simp [Stepper.inBackground, hr], ho.job, ho.held⟩

end

theorem stpStep_commandRun {nb : Bool} {k : StepperId} {d : Dir} {n : W32} {s t : State}
    (he : exec (.stpStep nb k d n) s = .next t) : CommandRun (.stpStep nb k d n) s t := by
  simp only [exec, execStpStep] at he
  cases he
  split
  · exact .ended (.refl s) _
  · rename_i r hr
    obtain ⟨_, hrun, hp⟩ := stepCheck_ok hr
    have hs : Apart s ((s.start (.stpStep nb k d n)).startRun k nb d n) :=
      (start_apart s _).trans (modStp_apart _ k rfl rfl)
    split
    · split
      · exact .left (hs.trans (endRun_apart _ k none false))
      · exact .left hs
    · rename_i hnb
      refine .worked (own := (k = ·)) hs rfl (fun h j hj => ?_) (blockingSteps_work rfl r n.toNat _)
        (endBlockingRun_endsAs _ k _)
      subst hj
      have ho := h.cpOwned hrun hp
      rw [State.startRun, stepper_modStp_self]
      exact ⟨by simp [Stepper.inBackground, hnb], ho.job, ho.held⟩

/-- Every command, in every state, whatever the other agents do meanwhile. -/
theorem exec_commandRun {i : Instr} {s t : State} (he : exec i s = .next t) : CommandRun i s t := by
  cases i with
  | drvInit nb =>
    simp only [exec, execDrvInit] at he
    cases he
    cases initCheck s with
    | some why => exact .ended (.refl s) _
    | none =>
      exact .locked (u := { s.start (.drvInit nb) with img := { s.img with initialised := false } })
        (.of_stp rfl rfl rfl) rfl ⟨nb, .inl rfl⟩ initSequence_work (finish_endsAs _ .none _)
  | drvReset nb => cases he; exact runExclusive_commandRun ⟨nb, .inr (.inl rfl)⟩ resetSequence_work
  | drvSetfreq nb rate =>
    cases he; exact runExclusive_commandRun ⟨nb, .inr (.inr ⟨rate, .inl rfl⟩)⟩ (freqSequence_work _)
  | stpSetfreq nb k rate =>
    cases he; exact runExclusive_commandRun ⟨nb, .inr (.inr ⟨rate, .inr ⟨k, rfl⟩⟩)⟩ (freqSequence_work _)
  | drvSetchan nb c on off => cases he; exact runSequence_commandRun (pinWrite_work c on off)
  | drvSetpin nb c v => cases he; exact runSequence_commandRun (pinWrite_work c _ _)
  | drvSetall nb on off => cases he; exact runSequence_commandRun (allWrite_work on off)
  | drvGetfreq nb =>
    simp only [exec, execDrvGetfreq] at he
    cases he
    split <;> exact .ended (.refl s) _
  | stpPins | stpSetsteps | stpSetstyle | stpSetcurrent | stpSetspeed | stpInit =>
    cases he
    exact runLocal_commandRun (modStp_apart s _ rfl rfl)
  | stpSetmicro =>
    cases he
    exact runLocal_commandRun ((modStp_apart s _ rfl rfl).trans (modStp_apart _ _ rfl rfl))
  | stpOnestep nb k d =>
    simp only [exec, execStpOnestep] at he
    cases he
    split
    · exact .ended (.refl s) _
    · rename_i r hr
      obtain ⟨_, hrun, hp⟩ := motionCheck_ok hr
      exact finishMotion_commandRun hrun hp (stepOnce_work rfl d r _)
  | stpStep nb k d n => exact stpStep_commandRun he
  | stpRelease nb k =>
    simp only [exec, execStpRelease] at he
    cases he
    split
    · exact .ended (.refl s) _
    · rename_i r hr
      obtain ⟨_, hrun, hp⟩ := motionCheck_ok hr
      exact finishMotion_commandRun hrun hp (vectorWrite_work rfl _ _)
  | stpStop nb k => cases he; exact runLocal_commandRun (stopRun_apart s k)
  | stpStatus nb k => cases he; exact .ended (.refl s) _
  | stpGetrates nb k => cases he; exact .ended (.refl s) _

end Sys2Proof.Machine
end

section
/-! The bus between steps of the machine (20_memory.md R67 to R69; 40_driver.md R121): the requests of a run engine are those its vector
write asks for (`Asks`), step by step of the engine; the CP's requests come and go inside a command; and what holds of both through every
sequence (`linked_rules`, `exclusive_lands`) gives the invariant. -/

namespace Sys2Proof.Machine

open Sys2Proof

/-! ### One run engine -/

/-- The requests `reqs` of run engine `k` are those of its vector write: at most one, for the next byte (R68). -/
def Asks (k : StepperId) (job : Option VecJob) (reqs : List Request) : Prop :=
  match job with
  | none => reqs = []
  | some j => ∃ w more, j.left = w :: more ∧
      reqs = if j.outstanding then [{ who := .engine k, txn := .write Config.devAddr w.1 w.2 }] else []

theorem busInv_iff {u : State} : BusInv u ↔ ∀ k, Asks k (u.stepper k).job (engineRequests u.bus k) := Iff.rfl

/-- A run engine's vector write and its requests agree, and while its run is active the stepper is `pulsing` during it. -/
structure EngineSound (k : StepperId) (reqs : List Request) (st : Stepper) : Prop where
  asks : Asks k st.job reqs
  pulsing : st.inBackground = true → st.job.isSome = true → st.motion.pulsing = true

theorem EngineSound.of_no_job {k : StepperId} {st : Stepper} (h : st.job = none) : EngineSound k [] st :=
  ⟨by rw [h]; rfl, fun _ e => by rw [h] at e; cases e⟩

theorem EngineSound.of_same {k : StepperId} {reqs : List Request} {st st' : Stepper} (h : EngineSound k reqs st)
    (hj : st'.job = st.job) (hp : st'.motion.pulsing = st.motion.pulsing)
    (hb : st'.inBackground = true → st.inBackground = true) : EngineSound k reqs st' :=
  ⟨by rw [hj]; exact h.asks, fun e1 e2 => by rw [hp]; exact h.pulsing (hb e1) (by rw [← hj]; exact e2)⟩

theorem vectorDone_job (s : State) (k : StepperId) (e : Option BusError) : ((s.vectorDone k e).stepper k).job = none := by
  unfold State.vectorDone
  cases e with
  | some info => rw [(endRun_apart _ k _ _).job, stepper_modStp_self]
  | none =>
    dsimp only
    rw [modStp_modStp]
    split
    · rw [(endRun_apart _ k _ _).job, stepper_modStp_self]
    · split
      · rw [(endRun_apart _ k _ _).job, stepper_modStp_self]
      · rw [stepper_modStp_self]

/-- A vector write that begins or goes on asks for nothing yet. -/
theorem nextPin_sound {s : State} {k : StepperId} (tasks : List PinTask)
    (hp : (s.stepper k).inBackground = true → (s.stepper k).motion.pulsing = true) :
    EngineSound k [] ((s.nextPin k tasks).stepper k) := by
  unfold State.nextPin
  split
  · exact .of_no_job (vectorDone_job s k none)
  · rw [stepper_modStp_self]
    exact ⟨⟨_, _, rfl, rfl⟩, fun hb _ => hp hb⟩

/-- The reaction to a completion: the engine has nothing outstanding any more. -/
theorem engineReply_sound {s : State} {k : StepperId} {reqs : List Request} (t : Txn) (ok : Bool)
    (h : EngineSound k reqs (s.stepper k)) (hj : (s.stepper k).job ≠ none) :
    EngineSound k [] ((s.engineReply k t ok).stepper k) := by
  unfold State.engineReply
  split
  · rename_i e; exact absurd e hj
  · rename_i j e
    split
    · exact .of_no_job (vectorDone_job s k _)
    · split
      · refine nextPin_sound _ fun hb => ?_
        rw [pinWritten_stepper_self] at hb ⊢
        exact h.pulsing hb (by rw [e]; rfl)
      · rw [stepper_modStp_self]
        exact ⟨⟨_, _, rfl, rfl⟩, fun hb _ => h.pulsing hb (by rw [e]; rfl)⟩

/-- A tick starts a vector write only where none is in progress. -/
theorem onTick_sound {s : State} {k : StepperId} {reqs : List Request} (h : EngineSound k reqs (s.stepper k)) :
    EngineSound k reqs ((s.onTick k).stepper k) := by
  unfold State.onTick
  dsimp only
  split
  · exact h
  · rename_i hact
    have hb : (s.stepper k).inBackground = true := by
      cases e : (s.stepper k).inBackground <;> simp [e] at hact ⊢
    have hst := stepper_modStp_self (s.passUntil ((s.stepper k).run.t0 + ((s.stepper k).run.k.toNat : ℚ) *
        runPeriod (s.stepper k).cfg)) k (fun st => { st with run := { st.run with k := st.run.k + 1#32 } })
    have hk : EngineSound k reqs { s.stepper k with run := { (s.stepper k).run with k := (s.stepper k).run.k + 1#32 } } :=
      h.of_same rfl rfl (fun e => e)
    split
    · rw [hst]; exact hk
    · split
      · rw [hst]; exact hk
      · split
        · rw [stepper_modStp_self, hst]
          exact hk.of_same rfl rfl (fun e => e)
        · rename_i hp
          split
          · rw [hst]; exact hk
          · have hj : (s.stepper k).job = none := by
              cases hj : (s.stepper k).job with
              | none => rfl
              | some j => exact absurd (h.pulsing hb (by rw [hj]; rfl)) hp
            have hr : reqs = [] := by have := h.asks; rw [hj] at this; exact this
            subst hr
            exact nextPin_sound _ fun _ => by rw [stepper_modStp_self]

theorem deliverRun_sound {s : State} {k : StepperId} {reqs : List Request} (h : EngineSound k reqs (s.stepper k)) :
    EngineSound k reqs ((s.deliverRun k).stepper k) := by
  unfold State.deliverRun
  split
  · exact h
  · split
    · rw [stepper_modStp_self]
      exact h.of_same rfl rfl (fun e => by simp [Stepper.inBackground, Run.ended] at e)
    · exact h

/-! ### All run engines -/

theorem engineIssue_sound {s : State} {k : StepperId} (h : EngineSound k (engineRequests s.bus k) (s.stepper k)) :
    EngineSound k (engineRequests (s.engineIssue k).bus k) ((s.engineIssue k).stepper k) := by
  unfold State.engineIssue
  split
  · exact h
  · rename_i j hj
    split
    · exact h
    · rename_i w more hl
      split
      · exact h
      · rename_i ho
        have ha := h.asks
        rw [hj] at ha
        obtain ⟨_, _, _, ha⟩ := ha
        have hreq : engineRequests s.bus k = [] := by simpa [ho] using ha
        rw [stepper_of_stp (request_stp _ _ _), stepper_modStp_self]
        refine ⟨⟨w, more, hl, ?_⟩, fun hb _ => h.pulsing hb (by rw [hj]; rfl)⟩
        simp only [engineRequests, List.filter_append, List.append_eq_nil_iff] at hreq
        simp [engineRequests, State.request, hreq]

/-- Another engine's request is not one of engine `j`. -/
theorem engineIssue_requests_of_ne (s : State) {j k : StepperId} (h : j ≠ k) :
    engineRequests (s.engineIssue k).bus j = engineRequests s.bus j := by
  unfold State.engineIssue
  split
  · rfl
  · split
    · rfl
    · split
      · rfl
      · simp [engineRequests, State.request, h.symm]

/-- The completion of a transaction takes it from its engine's requests, and from no other's. -/
theorem engineRequests_completed {b c : Bus} {q : Request} {i : StepperId} (hi : b.inflight = some q) (hw : q.who = .engine i)
    (hd : c.inflight = none) (hr : c.reqq = b.reqq) :
    engineRequests b i = q :: engineRequests c i ∧ ∀ k, k ≠ i → engineRequests c k = engineRequests b k := by
  refine ⟨by simp [engineRequests, hi, hd, hr, hw], fun k hk => ?_⟩
  simp [engineRequests, hi, hd, hr, hw, hk.symm]

/-- An engine whose transaction is in flight is in a vector write, and has no other request. -/
theorem Asks.of_cons {k : StepperId} {job : Option VecJob} {q : Request} {reqs : List Request} (h : Asks k job (q :: reqs)) :
    job ≠ none ∧ reqs = [] := by
  cases job with
  | none => cases h
  | some j =>
    obtain ⟨w, more, _, h⟩ := h
    refine ⟨nofun, ?_⟩
    split at h
    · simp only [List.cons.injEq] at h; exact h.2
    · cases h

/-- Every run engine is sound. -/
def EnginesSound (u : State) : Prop := ∀ k, EngineSound k (engineRequests u.bus k) (u.stepper k)

theorem EnginesSound.of_same {u v : State} (h : EnginesSound u) (hs : v.stp = u.stp)
    (hr : ∀ k, engineRequests v.bus k = engineRequests u.bus k) : EnginesSound v :=
  fun k => by rw [hr, stepper_of_stp hs]; exact h k

/-- A step that touches no other engine's requests and no other stepper. -/
theorem EnginesSound.of_one {u v : State} (i : StepperId) (h : EnginesSound u)
    (ho : ∀ j, j ≠ i → v.stepper j = u.stepper j ∧ engineRequests v.bus j = engineRequests u.bus j)
    (hi : EngineSound i (engineRequests v.bus i) (v.stepper i)) : EnginesSound v := fun k => by
  by_cases e : k = i
  · subst e; exact hi
  · rw [(ho k e).1, (ho k e).2]; exact h k

theorem busStep_enginesSound {u : State} (h : EnginesSound u) : EnginesSound u.busStep := by
  unfold State.busStep
  split
  · rename_i q hq
    split
    · exact h
    · rename_i i hi
      let v := u.drawAnswer.2.completeTxn (.engine i) q.txn u.drawAnswer.1
      have hv : v.stp = u.stp := by simp [v]
      obtain ⟨hown, hother⟩ := engineRequests_completed (b := u.bus) (c := v.bus) hq hi (by simp [v]) (by simp [v])
      have hs := h i
      rw [hown] at hs
      obtain ⟨hj, hnil⟩ := hs.asks.of_cons
      have hb : ∀ ok, (v.engineReply i q.txn ok).bus = v.bus := fun ok => engineReply_bus v i q.txn ok
      refine h.of_one i (fun j hj => ?_) ?_
      · rw [(engineReply_kept i v _ _).others j hj, hb, stepper_of_stp hv]
        exact ⟨rfl, hother j hj⟩
      · rw [hb, hnil]
        exact engineReply_sound _ _ (by rw [stepper_of_stp hv]; exact hs) (by rw [stepper_of_stp hv]; exact hj)
  · rename_i hn
    split
    · exact h
    · split
      · exact h
      · rename_i q rest hr
        split
        · exact h
        · exact h.of_same rfl fun k => by simp [engineRequests, hn, hr]

theorem background_enginesSound {u : State} (b : Background) (hn : NotRst b u) (h : EnginesSound u) :
    EnginesSound (u.background b) := by
  cases b with
  | tick i =>
    refine h.of_one i (fun j hj => ⟨(onTick_kept i u).others j hj, ?_⟩) ?_
    · simp [State.background]
    · simp only [State.background, onTick_bus]
      exact onTick_sound (h i)
  | engine i =>
    simp only [State.background]
    split
    · refine h.of_one i (fun j hj => ⟨(deliverRun_kept i u).others j hj, by simp⟩) ?_
      rw [deliverRun_bus]
      exact deliverRun_sound (h i)
    · exact h.of_one i (fun j hj => ⟨(engineIssue_kept i u).others j hj, engineIssue_requests_of_ne u hj⟩)
        (engineIssue_sound (h i))
  | bus => exact busStep_enginesSound h
  | host =>
    obtain ⟨hs, _, hb, _⟩ := hostTurn_stp u (hn rfl)
    exact h.of_same hs fun k => by rw [State.background, hb]

/-! ### Through the sequences of the commands -/

/-- The run engines are sound, and the steppers that the command moves have no background work. -/
structure Linked (own : StepperId → Prop) (u : State) : Prop where
  engines : EnginesSound u
  idle : ∀ k, own k → (u.stepper k).dormant

theorem Linked.of_same {own : StepperId → Prop} {u v : State} (h : Linked own u) (hs : v.stp = u.stp)
    (hr : ∀ k, engineRequests v.bus k = engineRequests u.bus k) : Linked own v :=
  ⟨h.engines.of_same hs hr, fun k hk => by rw [stepper_of_stp hs]; exact h.idle k hk⟩

theorem Linked.of_bus {own : StepperId → Prop} {u v : State} (h : Linked own u) (hs : v.stp = u.stp) (hb : v.bus = u.bus) :
    Linked own v := h.of_same hs fun k => by rw [hb]

theorem Linked.background {own : StepperId → Prop} {u : State} (b : Background) (hn : NotRst b u) (h : Linked own u) :
    Linked own (u.background b) :=
  ⟨background_enginesSound b hn h.engines, fun k hk => by rw [background_dormant u b k (h.idle k hk) hn]; exact h.idle k hk⟩

theorem Linked.silent {own : StepperId → Prop} {u v : State} (h : Linked own u) (hs : Silent own u v) : Linked own v := by
  refine ⟨fun k => ?_, fun k hk => ?_⟩
  · rw [hs.bus]
    refine ⟨by rw [hs.job k]; exact (h.engines k).asks, fun hb hj => ?_⟩
    rw [hs.background] at hb
    rcases hs.pulsing k with ho | hp
    · rw [(h.idle k ho).1] at hb; cases hb
    · rw [hp]; exact (h.engines k).pulsing hb (by rw [← hs.job k]; exact hj)
  · obtain ⟨hb, hj, hh⟩ := h.idle k hk
    exact ⟨by rw [hs.background]; exact hb, by rw [hs.job]; exact hj, by rw [hs.held]; exact hh⟩

theorem engineRequests_request (s : State) (t : Txn) (k : StepperId) :
    engineRequests (s.request .cp t).bus k = engineRequests s.bus k := by
  simp [engineRequests, State.request]

theorem filter_engine_eraseP_cp (k : StepperId) (l : List Request) :
    (l.eraseP (fun q => q.who == .cp)).filter (fun q => q.who == .engine k) = l.filter (fun q => q.who == .engine k) := by
  induction l with
  | nil => rfl
  | cons q l ih =>
    cases hq : q.who with
    | cp => simp [hq]
    | engine i => simp [hq, ih, List.filter_cons]

theorem engineRequests_grantCp (s : State) (t : Txn) (k : StepperId) (h : s.bus.inflight = none) :
    engineRequests (s.grantCp t).bus k = engineRequests s.bus k := by
  simp [engineRequests, State.grantCp, h, filter_engine_eraseP_cp]

theorem engineRequests_completeCp {l : Bool} {s : State} {t : Txn} (k : StepperId) (h : CpInFlight l t s) :
    engineRequests (s.completeCp t).2.bus k = engineRequests s.bus k := by
  simp [engineRequests, h.inflight]

/-- Everything has been discarded by `rst`. -/
def Wiped (u : State) : Prop := ∃ c, Discarded c u

theorem wiped_calm {u : State} (k : StepperId) (h : Wiped u) : Wiped (u.setPulsing k false) := by
  obtain ⟨c, h⟩ := h
  -- `Discarded` does not read the host's actions, so `c` may have `rst` ready.
  have ht : TakenByRst { c with host := [.rst] } u := ⟨by simp, { h with }⟩
  exact ⟨_, (ht.setPulsing k).2⟩

/-- What the run engines ask for stays sound through every sequence, where it was (`H`). -/
theorem linked_rules (l : Bool) (own : StepperId → Prop) (H : Prop) : BusRules l own (fun u => H → Linked own u) Wiped where
  agents :=
    { background := fun _ b hn h e => (h e).background b hn
      draw := fun _ h e => (h e).of_bus (by simp) (by simp)
      rst := fun u hh _ => ⟨u, (hostTurn_discarded hh).1⟩
      after := fun _ b ⟨c, h⟩ => ⟨c, h.background b⟩ }
  silent _ _ hs h e := (h e).silent hs
  settle _ _ _ _ h e := (h e).of_bus (by simp) (by simp)
  wait _ _ h e := (h e).of_bus (by simp) (by simp)
  request u t h e := (h e).of_same rfl (engineRequests_request u t)
  grant u t hg h e := (h e).of_same rfl fun k => engineRequests_grantCp u t k hg.free
  complete _ _ hf h e := (h e).of_same (by simp) fun k => engineRequests_completeCp k hf
  calm _ k h := wiped_calm k h

/-- A sequence under the lock, which is free before it and after it (R69). -/
theorem exclusive_lands {own : StepperId → Prop} {P : State → Prop} {f : State → SeqEnd} (rules : BusRules true own P Wiped)
    (hl : ∀ u v, P u → P (u.setLock v)) (w : ∀ u, CpWork true own u (f u)) {u : State} (hc : u.cp ≠ .idle)
    (hu : CpOnBus false 0 u) (hp : P u) : Lands (fun v => CpOnBus false 0 v ∧ P v) Wiped (exclusive f u) := by
  have kC : AgentsKeep (fun u => CpOnBus false 0 u ∧ P u) Wiped :=
    rules.agents.and (fun u b hn hu => hu.move (background_busMove u b hn)) (fun u hu => hu.of_bus (by simp))
  have hy := yield_lands kC hc ⟨hu, hp⟩
  rcases yield_cut u with e | e
  · rw [exclusive_of_yield e]
    obtain ⟨hcp, hpy⟩ := hy.1 (by simp [e])
    obtain ⟨hci, hpi⟩ := completeInflight_keeps (P := fun u => CpOnBus false 0 u ∧ P u)
      (fun w => kC.background w .bus (fun e => nomatch e)) hpy
    have hbus : CpOnBus true 0 u.lockTaken :=
      ⟨rfl, hci.count, hci.inflight, fun _ => completeInflight_free hpy.1.inflight⟩
    have hcl : u.lockTaken.cp ≠ .idle := by
      rw [State.lockTaken, setLock_cp, (completeInflight_kept _).cp]; exact hcp
    have h := (w u.lockTaken).lands rules.work hcl ⟨hbus, hl _ _ hpi⟩
    refine ⟨fun hr => ?_, fun hr => ?_⟩
    · obtain ⟨h1, h2, h3⟩ := h.1 hr
      exact ⟨h1, ⟨rfl, h2.count, h2.inflight, nofun⟩, hl _ _ h3⟩
    · obtain ⟨c, hd⟩ := h.2 hr
      exact ⟨c, { hd with bus := ⟨hd.bus.1, hd.bus.2.1, rfl⟩ }⟩
  · rw [exclusive_of_cut (by simp [e])]
    exact hy

/-! ### Steps of the machine -/

/-- After its response the CP is idle, or holds the response for a full `cmplq`. -/
theorem endCommand_cp (u : State) (i : Instr) (e : CmdEnd) :
    (u.endCommand i e).cp = .idle ∨ (u.endCommand i e).cpHeld.isSome = true := by
  unfold State.endCommand State.respond
  split
  · split
    · exact .inl rfl
    · exact .inr rfl
  · exact .inl rfl

theorem Discarded.cpInv {s t : State} (h : Discarded s t) : CpInv t :=
  ⟨.inl h.cp.1, h.bus.2.2, by rw [h.bus.1]; simp, by rw [h.bus.2.1]; simp⟩

theorem Discarded.busInv {s t : State} (h : Discarded s t) : BusInv t :=
  busInv_iff.2 fun k => by
    rw [h.stp k]
    simp [Stepper.reset, Asks, engineRequests, h.bus.1, h.bus.2.1]

theorem CpOnBus.cpInv {t : State} (h : CpOnBus false 0 t) (hc : t.cp = .idle ∨ t.cpHeld.isSome = true) : CpInv t :=
  ⟨hc, h.lock, fun q hq => by simpa using List.countP_eq_zero.1 h.count q hq, h.inflight⟩

theorem CpInv.onBus {s : State} (h : CpInv s) : CpOnBus false 0 s :=
  ⟨h.lock, List.countP_eq_zero.2 fun q hq => by simpa using h.requests q hq, h.inflight, nofun⟩

/-- Where runs and requests were coherent, the run engines are sound. -/
theorem Apart.enginesSound {s u : State} (h : Apart s u) (hr : RunInv s) (hb : BusInv s) : EnginesSound u := fun k => by
  rw [h.bus]
  exact ⟨by rw [h.job]; exact busInv_iff.1 hb k, fun _ hj => by rw [h.pulsing, (hr k).pulsing, ← h.job]; exact hj⟩

/-- What holds of the bus after a command that started in `s`. -/
def BusKept (s t : State) : Prop := CpInv t ∧ (RunInv s → BusInv s → BusInv t)

theorem Discarded.busKept {c s t : State} (h : Discarded c t) : BusKept s t := ⟨h.cpInv, fun _ _ => h.busInv⟩

/-- The vector writes and the requests are as before. -/
theorem Apart.busInv {s u : State} (h : Apart s u) (hb : BusInv s) : BusInv u :=
  busInv_iff.2 fun k => by rw [h.bus, h.job]; exact busInv_iff.1 hb k

theorem busKept_of_ended {s u : State} (i : Instr) (e : CmdEnd) (hc : CpOnBus false 0 u)
    (hb : RunInv s → BusInv s → BusInv u) : BusKept s (u.endCommand i e) :=
  ⟨(hc.of_bus (by simp)).cpInv (endCommand_cp u i e), fun hr hs =>
    Apart.busInv (.of_stp (by simp) (by simp) (by simp)) (hb hr hs)⟩

/-- The end of a sequence. -/
theorem EndsAs.busKept {s t : State} {i : Instr} {r : SeqEnd} {own : StepperId → Prop} (e : EndsAs i r t)
    (h : Lands (fun v => CpOnBus false 0 v ∧ (RunInv s ∧ BusInv s → Linked own v)) Wiped r) : BusKept s t := by
  rcases e with ⟨hr, rfl⟩ | ⟨hr, u, e, ha, rfl⟩
  · obtain ⟨c, hd⟩ := h.2 hr
    exact hd.busKept
  · obtain ⟨-, hc, hl⟩ := h.1 hr
    exact busKept_of_ended i e (hc.of_bus ha.bus) fun h1 h2 => ha.busInv fun k => ((hl ⟨h1, h2⟩).engines k).asks

/-- A command that takes the bus with nothing of the CP on it leaves it so. -/
theorem exec_busKept {i : Instr} {s t : State} (hc : s.cp ≠ .idle) (h : CpOnBus false 0 s) (he : exec i s = .next t) :
    BusKept s t := by
  cases exec_commandRun he with
  | ended ha e => exact busKept_of_ended i e (h.of_bus ha.bus) fun _ => ha.busInv
  | left ha => exact ⟨(h.of_bus (v := State.leaveToEngine _) ha.bus).cpInv (.inl rfl), fun _ hb => ha.busInv hb⟩
  | worked ha hcp idle w e =>
    refine e.busKept (w.lands (linked_rules false _ (RunInv s ∧ BusInv s)).work (by rw [hcp]; exact hc) ⟨h.of_bus ha.bus, ?_⟩)
    exact fun ⟨hr, hb⟩ => ⟨ha.enginesSound hr hb, idle hr⟩
  | locked ha hcp _ w e =>
    refine e.busKept (exclusive_lands (linked_rules true _ (RunInv s ∧ BusInv s)) (fun u v hu hh => (hu hh).of_same rfl fun k => rfl) w
      (by rw [hcp]; exact hc) (h.of_bus ha.bus) fun ⟨hr, hb⟩ => ⟨ha.enginesSound hr hb, fun _ h => h.elim⟩)

theorem background_busKept {s : State} (b : Background) (h : CpInv s) : BusKept s (s.background b) := by
  rcases background_notRst_or s b with hn | hd
  · have hb := background_beside s b hn
    refine ⟨(h.onBus.move (background_busMove s b hn)).cpInv (by rw [hb.cp, hb.cpHeld]; exact h.cp), fun hr hi k => ?_⟩
    exact (background_enginesSound b hn ((Apart.refl s).enginesSound hr hi) k).asks
  · exact hd.busKept

theorem deliverCp_busKept {s : State} (h : CpInv s) : BusKept s s.deliverCp := by
  have ha : Apart s s.deliverCp := by
    refine .of_stp ?_ ?_ (deliverCp_stp s) <;> (unfold State.deliverCp; split <;> [rfl; (split <;> rfl)])
  refine ⟨(h.onBus.of_bus ha.bus).cpInv ?_, fun _ => ha.busInv⟩
  unfold State.deliverCp
  split
  · exact h.cp
  · split
    · exact .inl rfl
    · exact h.cp

/-- Settles O59: the run engines' steps keep their requests sound, and a command takes its own requests from the bus again. -/
theorem busInvKept : Obligations.BusInvKept := by
  intro s t h hs
  have hd : CpInv s.drawTurn.2 := h.onBus.of_bus (by simp) |>.cpInv (by simpa using h.cp)
  have ha : Apart s s.drawTurn.2 := .of_stp (by simp) (by simp) (by simp)
  suffices hk : BusKept s.drawTurn.2 t from
    ⟨hk.1, fun hr hb => hk.2 (hr.of_stp (by simp)) (ha.busInv hb)⟩
  rcases step_cases hs with ⟨b, rfl⟩ | rfl | rfl | ⟨q, rest, _, ⟨why, rfl⟩ | ⟨i, _, hx⟩⟩
  · exact background_busKept b hd
  · exact deliverCp_busKept hd
  · exact ⟨hd, fun _ hb => hb⟩
  · exact ⟨(hd.onBus.of_bus (v := (s.drawTurn.2.take q rest).rejectQueued q why) rfl).cpInv (.inl rfl), fun _ hb => hb⟩
  · exact exec_busKept (s := s.drawTurn.2.take q rest) (by simp [State.take]) (hd.onBus.of_bus rfl) hx

end Sys2Proof.Machine
end

section
/-! The bus master (20_memory.md R67 to R69): what each step of the bus master and of a run engine does to the queue, and that outside an
exclusive sequence the CP's first transaction comes after all that was requested before the command. While a command waits for it, what
was pending is `Serving`: completed in order, or still ahead of the CP's request. -/

namespace Sys2Proof.Machine

open Sys2Proof

/-! ### Steps of the machine by other agents -/

/-- A step that is agent `b`'s turn. -/
theorem Moves.eq {b : Background} {s t : State} (h : Moves b s t) : t = s.drawTurn.2.background b := by
  obtain ⟨rest, hr, hs⟩ := h
  have ht : s.drawTurn.1 = .background b := by simp [State.drawTurn, hr]
  simp only [step, ht, Host.Outcome.next.injEq] at hs
  exact hs.symm

theorem busStep_of_locked {u : State} (hi : u.bus.inflight = none) (hl : u.bus.lock = true) : u.busStep = u := by
  simp [State.busStep, hi, hl]

theorem busStep_of_request {u : State} {q : Request} {rest : List Request} {i : StepperId} (hi : u.bus.inflight = none)
    (hl : u.bus.lock = false) (hr : u.bus.reqq = q :: rest) (hw : q.who = .engine i) :
    u.busStep = { u with bus := { u.bus with reqq := rest, inflight := some q } } := by
  simp [State.busStep, hi, hl, hr, hw]

theorem engineIssue_of_outstanding {u : State} {i : StepperId} {j : VecJob} (hj : (u.stepper i).job = some j)
    (ho : j.outstanding = true) : u.engineIssue i = u := by
  unfold State.engineIssue
  simp only [hj]
  split
  · rfl
  · rw [if_pos ho]

theorem engineIssue_of_ready {u : State} {i : StepperId} {j : VecJob} {w : Byte × Byte} {rest : List (Byte × Byte)}
    (hj : (u.stepper i).job = some j) (hl : j.left = w :: rest) (ho : j.outstanding = false) :
    u.engineIssue i = (u.modStp i (fun st => { st with job := some { j with outstanding := true } })).request (.engine i)
      (.write Config.devAddr w.1 w.2) := by
  simp [State.engineIssue, hj, hl, ho]

/-! ### What was pending before a command -/

/-- The transaction in flight and the requests, in the order of their service. -/
def State.pending (u : State) : List Request := u.bus.inflight.toList ++ u.bus.reqq

/-- The requests that will be served before any of the CP's. -/
def State.ahead (u : State) : List Request := u.pending.takeWhile (fun q => q.who != .cp)

/-- Since `s` no transaction of the CP has completed; and what was pending then has completed in order, but for a part that comes
before any request of the CP. -/
structure Serving (s u : State) : Prop where
  lock : u.bus.lock = false
  served : ∃ l, u.trace = l ++ s.trace ∧ (∀ x, x ∈ l → x.ofCp = false) ∧
    s.pending <+: l.reverse.filterMap TraceItem.request ++ u.ahead

/-- Since `s` the CP has completed a transaction, the first of them after all that was pending then. -/
def ServedFirst (s u : State) : Prop :=
  ∃ after x before, u.trace = after ++ x :: (before ++ s.trace) ∧ x.ofCp = true ∧ (∀ y, y ∈ before → y.ofCp = false) ∧
    s.pending <+: before.reverse.filterMap TraceItem.request

theorem Serving.cpTrace {s u : State} (h : Serving s u) : u.cpTrace = s.cpTrace := by
  obtain ⟨l, ht, hl, _⟩ := h.served
  unfold State.cpTrace
  rw [ht, cpTrace_append_other hl]

theorem ServedFirst.grows {s u v : State} (h : ServedFirst s u) (hv : ∃ l, v.trace = l ++ u.trace) : ServedFirst s v := by
  obtain ⟨after, x, before, ht, hx⟩ := h
  obtain ⟨l, hv⟩ := hv
  exact ⟨l ++ after, x, before, by rw [hv, ht, List.append_assoc], hx⟩

/-- More requests ahead, with the trace and the lock as before. -/
theorem Serving.of_ahead {s u v : State} (h : Serving s u) (hl : v.bus.lock = u.bus.lock) (ht : v.trace = u.trace)
    (ha : u.ahead <+: v.ahead) : Serving s v := by
  obtain ⟨hlock, l, hu, hcp, hp⟩ := h
  exact ⟨by rw [hl]; exact hlock, l, by rw [ht]; exact hu, hcp, hp.trans ((List.prefix_append_right_inj _).2 ha)⟩

theorem Serving.of_bus {s u v : State} (h : Serving s u) (hb : v.bus = u.bus) (ht : v.trace = u.trace) : Serving s v := by
  have e : v.ahead = u.ahead := by simp only [State.ahead, State.pending, hb]
  exact h.of_ahead (by rw [hb]) ht (e ▸ List.prefix_refl _)

/-- A request that joins the queue is behind what is ahead. -/
theorem ahead_prefix_of_append {u v : State} {q : Request} (hi : v.bus.inflight = u.bus.inflight)
    (hr : v.bus.reqq = u.bus.reqq ++ [q]) : u.ahead <+: v.ahead := by
  have e : v.pending = u.pending ++ [q] := by simp [State.pending, hi, hr]
  rw [State.ahead, State.ahead, e, List.takeWhile_append]
  split
  · rename_i h
    have : u.pending.takeWhile (fun q => q.who != .cp) = u.pending :=
      (List.takeWhile_sublist _).eq_of_length h
    rw [this]
    exact List.prefix_append _ _
  · exact List.prefix_refl _

theorem Serving.move {s u v : State} (h : Serving s u) (m : BusMove u v) : Serving s v := by
  cases m with
  | same bus trace => exact h.of_bus bus trace
  | issue i t bus trace => exact h.of_ahead (by rw [bus]) trace (ahead_prefix_of_append (by rw [bus]) (by rw [bus]))
  | grant i q rest free _ head who bus trace =>
    refine h.of_ahead (by rw [bus]) trace ?_
    rw [State.ahead, State.ahead, State.pending, State.pending, bus, free, head]
    exact List.prefix_refl _
  | complete i q ok byte inflight who done reqq lock trace =>
    obtain ⟨hlock, l, hu, hcp, hp⟩ := h
    refine ⟨by rw [lock]; exact hlock, .txn q.who q.txn ok byte :: l, by rw [trace, hu]; rfl, ?_, ?_⟩
    · intro x hx
      rcases List.mem_cons.1 hx with rfl | hx
      · rw [who]; rfl
      · exact hcp x hx
    · have ha : u.ahead = q :: v.ahead := by
        simp [State.ahead, State.pending, inflight, done, reqq, who]
      rw [ha] at hp
      simpa [TraceItem.request] using hp

/-- No trace item is lost, `rst` included. -/
theorem background_trace_grows (u : State) (b : Background) : ∃ l, (u.background b).trace = l ++ u.trace := by
  rcases background_notRst_or u b with hn | hd
  · obtain ⟨l, hl, _⟩ := (background_beside u b hn).trace
    exact ⟨l, hl⟩
  · exact hd.trace

/-- Where the CP's request is at the head of the free bus, nothing is ahead of it. -/
theorem GrantPoint.ahead {u : State} (h : GrantPoint u) (hl : u.bus.lock = false) : u.ahead = [] := by
  obtain ⟨x, post, hr⟩ := h.head hl
  simp [State.ahead, State.pending, h.free, hr]

theorem CpInFlight.served {l : Bool} {t : Txn} {s u : State} (hf : CpInFlight l t u) (h : Serving s u) :
    ServedFirst s (u.completeCp t).2 := by
  obtain ⟨_, l, hu, hcp, hp⟩ := h
  have ha : u.ahead = [] := by simp [State.ahead, State.pending, hf.inflight]
  rw [ha, List.append_nil] at hp
  exact ⟨[], _, l, by rw [completeCp_trace, hu]; rfl, rfl, hcp, hp⟩

/-- What was pending is served in order, through every sequence beside the run engines. -/
theorem serving_rules (s : State) (own : StepperId → Prop) : BusRules false own (fun u => Serving s u ∨ ServedFirst s u)
    (fun u => u.cpTrace = s.cpTrace ∨ ServedFirst s u) where
  agents :=
    { background := fun u b hn h => h.imp (fun h => h.move (background_busMove u b hn)) (fun h => h.grows (background_trace_grows u b))
      draw := fun _ h => h.imp (fun h => h.of_bus (by simp) (by simp)) (fun h => h.grows ⟨[], by simp⟩)
      rst := fun u _ h => h.imp (fun h => (background_cpTrace u .host).trans h.cpTrace)
        (fun h => h.grows (background_trace_grows u .host))
      after := fun u b h => h.imp (fun h => (background_cpTrace u b).trans h) (fun h => h.grows (background_trace_grows u b)) }
  silent _ _ hs h := h.imp (fun h => h.of_bus hs.bus hs.sameTrace) (fun h => h.grows ⟨[], by rw [hs.sameTrace]; rfl⟩)
  settle _ _ _ hl := nomatch hl
  wait _ _ h := h.imp (fun h => h.of_bus (by simp) (by simp)) (fun h => h.grows ⟨[], by simp⟩)
  request _ _ h := h.imp (fun h => h.of_ahead rfl rfl (ahead_prefix_of_append rfl rfl)) (fun h => h.grows ⟨[], rfl⟩)
  grant _ _ hg h := h.imp (fun h => h.of_ahead rfl rfl (by rw [hg.ahead h.lock]; exact List.nil_prefix))
    (fun h => h.grows ⟨[], rfl⟩)
  complete _ _ hf h := .inr (h.elim hf.served fun h => h.grows ⟨[_], by rw [completeCp_trace]; rfl⟩)
  calm _ _ h := h.imp id (fun h => h.grows ⟨[], rfl⟩)

/-- A command that is not exclusive makes its first transaction after all that was pending before it. -/
theorem exec_servedFirst {i : Instr} {s t : State} (hc : s.cp ≠ .idle) (hx : ¬ hasExclusiveSequence i)
    (hl : s.bus.lock = false) (hq : ∀ q, q ∈ s.pending → q.who ≠ .cp) (he : exec i s = .next t) (ht : t.cpTrace ≠ s.cpTrace) :
    ServedFirst s t := by
  have hb : CpOnBus false 0 s := by
    refine ⟨hl, List.countP_eq_zero.2 fun q hm => ?_, fun q hi => hq q ?_, nofun⟩
    · simpa using hq q (List.mem_append_right _ hm)
    · simp [State.pending, hi]
  have hs : Serving s s := by
    refine ⟨hl, [], rfl, by simp, ?_⟩
    rw [State.ahead, List.takeWhile_eq_self_iff.2 fun q hm => by simpa using hq q hm]
    exact List.prefix_refl _
  have of_trace : ∀ {u : State}, t.trace = u.trace → u.cpTrace = s.cpTrace → ServedFirst s t := fun h1 h2 =>
    absurd (by rw [State.cpTrace, h1]; exact h2) ht
  cases exec_commandRun he with
  | ended ha e => exact of_trace (u := s) (by rw [endCommand_trace, ha.trace]) rfl
  | left ha => exact of_trace (u := s) ha.trace rfl
  | locked _ _ x => exact absurd x hx
  | worked ha hcp _ w e =>
    have hr := w.lands (serving_rules s _).work (by rw [hcp]; exact hc) ⟨hb.of_bus ha.bus, .inl (hs.of_bus ha.bus ha.trace)⟩
    rcases e with ⟨h2, rfl⟩ | ⟨h2, u, e, hu, rfl⟩
    · exact (hr.2 h2).resolve_left ht
    · have hut : (u.endCommand i e).trace = _ := (endCommand_trace u i e).trans hu.trace
      rcases (hr.1 h2).2.2 with h | h
      · exact of_trace hut h.cpTrace
      · exact h.grows ⟨[], hut⟩

/-- Settles O47: the steps of the bus master and of the run engines by their cases, and the service of the CP's requests through every
sequence that is not exclusive. -/
theorem busMaster : Obligations.BusMaster := by
  intro s t
  have hstp : ∀ i, s.drawTurn.2.stepper i = s.stepper i := stepper_of_stp (by simp)
  refine ⟨fun q rest i hm hi hr hw => ?_, fun i j w rest hm hh hj hl => ?_, fun b q hm hn hi => ?_,
    fun i tk hin hx hl hq he ht => ?_⟩
  · rw [hm.eq, State.background]
    refine ⟨fun hl => ?_, fun hl => ?_⟩
    · rw [busStep_of_request (i := i) (by simpa using hi) (by simpa using hl) (by simpa using hr) hw]
      exact ⟨rfl, rfl, by simp, by simp⟩
    · rw [busStep_of_locked (by simpa using hi) (by simpa using hl)]
      exact ⟨by simp, by simp, by simp⟩
  · have hb : s.drawTurn.2.background (.engine i) = s.drawTurn.2.engineIssue i := by simp [State.background, hstp, hh]
    have hj' : (s.drawTurn.2.stepper i).job = some j := by rw [hstp, hj]
    rw [hm.eq, hb]
    refine ⟨by simp, ?_, fun ho => ?_, fun ho => ?_⟩
    · obtain ⟨l, hbus, _⟩ := engineIssue_bus s.drawTurn.2 i
      simp [hbus]
    · rw [engineIssue_of_outstanding hj' ho]; simp
    · rw [engineIssue_of_ready hj' hl ho]
      refine ⟨by simp, ?_⟩
      rw [stepper_of_stp (request_stp _ _ _), stepper_modStp_self]
  · rw [hm.eq]
    have hn' : NotRst b s.drawTurn.2 := by simpa [NotRst] using hn
    cases background_busMove _ b hn' with
    | same bus trace => exact .inl ⟨by rw [bus]; simpa using hi, by simpa using trace⟩
    | issue i x bus trace => exact .inl ⟨by rw [bus]; simpa using hi, by simpa using trace⟩
    | grant i x more free => simp [hi] at free
    | complete i x ok byte inflight who done reqq lock trace =>
      obtain rfl : q = x := by simpa [hi] using inflight
      exact .inr ⟨done, ok, byte, by simpa using trace⟩
  · exact exec_servedFirst (cp_ne_idle_of_inCommand hin) hx hl hq he ht

end Sys2Proof.Machine
end

section
/-! The sequences of the commands as the lists that the spec writes (30_encoding.md R91; 40_driver.md R123 to R129; 41_stepper_config.md
R167; 42_stepper_motion.md R208, R210, R212): each is `Played`, whatever the other agents do meanwhile. For the vector writes the
stepper that the CP moves is followed (`Resting`), whose phase and cache no other agent touches. -/

namespace Sys2Proof.Machine

open Sys2Proof

/-! ### Register sequences -/

theorem anyBackground_of {u v : State} (h : ∀ j, (v.stepper j).inBackground = (u.stepper j).inBackground) :
    v.anyBackground = u.anyBackground := by
  have e : v.stp.map Stepper.inBackground = u.stp.map Stepper.inBackground := by
    apply Vector.ext
    intro j hj
    simpa [State.stepper, Vector.get_eq_getElem] using h ⟨j, hj⟩
  have hany : ∀ w : State, w.anyBackground = (w.stp.map Stepper.inBackground).toList.any id := fun w => by
    simp [State.anyBackground, Vector.toList_map]
  rw [hany, hany, e]

theorem resetSequence_played (s : State) (hc : s.cp ≠ .idle) : ∃ a, Played s (fixed resetItems) (resetSequence s) a := by
  obtain ⟨a, h⟩ := transactSeq_played s (.send Config.resetAddr Config.swrstByte) hc
  refine h.seq_fixed (m := []) hc fun _ _ => ⟨[], silent_played (forget_seqKept _) rfl rfl rfl rfl rfl rfl rfl rfl rfl rfl rfl rfl ?_⟩
  exact anyBackground_of fun j => by rw [stepper_mapStp]; rfl

/-- An own write of the CP, and then the rest. -/
theorem Played.before {s u : State} {l : List SeqItem} {r : SeqEnd} (h : Played s (fixed []) (u, none) []) (hc : s.cp ≠ .idle)
    (hr : ∃ a, Played u (fixed l) r a) : ∃ a, Played s (fixed l) r a :=
  h.seq_fixed (f := fun _ => r) hc fun _ _ => hr

/-- A change of the image, then a byte write. -/
theorem image_memWrite_played (s : State) (m : Image) (w : Byte × Byte) (hc : s.cp ≠ .idle) :
    ∃ a, Played s (fixed [writeItem w]) (({ s with img := m } : State).memWrite w.1 w.2) a :=
  (image_played s m).before hc (memWrite_played _ w hc)

theorem freqSequence_played (p : Byte) (s : State) (hc : s.cp ≠ .idle) :
    ∃ a, Played s (fun ans n => freqItems p (ans n).byte) (freqSequence p s) a := by
  refine memRead_played s Config.regMode1 _ (fun old =>
    [writeItem (Config.regMode1, (old &&& ~~~Config.bitRestart) ||| Config.bitSleep), writeItem (Config.regPrescale, p),
      writeItem (Config.regMode1, old), .settle 5, writeItem (Config.regMode1, old ||| Config.wakeMask)]) hc fun old u hu => ?_
  obtain ⟨_, h1⟩ := memWrite_played u (Config.regMode1, (old &&& ~~~Config.bitRestart) ||| Config.bitSleep) hu
  refine h1.seq_fixed (m := [_, _, _, _]) hu fun _ hv => ?_
  obtain ⟨_, h2⟩ := memWrite_played _ (Config.regPrescale, p) hv
  refine h2.seq_fixed (m := [_, _, _]) hv fun _ hw => ?_
  obtain ⟨_, h3⟩ := image_memWrite_played _ _ (Config.regMode1, old) hw
  refine h3.seq_fixed (m := [_, _]) hw fun _ hx => ?_
  obtain ⟨_, h4⟩ := settle_played _ Config.settleMs hx
  exact h4.seq_fixed (m := [_]) hx fun _ hy => memWrite_played _ (Config.regMode1, old ||| Config.wakeMask) hy

/-- A change of the image, then an all-channel write. -/
theorem image_allWrite_played (s : State) (m : Image) (on off : Tick) (hc : s.cp ≠ .idle) :
    ∃ a, Played s (fixed (allItems on off)) (allWrite on off { s with img := m }) a :=
  (image_played s m).before hc (allWrite_played on off _ hc)

/-- The items of `DRV_INIT` from its read on, which is the next transaction. -/
def wakeItems : Items := fun ans n => [.txn (.read Config.devAddr Config.regMode1),
  writeItem (Config.regMode1, (ans n).byte &&& ~~~Config.bitSleep), .settle 5]

/-- The sequence of `DRV_INIT` from its read on. -/
theorem wake_played (s : State) (hc : s.cp ≠ .idle) : ∃ a, Played s
    wakeItems (s.memRead Config.regMode1 (fun m s =>
      thenSeq (s.memWrite Config.regMode1 (m &&& ~~~Config.bitSleep)) (fun s =>
      thenSeq (s.settle Config.settleMs) (fun s => ({ s with img := { s.img with initialised := true } }, none))))) a := by
  refine memRead_played s Config.regMode1 _ (fun m => [writeItem (Config.regMode1, m &&& ~~~Config.bitSleep), .settle 5]) hc
    fun m u hu => ?_
  obtain ⟨_, h1⟩ := memWrite_played u (Config.regMode1, m &&& ~~~Config.bitSleep) hu
  refine h1.seq_fixed (m := [.settle 5]) hu fun _ hv => ?_
  obtain ⟨_, h2⟩ := settle_played _ Config.settleMs hv
  exact h2.seq_fixed (m := []) hv fun _ _ => ⟨[], image_played _ _⟩

theorem initItems_eq (ans : ℕ → Answer) (n : ℕ) : initItems (ans (n + 7)).byte =
    (fixed [.txn (.busOpen Config.busId)]).then ((fixed (allItems 0#13 0#13)).then
      ((fixed [writeItem (Config.regMode2, Config.bitOutdrv)]).then ((fixed [writeItem (Config.regMode1, Config.bitAi)]).then
        ((fixed [.settle 5]).then wakeItems)))) ans n := rfl

theorem initSequence_played (s : State) (hc : s.cp ≠ .idle) :
    ∃ a, Played s (fun ans n => initItems (ans (n + 7)).byte) (initSequence s) a := by
  simp only [initItems_eq]
  obtain ⟨_, h1⟩ := transactSeq_played s (.busOpen Config.busId) hc
  refine h1.seq hc fun _ hu => ?_
  obtain ⟨_, h2⟩ := image_allWrite_played _ _ 0#13 0#13 hu
  refine h2.seq hu fun _ hv => ?_
  obtain ⟨_, h3⟩ := memWrite_played _ (Config.regMode2, Config.bitOutdrv) hv
  refine h3.seq hv fun _ hw => ?_
  obtain ⟨_, h4⟩ := memWrite_played _ (Config.regMode1, Config.bitAi) hw
  refine h4.seq hw fun _ hx => ?_
  obtain ⟨_, h5⟩ := settle_played _ Config.settleMs hx
  exact h5.seq hx fun _ hy => wake_played _ hy

/-! ### Vector writes -/

/-- The CP moves stepper `k`: no other agent has work for it, and its phase and cache are as given. -/
structure Resting (k : StepperId) (p : BitVec 6) (c : RoleMap (Option Tick)) (u : State) : Prop where
  dormant : (u.stepper k).dormant
  phase : (u.stepper k).motion.phase = p
  cache : (u.stepper k).cache = c

theorem Resting.of_stepper {k : StepperId} {p : BitVec 6} {c : RoleMap (Option Tick)} {u v : State} (h : Resting k p c u)
    (e : v.stepper k = u.stepper k) : Resting k p c v :=
  ⟨by rw [e]; exact h.dormant, by rw [e]; exact h.phase, by rw [e]; exact h.cache⟩

theorem Resting.othersKeep (k : StepperId) (p : BitVec 6) (c : RoleMap (Option Tick)) (s : State) :
    OthersKeep s (Resting k p c) :=
  .of_fields (fun u b _ h hn => h.of_stepper (background_dormant u b k h.dormant hn))
    (fun _ _ _ hs _ _ h => h.of_stepper (stepper_of_stp hs k))

/-- A write of the CP to its stepper that leaves what a run engine would work at. -/
theorem Resting.modStp {k : StepperId} {p p' : BitVec 6} {c : RoleMap (Option Tick)} {u : State} {f : Stepper → Stepper}
    (h : Resting k p c u) (hb : (f (u.stepper k)).inBackground = (u.stepper k).inBackground)
    (hj : (f (u.stepper k)).job = (u.stepper k).job) (hh : (f (u.stepper k)).held = (u.stepper k).held)
    (hp : (f (u.stepper k)).motion.phase = p') (hc : (f (u.stepper k)).cache = (u.stepper k).cache) :
    Resting k p' c (u.modStp k f) := by
  obtain ⟨⟨h1, h2, h3⟩, _, h5⟩ := h
  refine ⟨⟨?_, ?_, ?_⟩, ?_, ?_⟩ <;> rw [stepper_modStp_self]
  · rw [hb, h1]
  · rw [hj, h2]
  · rw [hh, h3]
  · exact hp
  · rw [hc, h5]

theorem Resting.setPulsing {k : StepperId} {p : BitVec 6} {c : RoleMap (Option Tick)} {u : State} (h : Resting k p c u) (v : Bool) :
    Resting k p c (u.setPulsing k v) := h.modStp rfl rfl rfl h.phase rfl

theorem Resting.pinWritten {k : StepperId} {p : BitVec 6} {c : RoleMap (Option Tick)} {u : State} (h : Resting k p c u)
    (t : PinTask) : Resting k p (c.set t.role (some t.value)) (u.pinWritten k t) := by
  obtain ⟨h1, h2, h3⟩ := h
  exact ⟨by rw [pinWritten_stepper_self]; exact h1, by rw [pinWritten_stepper_self]; exact h2,
    by rw [pinWritten_stepper_self, h3]⟩

/-- A change of one stepper by the CP that leaves whether its run engine is active. -/
theorem modStp_played (s : State) (k : StepperId) {f : Stepper → Stepper} (h : SeqKept s (s.modStp k f))
    (hb : (f (s.stepper k)).inBackground = (s.stepper k).inBackground) : Played s (fixed []) (s.modStp k f, none) [] :=
  silent_played h rfl rfl rfl rfl rfl rfl rfl rfl rfl rfl rfl rfl
    (anyBackground_of fun j => stepper_modStp_proj Stepper.inBackground s k j f hb)

theorem pinWritten_played (s : State) (k : StepperId) (t : PinTask) : Played s (fixed []) (s.pinWritten k t, none) [] :=
  silent_played (pinWritten_seqKept s k t) rfl rfl rfl rfl rfl rfl rfl rfl rfl rfl rfl rfl
    (anyBackground_of (pinWritten_silent (own := fun _ => False) s k t).background)

/-- The fall of `pulsing` where a vector write ends. -/
theorem Played.calm {s : State} {l : Items} {r : SeqEnd} {a : List Answer} (h : Played s l r a) (k : StepperId) :
    Played s l (r.1.setPulsing k false, r.2) a where
  plays := h.plays
  count := h.count
  kept hr := (h.kept hr).trans (setPulsing_seqKept _ k false)
  quiet hq := by
    obtain ⟨hr, ha⟩ := h.quiet hq
    have hp := (modStp_played r.1 k (setPulsing_seqKept r.1 k false) rfl).quiet ha.alone
    exact ⟨hr, List.append_nil a ▸ ha.trans hp.2⟩
  cut hr := ⟨(h.cut hr).1.setPulsing k, (h.cut hr).2⟩

/-- Of pins with different roles, those after `t` do not see its cache entry (R207). -/
theorem changedTasks_cons {c : RoleMap (Option Tick)} {t : PinTask} {rest : List PinTask}
    (hd : ((t :: rest).map PinTask.role).Nodup) : changedTasks c (t :: rest) =
    if unchanged c t then changedTasks c rest else t :: changedTasks (c.set t.role (some t.value)) rest := by
  have hne : ∀ x, x ∈ rest → x.role ≠ t.role := fun x hx e =>
    (List.nodup_cons.1 hd).1 (List.mem_map.2 ⟨x, hx, e⟩)
  have hset : changedTasks (c.set t.role (some t.value)) rest = changedTasks c rest :=
    List.filter_congr fun x hx => by rw [RoleMap.get_set_of_ne _ _ (hne x hx)]
  rw [hset]
  by_cases h : c.get t.role = some t.value <;> simp [changedTasks, unchanged, h]

theorem lazyPin_of_unchanged {k : StepperId} {t : PinTask} {u : State} (h : unchanged (u.stepper k).cache t = true) :
    lazyPin k t u = (u, none) := by
  unfold lazyPin
  rw [if_pos h]

theorem lazyPin_of_changed {k : StepperId} {t : PinTask} {u : State} (h : unchanged (u.stepper k).cache t = false) :
    lazyPin k t u = thenSeq (writeAll (pinWrites t.chan t.on t.off) u) (fun s => (s.pinWritten k t, none)) := by
  unfold lazyPin
  rw [h, if_neg Bool.false_ne_true]

/-- A pin that differs from the cache is written, and then the cache holds it (R207, R209). -/
theorem lazyPin_played {k : StepperId} {p : BitVec 6} {c : RoleMap (Option Tick)} {t : PinTask} {u : State} (hc : u.cp ≠ .idle)
    (h : Resting k p c u) (ht : unchanged c t = false) :
    (∃ a, Played u (fixed (pinItems t.chan t.on t.off)) (lazyPin k t u) a) ∧
    ((lazyPin k t u).2 = none → Resting k p (c.set t.role (some t.value)) (lazyPin k t u).1) := by
  rw [lazyPin_of_changed (by rw [h.cache]; exact ht)]
  obtain ⟨_, hw⟩ := writeAll_played (pinWrites t.chan t.on t.off) u hc
  have hs := writeAll_since (pinWrites t.chan t.on t.off) (Resting.othersKeep k p c u) hc (.refl u) h
  refine ⟨?_, fun e => ?_⟩
  · rw [← pinWrites_items, ← List.append_nil (List.map _ _)]
    exact hw.seq_fixed hc fun _ _ => ⟨[], pinWritten_played _ k t⟩
  · by_cases hn : (writeAll (pinWrites t.chan t.on t.off) u).2 = none
    · rw [thenSeq_none hn]
      exact (hs.1 (by simp [hn])).2.pinWritten t
    · rw [thenSeq_some hn] at e
      exact absurd e hn

/-- Where two parts have both been gone through, so has the first. -/
theorem thenSeq_eq_none {r : SeqEnd} {f : State → SeqEnd} (h : (thenSeq r f).2 = none) :
    r.2 = none ∧ thenSeq r f = f r.1 := by
  by_cases e : r.2 = none
  · exact ⟨e, thenSeq_none e f⟩
  · rw [thenSeq_some e] at h
    exact absurd h e

/-- The pins that differ from the cache are written in order, and then the cache holds them (R207 to R209). -/
theorem lazyPins_played {k : StepperId} {p : BitVec 6} {c : RoleMap (Option Tick)} {tasks : List PinTask} {u : State}
    (hc : u.cp ≠ .idle) (hd : (tasks.map PinTask.role).Nodup) (h : Resting k p c u) :
    (∃ a, Played u (fixed (taskItems (changedTasks c tasks))) (lazyPins k tasks u) a) ∧
    ((lazyPins k tasks u).2 = none → Resting k p (cacheWith c (changedTasks c tasks)) (lazyPins k tasks u).1) := by
  induction tasks generalizing u c with
  | nil => exact ⟨⟨[], .refl u⟩, fun _ => h⟩
  | cons t rest ih =>
    have hrest := (List.nodup_cons.1 hd).2
    rw [changedTasks_cons hd]
    unfold lazyPins
    cases ht : unchanged c t with
    | true =>
      rw [lazyPin_of_unchanged (by rw [h.cache]; exact ht)]
      exact ih hc hrest h
    | false =>
      obtain ⟨⟨_, h1⟩, h2⟩ := lazyPin_played hc h ht
      refine ⟨h1.seq_fixed hc fun e hu => (ih hu hrest (h2 e)).1, fun e => ?_⟩
      obtain ⟨e1, e2⟩ := thenSeq_eq_none e
      rw [e2] at e ⊢
      exact (ih (fun hi => hc ((h1.kept (by simp [e1])).idle.1 hi)) hrest (h2 e1)).2 e

/-- A vector write of the CP (R208). -/
theorem vectorWrite_played {k : StepperId} {p : BitVec 6} {c : RoleMap (Option Tick)} {tasks : List PinTask} {u : State}
    (hc : u.cp ≠ .idle) (hd : (tasks.map PinTask.role).Nodup) (h : Resting k p c u) :
    (∃ a, Played u (fixed (taskItems (changedTasks c tasks))) (vectorWrite k tasks u) a) ∧
    ((vectorWrite k tasks u).2 = none →
      Resting k p (cacheWith c (changedTasks c tasks)) (vectorWrite k tasks u).1) := by
  obtain ⟨h1, h2⟩ := lazyPins_played (u := u.setPulsing k true) hc hd (h.setPulsing true)
  obtain ⟨_, h3⟩ := (modStp_played u k (setPulsing_seqKept u k true) rfl).before hc h1
  exact ⟨⟨_, h3.calm k⟩, fun e => (h2 e).setPulsing false⟩

/-- One step: the phase advances, and the vector of the new phase is written (R201, R210). -/
theorem stepOnce_played {k : StepperId} {p : BitVec 6} {c : RoleMap (Option Tick)} (d : Dir) (r : Ready) {u : State}
    (hc : u.cp ≠ .idle) (h : Resting k p c u) :
    let l := changedTasks c (stepTasks r (advance p d r.style r.ms))
    (∃ a, Played u (fixed (taskItems l)) (stepOnce k d r u) a) ∧
    ((stepOnce k d r u).2 = none → Resting k (advance p d r.style r.ms) (cacheWith c l) (stepOnce k d r u).1) := by
  have hadv : Resting k (advance p d r.style r.ms) c (u.advancePhase k d r) :=
    h.modStp rfl rfl rfl (by rw [h.phase]) rfl
  have hv := vectorWrite_played (u := u.advancePhase k d r) hc
    (vectorTasks_roles_nodup r (vectorOf r.style (advance p d r.style r.ms) r.ms)) hadv
  have hp := (modStp_played u k (f := fun st => { st with
    motion := { st.motion with phase := advance st.motion.phase d r.style r.ms } })
    (modStp_seqKept u k rfl rfl rfl rfl rfl) rfl).before hc hv.1
  have e : stepOnce k d r u = vectorWrite k (stepTasks r (advance p d r.style r.ms)) (u.advancePhase k d r) := by
    rw [← hadv.phase]; rfl
  rw [e]
  exact ⟨hp, hv.2⟩

/-- Between two steps of a blocking run the CP counts the step and waits, unless it was the last (R212). -/
theorem stepDone_played {k : StepperId} {p : BitVec 6} {c : RoleMap (Option Tick)} (last : Prop) [Decidable last] (t : ℚ) {u : State}
    (hc : u.cp ≠ .idle) (h : Resting k p c u) :
    let r := if last then (u.countDone k, none) else (u.countDone k).waitPeriod t
    (∃ a, Played u (fixed []) r a) ∧ (r.2 = none → Resting k p c r.1) := by
  have hk : SeqKept u (u.countDone k) := modStp_seqKept u k rfl rfl rfl rfl rfl
  have hdone : Played u (fixed []) (u.countDone k, none) [] := modStp_played u k hk rfl
  have hr : Resting k p c (u.countDone k) := h.modStp rfl rfl rfl h.phase rfl
  dsimp only
  split
  · exact ⟨⟨_, hdone⟩, fun _ => hr⟩
  · refine ⟨hdone.before hc (waitPeriod_played _ _ hc), fun e => ?_⟩
    exact ((waitPeriod_since t (Resting.othersKeep k p c u) hc hk hr).1 (by simp [e])).2

/-- A run of `n` steps by the CP (R212). -/
theorem blockingSteps_played {k : StepperId} {p : BitVec 6} {c : RoleMap (Option Tick)} (r : Ready) (d : Dir) (n : ℕ) {u : State}
    (hc : u.cp ≠ .idle) (h : Resting k p c u) (hd : (u.stepper k).run.runDir = d) :
    ∃ a, Played u (fixed (runItems r d n p c)) (blockingSteps k r n u) a := by
  induction n generalizing u p c with
  | zero => exact ⟨[], .refl u⟩
  | succ n ih =>
    have hk : SeqKept u (u.countIssued k) := modStp_seqKept u k rfl rfl rfl rfl rfl
    obtain ⟨⟨_, h1⟩, h2⟩ := stepOnce_played (u := u.countIssued k) d r hc (h.modStp rfl rfl rfl h.phase rfl)
    obtain ⟨_, hstep⟩ := (modStp_played u k hk rfl).before hc ⟨_, h1⟩
    rw [blockingSteps_succ, (hk.runDir k).trans hd]
    refine hstep.seq_fixed hc fun e hv => ?_
    obtain ⟨⟨_, h3⟩, h4⟩ := stepDone_played (n = 0) (runPeriod ((State.countDone _ k).stepper k).cfg) hv (h2 e)
    refine h3.seq_fixed (m := runItems r d n _ _) hv fun e' hw => ih hw (h4 e') ?_
    have hkv := (hstep.kept (by simp [e])).trans (h3.kept (by simp [e']))
    exact (hkv.runDir k).trans hd

end Sys2Proof.Machine
end

section
/-! The program of a command (20_memory.md R68, R70; 30_encoding.md R91; 40_driver.md R121, R130; 60_exceptions.md R254): the CP's part
of the trace is the command's sequence as a list (`CarriedOut`), the checks are those of the table of R254, and the response fits
both (`Fits`). -/

namespace Sys2Proof.Machine

open Sys2Proof

/-! ### A sequence and its list -/

/-- The sequence that took `s` to `r` carries `items` out, which may depend on the answers: up to the first failing transaction, or,
where `rst` has taken the command, the start of it. -/
def CarriedOut (s : State) (items : (ℕ → Answer) → List SeqItem) (r : SeqEnd) : Prop :=
  ∃ ans, (r.2 ≠ some .rst → r.1.ticket = s.ticket ∧ r.2 = (play ans 0 (items ans)).2.map Cut.bus ∧
      r.1.cpTrace = (play ans 0 (items ans)).1.reverse ++ s.cpTrace) ∧
    (r.2 = some .rst → TakenByRst s r.1 ∧ ∃ m, r.1.cpTrace = ((play ans 0 (items ans)).1.take m).reverse ++ s.cpTrace)

theorem Played.carriedOut {s : State} {l : Items} {r : SeqEnd} {a : List Answer} (h : Played s l r a) :
    CarriedOut s (fun ans => l ans 0) r := by
  have ha : Agrees (fun j => a.getD j default) 0 a := fun j hj => by simp [hj]
  refine ⟨fun j => a.getD j default, fun hr => ?_, fun hr => ⟨(h.cut hr).1, (h.cut hr).2 _ _ ha⟩⟩
  obtain ⟨h1, h2⟩ := h.plays hr _ _ ha
  exact ⟨(h.kept hr).ticket, h1, h2⟩

/-- From a state that the outside cannot tell from `s`. -/
theorem CarriedOut.of_same {s u : State} {items : (ℕ → Answer) → List SeqItem} {r : SeqEnd} (h : CarriedOut u items r)
    (hc : u.cp = s.cp) (ht : u.trace = s.trace) (hh : u.host = s.host) (hs : u.sync = s.sync) (hp : u.popped = s.popped) :
    CarriedOut s items r := by
  obtain ⟨ans, h1, h2⟩ := h
  have htk : u.ticket = s.ticket := by simp only [State.ticket, hc]
  have hcp : u.cpTrace = s.cpTrace := by simp only [State.cpTrace, ht]
  rw [htk, hcp] at h1
  rw [hcp] at h2
  exact ⟨ans, h1, fun hr => ⟨(h2 hr).1.of_same hh hs hp ht, (h2 hr).2⟩⟩

/-- Until an exclusive sequence begins only the others have moved. -/
theorem lockTaken_kept {s : State} (hc : s.cp ≠ .idle) (h : s.yield.2 = none) :
    SeqKept s s.yield.1.completeInflight ∧ s.lockTaken.cp ≠ .idle ∧ s.lockTaken.cpTrace = s.cpTrace := by
  have hy := ((yield_since (.trivial s) hc (.refl s) trivial).1 (by simp [h])).1
  have hk := hy.trans (completeInflight_kept s.yield.1).toSeq
  exact ⟨hk, fun e => hc (hk.idle.1 e), ((completeInflight_kept s.yield.1).toBeside.cpTrace).trans (interfere_cpTrace s)⟩

/-- A sequence under the lock carries its list out (R69). -/
theorem exclusive_carriedOut {s : State} {l : Items} {f : State → SeqEnd} (hc : s.cp ≠ .idle)
    (hf : ∀ u, u.cp ≠ .idle → ∃ a, Played u l (f u) a) : CarriedOut s (fun ans => l ans 0) (exclusive f s) := by
  rcases yield_cut s with hy | hy
  · obtain ⟨hk, hcp, htr⟩ := lockTaken_kept hc hy
    obtain ⟨_, hp⟩ := hf _ hcp
    obtain ⟨ans, h1, h2⟩ := hp.carriedOut
    rw [exclusive_of_yield hy]
    rw [htr] at h1 h2
    refine ⟨ans, fun hr => ?_, fun hr => ⟨(hk.taken ((h2 hr).1.of_same rfl rfl rfl rfl)).unlock, (h2 hr).2⟩⟩
    obtain ⟨htk, h⟩ := h1 hr
    exact ⟨htk.trans hk.ticket, h⟩
  · rw [exclusive_of_cut (by simp [hy])]
    have ht := (yield_since (.trivial s) hc (.refl s) trivial).2 hy
    exact ⟨default, fun hr => absurd hy hr, fun _ => ⟨ht, 0, by rw [show s.yield.1.cpTrace = _ from interfere_cpTrace s]; simp⟩⟩

/-! ### The response -/

/-- The end `e` of a command fits the first failing check and the bus error that cut its sequence off. -/
structure Fits (check : Option Reason) (err : Option BusError) (e : CmdEnd) : Prop where
  validation : ∀ why, check = some why → e = .validation why
  bus : ∀ x, err = some x → e = .bus x ∨ ∃ rep, e = .run rep (some x)
  ok : check = none → err = none → (∃ res, e = .complete res) ∨ ∃ rep, e = .run rep none

theorem Fits.of_failed (why : Reason) : Fits (some why) none (.validation why) :=
  ⟨fun _ h => by cases h; rfl, nofun, nofun⟩

theorem Fits.of_complete (r : Result) : Fits none none (.complete r) := ⟨nofun, nofun, fun _ _ => .inl ⟨r, rfl⟩⟩

/-- The final response of the command `i` that started in `s` with ticket `tk`. -/
def FinalResponse (i : Instr) (s : State) (tk : Ticket) (t : State) (err : Option BusError) : Prop :=
  ∃ r, Answered t i.nb r ∧ r.ticket = tk ∧ r.op = i.opcode.code ∧
    (∀ why, execCheck s i = some why → r.status = .validation ∧ r.reason = reasonCode why) ∧
    (∀ e, err = some e → r.status = .bus ∧ r.busKind = e.kind ∧ r.busReg = e.reg) ∧
    (execCheck s i = none → err = none → r.status = .ok ∧ r.reason = 0#8)

theorem recordOf_ticket (tk : Ticket) (op : Byte) (e : CmdEnd) : (recordOf tk op e).ticket = tk ∧ (recordOf tk op e).op = op := by
  cases e with
  | run r x => cases x <;> exact ⟨rfl, rfl⟩
  | complete | validation | bus => exact ⟨rfl, rfl⟩

theorem Fits.finalResponse {i : Instr} {s u : State} {tk : Ticket} {err : Option BusError} {e : CmdEnd}
    (h : Fits (execCheck s i) err e) (ht : u.ticket = tk) : FinalResponse i s tk (u.endCommand i e) err := by
  obtain ⟨h1, h2⟩ := recordOf_ticket u.ticket i.opcode.code e
  refine ⟨recordOf u.ticket i.opcode.code e, respond_answered u i.nb _, h1.trans ht, h2, fun why hw => ?_, fun x hx => ?_,
    fun hc he => ?_⟩
  · rw [h.validation why hw]; exact ⟨rfl, rfl⟩
  · rcases h.bus x hx with rfl | ⟨rep, rfl⟩ <;> exact ⟨rfl, rfl, rfl⟩
  · rcases h.ok hc he with ⟨res, rfl⟩ | ⟨rep, rfl⟩ <;> exact ⟨rfl, rfl⟩

/-- The command `i` that started in `s` with ticket `tk` ends in `t` as its program says. -/
def ProgramRun (i : Instr) (s : State) (tk : Ticket) (t : State) : Prop :=
  ∃ ans, let p := play ans 0 (program s ans i)
    (TakenByRst s t ∧ ∃ m, t.cpTrace = (p.1.take m).reverse ++ s.cpTrace) ∨
    (t.cpTrace = p.1.reverse ++ s.cpTrace ∧
      (¬ (∃ k d n, i = .stpStep true k d n ∧ execCheck s i = none) → FinalResponse i s tk t p.2))

/-! ### Commands without a program -/

theorem program_of_failed {s : State} {i : Instr} {why : Reason} (h : execCheck s i = some why) (ans : ℕ → Answer) :
    program s ans i = [] := by
  simp [program, h]

section

variable {i : Instr} {s : State} {tk : Ticket}

theorem programRun_of_ended {u : State} {e : CmdEnd} (hp : ∀ ans, program s ans i = []) (ht : u.trace = s.trace)
    (htk : u.ticket = tk) (he : Fits (execCheck s i) none e) : ProgramRun i s tk (u.endCommand i e) := by
  refine ⟨default, .inr ⟨?_, fun _ => ?_⟩⟩
  · simp [hp, play, State.cpTrace, ht]
  · simp only [hp, play]
    exact he.finalResponse htk

theorem programRun_of_failed {why : Reason} (h : execCheck s i = some why) (htk : s.ticket = tk) :
    ProgramRun i s tk (s.endCommand i (.validation why)) :=
  programRun_of_ended (program_of_failed h) rfl htk (by rw [h]; exact .of_failed why)

theorem runLocal_programRun {check : Option Reason} {res : Result} {f : State → State} (hk : check = execCheck s i)
    (hp : ∀ ans, program s ans i = []) (hf : (f s).trace = s.trace ∧ (f s).cp = s.cp) (htk : s.ticket = tk) :
    ProgramRun i s tk (runLocal i check res f s) := by
  subst hk
  cases h : execCheck s i with
  | some why => exact programRun_of_failed h htk
  | none =>
    refine programRun_of_ended hp hf.1 ?_ (by rw [h]; exact .of_complete res)
    simpa only [State.ticket, hf.2] using htk

/-! ### Commands with a program -/

/-- How a command ends in `t` after its sequence `r`: taken by `rst`, or with a response that fits. -/
structure EndsFitting (i : Instr) (r : SeqEnd) (t : State) : Prop where
  rst : r.2 = some .rst → t = r.1
  response : ∀ err, r.2 = Option.map Cut.bus err →
    ∃ u e, t = State.endCommand u i e ∧ u.trace = r.1.trace ∧ u.ticket = r.1.ticket ∧ Fits none err e

theorem finish_fitting (i : Instr) (res : Result) (r : SeqEnd) : EndsFitting i r (r.1.finish i res r.2) := by
  obtain ⟨u, c⟩ := r
  refine ⟨fun h => by cases h; rfl, fun err h => ?_⟩
  cases err with
  | none => cases h; exact ⟨u, _, rfl, rfl, rfl, .of_complete res⟩
  | some e => cases h; exact ⟨u, _, rfl, rfl, rfl, nofun, fun _ h => by cases h; exact .inl rfl, fun _ h => nomatch h⟩

theorem endBlockingRun_fitting (i : Instr) (k : StepperId) (r : SeqEnd) :
    EndsFitting i r (r.1.endBlockingRun i k r.2) := by
  obtain ⟨u, c⟩ := r
  have hrep : ∀ e : Option BusError, ∃ v x, u.reportRun i k e = State.endCommand v i x ∧ v.trace = u.trace ∧ v.ticket = u.ticket ∧
      x = .run (u.report k false).1 e := fun e =>
    ⟨_, _, rfl, by simp, by simp [State.ticket], rfl⟩
  refine ⟨fun h => by cases h; rfl, fun err h => ?_⟩
  obtain ⟨v, x, h1, h2, h3, rfl⟩ := hrep err
  cases err with
  | none => cases h; exact ⟨v, _, h1, h2, h3, nofun, nofun, fun _ _ => .inr ⟨_, rfl⟩⟩
  | some e => cases h; exact ⟨v, _, h1, h2, h3, nofun, fun _ h => by cases h; exact .inr ⟨_, rfl⟩, fun _ h => nomatch h⟩

theorem CarriedOut.programRun {r : SeqEnd} {t : State} (h : CarriedOut s (fun ans => program s ans i) r)
    (hk : execCheck s i = none) (he : EndsFitting i r t) (htk : s.ticket = tk) : ProgramRun i s tk t := by
  obtain ⟨ans, h1, h2⟩ := h
  refine ⟨ans, ?_⟩
  by_cases hr : r.2 = some .rst
  · rw [he.rst hr]
    exact .inl (h2 hr)
  · obtain ⟨h3, h4, h5⟩ := h1 hr
    obtain ⟨u, e, rfl, hu, hut, hf⟩ := he.response _ h4
    refine .inr ⟨?_, fun _ => ?_⟩
    · rw [← h5]
      simp [State.cpTrace, hu]
    · exact Fits.finalResponse (by rw [hk]; exact hf) (hut.trans (h3.trans htk))

theorem runSequence_programRun {check : Option Reason} {f : State → SeqEnd} (hk : check = execCheck s i)
    (hf : execCheck s i = none → CarriedOut s (fun ans => program s ans i) (f (s.start i))) (htk : s.ticket = tk) :
    ProgramRun i s tk (runSequence i check f s) := by
  subst hk
  cases h : execCheck s i with
  | some why => exact programRun_of_failed h htk
  | none => exact (hf h).programRun h (finish_fitting i .none _) htk

/-- A register sequence beside the run engines. -/
theorem Played.carriedOut_of_start {l : List SeqItem} {r : SeqEnd} (h : ∃ a, Played (s.start i) (fixed l) r a)
    (hp : ∀ ans, program s ans i = l) : CarriedOut s (fun ans => program s ans i) r := by
  obtain ⟨_, h⟩ := h
  simp only [hp]
  exact h.carriedOut.of_same rfl rfl rfl rfl rfl

/-- A register sequence under the lock. -/
theorem exclusive_carriedOut_of_start {l : Items} {f : State → SeqEnd} {u : State} (hc : s.cp ≠ .idle) (hu : u.cp = s.cp)
    (ht : u.trace = s.trace) (hh : u.host = s.host) (hs : u.sync = s.sync) (hp : u.popped = s.popped)
    (hf : ∀ u, u.cp ≠ .idle → ∃ a, Played u l (f u) a) (hi : ∀ ans, program s ans i = l ans 0) :
    CarriedOut s (fun ans => program s ans i) (exclusive f u) := by
  simp only [hi]
  exact (exclusive_carriedOut (by rw [hu]; exact hc) hf).of_same hu ht hh hs hp

end

/-! ### The checks -/

theorem resetCheck_eq (s : State) (nb : Bool) : resetCheck s = execCheck s (.drvReset nb) := by
  unfold resetCheck execCheck
  cases s.img.busOpen <;> rfl

theorem driverCheck_eq (s : State) (nb : Bool) (rate : W32) : driverCheck s = execCheck s (.drvSetfreq nb rate) := by
  unfold driverCheck execCheck
  cases s.img.initialised <;> rfl

theorem busy_iff (st : Stepper) : st.busy = true ↔ st.run.running = true ∨ st.motion.pulsing = true := by
  simp [Stepper.busy]

theorem configCheck_eq (s : State) (nb : Bool) (k : StepperId) (n : BitVec 16) :
    configCheck s k = execCheck s (.stpSetsteps nb k n) := by
  simp only [configCheck, execCheck, busy_iff]

theorem pinsCheck_eq (s : State) (nb : Bool) (k : StepperId) (p : Pins) : pinsCheck s k p = execCheck s (.stpPins nb k p) := by
  simp only [pinsCheck, execCheck, busy_iff]

theorem stpInitCheck_eq (s : State) (nb : Bool) (k : StepperId) : stpInitCheck s k = execCheck s (.stpInit nb k) := by
  simp only [stpInitCheck, execCheck, busy_iff]

/-- The reason with which a check of a motion command fails. -/
def failing : Except Reason Ready → Option Reason
  | .error why => some why
  | .ok _ => none

theorem motionCheck_failing (s : State) (k : StepperId) (nb : Bool) (d : Dir) :
    failing (motionCheck s k) = execCheck s (.stpOnestep nb k d) := by
  simp only [motionCheck, execCheck, busy_iff]
  cases hi : s.img.initialised with
  | false => rfl
  | true =>
    cases hr : (s.stepper k).cfg.ready with
    | none => rfl
    | some r => by_cases hb : (s.stepper k).run.running = true ∨ (s.stepper k).motion.pulsing = true <;> simp [hb, failing]

theorem stepCheck_failing (s : State) (k : StepperId) (nb : Bool) (d : Dir) (n : W32) :
    failing (stepCheck s k) = execCheck s (.stpStep nb k d n) := by
  simp only [stepCheck, execCheck, busy_iff]
  cases hi : s.img.initialised with
  | false => rfl
  | true =>
    cases hr : (s.stepper k).cfg.ready with
    | none => rfl
    | some r =>
      cases hp : (s.stepper k).cfg.pulseFreq with
      | none => rfl
      | some q => by_cases hb : (s.stepper k).run.running = true ∨ (s.stepper k).motion.pulsing = true <;> simp [hb, failing]

/-! ### Every command -/

theorem stopRun_cp (s : State) (k : StepperId) : (s.stopRun k).cp = s.cp := by
  unfold State.stopRun
  split
  · dsimp only
    split
    · rfl
    · exact (endRun_kept k _ none true).cp
  · rfl

section

variable {s t : State} {tk : Ticket} {k : StepperId}

/-- A stepper that passes the checks of a motion command rests. -/
theorem RunInv.resting (h : RunInv s) (hr : (s.stepper k).run.running = false) (hp : (s.stepper k).motion.pulsing = false) :
    Resting k (s.stepper k).motion.phase (s.stepper k).cache s :=
  have ho := h.cpOwned hr hp
  ⟨⟨by simp [Stepper.inBackground, hr], ho.job, ho.held⟩, rfl, rfl⟩

theorem stpOnestep_programRun {nb : Bool} {d : Dir} (hc : s.cp ≠ .idle) (htk : s.ticket = tk) (h : RunInv s)
    (he : exec (.stpOnestep nb k d) s = .next t) : ProgramRun (.stpOnestep nb k d) s tk t := by
  simp only [exec, execStpOnestep] at he
  cases he
  have hk := motionCheck_failing s k nb d
  split
  · rename_i why hm
    exact programRun_of_failed (by rw [← hk, hm]; rfl) htk
  · rename_i r hm
    obtain ⟨hr, hrun, hp⟩ := motionCheck_ok hm
    have hpass : execCheck s (.stpOnestep nb k d) = none := by rw [← hk, hm]; rfl
    have hpl := (stepOnce_played (u := s.start (.stpOnestep nb k d)) d r hc ((h.resting hrun hp).of_stepper rfl)).1
    refine (Played.carriedOut_of_start hpl fun ans => ?_).programRun hpass (finish_fitting _ _ _) htk
    simp [program, hpass, hr, runItems]

theorem stpRelease_programRun {nb : Bool} (hc : s.cp ≠ .idle) (htk : s.ticket = tk) (h : RunInv s)
    (he : exec (.stpRelease nb k) s = .next t) : ProgramRun (.stpRelease nb k) s tk t := by
  simp only [exec, execStpRelease] at he
  cases he
  have hk : failing (motionCheck s k) = execCheck s (.stpRelease nb k) := motionCheck_failing s k nb .fwd
  split
  · rename_i why hm
    exact programRun_of_failed (by rw [← hk, hm]; rfl) htk
  · rename_i r hm
    obtain ⟨hr, hrun, hp⟩ := motionCheck_ok hm
    have hpass : execCheck s (.stpRelease nb k) = none := by rw [← hk, hm]; rfl
    have hpl := (vectorWrite_played (u := s.start (.stpRelease nb k)) hc (vectorTasks_roles_nodup r releaseVector)
      ((h.resting hrun hp).of_stepper rfl)).1
    refine (Played.carriedOut_of_start hpl fun ans => ?_).programRun hpass (finish_fitting _ _ _) htk
    simp [program, hpass, hr]

theorem stpStep_programRun {nb : Bool} {d : Dir} {n : W32} (hc : s.cp ≠ .idle) (htk : s.ticket = tk) (h : RunInv s)
    (he : exec (.stpStep nb k d n) s = .next t) : ProgramRun (.stpStep nb k d n) s tk t := by
  simp only [exec, execStpStep] at he
  cases he
  have hk := stepCheck_failing s k nb d n
  split
  · rename_i why hm
    exact programRun_of_failed (by rw [← hk, hm]; rfl) htk
  · rename_i r hm
    obtain ⟨hr, hrun, hp⟩ := stepCheck_ok hm
    have hpass : execCheck s (.stpStep nb k d n) = none := by rw [← hk, hm]; rfl
    cases nb with
    | true =>
      have hprog : ∀ ans, program s ans (.stpStep true k d n) = [] := fun ans => by simp [program]
      refine ⟨default, .inr ⟨?_, fun hn => absurd ⟨k, d, n, rfl, hpass⟩ hn⟩⟩
      rw [hprog]
      simp only [if_true]
      split <;> simp [play, State.cpTrace, State.leaveToEngine]
    | false =>
      have hrest : Resting k (s.stepper k).motion.phase (s.stepper k).cache
          ((s.start (.stpStep false k d n)).startRun k false d n) := by
        have hown := h.cpOwned hrun hp
        refine ⟨⟨?_, ?_, ?_⟩, ?_, ?_⟩ <;> rw [State.startRun, stepper_modStp_self]
        · rfl
        · exact hown.job
        · exact hown.held
        · rfl
        · rfl
      have hdir : (((s.start (.stpStep false k d n)).startRun k false d n).stepper k).run.runDir = d := by
        rw [State.startRun, stepper_modStp_self]
      obtain ⟨_, hpl⟩ := blockingSteps_played (u := (s.start (.stpStep false k d n)).startRun k false d n) r d n.toNat hc hrest hdir
      refine CarriedOut.programRun ?_ hpass (endBlockingRun_fitting _ k _) htk
      have hprog : ∀ ans, program s ans (.stpStep false k d n) =
          runItems r d n.toNat (s.stepper k).motion.phase (s.stepper k).cache := fun ans => by simp [program, hpass, hr]
      simp only [hprog]
      exact hpl.carriedOut.of_same rfl rfl rfl rfl rfl

end

/-- Every command ends as its program says. -/
theorem exec_programRun {i : Instr} {s t : State} {tk : Ticket} (hc : s.cp ≠ .idle) (htk : s.ticket = tk) (h : RunInv s)
    (he : exec i s = .next t) : ProgramRun i s tk t := by
  have hlocal : ∀ {j : Instr}, (∀ ans, program s ans j = if (execCheck s j).isSome then [] else []) →
      ∀ ans, program s ans j = [] := fun hj ans => by rw [hj, ite_self]
  cases i with
  | drvInit nb =>
    cases he
    refine runSequence_programRun rfl (fun hk => ?_) htk
    exact exclusive_carriedOut_of_start hc rfl rfl rfl rfl rfl initSequence_played fun ans => by simp [program, hk]
  | drvReset nb =>
    cases he
    refine runSequence_programRun (resetCheck_eq s nb) (fun hk => ?_) htk
    exact exclusive_carriedOut_of_start hc rfl rfl rfl rfl rfl resetSequence_played fun ans => by simp [program, hk]
  | drvSetfreq nb rate =>
    cases he
    refine runSequence_programRun (driverCheck_eq s nb rate) (fun hk => ?_) htk
    exact exclusive_carriedOut_of_start hc rfl rfl rfl rfl rfl (freqSequence_played _) fun ans => by simp [program, hk]
  | stpSetfreq nb k rate =>
    cases he
    refine runSequence_programRun (driverCheck_eq s nb rate) (fun hk => ?_) htk
    exact exclusive_carriedOut_of_start hc rfl rfl rfl rfl rfl (freqSequence_played _) fun ans => by simp [program, hk]
  | drvSetchan nb c on off =>
    cases he
    refine runSequence_programRun (driverCheck_eq s nb 0) (fun hk => ?_) htk
    exact Played.carriedOut_of_start (pinWrite_played c on off _ hc) fun ans => by simp [program, hk]
  | drvSetpin nb c v =>
    cases he
    refine runSequence_programRun (driverCheck_eq s nb 0) (fun hk => ?_) htk
    exact Played.carriedOut_of_start (pinWrite_played c _ _ _ hc) fun ans => by cases v <;> simp [program, hk, levelTicks]
  | drvSetall nb on off =>
    cases he
    refine runSequence_programRun (driverCheck_eq s nb 0) (fun hk => ?_) htk
    exact Played.carriedOut_of_start (allWrite_played on off _ hc) fun ans => by simp [program, hk]
  | drvGetfreq nb =>
    simp only [exec, execDrvGetfreq] at he
    cases he
    split
    · rename_i hp
      exact programRun_of_failed (by simp [execCheck, hp]) htk
    · rename_i p hp
      have hk : execCheck s (.drvGetfreq nb) = none := by simp [execCheck, hp]
      exact programRun_of_ended (hlocal fun ans => rfl) rfl htk (by rw [hk]; exact .of_complete _)
  | stpPins nb k p =>
    cases he
    exact runLocal_programRun (pinsCheck_eq s nb k p) (hlocal fun ans => rfl) ⟨rfl, rfl⟩ htk
  | stpSetsteps nb k | stpSetmicro nb k | stpSetstyle nb k | stpSetcurrent nb k | stpSetspeed nb k =>
    cases he
    exact runLocal_programRun (configCheck_eq s nb k 0) (hlocal fun ans => rfl) ⟨rfl, rfl⟩ htk
  | stpInit nb k =>
    cases he
    exact runLocal_programRun (stpInitCheck_eq s nb k) (hlocal fun ans => rfl) ⟨rfl, rfl⟩ htk
  | stpOnestep nb k d => exact stpOnestep_programRun hc htk h he
  | stpStep nb k d n => exact stpStep_programRun hc htk h he
  | stpRelease nb k => exact stpRelease_programRun hc htk h he
  | stpStop nb k =>
    cases he
    exact runLocal_programRun rfl (hlocal fun ans => rfl) ⟨(stopRun_apart s k).trace, stopRun_cp s k⟩ htk
  | stpStatus nb k =>
    cases he
    exact programRun_of_ended (hlocal fun ans => rfl) rfl htk (.of_complete _)
  | stpGetrates nb k =>
    cases he
    exact programRun_of_ended (hlocal fun ans => rfl) rfl htk (.of_complete _)

/-- No meaning faults or refuses. -/
theorem exec_next (i : Instr) (s : State) : ∃ t, exec i s = .next t := by
  cases i <;> exact ⟨_, rfl⟩

/-- Settles O48: each command's checks, sequence and response, as lists. -/
theorem commandProgram : Obligations.CommandProgram := by
  intro i s tk hin h
  obtain ⟨t, he⟩ := exec_next i s
  obtain ⟨ans, hp⟩ := exec_programRun (cp_ne_idle_of_inCommand hin) (ticket_of_inCommand hin) h he
  exact ⟨t, ans, he, hp⟩

end Sys2Proof.Machine
end

section
/-! Exclusive sequences (20_memory.md R69; 70_reset_and_hazards.md R290, R304): before the lock is taken the trace grows by the others'
transactions alone, under it by the CP's alone, and where `rst` has taken the command nothing is left that could add to it. -/

namespace Sys2Proof.Machine

open Sys2Proof

/-! ### Before the lock is taken -/

/-- Since `s` the trace has grown by other requesters' transactions alone, and nothing of the CP is in flight. -/
structure OthersOnly (s u : State) : Prop where
  trace : ∃ l, u.trace = l ++ s.trace ∧ ∀ x, x ∈ l → x.ofCp = false
  inflight : ∀ q, u.bus.inflight = some q → q.who ≠ .cp

/-- The others keep it, `rst` included. -/
theorem OthersOnly.background {s u : State} (h : OthersOnly s u) (b : Background) : OthersOnly s (u.background b) := by
  by_cases hn : NotRst b u
  · refine ⟨grown_trans h.trace (background_beside u b hn).trace, ?_⟩
    cases background_busMove u b hn with
    | same bus | issue _ _ bus => rw [bus]; exact h.inflight
    | grant i q rest _ _ _ who bus => rw [bus]; rintro x ⟨⟩; rw [who]; exact nofun
    | complete _ _ _ _ _ _ done => simp [done]
  · obtain ⟨rfl, hh⟩ := rst_of_not_notRst hn
    obtain ⟨hd, ht⟩ := hostTurn_discarded hh
    exact ⟨by rw [State.background, ht]; exact h.trace, by rw [State.background, hd.bus.2.1]; exact nofun⟩

theorem yield_othersOnly {s : State} (h : ∀ q, s.bus.inflight = some q → q.who ≠ .cp) : OthersOnly s s.yield.1 :=
  interfere_keeps (P := OthersOnly s) (fun _ b hu => hu.background b)
    (fun _ hu => ⟨by simpa using hu.trace, by simpa using hu.inflight⟩) s ⟨⟨[], rfl, by simp⟩, h⟩

/-- Where the lock is taken, the CP holds the bus. -/
theorem lockTaken_locked {s : State} (h : ∀ q, s.bus.inflight = some q → q.who ≠ .cp) :
    Locked s.lockTaken ∧ ∃ l, s.lockTaken.trace = l ++ s.trace ∧ ∀ x, x ∈ l → x.ofCp = false := by
  have hy := yield_othersOnly h
  have hfree : s.lockTaken.bus.inflight = none := completeInflight_free hy.inflight
  have hi := completeInflight_keeps (P := OthersOnly s) (fun _ hu => hu.background .bus) hy
  exact ⟨⟨rfl, by simp [hfree]⟩, hi.trace⟩

/-! ### Under the lock -/

/-- After `rst` no agent adds to the trace. -/
theorem Discarded.background_trace {s u : State} (h : Discarded s u) (b : Background) : (u.background b).trace = u.trace := by
  by_cases hn : NotRst b u
  · cases background_busMove u b hn with
    | same _ trace => exact trace
    | issue _ _ _ trace => exact trace
    | grant _ _ _ _ _ head => rw [h.bus.1] at head; cases head
    | complete _ _ _ _ inflight => rw [h.bus.2.1] at inflight; cases inflight
  · obtain ⟨rfl, hh⟩ := rst_of_not_notRst hn
    exact (hostTurn_discarded hh).2

/-- Since `s` the trace has grown by the CP's items alone, and `rst` has taken the command. -/
def OwnThenWiped (s u : State) : Prop := Wiped u ∧ ∃ l, u.trace = l ++ s.trace ∧ ∀ x, x ∈ l → x.ofCp = true

theorem ownTrace_move {s u v : State} (m : CpMove u v) (h : OwnTrace s u) : OwnTrace s v :=
  (ownTrace_othersKeep s u).moves u v (.refl u) m h

/-- Under the lock the trace grows by the CP's items alone, through every sequence. -/
theorem ownTrace_keeps (s : State) (own : StepperId → Prop) : WorkKeeps true own (OwnTrace s) (OwnThenWiped s) := by
  have agents : AgentsKeep (OwnTrace s) (OwnThenWiped s) :=
    { background := fun u b hn h => (ownTrace_othersKeep s u).background u b (.refl u) h hn
      draw := fun _ h => ownTrace_move .draw h
      rst := fun u hh h => ⟨⟨u, (hostTurn_discarded hh).1⟩, by rw [(hostTurn_discarded hh).2]; exact h.2⟩
      after := fun u b ⟨⟨c, hd⟩, ht⟩ => ⟨⟨c, hd.background b⟩, by rw [hd.background_trace b]; exact ht⟩ }
  refine ⟨agents, fun u v hs h => ?_, fun _ ms t _ h => ownTrace_move (.settle ms t) h, fun _ t h => ownTrace_move (.wait t) h,
    fun u t hc h => ?_, fun u k h => ⟨wiped_calm k h.1, h.2⟩⟩
  · exact ⟨by rw [Locked, hs.bus]; exact h.1, by rw [hs.sameTrace]; exact h.2⟩
  · have ha := await_stages agents agents agents t (fun _ h => ownTrace_move (.request t) h)
      (fun _ _ _ _ _ h => ownTrace_move (.grant t) h) hc h
    exact ⟨fun e => ⟨(ha.1 e).1, ownTrace_move (.complete t) (ha.1 e).2⟩, ha.2⟩

/-- An exclusive sequence: the trace grows by the others' transactions, and then by the CP's items. -/
theorem exclusive_trace {own : StepperId → Prop} {s : State} {f : State → SeqEnd} (hc : s.cp ≠ .idle)
    (hi : ∀ q, s.bus.inflight = some q → q.who ≠ .cp) (w : ∀ u, CpWork true own u (f u)) :
    (exclusive f s).1.bus.lock = false ∧ ∃ before mine, (exclusive f s).1.trace = mine ++ before ++ s.trace ∧
      (∀ x, x ∈ mine → x.ofCp = true) ∧ ∀ x, x ∈ before → x.ofCp = false := by
  rcases yield_cut s with hy | hy
  · obtain ⟨hl, before, hb, hother⟩ := lockTaken_locked hi
    obtain ⟨_, hcp, _⟩ := lockTaken_kept hc hy
    have hr := (w s.lockTaken).lands (ownTrace_keeps s.lockTaken own) hcp ⟨hl, [], rfl, by simp⟩
    obtain ⟨mine, hm, hown⟩ : ∃ l, (f s.lockTaken).1.trace = l ++ s.lockTaken.trace ∧ ∀ x, x ∈ l → x.ofCp = true := by
      by_cases e : (f s.lockTaken).2 = some .rst
      · exact (hr.2 e).2
      · exact (hr.1 e).2.2
    rw [exclusive_of_yield hy]
    exact ⟨rfl, before, mine, by rw [setLock_trace, hm, hb, List.append_assoc], hown, hother⟩
  · rw [exclusive_of_cut (by simp [hy])]
    obtain ⟨l, hl, hother⟩ := (yield_othersOnly hi).trace
    exact ⟨((yield_since (.trivial s) hc (.refl s) trivial).2 hy).2.bus.2.2, l, [], by simpa using hl, by simp, hother⟩

/-! ### The commands -/

/-- The exclusive sequence of a command that has passed its checks, from a state `u` that the outside cannot tell from `s`. -/
structure RunsExclusive (i : Instr) (s : State) (f : State → SeqEnd) (u : State) (l : Items) : Prop where
  eq : exec i s = .next ((exclusive f u).1.finish i .none (exclusive f u).2)
  work : ∀ v, CpWork true (fun _ => False) v (f v)
  played : ∀ v, v.cp ≠ .idle → ∃ a, Played v l (f v) a
  nonempty : ∀ ans, ∃ x rest, l ans 0 = .txn x :: rest
  bus : u.bus = s.bus
  cp : u.cp = s.cp
  trace : u.trace = s.trace
  host : u.host = s.host
  sync : u.sync = s.sync
  popped : u.popped = s.popped

theorem runSequence_of_pass {i : Instr} {check : Option Reason} {f : State → SeqEnd} {s : State} (h : check = none) :
    runSequence i check f s = (f (s.start i)).1.finish i .none (f (s.start i)).2 := by
  subst h; rfl

theorem exec_runsExclusive {i : Instr} {s : State} (hx : hasExclusiveSequence i) (hk : execCheck s i = none) :
    ∃ f u l, RunsExclusive i s f u l := by
  obtain ⟨nb, rfl | rfl | ⟨rate, rfl | ⟨k, rfl⟩⟩⟩ := hx
  · exact ⟨initSequence, { s.start (.drvInit nb) with img := { s.img with initialised := false } }, _,
      congrArg Host.Outcome.next (runSequence_of_pass hk), initSequence_work, initSequence_played, fun _ => ⟨_, _, rfl⟩,
      rfl, rfl, rfl, rfl, rfl, rfl⟩
  · exact ⟨resetSequence, s.start (.drvReset nb), _, congrArg Host.Outcome.next (runSequence_of_pass ((resetCheck_eq s nb).trans hk)),
      resetSequence_work, resetSequence_played, fun _ => ⟨_, _, rfl⟩, rfl, rfl, rfl, rfl, rfl, rfl⟩
  · exact ⟨_, s.start (.drvSetfreq nb rate), _,
      congrArg Host.Outcome.next (runSequence_of_pass ((driverCheck_eq s nb rate).trans hk)),
      freqSequence_work _, freqSequence_played _, fun _ => ⟨_, _, rfl⟩, rfl, rfl, rfl, rfl, rfl, rfl⟩
  · exact ⟨_, s.start (.stpSetfreq nb k rate), _,
      congrArg Host.Outcome.next (runSequence_of_pass ((driverCheck_eq s nb rate).trans hk)),
      freqSequence_work _, freqSequence_played _, fun _ => ⟨_, _, rfl⟩, rfl, rfl, rfl, rfl, rfl, rfl⟩

theorem finish_bus_trace (u : State) (i : Instr) (res : Result) (c : Option Cut) :
    (u.finish i res c).bus = u.bus ∧ (u.finish i res c).trace = u.trace := by
  rcases c with _ | (e | _)
  · exact ⟨endCommand_bus _ _ _, endCommand_trace _ _ _⟩
  · exact ⟨endCommand_bus _ _ _, endCommand_trace _ _ _⟩
  · exact ⟨rfl, rfl⟩

/-- A list that begins with a transaction leaves something in the trace. -/
theorem play_txn_ne_nil (ans : ℕ → Answer) (n : ℕ) (t : Txn) (rest : List SeqItem) : (play ans n (.txn t :: rest)).1 ≠ [] := by
  unfold play
  split <;> exact nofun

/-- Unless `rst` takes the command, the CP has made a transaction. -/
theorem RunsExclusive.own {i : Instr} {s u : State} {f : State → SeqEnd} {l : Items} (h : RunsExclusive i s f u l)
    (hc : s.cp ≠ .idle) : (exclusive f u).1.cpTrace ≠ s.cpTrace ∨
      ((exclusive f u).2 = some .rst ∧ TakenByRst s (exclusive f u).1) := by
  obtain ⟨ans, h1, h2⟩ := (exclusive_carriedOut (by rw [h.cp]; exact hc) h.played).of_same h.cp h.trace h.host h.sync h.popped
  by_cases hr : (exclusive f u).2 = some .rst
  · exact .inr ⟨hr, (h2 hr).1⟩
  · obtain ⟨_, _, ht⟩ := h1 hr
    obtain ⟨x, rest, hl⟩ := h.nonempty ans
    simp only [hl] at ht
    refine .inl fun e => play_txn_ne_nil ans 0 x rest ?_
    exact List.reverse_eq_nil_iff.1 (List.self_eq_append_left.1 (e.symm.trans ht))

/-- Settles O49: the trace of an exclusive sequence, and no step of the bus under the lock but the CP's. -/
theorem exclusiveSequences : Obligations.ExclusiveSequences := by
  refine ⟨fun i s tk hin hx hk hl hi => ?_, fun b s hn hl hi => ?_⟩
  · have hc : s.cp ≠ .idle := cp_ne_idle_of_inCommand hin
    obtain ⟨f, u, l, h⟩ := exec_runsExclusive hx hk
    obtain ⟨hlock, before, mine, htr, hmine, hother⟩ :=
      exclusive_trace (by rw [h.cp]; exact hc) (by rw [h.bus]; exact hi) h.work
    obtain ⟨hfb, hft⟩ := finish_bus_trace (exclusive f u).1 i .none (exclusive f u).2
    rw [h.trace] at htr
    refine ⟨_, before, mine, h.eq, by rw [hfb]; exact hlock, by rw [hft]; exact htr, ?_, hmine, hother⟩
    rcases h.own hc with ho | ⟨hr, ht⟩
    · refine .inl fun e => ho ?_
      subst e
      rw [State.cpTrace, htr, List.nil_append, cpTrace_append_other hother]
      rfl
    · right
      rw [hr]
      exact ht
  · cases background_busMove s b hn with
    | same bus trace => exact ⟨by rw [bus]; exact hi, by rw [bus]; exact hl, trace⟩
    | issue _ _ bus trace => exact ⟨by rw [bus]; exact hi, by rw [bus]; exact hl, trace⟩
    | grant _ _ _ _ unlocked => rw [hl] at unlocked; cases unlocked
    | complete _ _ _ _ inflight => rw [hi] at inflight; cases inflight

end Sys2Proof.Machine
end

section
/-! The fields of a word and their checks (30_encoding.md R90 to R98, R131): what each check of the decoder accepts, as an
equivalence with the encoding of what it reads. -/

namespace Sys2Proof.Laws

open Sys2Proof

/-! ### The opcode and the must-be-zero fields -/

@[simp] theorem opcodeOf_code (op : Opcode) : opcodeOf op.code = some op := by cases op <;> rfl

/-- A byte that stands for an opcode is the opcode's number (R98). -/
theorem opcodeOf_eq_some {b : Byte} {op : Opcode} : opcodeOf b = some op ↔ b = op.code := by
  refine ⟨fun h => ?_, fun h => h ▸ opcodeOf_code op⟩
  unfold opcodeOf at h
  split at h <;> cases h <;> exact BitVec.eq_of_toNat_eq ‹_›

/-- The top bits of a word are 0 exactly when its value fits the bits below. -/
theorem extractLsb'_top_eq_zero {n k : ℕ} (x : BitVec (n + k)) : x.extractLsb' n k = 0#k ↔ x.toNat < 2 ^ n := by
  have hx := x.isLt
  rw [pow_add] at hx
  rw [← BitVec.toNat_inj, BitVec.extractLsb'_toNat, BitVec.toNat_ofNat, Nat.shiftRight_eq_div_pow, Nat.zero_mod,
    Nat.mod_eq_of_lt (Nat.div_lt_of_lt_mul hx), Nat.div_eq_zero_iff]
  simp

/-- Which fields must be zero under an opcode (R92, R95, R96, R98). -/
theorem reservedSet_eq_false {op : Opcode} {w : CmdWord} : reservedSet op w = false ↔
    wordRsv w = 0#3 ∧ (targetKind op = .zero → wordTgt w = 0#4) ∧ (usesA op = false → wordA w = 0#16) ∧
    (usesB op = false → wordB w = 0#32) ∧ (op = .stpPins → (wordB w).toNat < 2 ^ 24) ∧
    (op = .stpSetspeed → (wordA w).toNat < 8) := by
  rw [← extractLsb'_top_eq_zero (n := 24) (k := 8) (wordB w),
    show (wordA w).toNat < 8 ↔ _ from (extractLsb'_top_eq_zero (n := 3) (k := 13) (wordA w)).symm]
  simp [reservedSet, and_assoc, imp_iff_not_or]

/-! ### The operands -/

theorem stepperTgt_mk {t : BitVec 4} (h : t.toNat < Config.nSteppers) : stepperTgt ⟨t.toNat, h⟩ = t := by simp [stepperTgt]

theorem readDir_eq_ok {a : BitVec 16} {d : Dir} : readDir a = .ok d ↔ a = d.code := by
  constructor
  · intro h
    unfold readDir at h
    split_ifs at h <;> cases h <;> assumption
  · rintro rfl
    cases d <;> rfl

theorem readStyle_eq_ok {b : W32} {st : Style} : readStyle b = .ok st ↔ b = st.code := by
  constructor
  · intro h
    unfold readStyle at h
    split_ifs at h <;> cases h <;> assumption
  · rintro rfl
    cases st <;> rfl

theorem readMicro_eq_ok {b : W32} {ms : Micro} : readMicro b = .ok ms ↔ b = BitVec.ofNat 32 ms.count := by
  constructor
  · intro h
    unfold readMicro at h
    split_ifs at h <;> cases h <;> assumption
  · rintro rfl
    cases ms <;> rfl

theorem readUnit_eq_ok {a : BitVec 16} {u : SpeedUnit} : readUnit a = .ok u ↔ a = u.code := by
  constructor
  · intro h
    unfold readUnit at h
    split_ifs at h <;> cases h <;> assumption
  · rintro rfl
    cases u <;> rfl

theorem readLevel_eq_ok {b : W32} {v : Bool} : readLevel b = .ok v ↔ b = if v then 1#32 else 0#32 := by
  constructor
  · intro h
    unfold readLevel at h
    split_ifs at h <;> cases h <;> assumption
  · rintro rfl
    cases v <;> rfl

theorem readTicks_eq (a : BitVec 16) (b : W32) : readTicks a b =
    if 4096 < a.toNat ∨ 4096 < b.toNat then .error .badTick else .ok (BitVec.ofNat 13 a.toNat, BitVec.ofNat 13 b.toNat) := by
  rw [readTicks, BitVec.ofNat_toNat, BitVec.ofNat_toNat]
  by_cases ha : 4096 < a.toNat
  · exact (if_pos ha).trans (if_pos (.inl ha)).symm
  · simp only [ha, false_or]
    exact if_neg ha

theorem tickLegal_iff {t : Tick} : tickLegal t = true ↔ t.toNat ≤ 4096 := decide_eq_true_iff

theorem readTicks_eq_ok {a : BitVec 16} {b : W32} {x y : Tick} : readTicks a b = .ok (x, y) ↔
    (tickLegal x = true ∧ tickLegal y = true) ∧ a = x.setWidth 16 ∧ b = y.setWidth 32 := by
  rw [readTicks_eq, tickLegal_iff, tickLegal_iff]
  constructor
  · intro h
    split_ifs at h with hl
    obtain ⟨rfl, rfl⟩ := Prod.mk.inj (Except.ok.inj h)
    bv_omega
  · rintro ⟨⟨hx, hy⟩, rfl, rfl⟩
    rw [if_neg (by bv_omega)]
    refine congrArg Except.ok (Prod.ext ?_ ?_) <;> bv_omega

/-- The prescale is too large exactly below the rate 1562500 (R131). -/
theorem prescale_out_of_range_iff {b : W32} (hb : b ≠ 0#32) : 255 < computePrescale b ↔ b.toNat < 1562500 := by
  have hpos : 0 < 4096 * b.toNat := by bv_omega
  have hdiv : 257 ≤ (25000000 * 65536 + (4096 * b.toNat - 1)) / (4096 * b.toNat) ↔ b.toNat < 1562500 := by
    rw [Nat.le_div_iff_mul_le hpos]
    omega
  rw [← hdiv]
  simp only [computePrescale, Config.oscHz, Config.ticks]
  omega

theorem readRate_eq (b : W32) : readRate b =
    if b = 0#32 then .error .badFrequency else if b.toNat < 1562500 then .error .prescaleRange else .ok b := by
  unfold readRate
  split
  · rfl
  · rename_i hb
    simp only [prescale_out_of_range_iff hb]

theorem readRate_eq_ok {b r : W32} : readRate b = .ok r ↔ rateLegal r = true ∧ b = r := by
  simp only [readRate_eq, rateLegal, decide_eq_true_eq]
  constructor
  · intro h
    split_ifs at h with hb hr
    cases h
    exact ⟨by omega, rfl⟩
  · rintro ⟨hr, rfl⟩
    rw [if_neg (by bv_omega), if_neg (by omega)]

/-- Unpacking the pin operand and packing it gives it back, if its top byte is 0 (R95). -/
theorem packPins_unpackPins {b : W32} (h : b.toNat < 2 ^ 24) : packPins (unpackPins b) = b := by
  have htop : b.extractLsb' 24 8 = 0#8 := (extractLsb'_top_eq_zero (n := 24) (k := 8) b).2 h
  simp only [packPins, unpackPins, ← htop]
  iterate 6 rw [BitVec.extractLsb'_append_extractLsb'_eq_extractLsb']
  · exact BitVec.extractLsb'_eq_self
  all_goals rfl

/-! ### The order of the checks (R105, R254) -/

/-- The checks that the word `w` passes before its operands are looked at, and what the decoder answers. -/
inductive DecodePath (w : CmdWord) : Prop where
  | reserved (hop : opcodeOf (wordOp w) = none) (eq : decode w = .error .illegalOpcode)
  | bits {op : Opcode} (hop : opcodeOf (wordOp w) = some op) (hr : reservedSet op w = true)
      (eq : decode w = .error .reservedBits)
  | target {op : Opcode} (hop : opcodeOf (wordOp w) = some op) (hk : targetKind op = .stepper) (ht : 2 ≤ (wordTgt w).toNat)
      (eq : decode w = .error .badTarget)
  | stepper {op : Opcode} {k : StepperId} (hop : opcodeOf (wordOp w) = some op) (hr : reservedSet op w = false)
      (hk : targetKind op = .stepper) (ht : wordTgt w = stepperTgt k) (eq : decode w = decodeStepper op k w)
  | driver {op : Opcode} (hop : opcodeOf (wordOp w) = some op) (hr : reservedSet op w = false)
      (hk : targetKind op ≠ .stepper) (eq : decode w = decodeDriver op w)

theorem decode_path (w : CmdWord) : DecodePath w := by
  cases hop : opcodeOf (wordOp w) with
  | none => exact .reserved hop (decode_reserved hop)
  | some op =>
    cases hr : reservedSet op w with
    | true => exact .bits hop hr (decode_reservedBits hop hr)
    | false =>
      by_cases hk : targetKind op = .stepper
      · by_cases ht : (wordTgt w).toNat < Config.nSteppers
        · have ht := (stepperTgt_mk ht).symm
          exact .stepper hop hr hk ht (decode_stepper hop hr hk ht)
        · exact .target hop hk (Nat.not_lt.1 ht) (decode_badTarget hop hr hk (Nat.not_lt.1 ht))
      · exact .driver hop hr hk (decode_driver hop hr hk)

end Sys2Proof.Laws
end

section
/-! Encoding and decoding (30_encoding.md R90, R94 to R98, R105): the words that the decoder accepts are exactly those that carry
the fields of a well-formed command. -/

namespace Sys2Proof.Laws

open Sys2Proof

/-! ### The words of commands -/

theorem extractLsb'_one {n : ℕ} (x : BitVec n) (i : ℕ) : x.extractLsb' i 1 = BitVec.ofBool (x.getLsbD i) := by
  ext j hj
  simp [Nat.lt_one_iff.1 hj]

/-- A word is its fields, in the order of R90. -/
theorem buildWord_fields {w : CmdWord} (h : wordRsv w = 0#3) :
    buildWord (wordOp w) (wordNb w) (wordTgt w) (wordA w) (wordB w) = w := by
  rw [buildWord, ← h, wordNb, ← extractLsb'_one]
  simp only [wordOp, wordRsv, wordTgt, wordA, wordB]
  iterate 5 rw [BitVec.extractLsb'_append_extractLsb'_eq_extractLsb']
  · exact BitVec.extractLsb'_eq_self
  all_goals rfl

/-- The word `w` holds the fields of the command `i`. -/
structure Carries (w : CmdWord) (i : Instr) : Prop where
  op : wordOp w = i.opcode.code
  nb : wordNb w = i.nb
  rsv : wordRsv w = 0#3
  tgt : wordTgt w = i.tgtField
  a : wordA w = i.aField
  b : wordB w = i.bField

/-- The fields make the word. -/
theorem carries_iff_encode_eq {w : CmdWord} {i : Instr} : Carries w i ↔ encode i = w := by
  constructor
  · intro h
    rw [encode, ← h.op, ← h.nb, ← h.tgt, ← h.a, ← h.b, buildWord_fields h.rsv]
  · rintro rfl
    exact ⟨wordOp_buildWord .., wordNb_buildWord .., wordRsv_buildWord .., wordTgt_buildWord .., wordA_buildWord ..,
      wordB_buildWord ..⟩

/-- The family `EncodedFields` for all commands. -/
theorem encodedFields (i : Instr) : EncodedFields.Statement i := by
  cases i with
  | drvInit => exact EncodedFields.drvInit _
  | drvReset => exact EncodedFields.drvReset _
  | drvSetfreq => exact EncodedFields.drvSetfreq _ _
  | drvGetfreq => exact EncodedFields.drvGetfreq _
  | drvSetchan => exact EncodedFields.drvSetchan _ _ _ _
  | drvSetpin => exact EncodedFields.drvSetpin _ _ _
  | drvSetall => exact EncodedFields.drvSetall _ _ _
  | stpPins => exact EncodedFields.stpPins _ _ _
  | stpSetsteps => exact EncodedFields.stpSetsteps _ _ _
  | stpSetmicro => exact EncodedFields.stpSetmicro _ _ _
  | stpSetstyle => exact EncodedFields.stpSetstyle _ _ _
  | stpSetcurrent => exact EncodedFields.stpSetcurrent _ _ _
  | stpSetspeed => exact EncodedFields.stpSetspeed _ _ _ _
  | stpSetfreq => exact EncodedFields.stpSetfreq _ _ _
  | stpInit => exact EncodedFields.stpInit _ _
  | stpOnestep => exact EncodedFields.stpOnestep _ _ _
  | stpStep => exact EncodedFields.stpStep _ _ _ _
  | stpRelease => exact EncodedFields.stpRelease _ _
  | stpStop => exact EncodedFields.stpStop _ _
  | stpStatus => exact EncodedFields.stpStatus _ _
  | stpGetrates => exact EncodedFields.stpGetrates _ _

theorem Carries.reservedSet_eq {w : CmdWord} {i : Instr} (h : Carries w i) : reservedSet i.opcode w = false := by
  obtain ⟨-, -, hr⟩ := encodedFields i
  rwa [carries_iff_encode_eq.1 h] at hr

/-- A command's word has its command read back, operand by operand. -/
theorem Carries.decode_eq {w : CmdWord} {i : Instr} (h : Carries w i) (hi : i.wf = true) : decode w = .ok i := by
  have hop : opcodeOf (wordOp w) = some i.opcode := opcodeOf_eq_some.2 h.op
  have hr := h.reservedSet_eq
  obtain ⟨-, hnb, -, ht, ha, hb⟩ := h
  cases i with
  | drvInit | drvReset | drvGetfreq =>
    rw [decode_driver hop hr nofun]
    simp [Instr.opcode, decodeDriver, hnb, Instr.nb]
  | drvSetfreq nb rate =>
    rw [decode_driver hop hr nofun, Instr.opcode, decodeDriver, readRate_eq_ok.2 ⟨hi, hb⟩, hnb]
    rfl
  | drvSetchan nb c x y =>
    rw [decode_driver hop hr nofun, Instr.opcode, decodeDriver,
      readTicks_eq_ok.2 ⟨by simpa [Instr.wf] using hi, ha, hb⟩, hnb, ht]
    rfl
  | drvSetpin nb c v =>
    rw [decode_driver hop hr nofun, Instr.opcode, decodeDriver, readLevel_eq_ok.2 hb, hnb, ht]
    rfl
  | drvSetall nb x y =>
    rw [decode_driver hop hr nofun, Instr.opcode, decodeDriver,
      readTicks_eq_ok.2 ⟨by simpa [Instr.wf] using hi, ha, hb⟩, hnb]
    rfl
  | stpInit | stpRelease | stpStop | stpStatus | stpGetrates =>
    rw [decode_stepper hop hr rfl ht]
    simp [Instr.opcode, decodeStepper, hnb, Instr.nb]
  | stpPins nb k p =>
    have hp : unpackPins (wordB w) = p := by rw [hb]; exact unpackPins_packPins p
    rw [decode_stepper hop hr rfl ht, Instr.opcode, decodeStepper, hp, hnb]
    exact if_pos hi
  | stpSetsteps nb k n =>
    have hn : n ≠ 0#16 := bne_iff_ne.1 hi
    have hb : wordB w = n.setWidth 32 := hb
    rw [decode_stepper hop hr rfl ht, Instr.opcode, decodeStepper, hb, hnb, if_neg (by bv_omega)]
    simp [Instr.nb]
  | stpSetcurrent nb k n =>
    have hn : n.toNat ≤ 32768 := of_decide_eq_true hi
    have hb : wordB w = n.setWidth 32 := hb
    rw [decode_stepper hop hr rfl ht, Instr.opcode, decodeStepper, hb, hnb, if_neg (by bv_omega)]
    simp [Instr.nb]
  | stpSetmicro nb k ms =>
    rw [decode_stepper hop hr rfl ht, Instr.opcode, decodeStepper, readMicro_eq_ok.2 hb, hnb]
    rfl
  | stpSetstyle nb k st =>
    rw [decode_stepper hop hr rfl ht, Instr.opcode, decodeStepper, readStyle_eq_ok.2 hb, hnb]
    rfl
  | stpSetspeed nb k u v =>
    rw [decode_stepper hop hr rfl ht, Instr.opcode, decodeStepper, readUnit_eq_ok.2 ha, hb, hnb]
    exact if_neg (bne_iff_ne.1 hi)
  | stpSetfreq nb k rate =>
    rw [decode_stepper hop hr rfl ht, Instr.opcode, decodeStepper, readRate_eq_ok.2 ⟨hi, hb⟩, hnb]
    rfl
  | stpOnestep nb k d =>
    rw [decode_stepper hop hr rfl ht, Instr.opcode, decodeStepper, readDir_eq_ok.2 ha, hnb]
    rfl
  | stpStep nb k d n =>
    rw [decode_stepper hop hr rfl ht, Instr.opcode, decodeStepper, readDir_eq_ok.2 ha, hb, hnb]
    rfl

/-- A driver command that is read from a word has the word's fields. -/
theorem carries_of_decodeDriver {op : Opcode} {w : CmdWord} {i : Instr} (hop : opcodeOf (wordOp w) = some op)
    (hr : reservedSet op w = false) (h : decodeDriver op w = .ok i) : Carries w i := by
  have hc : wordOp w = op.code := opcodeOf_eq_some.1 hop
  obtain ⟨hrsv, ht, ha, hb, -, -⟩ := reservedSet_eq_false.1 hr
  cases op with
  | drvInit | drvReset | drvGetfreq => cases h; exact ⟨hc, rfl, hrsv, ht rfl, ha rfl, hb rfl⟩
  | drvSetfreq =>
    obtain ⟨r, hr, rfl⟩ := ok_of_map_ok h
    exact ⟨hc, rfl, hrsv, ht rfl, ha rfl, (readRate_eq_ok.1 hr).2⟩
  | drvSetchan =>
    obtain ⟨t, hr, rfl⟩ := ok_of_map_ok h
    obtain ⟨-, hx, hy⟩ := readTicks_eq_ok.1 hr
    exact ⟨hc, rfl, hrsv, rfl, hx, hy⟩
  | drvSetpin =>
    obtain ⟨v, hr, rfl⟩ := ok_of_map_ok h
    exact ⟨hc, rfl, hrsv, rfl, ha rfl, readLevel_eq_ok.1 hr⟩
  | drvSetall =>
    obtain ⟨t, hr, rfl⟩ := ok_of_map_ok h
    obtain ⟨-, hx, hy⟩ := readTicks_eq_ok.1 hr
    exact ⟨hc, rfl, hrsv, ht rfl, hx, hy⟩
  | _ => cases h

/-- A stepper command that is read from a word has the word's fields. -/
theorem carries_of_decodeStepper {op : Opcode} {w : CmdWord} {i : Instr} {k : StepperId} (hop : opcodeOf (wordOp w) = some op)
    (hr : reservedSet op w = false) (ht : wordTgt w = stepperTgt k) (h : decodeStepper op k w = .ok i) : Carries w i := by
  have hc : wordOp w = op.code := opcodeOf_eq_some.1 hop
  obtain ⟨hrsv, -, ha, hb, hpins, -⟩ := reservedSet_eq_false.1 hr
  cases op with
  | stpInit | stpRelease | stpStop | stpStatus | stpGetrates => cases h; exact ⟨hc, rfl, hrsv, ht, ha rfl, hb rfl⟩
  | stpPins =>
    rw [decodeStepper] at h
    split at h <;> cases h
    exact ⟨hc, rfl, hrsv, ht, ha rfl, (packPins_unpackPins (hpins rfl)).symm⟩
  | stpSetsteps =>
    rw [decodeStepper] at h
    split at h <;> cases h
    exact ⟨hc, rfl, hrsv, ht, ha rfl, show wordB w = ((wordB w).setWidth 16).setWidth 32 by bv_omega⟩
  | stpSetcurrent =>
    rw [decodeStepper] at h
    split at h <;> cases h
    exact ⟨hc, rfl, hrsv, ht, ha rfl, show wordB w = ((wordB w).setWidth 16).setWidth 32 by bv_omega⟩
  | stpSetmicro =>
    obtain ⟨ms, hr, rfl⟩ := ok_of_map_ok h
    exact ⟨hc, rfl, hrsv, ht, ha rfl, readMicro_eq_ok.1 hr⟩
  | stpSetstyle =>
    obtain ⟨st, hr, rfl⟩ := ok_of_map_ok h
    exact ⟨hc, rfl, hrsv, ht, ha rfl, readStyle_eq_ok.1 hr⟩
  | stpSetspeed =>
    rw [decodeStepper] at h
    cases hu : readUnit (wordA w) with
    | error => rw [hu] at h; cases h
    | ok u =>
      rw [hu, Except.bind] at h
      split at h <;> cases h
      exact ⟨hc, rfl, hrsv, ht, readUnit_eq_ok.1 hu, rfl⟩
  | stpSetfreq =>
    obtain ⟨r, hr, rfl⟩ := ok_of_map_ok h
    exact ⟨hc, rfl, hrsv, ht, ha rfl, (readRate_eq_ok.1 hr).2⟩
  | stpOnestep =>
    obtain ⟨d, hr, rfl⟩ := ok_of_map_ok h
    exact ⟨hc, rfl, hrsv, ht, readDir_eq_ok.1 hr, hb rfl⟩
  | stpStep =>
    obtain ⟨d, hr, rfl⟩ := ok_of_map_ok h
    exact ⟨hc, rfl, hrsv, ht, readDir_eq_ok.1 hr, rfl⟩
  | _ => cases h

/-- No bit of an accepted word is dropped: each is in a field that must be zero or in the command. -/
theorem carries_of_decode {w : CmdWord} {i : Instr} (h : decode w = .ok i) : Carries w i := by
  cases decode_path w with
  | reserved _ e | bits _ _ e | target _ _ _ e => rw [e] at h; cases h
  | stepper hop hr _ ht e => exact carries_of_decodeStepper hop hr ht (e.symm.trans h)
  | driver hop hr _ e => exact carries_of_decodeDriver hop hr (e.symm.trans h)

/-- The decoder accepts exactly the words of well-formed commands. -/
theorem decode_eq_ok_iff {w : CmdWord} {i : Instr} : decode w = .ok i ↔ i.wf = true ∧ encode i = w :=
  ⟨fun h => ⟨decode_legal h, carries_iff_encode_eq.1 (carries_of_decode h)⟩,
    fun ⟨hi, hw⟩ => (carries_iff_encode_eq.2 hw).decode_eq hi⟩

/-- Settles O1: every field is read back by its operand's check (`Carries.decode_eq`). -/
theorem decodeEncode : Obligations.DecodeEncode := fun _ hi => decode_eq_ok_iff.2 ⟨hi, rfl⟩

/-- Settles O2: the accepted command is legal, and its fields are all of the word (`carries_of_decode`). -/
theorem encodeDecode : Obligations.EncodeDecode := fun _ _ => decode_eq_ok_iff.1

end Sys2Proof.Laws
end

section
/-! Rejected words (30_encoding.md R92 to R94, R98, R99; 40_driver.md R120; 60_exceptions.md R254): the columns of the opcode map
by opcode number, and each operand's check with the reason it gives. -/

namespace Sys2Proof.Laws

open Sys2Proof Sys2Proof.Machine

/-! ### The opcode map by number (R98, R99) -/

/-- The reserved opcode numbers (R99). -/
theorem opcodeOf_eq_none {b : Byte} :
    opcodeOf b = none ↔ b.toNat = 0 ∨ (8 ≤ b.toNat ∧ b.toNat ≤ 15) ∨ 0x1E ≤ b.toNat := by
  revert b
  decide

theorem zeroTarget_codes (op : Opcode) : op.code.toNat ∈ [0x01, 0x02, 0x03, 0x04, 0x07] ↔ targetKind op = .zero := by
  cases op <;> decide

theorem stepperTarget_codes (op : Opcode) : 0x10 ≤ op.code.toNat ↔ targetKind op = .stepper := by cases op <;> decide

theorem unusedA_codes (op : Opcode) : op.code.toNat ∈
    [0x01, 0x02, 0x03, 0x04, 0x06, 0x10, 0x11, 0x12, 0x13, 0x14, 0x16, 0x17, 0x1A, 0x1B, 0x1C, 0x1D] ↔ usesA op = false := by
  cases op <;> decide

theorem unusedB_codes (op : Opcode) :
    op.code.toNat ∈ [0x01, 0x02, 0x04, 0x17, 0x18, 0x1A, 0x1B, 0x1C, 0x1D] ↔ usesB op = false := by
  cases op <;> decide

theorem pins_code (op : Opcode) : op.code.toNat = 0x10 ↔ op = .stpPins := by cases op <;> decide

theorem setspeed_code (op : Opcode) : op.code.toNat = 0x15 ↔ op = .stpSetspeed := by cases op <;> decide

/-! ### The reasons of the operand checks (R94) -/

theorem readDir_error {a : BitVec 16} {why : Reason} (h : readDir a = .error why) : why = .badDirection := by
  unfold readDir at h
  split_ifs at h
  cases h
  rfl

theorem readStyle_error {b : W32} {why : Reason} (h : readStyle b = .error why) : why = .badStyle := by
  unfold readStyle at h
  split_ifs at h
  cases h
  rfl

theorem readMicro_error {b : W32} {why : Reason} (h : readMicro b = .error why) : why = .badMicrosteps := by
  unfold readMicro at h
  split_ifs at h
  cases h
  rfl

theorem readUnit_error {a : BitVec 16} {why : Reason} (h : readUnit a = .error why) : why = .badSpeedUnit := by
  unfold readUnit at h
  split_ifs at h
  cases h
  rfl

theorem readLevel_error {b : W32} {why : Reason} (h : readLevel b = .error why) : why = .badStateValue := by
  unfold readLevel at h
  split_ifs at h
  cases h
  rfl

theorem readTicks_error {a : BitVec 16} {b : W32} {why : Reason} (h : readTicks a b = .error why) : why = .badTick := by
  unfold readTicks at h
  split_ifs at h <;> cases h <;> rfl

theorem readRate_error {b : W32} {why : Reason} (h : readRate b = .error why) : why = .badFrequency ∨ why = .prescaleRange := by
  unfold readRate at h
  split_ifs at h <;> cases h
  · exact .inl rfl
  · exact .inr rfl

/-- A mapped check rejects for the check's reason. -/
theorem error_of_map_error {ε α β : Type} {e : Except ε α} {f : α → β} {r : ε} (h : e.map f = .error r) :
    e = .error r := by
  cases e with
  | error => cases h; rfl
  | ok => cases h

/-- The operand checks of a driver opcode do not reject for its opcode. -/
theorem decodeDriver_ne_illegal {op : Opcode} {w : CmdWord} (hk : targetKind op ≠ .stepper) :
    decodeDriver op w ≠ .error .illegalOpcode := by
  intro h
  cases op with
  | drvInit | drvReset | drvGetfreq => cases h
  | drvSetfreq => obtain e | e := readRate_error (error_of_map_error h) <;> cases e
  | drvSetchan | drvSetall => cases readTicks_error (error_of_map_error h)
  | drvSetpin => cases readLevel_error (error_of_map_error h)
  | _ => exact hk rfl

/-- The operand checks of a stepper opcode do not reject for its opcode. -/
theorem decodeStepper_ne_illegal {op : Opcode} {k : StepperId} {w : CmdWord} (hk : targetKind op = .stepper) :
    decodeStepper op k w ≠ .error .illegalOpcode := by
  intro h
  cases op with
  | stpInit | stpRelease | stpStop | stpStatus | stpGetrates => cases h
  | stpPins | stpSetsteps | stpSetcurrent =>
    rw [decodeStepper] at h
    split at h <;> cases h
  | stpSetmicro => cases readMicro_error (error_of_map_error h)
  | stpSetstyle => cases readStyle_error (error_of_map_error h)
  | stpSetspeed =>
    rw [decodeStepper] at h
    cases hu : readUnit (wordA w) with
    | error =>
      rw [hu] at h
      cases h
      cases readUnit_error hu
    | ok u =>
      rw [hu, Except.bind] at h
      split at h <;> cases h
  | stpSetfreq => obtain e | e := readRate_error (error_of_map_error h) <;> cases e
  | stpOnestep | stpStep => cases readDir_error (error_of_map_error h)
  | _ => cases hk

/-! ### Rejected words -/

theorem decode_eq_illegal_iff {w : CmdWord} : decode w = .error .illegalOpcode ↔ opcodeOf (wordOp w) = none := by
  refine ⟨fun h => ?_, decode_reserved⟩
  cases decode_path w with
  | reserved hop _ => exact hop
  | bits _ _ e | target _ _ _ e => rw [e] at h; cases h
  | stepper _ _ hk _ e => exact absurd (e.symm.trans h) (decodeStepper_ne_illegal hk)
  | driver _ _ hk e => exact absurd (e.symm.trans h) (decodeDriver_ne_illegal hk)

/-- A number outside the reserved ones is an opcode's. -/
theorem exists_opcode {b : Byte} (h : ¬ (b.toNat = 0 ∨ (8 ≤ b.toNat ∧ b.toNat ≤ 15) ∨ 0x1E ≤ b.toNat)) :
    ∃ op : Opcode, opcodeOf b = some op ∧ b = op.code := by
  obtain ⟨op, hop⟩ := Option.ne_none_iff_exists'.1 (mt opcodeOf_eq_none.1 h)
  exact ⟨op, hop, opcodeOf_eq_some.1 hop⟩

/-- A rejected word uses a ticket and answers at once; nothing else changes (R120). -/
theorem submit_rejected {s : State} {w : CmdWord} {why : Reason} (hs : s.hostWait = none) (h : decode w = .error why) :
    s.submit w = some { s with
      nextTicket := s.nextTicket + 1#16,
      sync := validationRecord s.nextTicket (wordOp w) (reasonCode why) :: s.sync } := by
  rw [State.submit, if_neg (by simp [hs]), h]
  rfl

/-- Settles O3: the opcode map by number, and the must-be-zero fields of the opcode's row. -/
theorem reservedEncodingsRejected : Obligations.ReservedEncodingsRejected := by
  refine fun w => ⟨decode_eq_illegal_iff.trans opcodeOf_eq_none, fun hop hset => ?_, fun s why hs h => submit_rejected hs h⟩
  obtain ⟨op, ho, hc⟩ := exists_opcode hop
  refine decode_reservedBits ho (by_contra fun hn => ?_)
  obtain ⟨hrsv, ht, ha, hb, hpins, hspeed⟩ := reservedSet_eq_false.1 (Bool.eq_false_of_not_eq_true hn)
  simp only [hc, zeroTarget_codes, unusedA_codes, unusedB_codes, pins_code, setspeed_code] at hset
  rcases hset with h | ⟨hk, h⟩ | ⟨hk, h⟩ | ⟨hk, h⟩ | ⟨hk, h⟩ | ⟨hk, h⟩
  · exact h hrsv
  · exact h (ht hk)
  · exact h (ha hk)
  · exact h (hb hk)
  · exact absurd (hpins hk) (Nat.not_lt.2 h)
  · exact absurd (hspeed hk) (Nat.not_lt.2 h)

/-! ### Built words and their operands -/

/-- The must-be-zero fields of a built word (R92, R95, R96, R98). -/
theorem reservedSet_buildWord {op : Opcode} {b8 : Byte} {nb : Bool} {t : BitVec 4} {a : BitVec 16} {b : W32} :
    reservedSet op (buildWord b8 nb t a b) = false ↔
      (targetKind op = .zero → t = 0#4) ∧ (usesA op = false → a = 0#16) ∧ (usesB op = false → b = 0#32) ∧
      (op = .stpPins → b.toNat < 2 ^ 24) ∧ (op = .stpSetspeed → a.toNat < 8) := by
  simp [reservedSet_eq_false]

/-- The operand checks of a driver opcode's word, if its must-be-zero fields are 0. -/
theorem decode_buildWord_driver {op : Opcode} {nb : Bool} {t : BitVec 4} {a : BitVec 16} {b : W32}
    (hk : targetKind op ≠ .stepper)
    (hr : reservedSet op (buildWord op.code nb t a b) = false) :
    decode (buildWord op.code nb t a b) = decodeDriver op (buildWord op.code nb t a b) :=
  decode_driver (by simp) hr hk

/-- The operand checks of a stepper opcode's word, if its must-be-zero fields are 0. -/
theorem decode_buildWord_stepper {op : Opcode} {nb : Bool} {k : StepperId} {a : BitVec 16} {b : W32}
    (hk : targetKind op = .stepper)
    (hr : reservedSet op (buildWord op.code nb (stepperTgt k) a b) = false) :
    decode (buildWord op.code nb (stepperTgt k) a b) = decodeStepper op k (buildWord op.code nb (stepperTgt k) a b) :=
  decode_stepper (by simp) hr hk (by simp)

/-- What is done with an operand is done once its check has passed. -/
theorem map_check {ε α β : Type} {p : Prop} [Decidable p] {r : ε} {e : Except ε α} {f : α → β} :
    Except.map f (if p then .error r else e) = if p then .error r else Except.map f e := by
  split <;> rfl

theorem map_ok {ε α β : Type} {x : α} {f : α → β} : Except.map f (.ok x : Except ε α) = .ok (f x) := rfl

/-- Only 0 and 1 are directions. -/
theorem readDir_eq (a : BitVec 16) :
    readDir a = if 1 < a.toNat then .error .badDirection else .ok (if a = 0#16 then .fwd else .back) := by
  have ha : a = 0#16 ∨ a = 1#16 ∨ 1 < a.toNat := by bv_omega
  rcases ha with rfl | rfl | ha
  · rfl
  · rfl
  · rw [readDir, if_neg (by bv_omega), if_neg (by bv_omega), if_pos ha]

/-- Only 0 and 1 are digital states. -/
theorem readLevel_eq (b : W32) :
    readLevel b = if 1 < b.toNat then .error .badStateValue else .ok (decide (b = 1#32)) := by
  have hb : b = 0#32 ∨ b = 1#32 ∨ 1 < b.toNat := by bv_omega
  rcases hb with rfl | rfl | hb
  · rfl
  · rfl
  · rw [readLevel, if_neg (by bv_omega), if_neg (by bv_omega), if_pos hb]

/-- The target check comes before the checks of the operands (R254). -/
theorem decode_buildWord_badTarget {op : Byte} {nb : Bool} {t : BitVec 4} {a : BitVec 16} {b : W32} (h1 : 0x10 ≤ op.toNat)
    (h2 : op.toNat ≤ 0x1D) (ht : 2 ≤ t.toNat)
    (ha : op.toNat ≠ 0x15 → op.toNat ≠ 0x18 → op.toNat ≠ 0x19 → a = 0#16) (hunit : op.toNat = 0x15 → a.toNat < 8)
    (hpins : op.toNat = 0x10 → b.toNat < 2 ^ 24) (hb : op.toNat ∈ [0x17, 0x18, 0x1A, 0x1B, 0x1C, 0x1D] → b = 0#32) :
    decode (buildWord op nb t a b) = .error .badTarget := by
  obtain ⟨o, -, rfl⟩ := exists_opcode (b := op) (by omega)
  have hk : targetKind o = .stepper := (stepperTarget_codes o).1 h1
  refine decode_badTarget (by simp) (reservedSet_buildWord.2 ⟨?_, ?_, ?_, ?_, ?_⟩) hk (by simpa using ht)
  · intro h; rw [hk] at h; cases h
  · intro h
    have hm := (unusedA_codes o).2 h
    simp only [List.mem_cons, List.not_mem_nil, or_false] at hm
    exact ha (by omega) (by omega) (by omega)
  · intro h
    have hm := (unusedB_codes o).2 h
    simp only [List.mem_cons, List.not_mem_nil, or_false] at hm hb
    exact hb (by omega)
  · intro h; exact hpins ((pins_code o).2 h)
  · intro h; exact hunit ((setspeed_code o).2 h)

/-- Settles O4: each opcode's word goes to its operand's check, whose answers the lemmas above give. -/
theorem operandRanges : Obligations.OperandRanges := by
  intro nb c k a b
  refine ⟨?_, ?_, ?_, ?_, ?_, ?_, ?_, fun _ _ => decode_buildWord_badTarget⟩
  · exact (decode_buildWord_driver (op := .drvSetchan) nofun (by simp [reservedSet_buildWord, targetKind, usesA, usesB])).trans
      (by simp [decodeDriver, readTicks_eq, map_check, map_ok])
  · exact (decode_buildWord_driver (op := .drvSetall) nofun (by simp [reservedSet_buildWord, targetKind, usesA, usesB])).trans
      (by simp [decodeDriver, readTicks_eq, map_check, map_ok])
  · exact (decode_buildWord_driver (op := .drvSetpin) nofun (by simp [reservedSet_buildWord, targetKind, usesA, usesB])).trans
      (by simp [decodeDriver, readLevel_eq, map_check, map_ok])
  · exact (decode_buildWord_driver (op := .drvSetfreq) nofun (by simp [reservedSet_buildWord, targetKind, usesA, usesB])).trans
      (by simp [decodeDriver, readRate_eq, map_check, map_ok])
  · exact (decode_buildWord_stepper (op := .stpSetfreq) rfl (by simp [reservedSet_buildWord, targetKind, usesA, usesB])).trans
      (by simp [decodeStepper, readRate_eq, map_check, map_ok])
  · exact (decode_buildWord_stepper (op := .stpOnestep) rfl (by simp [reservedSet_buildWord, targetKind, usesA, usesB])).trans
      (by simp [decodeStepper, readDir_eq, map_check, map_ok])
  · exact (decode_buildWord_stepper (op := .stpStep) rfl (by simp [reservedSet_buildWord, targetKind, usesA, usesB])).trans
      (by simp [decodeStepper, readDir_eq, map_check, map_ok])

end Sys2Proof.Laws
end

section
/-! The rationals that the block delivers (30_encoding.md R104; 40_driver.md R132; 41_stepper_config.md R169, R171): each is a
quotient of bounded naturals, and the parts of its reduced form are no larger than those. -/

namespace Sys2Proof.Machine

open Sys2Proof

/-! ### Quotients of bounded naturals -/

/-- `q` is a quotient of naturals, the upper one at most `N` and the lower one positive and at most `D`. -/
def FracWithin (N D : ℕ) (q : ℚ) : Prop := ∃ n d : ℕ, q = (n : ℚ) / d ∧ n ≤ N ∧ 0 < d ∧ d ≤ D

section
variable {N D : ℕ} {q : ℚ}

theorem FracWithin.nonneg (h : FracWithin N D q) : 0 ≤ q := by
  obtain ⟨n, d, rfl, -, -, -⟩ := h
  positivity

theorem FracWithin.num_le (h : FracWithin N D q) : q.num ≤ N := by
  obtain ⟨n, d, rfl, hn, hd, -⟩ := h
  have hdvd : ((n : ℚ) / d).num ∣ (n : ℤ) := by
    simpa [Rat.divInt_eq_div] using Rat.num_dvd (n : ℤ) (b := (d : ℤ)) (by omega)
  rcases Nat.eq_zero_or_pos n with rfl | hpos
  · simp
  · exact (Int.le_of_dvd (by omega) hdvd).trans (by omega)

theorem FracWithin.den_le (h : FracWithin N D q) : q.den ≤ D := by
  obtain ⟨n, d, rfl, -, hd, hD⟩ := h
  have hdvd : ((((n : ℚ) / d).den : ℕ) : ℤ) ∣ (d : ℤ) := by
    simpa [Rat.divInt_eq_div] using Rat.den_dvd (n : ℤ) (d : ℤ)
  exact (Nat.le_of_dvd hd (Int.natCast_dvd_natCast.1 hdvd)).trans hD

theorem FracWithin.mono {N' D' : ℕ} (h : FracWithin N D q) (hN : N ≤ N') (hD : D ≤ D') : FracWithin N' D' q := by
  obtain ⟨n, d, hq, hn, hd, hd'⟩ := h
  exact ⟨n, d, hq, hn.trans hN, hd, hd'.trans hD⟩

theorem FracWithin.mul_nat {m M : ℕ} (h : FracWithin N D q) (hm : m ≤ M) : FracWithin (N * M) D (q * m) := by
  obtain ⟨n, d, rfl, hn, hd, hD⟩ := h
  exact ⟨n * m, d, by push_cast; ring, Nat.mul_le_mul hn hm, hd, hD⟩

theorem FracWithin.div_nat {m M : ℕ} (h : FracWithin N D q) (hm : 0 < m) (hM : m ≤ M) : FracWithin N (D * M) (q / m) := by
  obtain ⟨n, d, rfl, hn, hd, hD⟩ := h
  exact ⟨n, d * m, by push_cast; rw [div_div], hn, Nat.mul_pos hd hm, Nat.mul_le_mul hD hM⟩

/-- The reciprocal of a zero rate is zero, so the bound of the upper natural must not be 0. -/
theorem FracWithin.nat_div (m : ℕ) (h : FracWithin N D q) (hN : 0 < N) : FracWithin (m * D) N (m / q) := by
  obtain ⟨n, d, rfl, hn, hd, hD⟩ := h
  rcases Nat.eq_zero_or_pos n with rfl | hpos
  · exact ⟨0, 1, by simp, Nat.zero_le _, Nat.one_pos, hN⟩
  · exact ⟨m * d, n, by rw [div_div_eq_mul_div]; push_cast; rfl, Nat.mul_le_mul_left m hD, hpos, hn⟩

/-! ### The block's rationals -/

theorem computeFreq_within (p : Byte) : FracWithin 390625 (64 * 256) (computeFreq p) := by
  refine ⟨390625, 64 * (p.toNat + 1), ?_, le_rfl, by omega, by omega⟩
  have hp : (p.toNat : ℚ) + 1 ≠ 0 := by positivity
  simp only [computeFreq, Config.oscHz, Config.ticks]
  push_cast
  field_simp
  norm_num

theorem q16_within (b : W32) : FracWithin (2 ^ 32) (2 ^ 16) (q16 b) :=
  ⟨b.toNat, 2 ^ 16, by norm_num [q16], b.isLt.le, by norm_num, le_rfl⟩

/-- The multiplier `K` of a style is between 1 and 32 (R169). -/
theorem microMult_bounds {st : Style} {ms : Option Micro} {m : ℕ} (h : microMult st ms = some m) :
    0 < halfMult st * m ∧ halfMult st * m ≤ 32 := by
  cases st with
  | single | double | interleaved => cases h; decide
  | microstep =>
    obtain ⟨u, -, rfl⟩ := Option.map_eq_some_iff.1 h
    cases u <;> decide

/-- The rates of a target, whichever unit it is in (R169, R170). -/
theorem ratesOf_within {u : SpeedUnit} {b : W32} {spr : Option (BitVec 16)} {K : ℕ} (hK : 0 < K) (hK' : K ≤ 32)
    (h : (ratesOf u (q16 b) spr K).1 = some q ∨ (ratesOf u (q16 b) spr K).2 = some q) :
    FracWithin (2 ^ 53) (65536 * 60) q := by
  have hv := q16_within b
  cases u with
  | rpm =>
    cases spr with
    | none => rcases h with h | h <;> cases h
    | some n =>
      have hf := (hv.mul_nat n.isLt.le).div_nat (m := 60) (by omega) le_rfl
      rcases h with h | h <;> cases h
      · exact hf.mono (by norm_num) (by norm_num)
      · exact (hf.mul_nat hK').mono (by norm_num) (by norm_num)
  | sps =>
    rcases h with h | h <;> cases h
    · exact hv.mono (by norm_num) (by norm_num)
    · exact (hv.mul_nat hK').mono (by norm_num) (by norm_num)
  | pps =>
    rcases h with h | h <;> cases h
    · exact (hv.div_nat hK hK').mono (by norm_num) (by norm_num)
    · exact hv.mono (by norm_num) (by norm_num)

theorem recompute_within {c : StepperConfig} (h : (recompute c).1 = some q ∨ (recompute c).2 = some q) :
    FracWithin (2 ^ 53) (65536 * 60) q := by
  unfold recompute at h
  split at h
  · split at h
    · rcases h with h | h <;> cases h
    · rename_i m hm
      obtain ⟨hK, hK'⟩ := microMult_bounds hm
      exact ratesOf_within hK hK' h
  · rcases h with h | h <;> cases h

theorem pulsePeriod_within {c : StepperConfig} (h : pulsePeriod c.withRates = some q) :
    FracWithin (1000 * (65536 * 60)) (2 ^ 53) q := by
  obtain ⟨f, hf, rfl⟩ := Option.map_eq_some_iff.1 h
  exact (recompute_within (.inr hf)).nat_div 1000 (by norm_num)

/-! ### Delivery -/

/-- A rational whose parts fit 64 bits is delivered as its reduced fraction. -/
theorem fraction_fits (h0 : 0 ≤ q) (hn : q.num < 2 ^ 64) (hd : q.den < 2 ^ 64) :
    ((fraction q).num.toNat : ℤ) = q.num ∧ (fraction q).den.toNat = q.den := by
  have hnum := Rat.num_nonneg.2 h0
  simp only [fraction, BitVec.toNat_ofNat]
  omega

end

/-- Settles O9: the delivered parts are those of the reduced form, and each of the block's rationals is a quotient of bounded
naturals (`FracWithin`). -/
theorem fractionsFit : Obligations.FractionsFit := by
  refine ⟨fun q h0 hn hd => ?_, rfl, fun p => ?_, fun c q h => ?_, fun c q h => ?_⟩
  · obtain ⟨hnum, hden⟩ := fraction_fits h0 hn hd
    refine ⟨hnum, hden, hden ▸ q.den_pos, ?_⟩
    rw [fractionOpt, hden, ← Int.natAbs_natCast (fraction q).num.toNat, hnum]
    exact q.reduced
  · have h := computeFreq_within p
    refine ⟨?_, h.num_le, h.den_le.trans_lt (by norm_num)⟩
    rw [computeFreq, Config.oscHz, Config.ticks]
    positivity
  · have h := recompute_within h
    exact ⟨h.nonneg, h.num_le.trans_lt (by norm_num), h.den_le.trans_lt (by norm_num)⟩
  · have h := pulsePeriod_within h
    exact ⟨h.nonneg, h.num_le.trans (by norm_num), h.den_le.trans_lt (by norm_num)⟩

end Sys2Proof.Machine
end

section
/-! Sample words and lines (30_encoding.md R101, R102; 95_test_vectors.md V-E1). -/

namespace Sys2Proof.Machine

open Sys2Proof Sys2Proof.Laws

/-- `STP_CONFIG` is no mnemonic of the opcode map, so it is expanded, whatever its operands (R102). -/
theorem commandsOf_stpConfig (s pins spr ms style current : List Char) :
    commandsOf "STP_CONFIG".toList [s, pins, spr, ms, style, current] =
      .ok [(.stpPins, [s, pins]), (.stpSetsteps, [s, spr]), (.stpSetmicro, [s, ms]), (.stpSetstyle, [s, style]),
           (.stpSetcurrent, [s, current]), (.stpInit, [s])] := rfl

/-- Settles O5: each word is the encoding of its well-formed command (`decode_eq_ok_iff`), and the assembler is run on each line. -/
theorem sampleWords : Obligations.SampleWords := by
  refine ⟨?drvInit, ?drvSetfreq, ?drvSetchan, ?drvSetpin, ?stpPins, ?stpSetspeed, ?stpOnestep, ?stpStep, ?stpStatus,
    ?setchanLine, ?setspeedLine, ?pinsLine, ?currentLine, ?inexactLine, commandsOf_stpConfig⟩
  case drvInit | drvSetfreq | drvSetchan | drvSetpin | stpPins | stpSetspeed | stpOnestep | stpStep | stpStatus =>
    exact decode_eq_ok_iff.2 (by decide)
  case setchanLine | setspeedLine | pinsLine | currentLine | inexactLine => decide

end Sys2Proof.Machine
end

section
/-! The prescale of a rate code and the frequency of a prescale (40_driver.md R131 to R133). -/

namespace Sys2Proof.Machine

open Sys2Proof Sys2Proof.Laws

/-! ### The prescale is a ceiling (R131) -/

/-- The prescale and its successor enclose the quotient `400000000/B`. -/
theorem computePrescale_bounds {b : W32} (hb : b ≠ 0#32) :
    computePrescale b * b.toNat < 400000000 ∧ 400000000 ≤ (computePrescale b + 1) * b.toNat := by
  have hpos : 0 < 4096 * b.toNat := by bv_omega
  obtain ⟨q, hq⟩ : ∃ q, q = (25000000 * 65536 + (4096 * b.toNat - 1)) / (4096 * b.toNat) := ⟨_, rfl⟩
  have hp : computePrescale b = q - 1 := by rw [hq]; rfl
  have hlo : q * (4096 * b.toNat) ≤ 25000000 * 65536 + (4096 * b.toNat - 1) := by rw [hq]; exact Nat.div_mul_le_self _ _
  have hhi : 25000000 * 65536 + (4096 * b.toNat - 1) < (q + 1) * (4096 * b.toNat) := by
    rw [hq]; exact Nat.lt_mul_of_div_lt (Nat.lt_succ_self _) hpos
  cases q with
  | zero => omega
  | succ p =>
    rw [hp, Nat.add_sub_cancel]
    have hmul : p * (4096 * b.toNat) = 4096 * (p * b.toNat) := Nat.mul_left_comm ..
    rw [Nat.succ_mul p, hmul] at hlo
    rw [Nat.succ_mul (p + 1), Nat.succ_mul p, hmul] at hhi
    rw [Nat.succ_mul p]
    omega

/-- One more than the prescale is the ceiling of `400000000/B`. -/
theorem ceil_quotient_eq {b : W32} (hb : b ≠ 0#32) :
    ⌈(400000000 : ℚ) / (b.toNat : ℚ)⌉ = (computePrescale b : ℤ) + 1 := by
  obtain ⟨hlo, hhi⟩ := computePrescale_bounds hb
  have hpos : (0 : ℚ) < b.toNat := by exact_mod_cast (show 0 < b.toNat by bv_omega)
  rw [Int.ceil_eq_iff, lt_div_iff₀ hpos, div_le_iff₀ hpos]
  push_cast
  constructor
  · rw [add_sub_cancel_right]; exact_mod_cast hlo
  · exact_mod_cast hhi

/-- Settles O6: the quotient lies between the prescale and its successor, and the range is that of `prescale_out_of_range_iff`. -/
theorem prescaleFormula : Obligations.PrescaleFormula := by
  intro b hb
  have hceil : (computePrescale b : ℤ) = ⌈(400000000 : ℚ) / (b.toNat : ℚ)⌉ - 1 := by rw [ceil_quotient_eq hb]; ring
  refine ⟨?_, hceil, ?_⟩
  · have hscale : (25000000 * 65536 : ℚ) / (4096 * (b.toNat : ℚ)) = 400000000 / (b.toNat : ℚ) := by
      rw [show (25000000 * 65536 : ℚ) = 4096 * 400000000 by norm_num, mul_div_mul_left _ _ (by norm_num)]
    rw [hscale, Int.ceil_sub_one, hceil]
  · rw [← not_lt, prescale_out_of_range_iff hb, not_lt]

/-! ### The frequency of a prescale (R132, R133) -/

theorem computeFreq_eq (p : Byte) : computeFreq p = 25000000 / (((p.toNat : ℚ) + 1) * 4096) := by
  simp [computeFreq, Config.oscHz, Config.ticks]

/-- The frequency as the base frequency of the chip divided by one more than the prescale. -/
theorem computeFreq_eq_div (p : Byte) : computeFreq p = 390625 / 64 / ((p.toNat : ℚ) + 1) := by
  rw [computeFreq_eq, div_div, mul_comm _ (4096 : ℚ), ← div_div, ← div_div]
  norm_num

/-- Settles O8: the delivered parts are those of the reduced form (`fractionsFit`). -/
theorem frequencyFormula : Obligations.FrequencyFormula := by
  intro p
  obtain ⟨hreduced, -, hfit, -⟩ := fractionsFit
  obtain ⟨hpos, hnum, hden⟩ := hfit p
  obtain ⟨hn, hd, -, hgcd⟩ := hreduced (computeFreq p) hpos.le (hnum.trans_lt (by norm_num)) hden
  refine ⟨computeFreq_eq p, by rw [computeFreq_eq_div, div_div], ?_, hgcd⟩
  calc ((fraction (computeFreq p)).num.toNat : ℚ) / ((fraction (computeFreq p)).den.toNat : ℚ)
      = ((computeFreq p).num : ℚ) / ((computeFreq p).den : ℚ) := by rw [← hn, ← hd]; rfl
    _ = computeFreq p := Rat.num_div_den _

/-- A number is an integer exactly where it is its own ceiling. -/
theorem eq_ceil_iff_integer (x : ℚ) : x = (⌈x⌉ : ℚ) ↔ ∃ n : ℤ, x = (n : ℚ) :=
  ⟨fun h => ⟨_, h⟩, by rintro ⟨n, rfl⟩; rw [Int.ceil_intCast]⟩

/-- Settles O7: with `K = 390625/64`, the request is `K/x`, the frequency set is `K/⌈x⌉`, and `x ≤ ⌈x⌉ < x + 1`. -/
theorem prescaleRounding : Obligations.PrescaleRounding := by
  intro b hb f x g
  have hne : b ≠ 0#32 := by bv_omega
  have hB : (0 : ℚ) < b.toNat := by exact_mod_cast (show 0 < b.toNat by omega)
  have hx : 0 < x := by positivity
  have hrange : computePrescale b ≤ 255 := (prescaleFormula b hne).2.2.2 hb
  have hcode : (BitVec.ofNat 8 (computePrescale b)).toNat = computePrescale b := by
    rw [BitVec.toNat_ofNat]; omega
  have hg : g = 390625 / 64 / (⌈x⌉ : ℚ) := by
    rw [show g = _ from computeFreq_eq_div _, hcode, show ⌈x⌉ = _ from ceil_quotient_eq hne]
    push_cast
    rfl
  have hf : f = 390625 / 64 / x := by
    simp only [f, x]
    field_simp
    norm_num
  have hfx : f * x = 390625 / 64 := by rw [hf, div_mul_cancel₀ _ hx.ne']
  have hc : 0 < (⌈x⌉ : ℚ) := hx.trans_le (Int.le_ceil x)
  refine ⟨?_, ?_, ?_⟩
  · rw [hfx, hg]
    exact div_lt_div_of_pos_left (by norm_num) hc (Int.ceil_lt_add_one x)
  · rw [hg, hf]
    exact div_le_div_of_nonneg_left (by norm_num) hx (Int.le_ceil x)
  · rw [← eq_ceil_iff_integer, hg, hf, div_eq_div_iff hc.ne' hx.ne', mul_right_inj' (by norm_num)]

end Sys2Proof.Machine
end

section
/-! Submission and the command processor's turn (30_encoding.md R103; 40_driver.md R120, R121, R126; 60_exceptions.md R254, R255). -/

namespace Sys2Proof.Machine

open Sys2Proof Sys2Proof.Laws

/-! ### Submission (R120) -/

section

variable {s : State} {w : CmdWord} {i : Instr}

theorem submit_waiting (h : s.hostWait ≠ none) : s.submit w = none := by
  rw [State.submit, if_pos (Option.isSome_iff_ne_none.2 h)]

/-- While `cmdq` is full an accepted word stalls. -/
theorem submit_full (hs : s.hostWait = none) (hw : decode w = .ok i) (hq : Config.cmdqDepth ≤ s.cmdq.length) :
    s.submit w = none := by
  simp only [State.submit, hs, hw, Option.isSome_none, Bool.false_eq_true, if_false, if_pos hq]

/-- With room in `cmdq` an accepted word is appended, and its mode says what the host is told. -/
theorem submit_accepted (hs : s.hostWait = none) (hw : decode w = .ok i) (hq : s.cmdq.length < Config.cmdqDepth) :
    s.submit w =
      let q : State := { s with nextTicket := s.nextTicket + 1#16, cmdq := s.cmdq ++ [{ ticket := s.nextTicket, word := w }] }
      if wordNb w then some { q with sync := submitRecord s.nextTicket w .accepted 0#8 :: s.sync }
      else some { q with hostWait := some s.nextTicket } := by
  simp only [State.submit, hs, hw, Option.isSome_none, Bool.false_eq_true, if_false, if_neg (Nat.not_le.2 hq),
    (carries_of_decode hw).nb, State.useTicket]

end

/-- Settles O19: the cases of a submission. -/
theorem submission : Obligations.Submission := by
  refine fun s w => ⟨submit_waiting, fun hs => ⟨fun why hw => submit_rejected hs hw, fun i hw hq => submit_full hs hw hq,
    fun i hw hq => ⟨fun hnb => ?_, fun hnb => ?_⟩⟩⟩
  · rw [submit_accepted hs hw hq, hnb]
    rfl
  · rw [submit_accepted hs hw hq, hnb]
    rfl

/-! ### The CP's turn (R121) -/

theorem step_cp {s : State} {more : List Agent} (h : s.env.turns = .cp :: more) :
    step s = cpTurn { s with env := { s.env with turns := more } } := by
  simp only [step, State.drawTurn, h]

theorem canTake_iff {s : State} : s.canTake = true ↔
    s.cp = .idle ∧ s.cpHeld = none ∧ s.cmplq.length < Config.cmplqDepth := by
  simp [State.canTake, State.cmplRoom, and_assoc]

/-- A CP that can take a command runs the one that the head of `cmdq` decodes to. -/
theorem cpTurn_command {s : State} {q : Queued} {rest : List Queued} {i : Instr} (h : s.canTake = true)
    (hq : s.cmdq = q :: rest) (hi : decode q.word = .ok i) : cpTurn s = exec i (s.take q rest) := by
  simp only [cpTurn, h, if_true, hq, hi]

/-- Settles O21: the CP can take the head of `cmdq`, which is a command. -/
theorem stepRunsCommand : Obligations.StepRunsCommand := by
  intro s q rest more i hturn hcp hheld hroom hq hi
  exact (step_cp hturn).trans (cpTurn_command (canTake_iff.2 ⟨hcp, hheld, hroom⟩) hq hi)

/-! ### Failing checks (R254) -/

theorem runSequence_of_failed {i : Instr} {check : Option Reason} {f : State → SeqEnd} {s : State} {why : Reason}
    (h : check = some why) : runSequence i check f s = s.endCommand i (.validation why) := by
  subst h; rfl

theorem runLocal_of_failed {i : Instr} {check : Option Reason} {res : Result} {f : State → State} {s : State} {why : Reason}
    (h : check = some why) : runLocal i check res f s = s.endCommand i (.validation why) := by
  subst h; rfl

theorem eq_error_of_failing {c : Except Reason Ready} {why : Reason} (h : failing c = some why) : c = .error why := by
  cases c with
  | error w => cases h; rfl
  | ok r => cases h

/-- A command whose first failing check gives `why` ends with that reason at once. -/
theorem exec_of_failed {i : Instr} {s : State} {why : Reason} (h : execCheck s i = some why) :
    exec i s = .next (s.endCommand i (.validation why)) := by
  cases i with
  | drvInit nb => exact congrArg _ (runSequence_of_failed h)
  | drvReset nb => exact congrArg _ (runSequence_of_failed ((resetCheck_eq s nb).trans h))
  | drvSetfreq nb | stpSetfreq nb | drvSetchan nb | drvSetpin nb | drvSetall nb =>
    exact congrArg _ (runSequence_of_failed ((driverCheck_eq s nb 0).trans h))
  | drvGetfreq nb =>
    simp only [execCheck] at h
    split at h
    · rename_i hp
      cases h
      simp only [exec, execDrvGetfreq, hp]
    · cases h
  | stpPins nb k p => exact congrArg _ (runLocal_of_failed ((pinsCheck_eq s nb k p).trans h))
  | stpSetsteps nb k | stpSetmicro nb k | stpSetstyle nb k | stpSetcurrent nb k | stpSetspeed nb k =>
    exact congrArg _ (runLocal_of_failed ((configCheck_eq s nb k 0).trans h))
  | stpInit nb k => exact congrArg _ (runLocal_of_failed ((stpInitCheck_eq s nb k).trans h))
  | stpOnestep nb k d =>
    simp only [exec, execStpOnestep, eq_error_of_failing ((motionCheck_failing s k nb d).trans h)]
  | stpRelease nb k =>
    simp only [exec, execStpRelease, eq_error_of_failing ((motionCheck_failing s k nb .fwd).trans h)]
  | stpStep nb k d n =>
    simp only [exec, execStpStep, eq_error_of_failing ((stepCheck_failing s k nb d n).trans h)]
  | stpStop | stpStatus | stpGetrates => cases h

/-- Only the opcodes with result fields have results that are all 0 (R103). -/
theorem zeroResult_of_no_fields {op : Byte} (h : op.toNat ∉ [0x04, 0x18, 0x19, 0x1C, 0x1D]) : zeroResult op = .none := by
  unfold zeroResult
  cases ho : opcodeOf op with
  | none => rfl
  | some o =>
    rw [opcodeOf_eq_some.1 ho] at h
    cases o with
    | drvGetfreq | stpOnestep | stpStep | stpStatus | stpGetrates => exact absurd (by decide) h
    | drvInit | drvReset | drvSetfreq | drvSetchan | drvSetpin | drvSetall | stpPins | stpSetsteps | stpSetmicro | stpSetstyle
    | stpSetcurrent | stpSetspeed | stpSetfreq | stpInit | stpRelease | stpStop => rfl

/-- Settles O22: a failing check ends its command at once (`exec_of_failed`), and such an end changes nothing else (`turnedAway`). -/
theorem failedCheck : Obligations.FailedCheck := by
  refine ⟨fun i s tk why hin h => turnedAway hin (exec_of_failed h), rfl, rfl, rfl, rfl, ⟨_, rfl, rfl, fun x => ?_, ?_⟩,
    fun _ => zeroResult_of_no_fields⟩
  · cases x <;> exact ⟨rfl, rfl⟩
  · decide

/-! ### `DRV_GETFREQ` (R126) -/

/-- A command that ends with a result and changes nothing else. -/
theorem endCommand_complete {i : Instr} {s : State} {tk : Ticket} (r : Result) (hin : s.inCommand tk) :
    NoEffect s (s.endCommand i (.complete r)) ∧
      Responded s (s.endCommand i (.complete r)) i.nb (okRecord tk i.opcode.code r) := by
  refine ⟨⟨?_, ?_, ⟨?_, ?_, ?_, ?_⟩, ?_, ⟨?_, ?_, ?_, ?_⟩⟩, ?_⟩ <;> try simp
  unfold State.endCommand
  rw [ticket_of_inCommand hin]
  exact respond_responded i.nb _ rfl rfl rfl rfl rfl Iff.rfl

/-- Settles O30: the check of the cached prescale, and the response of a command without effect. -/
theorem getFreq : Obligations.GetFreq := by
  refine fun nb s tk hin => ⟨fun hp => turnedAway hin (exec_of_failed (i := .drvGetfreq nb) (if_pos hp)), fun p hp => ?_⟩
  refine ⟨_, ?_, endCommand_complete (i := .drvGetfreq nb) _ hin⟩
  simp only [exec, execDrvGetfreq, hp, computeFreq_eq]

end Sys2Proof.Machine
end

section
/-! Sequences of the CP where no other agent has anything to do (20_memory.md R64, R69; 40_driver.md R123 to R129; 60_exceptions.md R252,
R256): such a sequence is its list carried out with the answers to come (`CarriedAlone`), and its command ends with the response of
that list (`EndsAlone`). -/

namespace Sys2Proof.Machine

open Sys2Proof

/-! ### Lists carried out whole -/

theorem play_done_iff (ans : ℕ → Answer) (l : List SeqItem) (n : ℕ) :
    (play ans n l).2 = none ↔ ∀ m, m < txnCount l → (ans (n + m)).ok = true := by
  induction l generalizing n with
  | nil => simp [play, txnCount]
  | cons x l ih =>
    cases x with
    | settle ms => exact ih n
    | txn t =>
      rw [txnCount, Nat.forall_lt_succ_left]
      cases hok : (ans n).ok with
      | false => simp [play, hok]
      | true => simp [play, hok, ih, Nat.add_assoc, Nat.add_comm 1]

/-- The coming answers, in two parts. -/
theorem answersOk_add {s u : State} {n k : ℕ} (h : ∀ m, u.answerAt m = s.answerAt (n + m)) :
    s.answersOk (n + k) ↔ s.answersOk n ∧ u.answersOk k := by
  refine ⟨fun hs => ⟨fun m hm => hs m (by omega), fun m hm => by rw [h]; exact hs _ (by omega)⟩, fun ⟨h1, h2⟩ m hm => ?_⟩
  by_cases hlt : m < n
  · exact h1 m hlt
  · have := h2 (m - n) (by omega)
    rwa [h, Nat.add_sub_cancel' (by omega)] at this

theorem answersOk_mono {s : State} {n k : ℕ} (h : s.answersOk k) (hle : n ≤ k) : s.answersOk n := fun m hm =>
  h m (hm.trans_le hle)

theorem answersOk_one {s : State} : s.answersOk 1 ↔ (s.answerAt 0).ok = true := by
  simp [State.answersOk]

/-! ### Quiet states -/

theorem State.quiet.alone {s : State} {tk : Ticket} (h : s.quiet) (hin : s.inCommand tk) : s.alone := by
  obtain ⟨hb, hh, hq, hi, -⟩ := h
  exact ⟨by simp [State.othersActive, hb, hh], cp_ne_idle_of_inCommand hin, hq, hi⟩

theorem State.quiet.lock {s : State} (h : s.quiet) : s.bus.lock = false := h.2.2.2.2

theorem State.alone.busy {s : State} (h : s.alone) : s.cp ≠ .idle := h.2.1

/-- Without a run in the background no channel set meets one, so the sticky flag stays (R260). -/
theorem State.quiet.start {s : State} (h : s.quiet) (i : Instr) : s.start i = s := by
  have hmeets : ∀ chans, s.meetsRun chans = false := by
    have hb := h.1
    simp only [State.anyBackground, State.meetsRun, List.any_eq_false] at hb ⊢
    exact fun chans st hst => by simp [hb st hst]
  simp [State.start, hmeets]

/-! ### A sequence alone on the bus -/

/-- The sequence that took `s` to `r` is the list `items`, carried out with the answers to come of `s`, and the rest is kept. -/
structure CarriedAlone (s : State) (items : List SeqItem) (r : SeqEnd) : Prop where
  ends : r.2 = (play s.answerAt 0 items).2.map Cut.bus
  grows : TraceGrows s r.1 (play s.answerAt 0 items).1
  kept : SeqKept s r.1
  drawn : ∃ a, PlayedAlone s r.1 a ∧ (r.2 = none → a.length = txnCount items)

theorem Played.carriedAlone {s : State} {l : Items} {r : SeqEnd} {a : List Answer} (h : Played s l r a) (hs : s.alone) :
    CarriedAlone s (l s.answerAt 0) r := by
  obtain ⟨hr, ha⟩ := h.quiet hs
  have hagree : Agrees s.answerAt 0 a := fun j hj => by rw [Nat.zero_add, ha.same j hj]
  obtain ⟨hends, htrace⟩ := h.plays hr s.answerAt 0 hagree
  refine ⟨hends, ?_, h.kept hr, a, ha, fun hn => h.count hn s.answerAt 0 hagree⟩
  obtain ⟨own, hown, hcp⟩ := ha.own
  have hfilter : r.1.cpTrace = own ++ s.cpTrace := by
    rw [State.cpTrace, hown, List.filter_append, List.filter_eq_self.2 hcp]
    rfl
  rw [TraceGrows, hown, List.append_cancel_right (hfilter.symm.trans htrace)]

section

variable {s : State} {items : List SeqItem} {r : SeqEnd}

/-- The sequence has gone through exactly where its list has. -/
theorem CarriedAlone.list_done_iff (h : CarriedAlone s items r) : (play s.answerAt 0 items).2 = none ↔ r.2 = none := by
  rw [h.ends, Option.map_eq_none_iff]

theorem CarriedAlone.done_iff (h : CarriedAlone s items r) : r.2 = none ↔ s.answersOk (txnCount items) := by
  rw [← h.list_done_iff, play_done_iff]
  simp [State.answersOk]

theorem CarriedAlone.alone (h : CarriedAlone s items r) : r.1.alone := by
  obtain ⟨_, ha, -⟩ := h.drawn
  exact ha.alone

theorem CarriedAlone.answers (h : CarriedAlone s items r) (hr : r.2 = none) (m : ℕ) :
    r.1.answerAt m = s.answerAt (txnCount items + m) := by
  obtain ⟨_, ha, hlen⟩ := h.drawn
  rw [ha.answers, hlen hr]

theorem CarriedAlone.now (h : CarriedAlone s items r) : s.now ≤ r.1.now := by
  obtain ⟨_, ha, -⟩ := h.drawn
  exact ha.now

/-- From a state that differs in its image alone. -/
theorem CarriedAlone.of_image {m : Image} (h : CarriedAlone { s with img := m } items r) (hs : s.alone) :
    CarriedAlone s items r := by
  obtain ⟨hends, hgrows, hkept, a, ha, hlen⟩ := h
  exact ⟨hends, hgrows, { hkept with }, a, ((image_played s m).quiet hs).2.trans ha, hlen⟩

end

/-! ### The exclusive bus (R69) -/

section

variable {s : State} {f : State → SeqEnd}

theorem exclusive_alone (h : s.alone) :
    exclusive f s = ((f (s.setLock true)).1.setLock false, (f (s.setLock true)).2) := by
  rw [exclusive, acquire_alone s h, thenSeq_none rfl]

/-- The lock itself touches neither the image, the steppers nor the clock. -/
theorem exclusive_alone_fields (h : s.alone) : (exclusive f s).1.img = (f (s.setLock true)).1.img ∧
    (exclusive f s).1.stp = (f (s.setLock true)).1.stp ∧ (exclusive f s).1.now = (f (s.setLock true)).1.now ∧
    (exclusive f s).2 = (f (s.setLock true)).2 := by
  rw [exclusive_alone h]
  exact ⟨rfl, rfl, rfl, rfl⟩

theorem CarriedAlone.exclusive {items : List SeqItem} (h : CarriedAlone (s.setLock true) items (f (s.setLock true)))
    (hs : s.alone) (hl : s.bus.lock = false) : CarriedAlone s items (exclusive f s) := by
  obtain ⟨hends, hgrows, hkept, a, ha, hlen⟩ := h
  rw [exclusive_alone hs]
  exact ⟨hends, hgrows, { hkept with lock := hl.symm }, a,
    ⟨ha.alone, ha.answers, ha.same, ha.now, ha.done, ha.last, ha.cmplq, ha.cmdq, ha.nextTicket, ha.sync, ha.hostWait, ha.popped,
      ha.host, ha.own⟩, hlen⟩

end

/-! ### The end of a command -/

/-- The command `i` that started in `s` with ticket `tk` ends in `t` after its sequence `r`, which was the list `items`. -/
structure EndsAlone (i : Instr) (s : State) (tk : Ticket) (items : List SeqItem) (res : Result) (r : SeqEnd) (t : State) :
    Prop where
  grows : TraceGrows s t (play s.answerAt 0 items).1
  img : t.img = r.1.img
  stp : t.stp = r.1.stp
  now : t.now = r.1.now
  freed : BusFreed t
  mixedMode : t.mixedMode = s.mixedMode
  host : HostSideKept s t
  responded : Responded s t i.nb (sequenceRecord tk i.opcode.code res (play s.answerAt 0 items).2)

/-- The end of a sequence is the end of its command, with the record of the list (R103). -/
theorem finish_eq_endCommand (u : State) (i : Instr) (res : Result) (err : Option BusError) : ∃ e,
    u.finish i res (err.map Cut.bus) = u.endCommand i e ∧ ∀ tk op, recordOf tk op e = sequenceRecord tk op res err := by
  cases err with
  | none => exact ⟨.complete res, rfl, fun _ _ => rfl⟩
  | some e => exact ⟨.bus e, rfl, fun _ _ => rfl⟩

section

variable {i : Instr} {s : State} {tk : Ticket} {items : List SeqItem}

theorem CarriedAlone.finish {r : SeqEnd} (h : CarriedAlone s items r) (res : Result) (hin : s.inCommand tk)
    (hl : s.bus.lock = false) : EndsAlone i s tk items res r (r.1.finish i res r.2) := by
  obtain ⟨_, ha, -⟩ := h.drawn
  obtain ⟨e, hfinish, hrecord⟩ := finish_eq_endCommand r.1 i res (play s.answerAt 0 items).2
  rw [h.ends, hfinish]
  refine
    { grows := (endCommand_trace ..).trans h.grows, img := endCommand_img .., stp := endCommand_stp ..
      now := endCommand_now .., freed := ?_, mixedMode := (endCommand_mixedMode ..).trans h.kept.mixedMode
      host := ⟨(endCommand_cmdq ..).trans ha.cmdq, (endCommand_nextTicket ..).trans ha.nextTicket,
        (endCommand_popped ..).trans ha.popped, (endCommand_host ..).trans ha.host⟩
      responded := ?_ }
  · obtain ⟨-, -, hreqq, hinflight⟩ := ha.alone
    rw [BusFreed, endCommand_bus]
    exact ⟨hreqq, hinflight, h.kept.lock.trans hl⟩
  · rw [← hrecord, State.endCommand, h.kept.ticket, ticket_of_inCommand hin]
    exact respond_responded i.nb _ ha.sync ha.hostWait ha.cmplq h.kept.cpHeld h.kept.ticket h.kept.idle

/-- A command with a sequence that has passed its checks. -/
theorem runSequence_alone {check : Option Reason} {f : State → SeqEnd} (hin : s.inCommand tk) (hq : s.quiet) (hk : check = none)
    (h : CarriedAlone s items (f s)) : EndsAlone i s tk items .none (f s) (runSequence i check f s) := by
  rw [runSequence_of_pass hk, hq.start]
  exact h.finish .none hin hq.lock

end

/-! ### Image and time, transaction by transaction -/

/-- The course of a sequence alone on the bus: the steppers stay; the image becomes `m` once the next `n` transactions have succeeded,
whatever fails later; and a whole sequence takes at least `ms` milliseconds. -/
structure Course (s : State) (n : ℕ) (m : Image) (ms : ℚ) (r : SeqEnd) : Prop where
  stp : r.1.stp = s.stp
  written : s.answersOk n → r.1.img = m
  unwritten : ¬ s.answersOk n → r.1.img = s.img
  time : r.2 = none → s.now + ms ≤ r.1.now

/-- Nothing is to be written any more. -/
theorem Course.of_same {s : State} {m : Image} {ms : ℚ} {r : SeqEnd} (hs : r.1.stp = s.stp) (hi : r.1.img = m)
    (ht : r.2 = none → s.now + ms ≤ r.1.now) : Course s 0 m ms r :=
  ⟨hs, fun _ => hi, fun h => absurd (fun _ hm => absurd hm (Nat.not_lt_zero _)) h, ht⟩

/-- A sequence that leaves the image as it is need not count. -/
theorem Course.steady {s : State} {n : ℕ} {m : Image} {ms : ℚ} {r : SeqEnd} (hm : s.img = m) (h : Course s n m ms r) :
    Course s 0 m ms r :=
  .of_same h.stp (by by_cases e : s.answersOk n; exacts [h.written e, (h.unwritten e).trans hm]) h.time

/-- The write of the image. -/
theorem Course.image {s : State} {m : Image} {ms : ℚ} {r : SeqEnd} (h : Course { s with img := m } 0 m ms r) : Course s 0 m ms r :=
  .of_same h.stp (h.written nofun) h.time

section

variable {s : State} {n : ℕ} {m : Image} {ms : ℚ} {t : Txn}

/-- A sequence that begins with the transaction `t` and goes on with `r` where it succeeds. -/
def State.txnThen (s : State) (t : Txn) (r : SeqEnd) : SeqEnd :=
  if (s.answerAt 0).ok then r else (s.afterTxn t, some (.bus (busErrorOf t)))

theorem thenSeq_transactSeq_alone (t : Txn) (f : State → SeqEnd) (h : s.alone) :
    thenSeq (s.transactSeq t) f = s.txnThen t (f (s.afterTxn t)) := by
  rw [State.transactSeq, transact_alone s t _ h, State.txnThen]
  cases (s.answerAt 0).ok <;> rfl

theorem memRead_alone (reg : Byte) (f : Byte → State → SeqEnd) (h : s.alone) : s.memRead reg f =
    s.txnThen (.read Config.devAddr reg) (f (s.answerAt 0).byte (s.afterTxn (.read Config.devAddr reg))) :=
  transact_alone s _ _ h

theorem Course.txnThen {r : SeqEnd} (h : Course (s.afterTxn t) n m ms r) : Course s (n + 1) m ms (s.txnThen t r) := by
  have hsplit : s.answersOk (n + 1) ↔ (s.answerAt 0).ok = true ∧ (s.afterTxn t).answersOk n := by
    rw [Nat.add_comm, answersOk_add (u := s.afterTxn t) fun m => by rw [afterTxn_answerAt, Nat.add_comm], answersOk_one]
  cases hok : (s.answerAt 0).ok with
  | true =>
    simp only [State.txnThen, hok, if_true]
    refine ⟨h.stp.trans (afterTxn_stp s t), fun ha => h.written (hsplit.1 ha).2, fun ha => ?_, fun hr => ?_⟩
    · exact (h.unwritten fun hn => ha (hsplit.2 ⟨hok, hn⟩)).trans (afterTxn_img s t)
    · linarith [h.time hr, (afterTxn_now s t).1]
  | false =>
    simp only [State.txnThen, hok, Bool.false_eq_true, if_false]
    refine ⟨afterTxn_stp s t, fun ha => ?_, fun _ => afterTxn_img s t, nofun⟩
    rw [(hsplit.1 ha).1] at hok
    cases hok

/-- A transaction, and then the rest. -/
theorem Course.txn {f : State → SeqEnd} (hs : s.alone)
    (h : ∀ u : State, u.alone → u.img = s.img → u.bus.lastDone = u.now → Course u n m ms (f u)) :
    Course s (n + 1) m ms (thenSeq (s.transactSeq t) f) := by
  rw [thenSeq_transactSeq_alone t f hs]
  exact (h _ (afterTxn_alone s t hs) (afterTxn_img s t) (afterTxn_now s t).2).txnThen

/-- A read, and then the rest with the byte read. -/
theorem Course.read {reg : Byte} {f : Byte → State → SeqEnd} (hs : s.alone)
    (h : ∀ (v : Byte) (u : State), u.alone → u.img = s.img → Course u n m ms (f v u)) :
    Course s (n + 1) m ms (s.memRead reg f) := by
  rw [memRead_alone reg f hs]
  exact (h _ _ (afterTxn_alone s _ hs) (afterTxn_img s _)).txnThen

/-- The last transaction. -/
theorem Course.last (hs : s.alone) (hm : s.img = m) : Course s 0 m 0 (s.transactSeq t) := by
  obtain ⟨_, hp⟩ := transactSeq_played s t hs.busy
  obtain ⟨hi, hst⟩ := transactSeq_alone s t hs
  exact .of_same hst (hi.trans hm) fun _ => by simpa using (hp.carriedAlone hs).now

/-- A settle after a transaction, and then the rest (R13). -/
theorem Course.settle {k : ℕ} {ms' : ℚ} {f : State → SeqEnd} (hs : s.alone) (hd : s.bus.lastDone = s.now) (hms : k + ms = ms')
    (h : ∀ u : State, u.alone → u.img = s.img → Course u n m ms (f u)) : Course s n m ms' (thenSeq (s.settle k) f) := by
  obtain ⟨_, hp⟩ := settle_played s k hs.busy
  have hc := hp.carriedAlone hs
  have hdone : (s.settle k).2 = none := hc.ends
  obtain ⟨hi, hst, ht, -⟩ := settle_alone s k hs
  have hcourse := h _ hc.alone hi
  have hans : (s.settle k).1.answersOk n ↔ s.answersOk n := by
    simp only [State.answersOk, hc.answers hdone, txnCount, Nat.zero_add]
  rw [thenSeq_none hdone]
  refine ⟨hcourse.stp.trans hst, fun ha => hcourse.written (hans.2 ha), fun ha => (hcourse.unwritten (mt hans.1 ha)).trans hi,
    fun hr => ?_⟩
  linarith [hcourse.time hr]

theorem Course.exclusive {f : State → SeqEnd} (h : Course (s.setLock true) n m ms (f (s.setLock true))) (hs : s.alone) :
    Course s n m ms (exclusive f s) := by
  rw [exclusive_alone hs]
  exact ⟨h.stp, h.written, h.unwritten, h.time⟩

end

end Sys2Proof.Machine
end

section
/-! The driver's commands that write registers (40_driver.md R123 to R125, R127 to R129; 41_stepper_config.md R167), whatever the transport
answers, where no other agent has anything to do. -/

namespace Sys2Proof.Machine

open Sys2Proof

theorem driverCheck_pass {s : State} (h : s.img.initialised = true) : driverCheck s = none := by simp [driverCheck, h]

/-! ### `DRV_SETCHAN`, `DRV_SETPIN` and `DRV_SETALL` (R127 to R129) -/

theorem setChannel_written (m : Image) (c : Chan) (on off : Tick) :
    ChannelsWritten m (m.setChannel c on off) (fun x => x = c) on off := by
  refine ⟨rfl, rfl, rfl, fun x => ?_⟩
  by_cases h : x = c
  · subst h; simp
  · simp [h, onTick_setChannel_of_ne, offTick_setChannel_of_ne]

theorem setAllChannels_written (m : Image) (on off : Tick) :
    ChannelsWritten m (m.setAllChannels on off) (fun _ => true) on off :=
  ⟨rfl, rfl, rfl, fun _ => by simp⟩

/-- Both channel commands write the four bytes of their channel. -/
theorem channelCommand_exec {i : Instr} {nb : Bool} {c : Chan} {on off : Tick} (s : State)
    (h : i = .drvSetchan nb c on off ∨ (i = .drvSetpin nb c true ∧ on = 4096#13 ∧ off = 0#13) ∨
      (i = .drvSetpin nb c false ∧ on = 0#13 ∧ off = 4096#13)) :
    exec i s = .next (runSequence i (driverCheck s) (pinWrite c on off) s) ∧ i.nb = nb := by
  rcases h with rfl | ⟨rfl, rfl, rfl⟩ | ⟨rfl, rfl, rfl⟩ <;> exact ⟨rfl, rfl⟩

/-- Settles O36: the four byte writes of the channel as a list, and what `PinWrite` does to the image. -/
theorem setChannel : Obligations.SetChannel := by
  intro i nb c on off s tk hi hin hinit hq
  obtain ⟨hexec, rfl⟩ := channelCommand_exec s hi
  obtain ⟨_, hp⟩ := pinWrite_played c on off s (cp_ne_idle_of_inCommand hin)
  have hc := hp.carriedAlone (hq.alone hin)
  have he := runSequence_alone (i := i) hin hq (driverCheck_pass hinit) hc
  obtain ⟨hstp, hdone, hcut⟩ := pinWrite_alone c on off s (hq.alone hin)
  refine ⟨_, hexec, he.grows, he.stp.trans hstp, fun h => ?_, fun h => ?_, he.freed, he.mixedMode, he.host, he.responded⟩
  · rw [he.img, hdone (hc.list_done_iff.1 h)]
    exact setChannel_written ..
  · rw [he.img, hcut (mt hc.list_done_iff.2 h)]

/-- Settles O37: the four byte writes of the group as a list, and what `AllWrite` does to the image. -/
theorem setAll : Obligations.SetAll := by
  intro nb on off s tk hin hinit hq
  obtain ⟨_, hp⟩ := allWrite_played on off s (cp_ne_idle_of_inCommand hin)
  have hc := hp.carriedAlone (hq.alone hin)
  have he := runSequence_alone (i := .drvSetall nb on off) hin hq (driverCheck_pass hinit) hc
  obtain ⟨hstp, hdone, hcut⟩ := allWrite_alone on off s (hq.alone hin)
  refine ⟨_, rfl, he.grows, he.stp.trans hstp, fun h => ?_, fun h => ?_, he.freed, he.mixedMode, he.host, he.responded⟩
  · rw [he.img, hdone (hc.list_done_iff.1 h)]
    exact setAllChannels_written ..
  · rw [he.img, hcut (mt hc.list_done_iff.2 h)]

/-! ### The frequency commands (R125, R167) -/

theorem freqSequence_course {s : State} (p : Byte) (h : s.alone) :
    Course s 3 { s.img with prescale := some p } 5 (freqSequence p s) := by
  refine Course.read h fun old u hu hui => .txn hu fun v hv hvi _ => .txn hv fun w hw hwi _ => ?_
  rw [← hui, ← hvi, ← hwi]
  exact .image (.steady rfl (.txn hw fun x hx hxi hxd => .settle hx hxd (by norm_num [Config.settleMs]) fun y hy hyi =>
    .last hy (hyi.trans hxi)))

/-- Settles O35: both commands run `freqSequence` under the lock. -/
theorem setFrequency : Obligations.SetFrequency := by
  intro i nb rate k s tk hi hin hinit hq
  have hs := hq.alone hin
  obtain ⟨hexec, rfl⟩ : exec i s = .next (runSequence i (driverCheck s)
      (exclusive (freqSequence (BitVec.ofNat 8 (computePrescale rate)))) s) ∧ i.nb = nb := by
    rcases hi with rfl | rfl <;> exact ⟨rfl, rfl⟩
  obtain ⟨_, hp⟩ := freqSequence_played (BitVec.ofNat 8 (computePrescale rate)) (s.setLock true) hs.busy
  have hc := (hp.carriedAlone hs).exclusive hs hq.lock
  have he := runSequence_alone (i := i) hin hq (driverCheck_pass hinit) hc
  have hcourse := (freqSequence_course (s := s.setLock true) (BitVec.ofNat 8 (computePrescale rate)) hs).exclusive (s := s) hs
  refine ⟨_, hexec, he.grows, he.stp.trans hcourse.stp, fun h => he.img.trans (hcourse.written h),
    fun h => he.img.trans (hcourse.unwritten h), fun h => ?_, he.freed, he.mixedMode, he.host, he.responded⟩
  rw [he.now]
  exact hcourse.time (hc.list_done_iff.1 h)

/-! ### `DRV_RESET` (R124) -/

theorem resetSequence_alone {s : State} (h : s.alone) :
    ((s.answerAt 0).ok = true → (resetSequence s).1.img = s.img.forget ∧
      ∀ i, (resetSequence s).1.stepper i = { s.stepper i with cache := emptyCache }) ∧
    ((s.answerAt 0).ok = false → (resetSequence s).1.img = s.img ∧ (resetSequence s).1.stp = s.stp) := by
  rw [resetSequence, State.busSend, thenSeq_transactSeq_alone _ _ h]
  refine ⟨fun hok => ?_, fun hok => ?_⟩
  · rw [State.txnThen, if_pos hok]
    refine ⟨congrArg Image.forget (afterTxn_img s _), fun i => ?_⟩
    rw [stepper_mapStp, ← stepper_of_stp (afterTxn_stp s (.send Config.resetAddr Config.swrstByte))]
    rfl
  · rw [State.txnThen, if_neg (by simp [hok])]
    exact ⟨afterTxn_img s _, afterTxn_stp s _⟩

theorem resetCheck_pass {s : State} (ho : s.img.busOpen = true) (hr : s.anyRunning = false) : resetCheck s = none := by
  simp [resetCheck, ho, hr]

/-- Settles O34: the broadcast under the lock, and what `resetSequence` does where it succeeds and where not. -/
theorem driverReset : Obligations.DriverReset := by
  intro nb s tk hin ho hr hq
  have hs := hq.alone hin
  obtain ⟨_, hp⟩ := resetSequence_played (s.setLock true) hs.busy
  have hc := (hp.carriedAlone hs).exclusive hs hq.lock
  have he := runSequence_alone (i := .drvReset nb) hin hq (resetCheck_pass ho hr) hc
  obtain ⟨hok, hfail⟩ := resetSequence_alone (s := s.setLock true) hs
  obtain ⟨himg, hstp, -, -⟩ := exclusive_alone_fields (f := resetSequence) hs
  refine ⟨_, rfl, he.grows, ?_, fun h => ?_, fun h => ?_, he.freed, he.mixedMode, he.host, he.responded⟩
  · rw [he.img, himg]
    cases h : (s.answerAt 0).ok with
    | true => rw [(hok h).1]; rfl
    | false => rw [(hfail h).1]; rfl
  · obtain ⟨hi, hst⟩ := hok h
    rw [he.img, himg, hi]
    exact ⟨rfl, rfl, fun c => ⟨onTick_forget _ c, offTick_forget _ c⟩,
      fun i => (stepper_of_stp (he.stp.trans hstp) i).trans (hst i)⟩
  · obtain ⟨hi, hst⟩ := hfail h
    exact ⟨(he.img.trans himg).trans hi, (he.stp.trans hstp).trans hst⟩

/-! ### `DRV_INIT` (R123) -/

/-- `DRV_INIT` after the group writes. -/
def configureChip (s : State) : SeqEnd :=
  thenSeq (s.memWrite Config.regMode2 Config.bitOutdrv) (fun s =>
  thenSeq (s.memWrite Config.regMode1 Config.bitAi) (fun s =>
  thenSeq (s.settle Config.settleMs) (fun s => s.memRead Config.regMode1 (fun m s =>
  thenSeq (s.memWrite Config.regMode1 (m &&& ~~~Config.bitSleep)) (fun s =>
  thenSeq (s.settle Config.settleMs) (fun s =>
  ({ s with img := { s.img with initialised := true } }, none)))))))

theorem initSequence_eq (s : State) : initSequence s =
    thenSeq s.openBus (fun s => thenSeq (allWrite 0#13 0#13 { s with img := { s.img with busOpen := true } }) configureChip) :=
  rfl

/-- Four transactions, and two settles after transactions. -/
theorem configureChip_course {s : State} (h : s.alone) : Course s 4 { s.img with initialised := true } 10 (configureChip s) := by
  refine .txn h fun t ht hti _ => .txn ht fun u hu hui hud => .settle (ms := 5) hu hud (by norm_num [Config.settleMs]) fun v hv hvi =>
    .read hv fun m w hw hwi => .txn hw fun x hx hxi hxd => .settle (ms := 0) hx hxd (by norm_num [Config.settleMs]) fun y hy hyi => ?_
  rw [← hti, ← hui, ← hvi, ← hwi, ← hxi, ← hyi]
  exact .of_same rfl rfl (by simp)

/-- What is known of the image once the bus is open. -/
def Image.opened (m : Image) : Image := { m with busOpen := true }

/-- What `DRV_INIT` has made of the image of `s`, by how far it has got. -/
inductive InitImage (s : State) (m : Image) : Prop
  | closed (h0 : (s.answerAt 0).ok = false) (eq : m = s.img)
  | opened (h0 : (s.answerAt 0).ok = true) (h5 : ¬ s.answersOk 5) (eq : m = s.img.opened)
  | cleared (h5 : s.answersOk 5) (h9 : ¬ s.answersOk 9) (eq : m = s.img.opened.setAllChannels 0#13 0#13)
  | whole (h9 : s.answersOk 9) (eq : m = { s.img.opened.setAllChannels 0#13 0#13 with initialised := true })

/-- `DRV_INIT` once the bus is open: the group writes, and the rest. -/
theorem clearAndConfigure_alone {u : State} (h : u.alone) :
    let r := thenSeq (allWrite 0#13 0#13 u) configureChip
    r.1.stp = u.stp ∧ (¬ u.answersOk 4 → r.1.img = u.img) ∧
    (u.answersOk 4 → ¬ u.answersOk 8 → r.1.img = u.img.setAllChannels 0#13 0#13) ∧
    (u.answersOk 8 → r.1.img = { u.img.setAllChannels 0#13 0#13 with initialised := true }) ∧
    (r.2 = none → u.now + 10 ≤ r.1.now) := by
  obtain ⟨_, hp⟩ := allWrite_played 0#13 0#13 u h.busy
  have hc := hp.carriedAlone h
  obtain ⟨hst, hdone, hcut⟩ := allWrite_alone 0#13 0#13 u h
  have h4 : (allWrite 0#13 0#13 u).2 = none ↔ u.answersOk 4 := hc.done_iff
  by_cases hr : (allWrite 0#13 0#13 u).2 = none
  · rw [thenSeq_none hr]
    have hcourse := configureChip_course hc.alone
    have h8 : u.answersOk 8 ↔ (allWrite 0#13 0#13 u).1.answersOk 4 :=
      (answersOk_add (n := 4) (k := 4) (hc.answers hr)).trans (and_iff_right (h4.1 hr))
    refine ⟨hcourse.stp.trans hst, fun hn => absurd (h4.1 hr) hn, fun _ hn => ?_, fun h => ?_, fun he => ?_⟩
    · exact (hcourse.unwritten (mt h8.2 hn)).trans (hdone hr)
    · rw [hcourse.written (h8.1 h), hdone hr]
    · linarith [hcourse.time he, hc.now]
  · rw [thenSeq_some hr]
    exact ⟨hst, fun _ => hcut hr, fun h => absurd (h4.2 h) hr, fun h => absurd (h4.2 (answersOk_mono h (by omega))) hr,
      fun he => absurd he hr⟩

/-- The course of `DRV_INIT`: the open, and what follows it. -/
theorem initSequence_alone {s : State} (h : s.alone) : (initSequence s).1.stp = s.stp ∧ InitImage s (initSequence s).1.img ∧
    ((initSequence s).2 = none → s.now + 10 ≤ (initSequence s).1.now) := by
  rw [initSequence_eq, State.openBus, thenSeq_transactSeq_alone _ _ h]
  cases h0 : (s.answerAt 0).ok with
  | false =>
    rw [State.txnThen, if_neg (by simp [h0])]
    exact ⟨afterTxn_stp s _, .closed h0 (afterTxn_img s _), nofun⟩
  | true =>
    rw [State.txnThen, if_pos h0, afterTxn_img]
    obtain ⟨hst, hopened, hcleared, hwhole, htime⟩ :=
      clearAndConfigure_alone (u := { s.afterTxn (.busOpen Config.busId) with img := s.img.opened }) (afterTxn_alone s _ h)
    have hans : ∀ k, s.answersOk (1 + k) ↔ (s.afterTxn (.busOpen Config.busId)).answersOk k := fun k => by
      rw [answersOk_add fun m => by rw [afterTxn_answerAt, Nat.add_comm], answersOk_one]
      exact and_iff_right h0
    refine ⟨hst.trans (afterTxn_stp s _), ?_, fun he => (add_le_add_left (afterTxn_now s _).1 10).trans (htime he)⟩
    by_cases h5 : s.answersOk 5
    · by_cases h9 : s.answersOk 9
      · exact .whole h9 (hwhole ((hans 8).1 h9))
      · exact .cleared h5 h9 (hcleared ((hans 4).1 h5) (mt (hans 8).2 h9))
    · exact .opened h0 h5 (hopened (mt (hans 4).2 h5))

/-- The fields of the image after `DRV_INIT`. -/
theorem InitImage.fields {s : State} {m : Image} (h : InitImage s m) (hi : s.img.initialised = false) :
    m.busOpen = (s.img.busOpen || (s.answerAt 0).ok) ∧ (m.initialised = true ↔ s.answersOk 9) ∧
    m.prescale = s.img.prescale ∧ (s.answersOk 5 → ∀ c, m.onTick c = some 0#13 ∧ m.offTick c = some 0#13) ∧
    (¬ s.answersOk 5 → ∀ c, m.onTick c = s.img.onTick c ∧ m.offTick c = s.img.offTick c) := by
  have h50 : s.answersOk 5 → (s.answerAt 0).ok = true := fun h5 => h5 0 (by omega)
  have h95 : s.answersOk 9 → s.answersOk 5 := fun h9 => answersOk_mono h9 (by omega)
  cases h with
  | closed h0 eq =>
    subst eq
    have h5 : ¬ s.answersOk 5 := fun h5 => by rw [h50 h5] at h0; cases h0
    exact ⟨by simp [h0], by simp [hi, mt h95 h5], rfl, fun h => absurd h h5, fun _ _ => ⟨rfl, rfl⟩⟩
  | opened h0 h5 eq =>
    subst eq
    exact ⟨by simp [h0, Image.opened], by simp [Image.opened, hi, mt h95 h5], rfl, fun h => absurd h h5, fun _ _ => ⟨rfl, rfl⟩⟩
  | cleared h5 h9 eq =>
    subst eq
    exact ⟨by simp [h50 h5, Image.opened], by simp [Image.opened, hi, h9], rfl, fun _ _ => by simp, fun h => absurd h5 h⟩
  | whole h9 eq =>
    subst eq
    refine ⟨by simp [h50 (h95 h9), Image.opened], by simp [h9], rfl, fun _ c => ?_, fun h => absurd (h95 h9) h⟩
    exact ⟨onTick_setAllChannels s.img.opened c 0#13 0#13, offTick_setAllChannels s.img.opened c 0#13 0#13⟩

/-- The initialised flag falls at the start of `DRV_INIT`. -/
def State.uninitialised (s : State) : State := { s with img := { s.img with initialised := false } }

theorem exec_drvInit (nb : Bool) (s : State) : exec (.drvInit nb) s =
    .next (runSequence (.drvInit nb) (initCheck s) (fun s => exclusive initSequence s.uninitialised) s) := rfl

/-- Settles O33: the list of the sequence under the lock, and the course of `initSequence`. -/
theorem driverInit : Obligations.DriverInit := by
  intro nb s tk hin hr hq
  have hs : s.uninitialised.alone := hq.alone hin
  obtain ⟨_, hp⟩ := initSequence_played (s.uninitialised.setLock true) hs.busy
  have hc : CarriedAlone s (initItems (s.answerAt 7).byte) (exclusive initSequence s.uninitialised) :=
    ((hp.carriedAlone hs).exclusive hs hq.lock).of_image (hq.alone hin)
  have he := runSequence_alone (i := .drvInit nb) (f := fun s => exclusive initSequence s.uninitialised) hin hq
    (show initCheck s = none by simp [initCheck, hr]) hc
  obtain ⟨himg, hstp, hnow, hcut⟩ := exclusive_alone_fields (f := initSequence) hs
  obtain ⟨hist, himage, htime⟩ := initSequence_alone (s := s.uninitialised.setLock true) hs
  obtain ⟨hopen, hinit, hpre, hticks, hkeep⟩ := himage.fields rfl
  have h9 : (play s.answerAt 0 (initItems (s.answerAt 7).byte)).2 = none ↔ s.answersOk 9 :=
    hc.list_done_iff.trans hc.done_iff
  have hi := he.img.trans himg
  refine ⟨_, exec_drvInit nb s, he.grows, (he.stp.trans hstp).trans hist, ?_, ?_, ?_, fun h => ?_, fun h => ?_, fun h => ?_, he.freed,
    he.mixedMode, he.host, he.responded⟩
  · rw [hi]; exact hopen
  · rw [hi, Bool.eq_iff_iff, Option.isNone_iff_eq_none, h9]; exact hinit
  · rw [hi]; exact hpre
  · rw [hi]; exact hticks h
  · rw [hi]; exact hkeep h
  · rw [he.now, hnow]
    exact htime (hcut.symm.trans (hc.list_done_iff.1 h))

end Sys2Proof.Machine
end

section
/-! The speed-to-timing converter (41_stepper_config.md R169, R170, R174). -/

namespace Sys2Proof.Machine

open Sys2Proof

/-! ### What the converter answers -/

section

variable {c : StepperConfig}

/-- The converter needs a style and a target (R169). -/
theorem recompute_of_unset (h : c.style = none ∨ c.speedUnit = none ∨ c.speedValue = none) : recompute c = (none, none) := by
  unfold recompute
  split
  · rename_i hs hu hb
    simp [hs, hu, hb] at h
  · rfl

/-- With a style and a target, the converter needs the style's multiplier alone. -/
theorem recompute_eq {st : Style} {u : SpeedUnit} {b : W32} {m : ℕ} (hs : c.style = some st) (hu : c.speedUnit = some u)
    (hb : c.speedValue = some b) (hm : microMult st c.ms = some m) :
    recompute c = ratesOf u (q16 b) c.spr ((halfMult st * m : ℕ) : ℚ) := by
  simp only [recompute, hs, hu, hb, hm]

/-- Where there are rates, the converter had every input. -/
theorem recompute_inputs {f g : ℚ} (h : recompute c = (some f, some g)) : ∃ st u b m, c.style = some st ∧
    c.speedUnit = some u ∧ c.speedValue = some b ∧ microMult st c.ms = some m ∧
    ratesOf u (q16 b) c.spr ((halfMult st * m : ℕ) : ℚ) = (some f, some g) := by
  unfold recompute at h
  split at h
  · rename_i st u b hs hu hb
    cases hm : microMult st c.ms with
    | none => rw [hm] at h; cases h
    | some m =>
      rw [hm] at h
      exact ⟨st, u, b, m, hs, hu, hb, hm, h⟩
  · cases h

theorem recompute_of_no_micro (hs : c.style = some .microstep) (hm : c.ms = none) : recompute c = (none, none) := by
  unfold recompute
  split
  · rename_i st u b hst _ _
    cases hs.symm.trans hst
    rw [hm]
    rfl
  · rfl

theorem recompute_of_no_spr (hu : c.speedUnit = some .rpm) (hn : c.spr = none) : recompute c = (none, none) := by
  unfold recompute
  split
  · rename_i st u b _ hunit _
    cases hu.symm.trans hunit
    cases microMult st c.ms with
    | none => rfl
    | some m => rw [hn]; rfl
  · rfl

end

/-- Settles O10: the inputs that are missing, and each style's multiplier with the three units. -/
theorem converterTable : Obligations.ConverterTable := by
  intro c
  refine ⟨recompute_of_unset, recompute_of_no_micro, recompute_of_no_spr, ?_⟩
  intro st b m hs hb hms v K
  obtain ⟨M, hM, hK⟩ : ∃ M, microMult st c.ms = some M ∧ ((halfMult st * M : ℕ) : ℚ) = K := by
    cases st with
    | single | double => exact ⟨1, rfl, Nat.cast_one⟩
    | interleaved => exact ⟨1, rfl, by simp [K, halfMult]⟩
    | microstep =>
      rcases hms with h | ⟨u, hu, rfl⟩
      · exact absurd rfl h
      · refine ⟨2 * u.count, by rw [hu]; rfl, ?_⟩
        simp only [K, halfMult]
        push_cast
        ring
  have hrates : ∀ u, c.speedUnit = some u → recompute c = ratesOf u v c.spr K := fun u hu =>
    (recompute_eq hs hu hb hM).trans (by rw [hK]; rfl)
  refine ⟨fun n hu hn => ?_, hrates .sps, hrates .pps⟩
  rw [hrates .rpm hu, hn, ratesOf, div_mul_eq_mul_div (v * n.toNat)]

/-- Settles O11: with `K = H*M` positive, the conversion of each unit is undone. -/
theorem converterRoundTrip : Obligations.ConverterRoundTrip := by
  intro c st b f g hs hb h v
  obtain ⟨st', u, b', M, hs', hu, hb', hM, hrates⟩ := recompute_inputs h
  cases hs.symm.trans hs'
  cases hb.symm.trans hb'
  refine ⟨fun n hrpm hn hn0 => ?_, fun hsps => ?_, fun hpps => ?_⟩
  · cases hu.symm.trans hrpm
    rw [hn] at hrates
    cases hrates
    have hn' : (n.toNat : ℚ) ≠ 0 := by exact_mod_cast (show n.toNat ≠ 0 by bv_omega)
    refine ⟨by field_simp; rfl, fun m hm => ?_⟩
    cases hM.symm.trans hm
    have hK : (halfMult st : ℚ) * M ≠ 0 := by exact_mod_cast (microMult_bounds hM).1.ne'
    push_cast
    rw [mul_assoc (n.toNat : ℚ), div_mul_eq_mul_div, div_mul_cancel₀ _ (by norm_num), mul_assoc,
      mul_div_cancel_right₀ _ (mul_ne_zero hn' hK)]
    rfl
  · cases hu.symm.trans hsps
    cases hrates
    rfl
  · cases hu.symm.trans hpps
    cases hrates
    rfl

end Sys2Proof.Machine
end

section
/-! The operands of the configuration commands (30_encoding.md R94 to R97; 41_stepper_config.md R161 to R166): what each setter's
word is read as. -/

namespace Sys2Proof.Laws

open Sys2Proof

/-! ### The operands -/

theorem readMicro_eq (b : W32) : readMicro b =
    if b.toNat = 8 then .ok .eight else if b.toNat = 16 then .ok .sixteen else .error .badMicrosteps := by
  simp [readMicro, ← BitVec.toNat_inj]

/-- Only 0 to 3 are styles. -/
theorem readStyle_of_gt {b : W32} (h : 3 < b.toNat) : readStyle b = .error .badStyle := by
  rw [readStyle, if_neg (by bv_omega), if_neg (by bv_omega), if_neg (by bv_omega), if_neg (by bv_omega)]

/-- Exactly one of the unit bits must be set. -/
theorem readUnit_eq (a : BitVec 16) : readUnit a =
    if a.toNat ≠ 1 ∧ a.toNat ≠ 2 ∧ a.toNat ≠ 4 then .error .badSpeedUnit
    else .ok (if a.toNat = 1 then .pps else if a.toNat = 2 then .rpm else .sps) := by
  have ha : a = 1#16 ∨ a = 2#16 ∨ a = 4#16 ∨ (a.toNat ≠ 1 ∧ a.toNat ≠ 2 ∧ a.toNat ≠ 4) := by bv_omega
  rcases ha with rfl | rfl | rfl | ha
  · rfl
  · rfl
  · rfl
  · rw [readUnit, if_neg (by bv_omega), if_neg (by bv_omega), if_neg (by bv_omega), if_pos ha]

/-- A four-bit field of the pin operand is a hexadecimal digit of it. -/
theorem extractLsb'_digit (b : W32) (j : ℕ) : b.extractLsb' (4 * j) 4 = BitVec.ofNat 4 (b.toNat / 16 ^ j) := by
  rw [BitVec.extractLsb', Nat.shiftRight_eq_div_pow, pow_mul]
  rfl

/-- The channels of the pin operand are its digits, the lowest first (R95). -/
theorem unpackPins_eq_digits (b : W32) : unpackPins b =
    { pwma := .ofNat 4 (b.toNat / 16 ^ 0), a1 := .ofNat 4 (b.toNat / 16 ^ 1), a2 := .ofNat 4 (b.toNat / 16 ^ 2),
      pwmb := .ofNat 4 (b.toNat / 16 ^ 3), b1 := .ofNat 4 (b.toNat / 16 ^ 4), b2 := .ofNat 4 (b.toNat / 16 ^ 5) } := by
  simp only [← extractLsb'_digit]
  rfl

theorem pinsDistinct_iff_nodup (p : Pins) : pinsDistinct p = true ↔ p.toList.Nodup := by
  simp [pinsDistinct, RoleMap.toList, and_assoc]

/-! ### The words of the setters -/

/-- A must-be-zero field of a built word that is set ends the decoding. -/
theorem decode_buildWord_reservedBits {op : Opcode} {nb : Bool} {t : BitVec 4} {a : BitVec 16} {b : W32}
    (h : reservedSet op (buildWord op.code nb t a b) ≠ false) :
    decode (buildWord op.code nb t a b) = .error .reservedBits :=
  decode_reservedBits (by simp) (Bool.eq_true_of_not_eq_false h)

section

variable (nb : Bool) (k : StepperId) (a : BitVec 16) (b : W32)

theorem decode_setsteps : decode (buildWord 0x11#8 nb (stepperTgt k) 0#16 b) =
    if b.toNat = 0 ∨ 65535 < b.toNat then .error .badSteps else .ok (.stpSetsteps nb k (BitVec.ofNat 16 b.toNat)) :=
  (decode_buildWord_stepper (op := .stpSetsteps) rfl (by simp [reservedSet_buildWord, targetKind, usesB])).trans
    (by simp [decodeStepper, ← BitVec.toNat_inj])

theorem decode_setmicro : decode (buildWord 0x12#8 nb (stepperTgt k) 0#16 b) =
    if b.toNat = 8 then .ok (.stpSetmicro nb k .eight) else if b.toNat = 16 then .ok (.stpSetmicro nb k .sixteen)
    else .error .badMicrosteps := by
  refine (decode_buildWord_stepper (op := .stpSetmicro) rfl (by simp [reservedSet_buildWord, targetKind, usesB])).trans ?_
  simp only [decodeStepper, wordNb_buildWord, wordB_buildWord, readMicro_eq]
  split_ifs <;> rfl

theorem decode_setstyle : decode (buildWord 0x13#8 nb (stepperTgt k) 0#16 b) =
    (readStyle b).map (fun st => .stpSetstyle nb k st) :=
  (decode_buildWord_stepper (op := .stpSetstyle) rfl (by simp [reservedSet_buildWord, targetKind, usesB])).trans
    (by simp [decodeStepper])

theorem decode_setcurrent : decode (buildWord 0x14#8 nb (stepperTgt k) 0#16 b) =
    if 32768 < b.toNat then .error .badCurrent else .ok (.stpSetcurrent nb k (BitVec.ofNat 16 b.toNat)) :=
  (decode_buildWord_stepper (op := .stpSetcurrent) rfl (by simp [reservedSet_buildWord, targetKind, usesB])).trans
    (by simp [decodeStepper])

/-- The reserved bits of the unit come first, then the unit, then the value (R254). -/
theorem decode_setspeed : decode (buildWord 0x15#8 nb (stepperTgt k) a b) =
    if 8 ≤ a.toNat then .error .reservedBits
    else if a.toNat ≠ 1 ∧ a.toNat ≠ 2 ∧ a.toNat ≠ 4 then .error .badSpeedUnit
    else if b.toNat = 0 then .error .badSpeedValue
    else .ok (.stpSetspeed nb k (if a.toNat = 1 then .pps else if a.toNat = 2 then .rpm else .sps) b) := by
  by_cases ha : 8 ≤ a.toNat
  · rw [if_pos ha]
    exact decode_buildWord_reservedBits (op := .stpSetspeed) (by simp [reservedSet_buildWord, targetKind, usesA, usesB, ha])
  · rw [if_neg ha]
    refine (decode_buildWord_stepper (op := .stpSetspeed) rfl
      (by simpa [reservedSet_buildWord, targetKind, usesA, usesB] using ha)).trans ?_
    simp only [decodeStepper, wordNb_buildWord, wordA_buildWord, wordB_buildWord, readUnit_eq, ← BitVec.toNat_inj]
    by_cases hu : a.toNat ≠ 1 ∧ a.toNat ≠ 2 ∧ a.toNat ≠ 4
    · rw [if_pos hu, if_pos hu]
      rfl
    · rw [if_neg hu, if_neg hu]
      rfl

/-- The reserved high byte comes first, then that the channels are distinct (R254). -/
theorem decode_pins : decode (buildWord 0x10#8 nb (stepperTgt k) 0#16 b) =
    if 2 ^ 24 ≤ b.toNat then .error .reservedBits
    else if ¬ (unpackPins b).toList.Nodup then .error .badPins
    else .ok (.stpPins nb k (unpackPins b)) := by
  by_cases hb : 2 ^ 24 ≤ b.toNat
  · rw [if_pos hb]
    exact decode_buildWord_reservedBits (op := .stpPins) (by simpa [reservedSet_buildWord, targetKind, usesB] using hb)
  · rw [if_neg hb]
    refine (decode_buildWord_stepper (op := .stpPins) rfl
      (by simpa [reservedSet_buildWord, targetKind, usesB] using hb)).trans ?_
    simp only [decodeStepper, wordNb_buildWord, wordB_buildWord, pinsDistinct_iff_nodup, ite_not]

end

end Sys2Proof.Laws
end

section
/-! The configuration commands (41_stepper_config.md R160 to R166, R168): each is checked, then changes its own stepper alone
(`Configures`) and answers at once. -/

namespace Sys2Proof.Machine

open Sys2Proof Sys2Proof.Laws

/-! ### A command that changes one stepper -/

/-- The command with ticket `tk` leaves stepper `k` as `st`, answers OK, and changes nothing else. -/
def Configures (i : Instr) (k : StepperId) (s : State) (tk : Ticket) (st : Stepper) : Prop :=
  ∃ t, exec i s = .next t ∧ t.stepper k = st ∧ OthersKept k s t ∧ LocalEffect s t ∧
    Responded s t i.nb (okRecord tk i.opcode.code .none)

section

variable {i : Instr} {k : StepperId} {s : State} {tk : Ticket} {check : Option Reason} {f : Stepper → Stepper}

theorem configures_of_pass (hin : s.inCommand tk)
    (he : exec i s = .next (runLocal i check .none (fun s => s.modStp k f) s)) (hc : check = none) :
    Configures i k s tk (f (s.stepper k)) := by
  subst hc
  obtain ⟨⟨hstp, hlocal⟩, hresponse⟩ := endCommand_complete (i := i) (s := s.modStp k f) .none hin
  exact ⟨_, he, (stepper_of_stp hstp k).trans (stepper_modStp_self s k f),
    fun j hj => (stepper_of_stp hstp j).trans (stepper_modStp_of_ne s f hj), hlocal, hresponse⟩

theorem turnedAway_of_check {res : Result} {g : State → State} {why : Reason} (hin : s.inCommand tk)
    (he : exec i s = .next (runLocal i check res g s)) (hc : check = some why) :
    TurnedAway i s tk i.opcode.code (reasonCode why) :=
  turnedAway hin (he.trans (congrArg _ (runLocal_of_failed hc)))

/-! ### The setters (R160, R162 to R166) -/

theorem busy_eq_false {st : Stepper} (hr : st.run.running = false) (hp : st.motion.pulsing = false) : st.busy = false := by
  simp [Stepper.busy, hr, hp]

/-- A setter is turned away from a busy stepper, and changes one that is not. -/
theorem setter_effect (hin : s.inCommand tk)
    (he : exec i s = .next (runLocal i (configCheck s k) .none (fun s => s.modStp k f) s)) :
    ((s.stepper k).run.running = true ∨ (s.stepper k).motion.pulsing = true → TurnedAway i s tk i.opcode.code 19#8) ∧
    ((s.stepper k).run.running = false → (s.stepper k).motion.pulsing = false → Configures i k s tk (f (s.stepper k))) :=
  ⟨fun hb => turnedAway_of_check (why := .busy) hin he (if_pos ((busy_iff _).2 hb)),
    fun hr hp => configures_of_pass hin he (by simp [configCheck, busy_eq_false hr hp])⟩

end

/-- Settles O23: the operand's range, and a setter that stores the rates (`setter_effect`). -/
theorem setSteps : Obligations.SetSteps := fun nb k =>
  ⟨decode_setsteps nb k, fun _ _ n hin => setter_effect (i := .stpSetsteps nb k n) hin rfl⟩

/-- Settles O25: the four codes are the styles, and the setter leaves the phase. -/
theorem setStyle : Obligations.SetStyle := by
  refine fun nb k => ⟨fun b => (decode_setstyle nb k b).trans ?_,
    fun _ _ y hin => setter_effect (i := .stpSetstyle nb k y) hin rfl⟩
  have hb : b = 0#32 ∨ b = 1#32 ∨ b = 2#32 ∨ b = 3#32 ∨ 3 < b.toNat := by bv_omega
  rcases hb with rfl | rfl | rfl | rfl | hb
  · rfl
  · rfl
  · rfl
  · rfl
  · obtain ⟨n, hn⟩ : ∃ n, b.toNat = n + 4 := ⟨b.toNat - 4, by omega⟩
    rw [readStyle_of_gt hb, hn]
    rfl

/-- Settles O26: the operand's range, and a setter of the current alone (`setter_effect`). -/
theorem setCurrent : Obligations.SetCurrent := fun nb k =>
  ⟨decode_setcurrent nb k, fun _ _ n hin => setter_effect (i := .stpSetcurrent nb k n) hin rfl⟩

/-- Settles O27: the three checks of the operands in order, and a setter that stores the rates (`setter_effect`). -/
theorem setSpeed : Obligations.SetSpeed := fun nb k =>
  ⟨decode_setspeed nb k, fun _ _ u v hin => setter_effect (i := .stpSetspeed nb k u v) hin rfl⟩

/-- The two changes of `STP_SETMICRO` as one: the microsteps with the rates, and the phase (R163). -/
def Stepper.withMicro (st : Stepper) (ms : Micro) : Stepper :=
  { st with cfg := ({ st.cfg with ms := some ms } : StepperConfig).withRates,
            motion := { st.motion with phase := BitVec.ofNat 6 (st.motion.phase.toNat % (4 * ms.count)) } }

theorem exec_stpSetmicro (nb : Bool) (k : StepperId) (ms : Micro) (s : State) : exec (.stpSetmicro nb k ms) s =
    .next (runLocal (.stpSetmicro nb k ms) (configCheck s k) .none (fun s => s.modStp k (Stepper.withMicro · ms)) s) := by
  simp only [exec, execStpSetmicro, State.configure, modStp_modStp]
  rfl

/-- A phase reduced modulo `4*ms` fits its field. -/
theorem withMicro_phase (st : Stepper) (ms : Micro) :
    (st.withMicro ms).motion.phase.toNat = st.motion.phase.toNat % (4 * ms.count) := by
  have hfit : st.motion.phase.toNat % (4 * ms.count) < 2 ^ 6 := (Nat.mod_le ..).trans_lt st.motion.phase.isLt
  exact (BitVec.toNat_ofNat ..).trans (Nat.mod_eq_of_lt hfit)

/-- Settles O24: the phase of `Stepper.withMicro` is the reduced one. -/
theorem setMicro : Obligations.SetMicro := by
  refine fun nb k => ⟨decode_setmicro nb k, fun s tk ms hin => ?_⟩
  obtain ⟨hbusy, hset⟩ := setter_effect hin (exec_stpSetmicro nb k ms s)
  refine ⟨hbusy, fun hr hp => ?_⟩
  obtain ⟨t, he, hst, hrest⟩ := hset hr hp
  refine ⟨t, he, ?_, ?_, hrest⟩
  · rw [hst]; rfl
  · rw [hst]; exact withMicro_phase _ ms

/-! ### `STP_PINS` (R161) -/

theorem mem_toList_iff {α : Type} {m : RoleMap α} {v : α} : v ∈ m.toList ↔ ∃ r, m.get r = v := by
  constructor
  · intro h
    simp only [RoleMap.toList, List.mem_cons, List.not_mem_nil, or_false] at h
    rcases h with rfl | rfl | rfl | rfl | rfl | rfl
    exacts [⟨.pwma, rfl⟩, ⟨.a1, rfl⟩, ⟨.a2, rfl⟩, ⟨.pwmb, rfl⟩, ⟨.b1, rfl⟩, ⟨.b2, rfl⟩]
  · rintro ⟨r, rfl⟩
    cases r <;> simp [RoleMap.toList, RoleMap.get]

theorem mem_pinChannels_iff {st : Stepper} {c : Chan} :
    c ∈ pinChannels st ↔ ∃ q, st.cfg.pin = some q ∧ ∃ y, q.get y = c := by
  cases h : st.cfg.pin <;> simp [pinChannels, h, mem_toList_iff]

/-- Pins are taken when another stepper's pins have a channel of theirs. -/
theorem pinsTaken_iff {s : State} {k : StepperId} {p : Pins} : s.pinsTaken k p = true ↔
    ∃ j q, j ≠ k ∧ (s.stepper j).cfg.pin = some q ∧ ∃ x y, p.get x = q.get y := by
  simp only [State.pinsTaken, List.any_eq_true, List.mem_finRange, true_and, Bool.and_eq_true, bne_iff_ne,
    List.contains_iff_mem, mem_pinChannels_iff, mem_toList_iff]
  constructor
  · rintro ⟨j, hj, _, ⟨q, hq, y, rfl⟩, x, hxy⟩
    exact ⟨j, q, hj, hq, x, y, hxy⟩
  · rintro ⟨j, q, hj, hq, x, y, hxy⟩
    exact ⟨j, hj, _, ⟨q, hq, y, rfl⟩, x, hxy⟩

/-- Settles O28: the digits of the operand, and the pins of the other steppers. -/
theorem setPins : Obligations.SetPins := by
  refine fun nb k => ⟨fun b => ?_, fun s tk p hin => ⟨fun hb => ?_, fun hr hp => ⟨fun htaken => ?_, fun hfree => ?_⟩⟩⟩
  · rw [decode_pins, unpackPins_eq_digits]
    rfl
  · exact turnedAway_of_check (why := .busy) hin rfl (if_pos ((busy_iff _).2 hb))
  · exact turnedAway_of_check (why := .badPins) hin rfl
      (by simp [pinsCheck, busy_eq_false hr hp, pinsTaken_iff.2 htaken])
  · have hnot : s.pinsTaken k p ≠ true := fun h => by
      obtain ⟨j, q, hj, hq, x, y, hxy⟩ := pinsTaken_iff.1 h
      exact hfree j q hj hq x y hxy
    exact configures_of_pass (i := .stpPins nb k p) hin rfl (by simp [pinsCheck, busy_eq_false hr hp, hnot])

/-! ### `STP_INIT` (R168) -/

theorem incomplete_iff (c : StepperConfig) : c.incomplete = true ↔
    c.pin = none ∨ c.spr = none ∨ c.ms = none ∨ c.style = none ∨ c.current = none := by
  simp [StepperConfig.incomplete, or_assoc]

/-- Settles O29: the two checks in order, then the flag and the rates. -/
theorem stepperInit : Obligations.StepperInit := by
  refine fun nb k s tk hin => ⟨fun hb => ?_, fun hr hp => ⟨fun hunset => ?_, fun hpin hspr hms hstyle hcur => ?_⟩⟩
  · exact turnedAway_of_check (why := .busy) hin rfl (if_pos ((busy_iff _).2 hb))
  · exact turnedAway_of_check (why := .notConfigured) hin rfl
      (by simp [stpInitCheck, busy_eq_false hr hp, (incomplete_iff _).2 hunset])
  · have hset : (s.stepper k).cfg.incomplete ≠ true := by
      rw [Ne, incomplete_iff]
      simp [hpin, hspr, hms, hstyle, hcur]
    exact configures_of_pass (i := .stpInit nb k) hin rfl (by simp [stpInitCheck, busy_eq_false hr hp, hset])

end Sys2Proof.Machine
end

section
/-! The run engine's parts, said once (42_stepper_motion.md R207 to R209, R213 to R216): a vector write goes on with the first pin that
differs from the cache, and ends when there is none; its end is the end of the run, or of one more step; and the end of a run is its
record in `cmplq`, or held. -/

namespace Sys2Proof.Machine

open Sys2Proof

/-! ### The first changed pin (R207) -/

theorem changedTasks_of_changed {c : RoleMap (Option Tick)} {t : PinTask} {rest : List PinTask} (h : unchanged c t = false) :
    changedTasks c (t :: rest) = t :: changedTasks c rest :=
  List.filter_cons_of_pos (by simpa [unchanged] using h)

theorem changedTasks_of_unchanged {c : RoleMap (Option Tick)} {t : PinTask} {rest : List PinTask} (h : unchanged c t = true) :
    changedTasks c (t :: rest) = changedTasks c rest :=
  List.filter_cons_of_neg (by simpa [unchanged] using h)

theorem firstChanged_of_nil {c : RoleMap (Option Tick)} {tasks : List PinTask} (h : changedTasks c tasks = []) :
    firstChanged c tasks = none := by
  induction tasks with
  | nil => rfl
  | cons t rest ih =>
    cases ht : unchanged c t with
    | true => rw [firstChanged, if_pos ht, ih (changedTasks_of_unchanged ht ▸ h)]
    | false => rw [changedTasks_of_changed ht] at h; cases h

/-- The first of the changed pins is found, with the pins after it. -/
theorem firstChanged_of_cons {c : RoleMap (Option Tick)} {tasks l : List PinTask} {t : PinTask} (h : changedTasks c tasks = t :: l) :
    ∃ rest, firstChanged c tasks = some (t, rest) ∧ unchanged c t = false ∧ changedTasks c rest = l := by
  induction tasks with
  | nil => cases h
  | cons x rest ih =>
    rw [firstChanged]
    cases hx : unchanged c x with
    | true => exact ih (changedTasks_of_unchanged hx ▸ h)
    | false =>
      rw [changedTasks_of_changed hx] at h
      obtain ⟨rfl, rfl⟩ := List.cons.inj h
      exact ⟨rest, rfl, hx, rfl⟩

/-- The vector write of the pin `t`, of which nothing is written yet, and then of the pins `rest`. -/
def freshJob (t : PinTask) (rest : List PinTask) : VecJob :=
  { task := t, left := pinWrites t.chan t.on t.off, rest := rest, outstanding := false }

section

variable {s : State} {i : StepperId} {tasks : List PinTask}

theorem nextPin_of_nil (h : changedTasks (s.stepper i).cache tasks = []) : s.nextPin i tasks = s.vectorDone i none := by
  rw [State.nextPin, firstChanged_of_nil h]

theorem nextPin_of_cons {t : PinTask} {l : List PinTask} (h : changedTasks (s.stepper i).cache tasks = t :: l) :
    ∃ rest, s.nextPin i tasks = s.modStp i (fun st => { st with job := some (freshJob t rest) }) ∧
      (t :: rest).Sublist tasks ∧ unchanged (s.stepper i).cache t = false ∧ changedTasks (s.stepper i).cache rest = l := by
  obtain ⟨rest, hf, ht, hl⟩ := firstChanged_of_cons h
  exact ⟨rest, by rw [State.nextPin, hf]; rfl, firstChanged_sublist hf, ht, hl⟩

end

/-! ### The end of a vector write (R208, R214) -/

/-- The stepper once its vector write has ended. -/
def Stepper.vectorEnded (st : Stepper) : Stepper :=
  { st with motion := { st.motion with pulsing := false }, job := none }

/-- The stepper once a step of its run is done. -/
def Stepper.stepDone (st : Stepper) : Stepper :=
  { st.vectorEnded with run := { st.run with done := st.run.done + 1#32 } }

section

variable {s : State} {i : StepperId}

theorem vectorDone_failed (e : BusError) : s.vectorDone i (some e) = (s.modStp i Stepper.vectorEnded).endRun i (some e) false :=
  rfl

theorem vectorDone_none_eq : s.vectorDone i none =
    if (s.stepper i).run.done + 1#32 = (s.stepper i).run.runCount then (s.modStp i Stepper.stepDone).endRun i none false
    else if (s.stepper i).run.stopReq then (s.modStp i Stepper.stepDone).endRun i none true
    else s.modStp i Stepper.stepDone := by
  have hu : (s.modStp i Stepper.vectorEnded).modStp i (fun st => { st with run := { st.run with done := st.run.done + 1#32 } }) =
      s.modStp i Stepper.stepDone := modStp_modStp ..
  have hv : s.vectorDone i none =
      if ((s.modStp i Stepper.stepDone).stepper i).run.done = ((s.modStp i Stepper.stepDone).stepper i).run.runCount then
        (s.modStp i Stepper.stepDone).endRun i none false
      else if ((s.modStp i Stepper.stepDone).stepper i).run.stopReq then (s.modStp i Stepper.stepDone).endRun i none true
      else s.modStp i Stepper.stepDone := by rw [← hu]; rfl
  rw [hv, stepper_modStp_self]
  rfl

end

/-! ### The completion of a byte write (R208, R209, R216) -/

section

variable {s : State} {i : StepperId} {j : VecJob} {w : Byte × Byte} {t : Txn}

theorem engineReply_failed (hj : (s.stepper i).job = some j) :
    s.engineReply i t false = s.vectorDone i (some (busErrorOf t)) := by
  simp [State.engineReply, hj]

/-- The last byte of a pin confirms it. -/
theorem engineReply_last (hj : (s.stepper i).job = some j) (hw : j.left = [w]) :
    s.engineReply i t true = (s.pinWritten i j.task).nextPin i j.rest := by
  simp [State.engineReply, hj, hw]

theorem engineReply_more {v : Byte × Byte} {more : List (Byte × Byte)} (hj : (s.stepper i).job = some j)
    (hw : j.left = w :: v :: more) : s.engineReply i t true =
    s.modStp i (fun st => { st with job := some { j with left := v :: more, outstanding := false } }) := by
  simp [State.engineReply, hj, hw]

end

/-! ### The end of a run (R215, R258) -/

/-- The record of a run that ends as `run` with the bus error `e`, if one ended it. -/
def runRecord (run : Run) (ms retried : W32) (stopped : Bool) (e : Option BusError) : Response :=
  recordOf run.runTicket 0x19#8
    (.run { steps := run.done, dir := run.runDir, durationMs := ms, retried := retried, stopped := stopped } e)

section

variable {s : State} (i : StepperId) (e : Option BusError) (b : Bool)

theorem endRun_of_room (h : s.cmplRoom = true) : s.endRun i e b =
    State.modStp { s.drawDuration.2 with
      cmplq := s.cmplq ++ [runRecord (s.stepper i).run s.drawDuration.1 (s.stepper i).motion.retried b e] } i
      (fun st => { st with run := st.run.ended }) := by
  have hc : s.drawDuration.2.cmplq = s.cmplq := report_cmplq s i b
  have hr : (s.report i b).2.cmplRoom = true := by simpa [State.cmplRoom] using h
  rw [← hc]
  exact if_pos hr

theorem endRun_of_full (h : s.cmplRoom = false) : s.endRun i e b =
    s.drawDuration.2.modStp i (fun st => { st with
      run := { st.run with stopReq := false }
      held := some (runRecord (s.stepper i).run s.drawDuration.1 (s.stepper i).motion.retried b e) }) := by
  have hr : (s.report i b).2.cmplRoom ≠ true := by simpa [State.cmplRoom] using h
  exact if_neg hr

end

theorem cmplRoom_iff {s : State} : s.cmplRoom = true ↔ s.cmplq.length < Config.cmplqDepth := by simp [State.cmplRoom]

theorem endRun_runEnded (s : State) (i : StepperId) (e : Option BusError) (b : Bool) :
    ∃ ms, RunEnded i s (s.endRun i e b) (s.stepper i).run (runRecord (s.stepper i).run ms (s.stepper i).motion.retried b e) := by
  have hd : ∀ l, State.stepper { s.drawDuration.2 with cmplq := l } i = s.stepper i := fun _ =>
    stepper_of_stp (report_stp s i b) i
  refine ⟨s.drawDuration.1, fun hroom => ?_, fun hfull => ?_⟩
  · rw [endRun_of_room i e b (cmplRoom_iff.2 hroom), stepper_modStp_self, hd]
    exact ⟨rfl, rfl, rfl⟩
  · have hr : s.cmplRoom = false := by simpa [State.cmplRoom] using hfull
    rw [endRun_of_full i e b hr, stepper_modStp_self, show s.drawDuration.2.stepper i = _ from hd _]
    exact ⟨report_cmplq s i b, rfl, rfl⟩

/-- From a state with the same `cmplq` and the same held record. -/
theorem RunEnded.of_same {i : StepperId} {s u t : State} {run : Run} {r : Response} (h : RunEnded i u t run r)
    (hc : u.cmplq = s.cmplq) (hh : (u.stepper i).held = (s.stepper i).held) : RunEnded i s t run r := by
  rw [RunEnded, hc, hh] at h
  exact h

end Sys2Proof.Machine
end

section
/-! A background run and the list of its byte writes (42_stepper_motion.md R213, R214, R222 item 6; 40_driver.md R130): what the run engine
has written and what it has still to write stay one list (`OnProgram`), through the engine's own steps, the other agents' steps, and
every command of the CP. -/

namespace Sys2Proof.Machine

open Sys2Proof

/-! ### What is still to be written -/

/-- The byte writes of a vector write of `tasks` that is about to begin or to go on, and of the steps not yet issued. -/
def Stepper.vectorBytes (st : Stepper) (r : Ready) (tasks : List PinTask) : List (Byte × Byte) :=
  taskBytes (changedTasks st.cache tasks) ++
    runBytes r st.run.runDir (st.run.runCount.toNat - st.run.issued.toNat) st.motion.phase
      (cacheWith st.cache (changedTasks st.cache tasks))

/-- The stepper once its cache has the value of `t` (R209). -/
def Stepper.withPin (st : Stepper) (t : PinTask) : Stepper := { st with cache := st.cache.set t.role (some t.value) }

section

variable {st : Stepper} {r : Ready}

theorem toWrite_of_no_job (h : st.job = none) : st.toWrite r = st.vectorBytes r [] := by
  rw [Stepper.toWrite, h]
  rfl

theorem toWrite_of_job {j : VecJob} (h : st.job = some j) :
    st.toWrite r = j.left ++ (st.withPin j.task).vectorBytes r j.rest := by
  rw [Stepper.toWrite, h]
  exact List.append_assoc ..

theorem vectorBytes_of_nil {tasks : List PinTask} (h : changedTasks st.cache tasks = []) :
    st.vectorBytes r tasks = st.vectorBytes r [] := by
  rw [Stepper.vectorBytes, h]
  rfl

/-- The first changed pin, and then those after it, which do not see its cache entry. -/
theorem vectorBytes_of_cons {t : PinTask} {rest tasks : List PinTask} (hd : ((t :: rest).map PinTask.role).Nodup)
    (ht : unchanged st.cache t = false) (h : changedTasks st.cache tasks = t :: changedTasks st.cache rest) :
    st.vectorBytes r tasks = pinWrites t.chan t.on t.off ++ (st.withPin t).vectorBytes r rest := by
  have hrest : changedTasks (st.withPin t).cache rest = changedTasks st.cache rest := by
    have e := changedTasks_cons (c := st.cache) hd
    rw [changedTasks_of_changed ht, ht, if_neg Bool.false_ne_true] at e
    exact (List.cons.inj e).2.symm
  rw [Stepper.vectorBytes, Stepper.vectorBytes, hrest, h]
  exact List.append_assoc ..

/-- One more step is issued: its vector comes first in what is to be written. -/
theorem vectorBytes_issue {n : ℕ} (h : st.run.runCount.toNat - st.run.issued.toNat = n + 1) : st.vectorBytes r [] =
    let p := advance st.motion.phase st.run.runDir r.style r.ms
    let l := changedTasks st.cache (stepTasks r p)
    taskBytes l ++ runBytes r st.run.runDir n p (cacheWith st.cache l) := by
  rw [Stepper.vectorBytes, h]
  rfl

end

/-! ### The run engine's own steps -/

/-- The run goes on: it is active, and its report is not waiting. -/
def Stepper.ongoing (st : Stepper) : Prop := st.run.running = true ∧ st.held = none

section

variable {s : State} {k : StepperId} {r : Ready}

/-- A run that has ended does not go on, whether its record is in `cmplq` or held. -/
theorem endRun_not_ongoing (e : Option BusError) (b : Bool) : ¬ ((s.endRun k e b).stepper k).ongoing := by
  rintro ⟨hr, hh⟩
  rcases endRun_stepper s k e b with h | ⟨x, h⟩ <;> rw [h] at hr hh
  · exact Bool.false_ne_true hr
  · exact Option.some_ne_none x hh

/-- A run that goes on after a vector write has the steps not yet issued to write. -/
theorem vectorDone_toWrite (h : ((s.vectorDone k none).stepper k).ongoing) :
    ((s.vectorDone k none).stepper k).toWrite r = (s.stepper k).vectorBytes r [] := by
  rw [vectorDone_none_eq] at h ⊢
  split at h
  · exact absurd h (endRun_not_ongoing none false)
  · split at h
    · exact absurd h (endRun_not_ongoing none true)
    · rw [if_neg ‹_›, if_neg ‹_›, stepper_modStp_self]
      exact toWrite_of_no_job rfl

theorem nextPin_toWrite {tasks : List PinTask} (hd : (tasks.map PinTask.role).Nodup)
    (h : ((s.nextPin k tasks).stepper k).ongoing) :
    ((s.nextPin k tasks).stepper k).toWrite r = (s.stepper k).vectorBytes r tasks := by
  cases hl : changedTasks (s.stepper k).cache tasks with
  | nil =>
    rw [nextPin_of_nil hl] at h ⊢
    rw [vectorDone_toWrite h, vectorBytes_of_nil hl]
  | cons t l =>
    obtain ⟨rest, e, hsub, ht, rfl⟩ := nextPin_of_cons hl
    rw [e, stepper_modStp_self, toWrite_of_job rfl, vectorBytes_of_cons ((hsub.map PinTask.role).nodup hd) ht hl]
    rfl

theorem stepTasks_roles_nodup (r : Ready) (p : BitVec 6) : ((stepTasks r p).map PinTask.role).Nodup :=
  vectorTasks_roles_nodup r _

/-- The stepper as a step of its run is issued (R213). -/
def Stepper.issueStep (r : Ready) (st : Stepper) : Stepper :=
  { st with run := { st.run with issued := st.run.issued + 1#32 }
            motion := { st.motion with phase := advance st.motion.phase st.run.runDir r.style r.ms, pulsing := true } }

theorem startPulse_eq (s : State) (k : StepperId) (r : Ready) : s.startPulse k r =
    (s.modStp k (Stepper.issueStep r)).nextPin k (stepTasks r ((s.stepper k).issueStep r).motion.phase) := by
  rw [← stepper_modStp_self s k (Stepper.issueStep r)]
  rfl

/-- A tick that issues a step takes its vector from what is to be written. -/
theorem startPulse_toWrite (hj : (s.stepper k).job = none)
    (hlt : (s.stepper k).run.issued.toNat < (s.stepper k).run.runCount.toNat) (h : ((s.startPulse k r).stepper k).ongoing) :
    ((s.startPulse k r).stepper k).toWrite r = (s.stepper k).toWrite r := by
  have hn : (s.stepper k).run.runCount.toNat - (s.stepper k).run.issued.toNat =
      (s.stepper k).run.runCount.toNat - ((s.stepper k).run.issued + 1#32).toNat + 1 := by
    rw [toNat_succ_of_lt hlt]
    omega
  rw [startPulse_eq] at h ⊢
  rw [nextPin_toWrite (stepTasks_roles_nodup r _) h, stepper_modStp_self, toWrite_of_no_job hj, vectorBytes_issue hn]
  rfl

/-- The tick is counted, no earlier than it is due (R213). -/
def State.ticked (s : State) (i : StepperId) : State :=
  (s.passUntil ((s.stepper i).run.t0 + ((s.stepper i).run.k.toNat : ℚ) * runPeriod (s.stepper i).cfg)).modStp i
    (fun st => { st with run := { st.run with k := st.run.k + 1#32 } })

theorem ticked_stepper (s : State) (i : StepperId) : (s.ticked i).stepper i =
    { s.stepper i with run := { (s.stepper i).run with k := (s.stepper i).run.k + 1#32 } } :=
  stepper_modStp_self ..

/-- What a tick does: nothing where no run is active; else it is counted, and is no more, or a counted skip, or issues a step. -/
theorem onTick_cases (s : State) (i : StepperId) :
    s.onTick i = s ∨ (s.stepper i).inBackground = true ∧ (s.stepper i).held = none ∧
    (s.onTick i = s.ticked i ∨
     s.onTick i = (s.ticked i).modStp i (fun st => { st with motion := { st.motion with retried := satInc st.motion.retried } }) ∨
     ∃ r, (s.stepper i).cfg.ready = some r ∧ (s.stepper i).run.issued ≠ (s.stepper i).run.runCount ∧
      (s.stepper i).motion.pulsing = false ∧ s.onTick i = (s.ticked i).startPulse i r) := by
  by_cases hb : (!(s.stepper i).inBackground || (s.stepper i).held.isSome) = true
  · exact .inl (if_pos hb)
  · obtain ⟨hrun, hheld⟩ : (s.stepper i).inBackground = true ∧ (s.stepper i).held = none := by simpa using hb
    refine .inr ⟨hrun, hheld, ?_⟩
    unfold State.onTick
    dsimp only
    rw [if_neg hb]
    split
    · exact .inl rfl
    · split
      · exact .inl rfl
      · rename_i hne
        split
        · exact .inr (.inl rfl)
        · rename_i hp
          split
          · exact .inl rfl
          · rename_i r hr
            exact .inr (.inr ⟨r, hr, hne, by simpa using hp, rfl⟩)

/-- A tick leaves what is still to be written, and a run that goes on after it went on before it. -/
theorem onTick_toWrite (hr : (s.stepper k).cfg.ready = some r) (hl : RunLegal (s.stepper k))
    (h : ((s.onTick k).stepper k).ongoing) :
    (s.stepper k).ongoing ∧ ((s.onTick k).stepper k).toWrite r = (s.stepper k).toWrite r := by
  have hst := ticked_stepper s k
  have hu : ((s.ticked k).stepper k).toWrite r = (s.stepper k).toWrite r := by rw [hst]; rfl
  rcases onTick_cases s k with e | ⟨hb, hh, e | e | ⟨x, hx, hne, hp, e⟩⟩
  · rw [e] at h ⊢
    exact ⟨h, rfl⟩
  all_goals
    refine ⟨⟨by simp_all [Stepper.inBackground], hh⟩, ?_⟩
    rw [e] at h ⊢
  · exact hu
  · rw [stepper_modStp_self, ← hu]
    rfl
  · obtain rfl : x = r := by simpa [hx] using hr
    have hj : (s.stepper k).job = none := by simpa [hp] using hl.pulsing.symm
    have hlt := Nat.lt_of_le_of_ne hl.order.2.1 fun e => hne (BitVec.eq_of_toNat_eq e)
    rw [startPulse_toWrite (by rw [hst]; exact hj) (by rw [hst]; exact hlt) h, hu]

/-- What is still to be written once the next byte write has been confirmed. -/
theorem engineReply_toWrite {j : VecJob} {w : Byte × Byte} {more : List (Byte × Byte)} {t : Txn} {ok : Bool}
    (hl : RunLegal (s.stepper k)) (hj : (s.stepper k).job = some j) (hw : j.left = w :: more)
    (h : ((s.engineReply k t ok).stepper k).ongoing) :
    ok = true ∧ (s.stepper k).toWrite r = w :: ((s.engineReply k t ok).stepper k).toWrite r := by
  rw [toWrite_of_job hj, hw]
  cases ok with
  | false =>
    rw [engineReply_failed hj] at h
    exact absurd h (endRun_not_ongoing (some (busErrorOf t)) false)
  | true =>
    refine ⟨rfl, ?_⟩
    cases more with
    | nil =>
      rw [engineReply_last hj hw] at h ⊢
      rw [nextPin_toWrite (List.nodup_cons.1 (hl.roles j hj)).2 h, pinWritten_stepper_self]
      rfl
    | cons v left =>
      rw [engineReply_more hj hw, stepper_modStp_self, toWrite_of_job (j := { j with left := v :: left, outstanding := false }) rfl]
      rfl

/-- Asking for the next byte write is no write yet. -/
theorem engineIssue_toWrite (s : State) (k : StepperId) (r : Ready) :
    ((s.engineIssue k).stepper k).toWrite r = (s.stepper k).toWrite r ∧
    (((s.engineIssue k).stepper k).ongoing ↔ (s.stepper k).ongoing) := by
  unfold State.engineIssue
  split
  · exact ⟨rfl, .rfl⟩
  · rename_i j hj
    split
    · exact ⟨rfl, .rfl⟩
    · split
      · exact ⟨rfl, .rfl⟩
      · rw [stepper_of_stp (request_stp _ _ _), stepper_modStp_self, toWrite_of_job hj]
        exact ⟨toWrite_of_job (j := { j with outstanding := true }) rfl, .rfl⟩

end

/-! ### What has been written -/

section

variable {u v : State} {k : StepperId}

theorem engineWrites_of_trace (h : v.trace = u.trace) : v.engineWrites k = u.engineWrites k := by
  rw [State.engineWrites, h]
  rfl

/-- A transaction of another requester is no write of this run engine. -/
theorem engineWrites_of_other {who : Requester} {t : Txn} {ok : Bool} {b : Byte} (hw : who ≠ .engine k)
    (h : v.trace = .txn who t ok b :: u.trace) : v.engineWrites k = u.engineWrites k := by
  have hne : ∀ i, who = .engine i → i ≠ k := fun i hi hik => hw (hik ▸ hi)
  cases who with
  | cp => simp [State.engineWrites, h]
  | engine i => cases t <;> cases ok <;> simp [State.engineWrites, h, hne i rfl]

theorem engineWrites_of_settle {ms : ℕ} (h : v.trace = .settle ms :: u.trace) : v.engineWrites k = u.engineWrites k := by
  simp [State.engineWrites, h]

theorem engineWrites_of_confirmed {dev reg x b : Byte} (h : v.trace = .txn (.engine k) (.write dev reg x) true b :: u.trace) :
    v.engineWrites k = u.engineWrites k ++ [(reg, x)] := by
  simp [State.engineWrites, h]

end

/-! ### The run and its program -/

/-- The run of stepper `k`, configured as `r`, is on the program `W`: while it goes on, what its run engine has written and what it
has still to write are `W`. The run state is coherent, and the engine's requests are among those of its vector write; they need not be
all of them, so that this holds at every point of a command. -/
structure OnProgram (k : StepperId) (r : Ready) (W : List (Byte × Byte)) (u : State) : Prop where
  ready : (u.stepper k).cfg.ready = some r
  legal : RunLegal (u.stepper k)
  asks : ∃ reqs, EngineSound k reqs (u.stepper k) ∧ (engineRequests u.bus k).Sublist reqs
  program : (u.stepper k).ongoing → u.engineWrites k ++ (u.stepper k).toWrite r = W

/-- From `u` to `v` nothing of the run of stepper `k` happens; requests of its engine may be lost, but none appears. -/
structure Passes (k : StepperId) (u v : State) : Prop where
  stepper : v.stepper k = u.stepper k
  writes : v.engineWrites k = u.engineWrites k
  requests : (engineRequests v.bus k).Sublist (engineRequests u.bus k)

section

variable {k : StepperId} {r : Ready} {W : List (Byte × Byte)} {u v : State}

theorem Passes.of_same (hs : v.stepper k = u.stepper k) (ht : v.trace = u.trace) (hb : v.bus = u.bus) : Passes k u v :=
  ⟨hs, engineWrites_of_trace ht, by rw [hb]⟩

theorem OnProgram.passes (h : OnProgram k r W u) (p : Passes k u v) : OnProgram k r W v := by
  obtain ⟨hready, hlegal, ⟨reqs, hsound, hsub⟩, hprogram⟩ := h
  obtain ⟨hs, hw, hr⟩ := p
  exact ⟨by rw [hs]; exact hready, by rw [hs]; exact hlegal, ⟨reqs, by rw [hs]; exact hsound, hr.trans hsub⟩,
    by rw [hs, hw]; exact hprogram⟩

/-! ### The other agents' steps -/

/-- A bus step with nothing in flight grants at most a request (R67). -/
theorem busStep_grants (hi : u.bus.inflight = none) : u.busStep = u ∨ ∃ q rest, u.bus.reqq = q :: rest ∧
    u.busStep = { u with bus := { u.bus with reqq := rest, inflight := some q } } := by
  unfold State.busStep
  rw [hi]
  dsimp only
  split
  · exact .inl rfl
  · split
    · exact .inl rfl
    · rename_i q rest hr
      split
      · exact .inl rfl
      · exact .inr ⟨q, rest, hr, rfl⟩

theorem OnProgram.tick (h : OnProgram k r W u) : OnProgram k r W (u.onTick k) := by
  obtain ⟨hready, hlegal, ⟨reqs, hsound, hsub⟩, hprogram⟩ := h
  refine ⟨by rw [(onTick_kept k u).cfg]; exact hready, onTick_runLegal hlegal,
    ⟨reqs, onTick_sound hsound, by rw [onTick_bus]; exact hsub⟩, fun ho => ?_⟩
  obtain ⟨hgoes, hw⟩ := onTick_toWrite hready hlegal ho
  rw [engineWrites_of_trace (onTick_trace u k), hw]
  exact hprogram hgoes

/-- The delivery of a held record ends the run. -/
theorem OnProgram.deliver (h : OnProgram k r W u) : OnProgram k r W (u.deliverRun k) := by
  obtain ⟨hready, hlegal, ⟨reqs, hsound, hsub⟩, hprogram⟩ := h
  refine ⟨by rw [(deliverRun_kept k u).cfg]; exact hready, deliverRun_runLegal hlegal,
    ⟨reqs, deliverRun_sound hsound, by rw [deliverRun_bus]; exact hsub⟩, fun ho => ?_⟩
  unfold State.deliverRun at ho ⊢
  split at ho
  · exact hprogram ho
  · split at ho
    · rw [stepper_modStp_self] at ho
      exact absurd ho.1 Bool.false_ne_true
    · rw [if_neg ‹_›]
      exact hprogram ho

theorem OnProgram.issue (h : OnProgram k r W u) : OnProgram k r W (u.engineIssue k) := by
  obtain ⟨hready, hlegal, ⟨reqs, hsound, hsub⟩, hprogram⟩ := h
  have hasks : ∃ reqs, EngineSound k reqs ((u.engineIssue k).stepper k) ∧
      (engineRequests (u.engineIssue k).bus k).Sublist reqs := by
    by_cases hnil : reqs = []
    · subst hnil
      rw [← List.sublist_nil.1 hsub] at hsound
      exact ⟨_, engineIssue_sound hsound, .refl _⟩
    · cases hj : (u.stepper k).job with
      | none =>
        have ha := hsound.asks
        rw [hj] at ha
        exact absurd ha hnil
      | some j =>
        obtain ⟨w, more, hw, hreqs⟩ := hj ▸ hsound.asks
        have ho : j.outstanding = true := by
          by_contra hf
          exact hnil (by rw [hreqs, if_neg hf])
        rw [engineIssue_of_outstanding hj ho]
        exact ⟨reqs, hsound, hsub⟩
  obtain ⟨hw, hgoes⟩ := engineIssue_toWrite u k r
  refine ⟨by rw [(engineIssue_kept k u).cfg]; exact hready, engineIssue_runLegal hlegal, hasks, fun ho => ?_⟩
  rw [engineWrites_of_trace (engineIssue_trace u k), hw]
  exact hprogram (hgoes.1 ho)

/-- The byte write in flight is the next one of the vector write. -/
theorem OnProgram.next_byte {q : Request} {rest : List Request} (h : OnProgram k r W u)
    (hq : engineRequests u.bus k = q :: rest) : rest = [] ∧ ∃ j w more, (u.stepper k).job = some j ∧ j.left = w :: more ∧
      q.txn = .write Config.devAddr w.1 w.2 := by
  obtain ⟨reqs, hsound, hsub⟩ := h.asks
  rw [hq] at hsub
  have ha := hsound.asks
  cases hj : (u.stepper k).job with
  | none =>
    rw [hj] at ha
    exact absurd (ha ▸ hsub) (by simp)
  | some j =>
    rw [hj] at ha
    obtain ⟨w, more, hw, hreqs⟩ := ha
    split at hreqs
    · have he : q :: rest = [{ who := .engine k, txn := .write Config.devAddr w.1 w.2 }] :=
        (hreqs ▸ hsub).eq_of_length_le (by simp)
      obtain ⟨rfl, rfl⟩ := List.cons.inj he
      exact ⟨rfl, j, w, more, rfl, hw, rfl⟩
    · exact absurd (hreqs ▸ hsub) (by simp)

/-- The completion of the engine's byte write, and its reaction. -/
theorem OnProgram.complete {q : Request} (h : OnProgram k r W u) (hi : u.bus.inflight = some q) (hw : q.who = .engine k) :
    OnProgram k r W u.busStep := by
  let v := u.drawAnswer.2.completeTxn (.engine k) q.txn u.drawAnswer.1
  have hv : v.stepper k = u.stepper k := stepper_of_stp (by simp [v]) k
  have hstep : u.busStep = v.engineReply k q.txn u.drawAnswer.1.ok := by simp [State.busStep, hi, hw, v]
  have htrace : v.trace = .txn (.engine k) q.txn u.drawAnswer.1.ok (replyByte q.txn u.drawAnswer.1) :: u.trace := by simp [v]
  obtain ⟨hown, -⟩ := engineRequests_completed (b := u.bus) (c := v.bus) hi hw (by simp [v]) (by simp [v])
  obtain ⟨hrest, j, w, more, hj, hleft, hq⟩ := h.next_byte hown
  obtain ⟨hready, hlegal, ⟨reqs, hsound, -⟩, hprogram⟩ := h
  have hjv : (v.stepper k).job = some j := by rw [hv, hj]
  refine ⟨by rw [(busStep_kept u).cfg]; exact hready, background_runLegal .bus k nofun hlegal, ⟨[], ?_, ?_⟩, fun ho => ?_⟩
  · rw [hstep]
    exact engineReply_sound _ _ (by rw [hv]; exact hsound) (by simp [hjv])
  · rw [hstep, engineReply_bus, hrest]
  · rw [hstep] at ho ⊢
    obtain ⟨hok, hwrite⟩ := engineReply_toWrite (r := r) (by rw [hv]; exact hlegal) hjv hleft ho
    rw [hok, hq] at htrace
    rw [engineWrites_of_trace (engineReply_trace ..), engineWrites_of_confirmed htrace, List.append_assoc, List.singleton_append,
      ← hwrite, hv]
    have hstepping := hlegal.stepping hj
    exact hprogram ⟨hstepping.running, hstepping.held⟩

/-- A step of another stepper's engine or timer. -/
theorem Passes.of_kept {i : StepperId} (h : EngineKept i u v) (hk : k ≠ i) (ht : v.trace = u.trace)
    (hr : engineRequests v.bus k = engineRequests u.bus k) : Passes k u v :=
  ⟨h.others k hk, engineWrites_of_trace ht, by rw [hr]⟩

theorem OnProgram.busStep (h : OnProgram k r W u) : OnProgram k r W u.busStep := by
  cases hi : u.bus.inflight with
  | some q =>
    cases hw : q.who with
    | cp =>
      have e : u.busStep = u := by simp [State.busStep, hi, hw]
      rw [e]
      exact h
    | engine i =>
      by_cases hk : k = i
      · subst hk
        exact h.complete hi hw
      · let v := u.drawAnswer.2.completeTxn (.engine i) q.txn u.drawAnswer.1
        have hstep : u.busStep = v.engineReply i q.txn u.drawAnswer.1.ok := by simp [State.busStep, hi, hw, v]
        have htrace : v.trace = .txn (.engine i) q.txn u.drawAnswer.1.ok (replyByte q.txn u.drawAnswer.1) :: u.trace := by
          simp [v]
        have hkept := engineReply_kept i v q.txn u.drawAnswer.1.ok
        refine h.passes ⟨?_, ?_, ?_⟩
        · rw [hstep, hkept.others k hk]
          exact stepper_of_stp (by simp [v]) k
        · rw [hstep, engineWrites_of_trace (engineReply_trace ..)]
          exact engineWrites_of_other (who := .engine i) (fun e => hk (Requester.engine.inj e).symm) htrace
        · rw [hstep, engineReply_bus]
          rw [(engineRequests_completed (c := v.bus) hi hw (by simp [v]) (by simp [v])).2 k hk]
  | none =>
    rcases busStep_grants hi with e | ⟨q, rest, hr, e⟩
    · rw [e]
      exact h
    · rw [e]
      exact h.passes ⟨rfl, rfl, by simp [engineRequests, hi, hr]⟩

/-- Every step of the agents beside the CP, but for `rst`. -/
theorem OnProgram.background (h : OnProgram k r W u) (b : Background) (hn : NotRst b u) : OnProgram k r W (u.background b) := by
  cases b with
  | tick i =>
    by_cases hk : k = i
    · subst hk
      exact h.tick
    · exact h.passes (.of_kept (onTick_kept i u) hk (onTick_trace u i) (by rw [State.background, onTick_bus]))
  | engine i =>
    by_cases hk : k = i
    · subst hk
      rw [State.background]
      split
      · exact h.deliver
      · exact h.issue
    · rw [State.background]
      split
      · exact h.passes (.of_kept (deliverRun_kept i u) hk (deliverRun_trace u i) (by rw [deliverRun_bus]))
      · exact h.passes (.of_kept (engineIssue_kept i u) hk (engineIssue_trace u i) (engineIssue_requests_of_ne u hk))
  | bus => exact h.busStep
  | host =>
    obtain ⟨hs, -, hb, ht, -⟩ := hostTurn_stp u (hn rfl)
    exact h.passes (.of_same (stepper_of_stp hs k) ht hb)

end

end Sys2Proof.Machine
end

section
/-! A background run beside the commands of the CP (42_stepper_motion.md R213, R221, R222 item 6; 20_memory.md R68): no command writes to a
stepper whose run goes on but `STP_STOP`, so that the run stays on its program through every command and every step. -/

namespace Sys2Proof.Machine

open Sys2Proof

/-! ### The CP's own bus work -/

section

variable {k : StepperId} {u v : State}

theorem CpMove.passes (m : CpMove u v) : Passes k u v := by
  have hs : v.stepper k = u.stepper k := stepper_of_stp m.fields.2.1 k
  cases m with
  | draw => exact .of_same hs (by simp) (by simp)
  | request t => exact ⟨hs, engineWrites_of_trace rfl, by rw [engineRequests_request]⟩
  | grant t =>
    refine ⟨hs, engineWrites_of_trace rfl, ?_⟩
    simp only [engineRequests, State.grantCp, List.filter_append, filter_engine_eraseP_cp]
    exact List.sublist_append_right _ _
  | complete t =>
    refine ⟨hs, engineWrites_of_other (who := .cp) nofun (completeCp_trace u t), ?_⟩
    simp only [engineRequests, completeCp_inflight, completeCp_reqq, List.filter_append]
    exact List.sublist_append_right _ _
  | settle ms t => exact ⟨hs, engineWrites_of_settle (ms := ms) (by simp), by simp⟩
  | wait t => exact .of_same hs (by simp) (by simp)

theorem passes_modStp {j : StepperId} {f : Stepper → Stepper} (hj : k ≠ j) : Passes k u (u.modStp j f) :=
  .of_same (stepper_modStp_of_ne u f hj) rfl rfl

theorem passes_endCommand (i : Instr) (e : CmdEnd) : Passes k u (u.endCommand i e) :=
  .of_same (stepper_of_stp (endCommand_stp ..) k) (endCommand_trace ..) (endCommand_bus ..)

theorem passes_endRun {j : StepperId} (e : Option BusError) (b : Bool) (hj : k ≠ j) : Passes k u (u.endRun j e b) :=
  .of_same ((endRun_kept j u e b).others k hj) (endRun_trace ..) (endRun_bus ..)

end

section

variable {k : StepperId} {r : Ready} {W : List (Byte × Byte)}

theorem onProgram_othersKeep (c : State) : OthersKeep c (OnProgram k r W) :=
  ⟨fun _ b _ h hn => h.background b hn, fun _ _ _ m h => h.passes m.passes⟩

section

variable {u : State} (h : OnProgram k r W u)

include h

theorem OnProgram.endCommand (i : Instr) (e : CmdEnd) : OnProgram k r W (u.endCommand i e) := h.passes (passes_endCommand i e)

theorem OnProgram.img (m : Image) : OnProgram k r W { u with img := m } := h.passes (.of_same rfl rfl rfl)

theorem OnProgram.modStp {j : StepperId} {f : Stepper → Stepper} (hj : k ≠ j) : OnProgram k r W (u.modStp j f) :=
  h.passes (passes_modStp hj)

/-- A vector write of the CP for another stepper. -/
theorem OnProgram.vectorWrite {s : State} {j : StepperId} (tasks : List PinTask) (hj : k ≠ j) (hc : s.cp ≠ .idle)
    (hk : SeqKept s u) : SeqSince s (OnProgram k r W) (vectorWrite j tasks u) :=
  vectorWrite_since (onProgram_othersKeep s) hc hk (h.modStp hj) (fun _ _ _ _ hv => (hv.img _).modStp hj)
    (fun _ _ hv => hv.modStp hj)

theorem OnProgram.stepOnce {s : State} {j : StepperId} {x : Ready} (d : Dir) (hj : k ≠ j) (hc : s.cp ≠ .idle)
    (hk : SeqKept s u) : SeqSince s (OnProgram k r W) (stepOnce j d x u) :=
  (h.modStp hj).vectorWrite _ hj hc (hk.trans (modStp_seqKept u j rfl rfl rfl rfl rfl))

/-- A blocking run of another stepper. -/
theorem OnProgram.blockingSteps {j : StepperId} {x : Ready} (n : ℕ) (hj : k ≠ j) (hc : u.cp ≠ .idle) :
    SeqSince u (OnProgram k r W) (blockingSteps j x n u) :=
  blockingSteps_since (B := fun _ => OnProgram k r W) (M := fun _ => OnProgram k r W) hc (fun _ => onProgram_othersKeep u)
    (fun _ v hv hp => (hp.modStp hj).stepOnce _ hj hc (hv.trans (modStp_seqKept v j rfl rfl rfl rfl rfl)))
    (fun _ _ hp => hp.modStp hj) (fun _ _ hp => hp) (fun _ _ hp => hp) n (.refl u) h

/-- An exclusive sequence. -/
theorem OnProgram.exclusive {f : State → SeqEnd} (hc : u.cp ≠ .idle)
    (hf : ∀ v, v.cp ≠ .idle → OnProgram k r W v → SeqSince v (OnProgram k r W) (f v)) :
    EndsWith u (OnProgram k r W) (exclusive f u) :=
  exclusive_ends onProgram_othersKeep (fun _ _ hv => hv.passes ⟨rfl, rfl, .refl _⟩) hc h hf

/-- A request to stop a run changes nothing of its program. -/
theorem OnProgram.stopRequest (j : StepperId) :
    OnProgram k r W (u.modStp j (fun st => { st with run := { st.run with stopReq := true } })) := by
  by_cases hj : k = j
  · subst hj
    obtain ⟨hready, hlegal, ⟨reqs, hsound, hsub⟩, hprogram⟩ := h
    obtain ⟨order, background, pulsing, job, held, between, roles⟩ := hlegal
    have hst := stepper_modStp_self u k (fun st => { st with run := { st.run with stopReq := true } })
    refine ⟨by rw [hst]; exact hready, by rw [hst]; exact ⟨order, background, pulsing, job, held, between, roles⟩,
      ⟨reqs, by rw [hst]; exact hsound.of_same rfl rfl id, hsub⟩, ?_⟩
    rw [hst]
    exact hprogram
  · exact h.modStp hj

/-- The end of a run that goes on and is not in a vector write. -/
theorem OnProgram.endRun (j : StepperId) (e : Option BusError) (b : Bool) (hr : (u.stepper j).run.running = true)
    (hp : (u.stepper j).motion.pulsing = false) (hh : (u.stepper j).held = none) : OnProgram k r W (u.endRun j e b) := by
  by_cases hj : k = j
  · subst hj
    obtain ⟨hready, hlegal, ⟨reqs, hsound, hsub⟩, -⟩ := h
    have hjob : (u.stepper k).job = none := by simpa [hp] using hlegal.pulsing.symm
    have hnone : ((u.endRun k e b).stepper k).job = none := by rw [(endRun_apart u k e b).job, hjob]
    refine ⟨by rw [(endRun_kept k u e b).cfg]; exact hready,
      endRun_runLegal e b hlegal.order hr (hlegal.background hr) ⟨hp, hjob, hh⟩, ⟨[], .of_no_job hnone, ?_⟩,
      fun ho => absurd ho (endRun_not_ongoing e b)⟩
    have ha := hsound.asks
    rw [hjob] at ha
    rw [endRun_bus, ← show reqs = [] from ha]
    exact hsub
  · exact h.passes (passes_endRun e b hj)

/-- `STP_STOP` leaves the program of its stepper, or ends the run. -/
theorem OnProgram.stopRun (j : StepperId) : OnProgram k r W (u.stopRun j) := by
  unfold State.stopRun
  split
  · rename_i hr
    dsimp only
    split
    · exact h.stopRequest j
    · rename_i hs
      have hst := stepper_modStp_self u j (fun st => { st with run := { st.run with stopReq := true } })
      rw [hst] at hs
      obtain ⟨hp, hh⟩ : (u.stepper j).motion.pulsing = false ∧ (u.stepper j).held = none := by simpa using hs
      exact (h.stopRequest j).endRun j none true (by rw [hst]; exact hr) (by rw [hst]; exact hp) (by rw [hst]; exact hh)
  · exact h

end

/-! ### The commands (R221) -/

theorem anyRunning_of_running {s : State} (h : (s.stepper k).run.running = true) : s.anyRunning = true :=
  List.any_eq_true.2 ⟨s.stepper k, by simp [State.stepper, Vector.get_eq_getElem], h⟩

theorem OnProgram.start {s : State} (h : OnProgram k r W s) (i : Instr) : OnProgram k r W (s.start i) :=
  h.passes (.of_same rfl rfl rfl)

/-- A command with a bus sequence. -/
theorem OnProgram.sequence {s : State} {i : Instr} {check : Option Reason} {f : State → SeqEnd} (h : OnProgram k r W s)
    (hf : OnProgram k r W (s.start i) → EndsWith (s.start i) (OnProgram k r W) (f (s.start i))) :
    OnProgram k r W (runSequence i check f s) ∨ TakenByRst s (runSequence i check f s) :=
  runSequence_ends h (fun _ i e hu => hu.endCommand i e) (hf (h.start i))

/-- A change of a stepper by a configuration command, which a busy stepper refuses. -/
theorem OnProgram.configured {s : State} {i : Instr} {j : StepperId} {check : Option Reason} {f : Stepper → Stepper}
    (h : OnProgram k r W s) (hrun : (s.stepper k).run.running = true)
    (hc : (s.stepper j).busy = true → check = some .busy) :
    OnProgram k r W (runLocal i check .none (fun s => s.modStp j f) s) :=
  runLocal_keeps h (fun _ i e hu => hu.endCommand i e) fun hn => h.modStp fun hkj => by
    subst hkj
    rw [hc ((busy_iff _).2 (.inl hrun))] at hn
    cases hn

theorem ne_of_not_running {s : State} {j : StepperId} (hrun : (s.stepper k).run.running = true)
    (hj : (s.stepper j).run.running = false) : k ≠ j := by
  rintro rfl
  rw [hrun] at hj
  cases hj

/-- `STP_ONESTEP` and `STP_RELEASE` of another stepper. -/
theorem OnProgram.finish {s : State} {i : Instr} {e : SeqEnd} {res : Result}
    (he : SeqSince (s.start i) (OnProgram k r W) e) : OnProgram k r W (e.1.finish i res e.2) ∨ TakenByRst s (e.1.finish i res e.2) :=
  finish_ends (s := s) (he.endsWith.of_same rfl rfl rfl rfl) (fun _ i e hu => hu.endCommand i e) i res

/-- `STP_STEP` of another stepper. -/
theorem OnProgram.stpStep {nb : Bool} {j : StepperId} {d : Dir} {n : W32} {s t : State} (h : OnProgram k r W s)
    (hrun : (s.stepper k).run.running = true) (hc : s.cp ≠ .idle) (he : exec (.stpStep nb j d n) s = .next t) :
    OnProgram k r W t ∨ TakenByRst s t := by
  simp only [exec, execStpStep] at he
  cases he
  split
  · exact .inl (h.endCommand _ _)
  · rename_i x hx
    have hj := ne_of_not_running hrun (stepCheck_ok hx).2.1
    have hstart : OnProgram k r W ((s.start (.stpStep nb j d n)).startRun j nb d n) :=
      (h.start _).modStp hj
    split
    · split
      · exact .inl ((hstart.passes (passes_endRun none false hj)).passes (.of_same rfl rfl rfl))
      · exact .inl (hstart.passes (.of_same rfl rfl rfl))
    · have hs := hstart.blockingSteps (x := x) n.toNat hj hc
      generalize Machine.blockingSteps j x n.toNat _ = w at hs
      obtain ⟨u, c⟩ := w
      have hreport : ∀ e, OnProgram k r W u → OnProgram k r W (u.reportRun (.stpStep nb j d n) j e) := fun e hu =>
        ((hu.passes (v := (u.report j false).2) (.of_same (stepper_of_stp (by simp) k) (by simp) (by simp))).modStp hj).endCommand
          _ _
      rcases c with _ | (e | _)
      · exact .inl (hreport none (hs.1 (by simp)).2)
      · exact .inl (hreport (some e) (hs.1 (by simp)).2)
      · exact .inr ((hs.2 rfl).of_same rfl rfl rfl rfl)

/-- Every command leaves a run on its program, or ends it, unless `rst` takes the command. -/
theorem OnProgram.exec {i : Instr} {s t : State} (h : OnProgram k r W s) (hrun : (s.stepper k).run.running = true)
    (hc : s.cp ≠ .idle) (he : exec i s = .next t) : OnProgram k r W t ∨ TakenByRst s t := by
  have hend : ∀ u i e, OnProgram k r W u → OnProgram k r W (State.endCommand u i e) := fun _ i e hu => hu.endCommand i e
  cases i with
  | drvInit nb =>
    cases he
    refine h.sequence fun h1 => EndsWith.of_same ((h1.img _).exclusive hc fun u hu hpu => ?_) rfl rfl rfl rfl
    exact initSequence_since (onProgram_othersKeep u) hu (.refl u) hpu (fun _ hv => hv.img _) (fun _ hv => hv.img _)
      (fun _ hv => hv.img _)
  | drvReset nb =>
    obtain ⟨why, hwhy⟩ : ∃ why, execCheck s (.drvReset nb) = some why := by
      rw [execCheck, if_pos (anyRunning_of_running hrun)]
      split <;> exact ⟨_, rfl⟩
    rw [exec_of_failed hwhy] at he
    cases he
    exact .inl (h.endCommand _ _)
  | drvSetfreq nb rate | stpSetfreq nb _ rate =>
    cases he
    refine h.sequence fun h1 => h1.exclusive hc fun u hu hpu => ?_
    exact freqSequence_since (onProgram_othersKeep u) hu (.refl u) hpu _ fun _ hv => hv.img _
  | drvSetchan nb c on off =>
    cases he
    exact h.sequence fun h1 =>
      (pinWrite_since (s := s.start _) (onProgram_othersKeep _) hc (.refl _) h1 _ _ _ fun _ hv => hv.img _).endsWith
  | drvSetpin nb c v =>
    cases he
    exact h.sequence fun h1 =>
      (pinWrite_since (s := s.start _) (onProgram_othersKeep _) hc (.refl _) h1 _ _ _ fun _ hv => hv.img _).endsWith
  | drvSetall nb on off =>
    cases he
    exact h.sequence fun h1 =>
      (allWrite_since (s := s.start _) (onProgram_othersKeep _) hc (.refl _) h1 _ _ fun _ hv => hv.img _).endsWith
  | drvGetfreq nb =>
    simp only [Machine.exec, execDrvGetfreq] at he
    cases he
    split <;> exact .inl (h.endCommand _ _)
  | stpPins nb j p =>
    cases he
    exact .inl (h.configured hrun fun hb => if_pos hb)
  | stpSetsteps nb j n | stpSetstyle nb j n | stpSetcurrent nb j n =>
    cases he
    exact .inl (h.configured hrun fun hb => if_pos hb)
  | stpSetspeed nb j x v =>
    cases he
    exact .inl (h.configured hrun fun hb => if_pos hb)
  | stpSetmicro nb j m =>
    cases he
    simp only [State.configure, modStp_modStp]
    exact .inl (h.configured hrun fun hb => if_pos hb)
  | stpInit nb j =>
    cases he
    exact .inl (h.configured hrun fun hb => if_pos hb)
  | stpOnestep nb j d =>
    simp only [Machine.exec, execStpOnestep] at he
    cases he
    split
    · exact .inl (h.endCommand _ _)
    · rename_i x hx
      exact OnProgram.finish ((h.start _).stepOnce d (ne_of_not_running hrun (motionCheck_ok hx).2.1) hc
        (.refl _))
  | stpStep nb j d n => exact h.stpStep hrun hc he
  | stpRelease nb j =>
    simp only [Machine.exec, execStpRelease] at he
    cases he
    split
    · exact .inl (h.endCommand _ _)
    · rename_i x hx
      exact OnProgram.finish ((h.start _).vectorWrite _ (ne_of_not_running hrun (motionCheck_ok hx).2.1) hc
        (.refl _))
  | stpStop nb j =>
    cases he
    exact .inl (runLocal_keeps h hend fun _ => h.stopRun j)
  | stpStatus nb j | stpGetrates nb j => cases he; exact .inl (h.endCommand _ _)

/-! ### Every step of the machine -/

theorem onProgram_of_inv {s : State} (hr : RunInv s) (hb : BusInv s) (hx : (s.stepper k).cfg.ready = some r) :
    OnProgram k r (s.engineWrites k ++ (s.stepper k).toWrite r) s :=
  ⟨hx, hr k, ⟨_, (Apart.refl s).enginesSound hr hb k, .refl _⟩, fun _ => rfl⟩

/-- After `rst` no run is active. -/
theorem Discarded.not_running {s t : State} (h : Discarded s t) : (t.stepper k).run.running = false := by
  rw [h.stp k]
  rfl

theorem passes_deliverCp (s : State) : Passes k s s.deliverCp := by
  refine .of_same (stepper_of_stp (deliverCp_stp s) k) ?_ ?_ <;> (unfold State.deliverCp; split <;> [rfl; (split <;> rfl)])

theorem OnProgram.step {s t : State} (h : OnProgram k r W s) (hrun : (s.stepper k).run.running = true) (hs : step s = .next t)
    (ht : (t.stepper k).run.running = true) : OnProgram k r W t := by
  have hdraw : OnProgram k r W s.drawTurn.2 := h.passes (.of_same (stepper_of_stp (by simp) k) (by simp) (by simp))
  rcases step_cases hs with ⟨b, rfl⟩ | rfl | rfl | ⟨q, rest, -, ⟨why, rfl⟩ | ⟨i, -, he⟩⟩
  · rcases background_notRst_or s.drawTurn.2 b with hn | hd
    · exact hdraw.background b hn
    · exact absurd ht (by rw [hd.not_running]; exact Bool.false_ne_true)
  · exact hdraw.passes (passes_deliverCp _)
  · exact hdraw
  · exact hdraw.passes (.of_same rfl rfl rfl)
  · have hgo : ((s.drawTurn.2.take q rest).stepper k).run.running = true := by
      rw [show (s.drawTurn.2.take q rest).stepper k = s.stepper k from stepper_of_stp (by simp [State.take]) k]
      exact hrun
    rcases (hdraw.passes (v := s.drawTurn.2.take q rest) (.of_same rfl rfl rfl)).exec hgo (by simp [State.take]) he with hp | ⟨-, hd⟩
    · exact hp
    · exact absurd ht (by rw [hd.not_running]; exact Bool.false_ne_true)

/-! ### The start of a run (R211) -/

/-- The stepper as a run starts. -/
def Stepper.runStarted (st : Stepper) (s : State) (nb : Bool) (d : Dir) (n : W32) : Stepper :=
  { st with
    run := { running := true, runNB := nb, runDir := d, runCount := n, issued := 0#32, done := 0#32, k := 0#32,
             stopReq := false, runTicket := s.ticket, t0 := s.now }
    motion := { st.motion with retried := 0#32 } }

theorem leaveToEngine_stepper (s : State) (j : StepperId) : s.leaveToEngine.stepper j = s.stepper j := rfl

theorem startRun_stepper (s : State) (k : StepperId) (nb : Bool) (d : Dir) (n : W32) :
    (s.startRun k nb d n).stepper k = (s.stepper k).runStarted s nb d n :=
  stepper_modStp_self s k _

theorem stepCheck_pass {s : State} {nb : Bool} {d : Dir} {n : W32} (h : execCheck s (.stpStep nb k d n) = none) :
    ∃ r, stepCheck s k = .ok r := by
  cases hc : stepCheck s k with
  | ok r => exact ⟨r, rfl⟩
  | error why =>
    rw [← stepCheck_failing, hc] at h
    cases h

/-- A non-blocking run of some steps is started, and left to its engine. -/
theorem exec_stpStep_background {s : State} {d : Dir} {n : W32} (hn : n ≠ 0#32)
    (h : execCheck s (.stpStep true k d n) = none) : exec (.stpStep true k d n) s =
      .next ((s.start (.stpStep true k d n)).startRun k true d n).leaveToEngine := by
  obtain ⟨r, hr⟩ := stepCheck_pass h
  simp only [exec, execStpStep, hr, if_true, if_neg hn]

end

/-- Settles O53: every step keeps a run on its program, whatever the other agents and the CP do (`OnProgram.step`); and a run that
has just started has no vector write in progress and no step issued. -/
theorem backgroundRunProgram : Obligations.BackgroundRunProgram := by
  refine ⟨fun s t k r hrun hbus _ hs hr hgo _ ht hheld => ?_, fun s t k r d n tk hin hrun hr hn hc he => ?_⟩
  · exact ((onProgram_of_inv hrun hbus hr).step hgo hs ht).program ⟨ht, hheld⟩
  · rw [exec_stpStep_background hn hc] at he
    cases he
    obtain ⟨x, hx⟩ := stepCheck_pass hc
    obtain ⟨-, hstop, hp⟩ := stepCheck_ok hx
    have hj := (hrun.cpOwned hstop hp).job
    rw [leaveToEngine_stepper, startRun_stepper]
    exact (toWrite_of_no_job (st := (s.stepper k).runStarted (s.start _) true d n) hj).trans
      (congrArg (fun m => runBytes r d m (s.stepper k).motion.phase (s.stepper k).cache) (Nat.sub_zero _))

end Sys2Proof.Machine
end

section
/-! The completions of a run engine's byte writes (42_stepper_motion.md R208, R209, R214 to R216), told by the run engine's parts. -/

namespace Sys2Proof.Machine

open Sys2Proof

/-! ### The completion of a run engine's byte write (R208) -/

/-- Between `s` and `v` the transaction `x` of run engine `i` has completed, and nothing else has happened. -/
structure TxnCompleted (i : StepperId) (x : Txn) (s v : State) : Prop where
  stp : v.stp = s.stp
  img : v.img = s.img
  cmplq : v.cmplq = s.cmplq
  ports : PortsKept s v
  inflight : v.bus.inflight = none
  reqq : v.bus.reqq = s.bus.reqq
  lock : v.bus.lock = s.bus.lock
  trace : ∃ byte, v.trace = .txn (.engine i) x (s.answerAt 0).ok byte :: s.trace

section

variable {i : StepperId} {x : Txn} {s t v : State}

/-- A completion of the bus master for run engine `i`: the transaction, and then the engine's reaction. -/
theorem Moves.completion (h : Moves .bus s t) (hi : s.bus.inflight = some { who := .engine i, txn := x }) :
    ∃ v, t = v.engineReply i x (s.answerAt 0).ok ∧ TxnCompleted i x s v := by
  have ha : s.drawTurn.2.drawAnswer.1 = s.answerAt 0 := by
    obtain ⟨rest, hr, -⟩ := h
    rw [drawAnswer_fst]
    simp [State.drawTurn, hr, State.answerAt]
  let v := s.drawTurn.2.drawAnswer.2.completeTxn (.engine i) x (s.answerAt 0)
  refine ⟨v, ?_, by simp [v], by simp [v], by simp [v], by simp [v, PortsKept, HostSideKept], by simp [v], by simp [v],
    by simp [v], ⟨_, by simp [v]; rfl⟩⟩
  rw [h.eq, State.background]
  simp [State.busStep, hi, ha, v]

theorem EngineKept.ports (h : EngineKept i s t) : PortsKept s t :=
  ⟨h.cp, h.cpHeld, h.sync, h.hostWait, h.mixedMode, h.cmdq, h.nextTicket, h.popped, h.host⟩

theorem PortsKept.trans (h : PortsKept s v) (h' : PortsKept v t) : PortsKept s t := by
  obtain ⟨h1, h2, h3, h4, h5, h6, h7, h8, h9⟩ := h
  obtain ⟨g1, g2, g3, g4, g5, g6, g7, g8, g9⟩ := h'
  exact ⟨g1.trans h1, g2.trans h2, g3.trans h3, g4.trans h4, g5.trans h5, g6.trans h6, g7.trans h7, g8.trans h8, g9.trans h9⟩

/-- The end of a run leaves all of its stepper but the run and the held record. -/
theorem endRun_leaves (s : State) (i : StepperId) (e : Option BusError) (b : Bool) :
    ((s.endRun i e b).stepper i).cache = (s.stepper i).cache ∧ ((s.endRun i e b).stepper i).motion = (s.stepper i).motion ∧
    ((s.endRun i e b).stepper i).job = (s.stepper i).job := by
  rcases endRun_stepper s i e b with h | ⟨r, h⟩ <;> rw [h] <;> exact ⟨rfl, rfl, rfl⟩

/-- The end of a run whose stepper has just become `f` of what it was. -/
theorem endRun_modStp (i : StepperId) (f : Stepper → Stepper) (e : Option BusError) (b : Bool)
    (hc : v.cmplq = s.cmplq) (hh : (f (v.stepper i)).held = (s.stepper i).held) :
    let u := (v.modStp i f).endRun i e b
    let st := f (v.stepper i)
    u.img = v.img ∧ (u.stepper i).cache = st.cache ∧ (u.stepper i).motion = st.motion ∧ (u.stepper i).job = st.job ∧
      ∃ ms, RunEnded i s u st.run (runRecord st.run ms st.motion.retried b e) := by
  intro u st
  have hst : (v.modStp i f).stepper i = st := stepper_modStp_self v i f
  obtain ⟨hcache, hmotion, hjob⟩ := endRun_leaves (v.modStp i f) i e b
  obtain ⟨ms, hend⟩ := endRun_runEnded (v.modStp i f) i e b
  rw [hst] at hcache hmotion hjob hend
  exact ⟨endRun_img .., hcache, hmotion, hjob, ms, hend.of_same hc (by rw [hst]; exact hh)⟩

variable {j : VecJob}

/-- A failed byte write ends the run (R216). -/
theorem TxnCompleted.failed (h : TxnCompleted i x s v) (hj : (s.stepper i).job = some j) :
    let u := v.engineReply i x false
    let a := s.stepper i
    let b := u.stepper i
    u.img = s.img ∧ b.cache = a.cache ∧ b.motion = { a.motion with pulsing := false } ∧ b.job = none ∧
      ∃ ms, RunEnded i s u a.run (runRecord a.run ms a.motion.retried false (some (busErrorOf x))) := by
  have hst : v.stepper i = s.stepper i := stepper_of_stp h.stp i
  rw [engineReply_failed (hst ▸ hj), vectorDone_failed]
  have he := endRun_modStp (s := s) (v := v) i Stepper.vectorEnded (some (busErrorOf x)) false h.cmplq (by rw [hst]; rfl)
  rw [hst, h.img] at he
  exact he

/-- A confirmed byte write that is not a pin's last one. -/
theorem TxnCompleted.more (h : TxnCompleted i x s v) {w y : Byte × Byte} {rest : List (Byte × Byte)}
    (hj : (s.stepper i).job = some j) (hw : j.left = w :: y :: rest) :
    let u := v.engineReply i x true
    u.img = s.img ∧ u.cmplq = s.cmplq ∧
      u.stepper i = { s.stepper i with job := some { j with left := y :: rest, outstanding := false } } := by
  have hst : v.stepper i = s.stepper i := stepper_of_stp h.stp i
  rw [engineReply_more (hst ▸ hj) hw]
  exact ⟨h.img, h.cmplq, by rw [stepper_modStp_self, hst]⟩

/-- A pin's last byte write confirms the pin in image and cache, and the vector write goes on. -/
theorem TxnCompleted.last (h : TxnCompleted i x s v) {w : Byte × Byte} (hj : (s.stepper i).job = some j) (hw : j.left = [w]) :
    ∃ u : State, v.engineReply i x true = u.nextPin i j.rest ∧ u.img = s.img.setChannel j.task.chan j.task.on j.task.off ∧
      u.cmplq = s.cmplq ∧ u.stepper i = (s.stepper i).withPin j.task := by
  have hst : v.stepper i = s.stepper i := stepper_of_stp h.stp i
  refine ⟨v.pinWritten i j.task, engineReply_last (hst ▸ hj) hw, ?_, h.cmplq, ?_⟩
  · rw [pinWritten_img, h.img]
  · rw [pinWritten_stepper_self, hst]
    rfl

end

/-- Where the stop request ends the run, or its last step has been done. -/
theorem vectorDone_none_ends {u : State} {i : StepperId}
    (h : (u.stepper i).run.done + 1#32 = (u.stepper i).run.runCount ∨ (u.stepper i).run.stopReq = true) :
    u.vectorDone i none = (u.modStp i Stepper.stepDone).endRun i none
      (decide ((u.stepper i).run.done + 1#32 ≠ (u.stepper i).run.runCount)) := by
  rw [vectorDone_none_eq]
  by_cases hlast : (u.stepper i).run.done + 1#32 = (u.stepper i).run.runCount
  · simp [hlast]
  · simp [hlast, h.resolve_left hlast]

theorem vectorDone_none_goes_on {u : State} {i : StepperId} (hn : (u.stepper i).run.done + 1#32 ≠ (u.stepper i).run.runCount)
    (hs : (u.stepper i).run.stopReq = false) : u.vectorDone i none = u.modStp i Stepper.stepDone := by
  simp [vectorDone_none_eq, hn, hs]

section

variable {s u : State} {i : StepperId} {tasks : List PinTask}

/-- The next pin of a vector write, where one differs from the cache. -/
theorem nextPin_writes {y : PinTask} {rest : List PinTask} (h : changedTasks (u.stepper i).cache tasks = y :: rest) :
    let v := u.nextPin i tasks
    let b := v.stepper i
    v.img = u.img ∧ v.cmplq = u.cmplq ∧ b.cache = (u.stepper i).cache ∧ b.run = (u.stepper i).run ∧
      b.motion = (u.stepper i).motion ∧ b.held = (u.stepper i).held ∧
      ∃ n, b.job = some n ∧ n.task = y ∧ n.outstanding = false ∧ n.left = pinWrites y.chan y.on y.off := by
  obtain ⟨l, e, -⟩ := nextPin_of_cons h
  rw [e]
  dsimp only
  rw [stepper_modStp_self]
  exact ⟨rfl, rfl, rfl, rfl, rfl, rfl, _, rfl, rfl, rfl, rfl⟩

/-- A vector write with no pin left to write: the step is done. -/
theorem nextPin_ends (h : changedTasks (u.stepper i).cache tasks = []) (hq : u.cmplq = s.cmplq)
    (hh : (u.stepper i).held = (s.stepper i).held) :
    let v := u.nextPin i tasks
    let a := u.stepper i
    let b := v.stepper i
    v.img = u.img ∧ b.cache = a.cache ∧ b.motion = { a.motion with pulsing := false } ∧ b.job = none ∧
      (a.run.done + 1#32 ≠ a.run.runCount → a.run.stopReq = false →
        v.cmplq = s.cmplq ∧ b.held = (s.stepper i).held ∧ b.run = { a.run with done := a.run.done + 1#32 }) ∧
      (a.run.done + 1#32 = a.run.runCount ∨ a.run.stopReq = true → ∃ ms, RunEnded i s v a.stepDone.run
        (runRecord a.stepDone.run ms a.motion.retried (decide (a.run.done + 1#32 ≠ a.run.runCount)) none)) := by
  intro v a b
  have hv : v = u.vectorDone i none := nextPin_of_nil h
  by_cases hend : a.run.done + 1#32 = a.run.runCount ∨ a.run.stopReq = true
  · obtain ⟨himg, hcache, hmotion, hjob, hrun⟩ := endRun_modStp (s := s) (v := u) i Stepper.stepDone none
      (decide (a.run.done + 1#32 ≠ a.run.runCount)) hq hh
    rw [← vectorDone_none_ends hend, ← hv] at himg hcache hmotion hjob hrun
    exact ⟨himg, hcache, hmotion, hjob, fun hn hs => by simp [hn, hs] at hend, fun _ => hrun⟩
  · obtain ⟨hn, hs⟩ := not_or.1 hend
    rw [vectorDone_none_goes_on hn (by simpa using hs)] at hv
    have hb : b = a.stepDone := by rw [← stepper_modStp_self u i Stepper.stepDone, ← hv]
    rw [hb]
    exact ⟨by rw [hv]; rfl, rfl, rfl, rfl, fun _ _ => ⟨by rw [hv]; exact hq, hh, rfl⟩, fun h => absurd h hend⟩

end

/-- Settles O46: the completion is the transaction and then the engine's reaction (`Moves.completion`), which is `vectorDone` after a
failure, the next byte, or after a pin's last byte the next pin that differs, and the end of the step where there is none. -/
theorem engineCompletion : Obligations.EngineCompletion := by
  intro i s t x j hm hi hj
  dsimp only
  obtain ⟨v, rfl, hv⟩ := hm.completion hi
  have hkept := engineReply_kept i v x (s.answerAt 0).ok
  have hst : ∀ k, v.stepper k = s.stepper k := stepper_of_stp hv.stp
  refine ⟨by rw [engineReply_bus, hv.inflight], by rw [engineReply_bus, hv.reqq], by rw [engineReply_bus, hv.lock],
    fun k hk => by rw [hkept.others k hk, hst], hv.ports.trans hkept.ports, by rw [hkept.cfg, hst],
    by rw [engineReply_trace]; exact hv.trace, fun hok => ?_, fun hok => ⟨fun w y more hw => ?_, fun w hw => ?_⟩⟩
  · rw [hok]
    exact hv.failed hj
  · rw [hok]
    exact hv.more hj hw
  · rw [hok]
    obtain ⟨u, hu, himg, hq, hstu⟩ := hv.last hj hw
    have hcache : (u.stepper i).cache = (s.stepper i).cache.set j.task.role (some j.task.value) := by rw [hstu]; rfl
    rw [hu, ← hcache, ← himg]
    cases hl : changedTasks (u.stepper i).cache j.rest with
    | cons y rest =>
      obtain ⟨hi, hq', hc, hrun, hmotion, hheld, hjob⟩ := nextPin_writes hl
      rw [hstu] at hrun hmotion hheld
      refine ⟨hi, hc, fun y' rest' e => ?_, nofun⟩
      obtain ⟨rfl, rfl⟩ := List.cons.inj e
      exact ⟨hq'.trans hq, hrun, hmotion, hheld, hjob⟩
    | nil =>
      obtain ⟨hi, hc, hrest⟩ := nextPin_ends (s := s) hl hq (by rw [hstu]; rfl)
      rw [hstu] at hrest
      exact ⟨hi, hc, nofun, fun _ => hrest⟩

end Sys2Proof.Machine
end

section
/-! The stop and the start of a background run (42_stepper_motion.md R211, R215, R217): `STP_STOP` asks the engine to stop, or ends the run
itself; a non-blocking `STP_STEP` sets the run's fields and leaves the CP, and a run of no steps ends at once. -/

namespace Sys2Proof.Machine

open Sys2Proof

/-! ### The end of a run, seen from outside -/

section

variable (s : State) (i : StepperId) (e : Option BusError) (b : Bool)

theorem endRun_now : (s.endRun i e b).now = s.now := by
  cases h : s.cmplRoom with
  | true => rw [endRun_of_room i e b h, modStp_now]; simp
  | false => rw [endRun_of_full i e b h, modStp_now]; simp

/-- With room in `cmplq` the run is over at once. -/
theorem endRun_with_room (h : s.cmplRoom = true) :
    (s.endRun i e b).stepper i = { s.stepper i with run := (s.stepper i).run.ended } ∧
    (s.endRun i e b).cmplq =
      s.cmplq ++ [runRecord (s.stepper i).run s.drawDuration.1 (s.stepper i).motion.retried b e] := by
  have hs : State.stepper { s.drawDuration.2 with cmplq := s.cmplq ++
      [runRecord (s.stepper i).run s.drawDuration.1 (s.stepper i).motion.retried b e] } i = s.stepper i :=
    stepper_of_stp (by simp) i
  rw [endRun_of_room i e b h, stepper_modStp_self, hs]
  exact ⟨rfl, rfl⟩

end

/-! ### `STP_STOP` (R217) -/

section

variable {s : State} {k : StepperId}

/-- The stepper with a stop pending. -/
def Stepper.stopRequested (st : Stepper) : Stepper := { st with run := { st.run with stopReq := true } }

/-- A stop of an active run: only the request, during a vector write and while the report waits; else the run ends. -/
theorem stopRun_eq (s : State) (k : StepperId) : s.stopRun k =
    if (s.stepper k).run.running then
      if (s.stepper k).motion.pulsing || (s.stepper k).held.isSome then s.modStp k Stepper.stopRequested
      else (s.modStp k Stepper.stopRequested).endRun k none true
    else s := by
  have h : s.stopRun k =
      let u := s.modStp k Stepper.stopRequested
      if (s.stepper k).run.running then
        if (u.stepper k).motion.pulsing || (u.stepper k).held.isSome then u else u.endRun k none true
      else s := rfl
  rw [h]
  dsimp only
  rw [stepper_modStp_self]
  rfl

end

/-- Settles O44: the three cases of the stop are those of `stopRun_of_idle`, `stopRun_of_engaged` and `stopRun_of_between`; with room in
`cmplq` the run's own record joins it before the command answers. -/
theorem stopRun : Obligations.StopRun := by
  intro nb k s tk hin
  have he : ∀ u, s.stopRun k = u → exec (.stpStop nb k) s = .next (u.endCommand (.stpStop nb k) (.complete .none)) := by
    rintro _ rfl
    rfl
  refine ⟨fun hr => ?_, fun hr h => ?_, fun hr hp hh hroom => ?_⟩
  · exact ⟨_, he s (by simp [stopRun_eq, hr]), endCommand_complete (i := .stpStop nb k) .none hin⟩
  · obtain ⟨⟨hstp, hlocal⟩, hresponse⟩ :=
      endCommand_complete (i := .stpStop nb k) (s := s.modStp k Stepper.stopRequested) .none hin
    have hstop : s.stopRun k = s.modStp k Stepper.stopRequested := by
      rw [stopRun_eq, if_pos hr, if_pos (by simpa [Option.isSome_iff_ne_none] using h)]
    exact ⟨_, he _ hstop, hlocal, fun j hj => (stepper_of_stp hstp j).trans (stepper_modStp_of_ne s _ hj),
      (stepper_of_stp hstp k).trans (stepper_modStp_self s k _), hresponse⟩
  · let v := s.modStp k Stepper.stopRequested
    have hv : v.stepper k = (s.stepper k).stopRequested := stepper_modStp_self ..
    have hstop : s.stopRun k = v.endRun k none true := by
      rw [stopRun_eq, if_pos hr, if_neg (by simp [hp, hh])]
    obtain ⟨hst, hq⟩ := endRun_with_room v k none true (cmplRoom_iff.2 hroom)
    rw [hv] at hst hq
    have hk := endRun_kept k v none true
    have hin' : (v.endRun k none true).inCommand tk := by
      obtain ⟨w, n, hcp⟩ := hin
      exact ⟨w, n, hk.cp.trans hcp⟩
    obtain ⟨⟨hstp, himg, ⟨hbus, htrace, hnow, -⟩, hflag, hcmdq, hnext, hpopped, hhost⟩, -⟩ :=
      endCommand_complete (i := .stpStop nb k) .none hin'
    refine ⟨_, v.drawDuration.1, he _ hstop, fun j hj => ?_, himg.trans (endRun_img ..), hbus.trans (endRun_bus ..),
      htrace.trans (endRun_trace ..), hnow.trans (endRun_now ..), hflag.trans hk.mixedMode,
      ⟨hcmdq.trans hk.cmdq, hnext.trans hk.nextTicket, hpopped.trans hk.popped, hhost.trans hk.host⟩,
      (stepper_of_stp hstp k).trans hst, ?_⟩
    · rw [stepper_of_stp hstp j, hk.others j hj]
      exact stepper_modStp_of_ne s _ hj
    · rw [State.endCommand, ticket_of_inCommand hin']
      exact respond_responded nb _ hk.sync hk.hostWait hq hk.cpHeld (by simp only [State.ticket, hk.cp]; rfl) (by rw [hk.cp]; rfl)

/-! ### A non-blocking `STP_STEP` (R211) -/

/-- A non-blocking run of no steps has ended before it is left to its engine. -/
theorem exec_stpStep_no_steps {s : State} {k : StepperId} {d : Dir} (h : execCheck s (.stpStep true k d 0#32) = none) :
    exec (.stpStep true k d 0#32) s =
      .next (((s.start (.stpStep true k d 0#32)).startRun k true d 0#32).endRun k none false).leaveToEngine := by
  obtain ⟨r, hr⟩ := stepCheck_pass h
  simp only [exec, execStpStep, hr, if_true]

/-- Settles O43: the run's fields are set (`startRun_stepper`) and the CP leaves the run to its engine; a run of no steps has ended
(`endRun_runEnded`). -/
theorem backgroundRunStarts : Obligations.BackgroundRunStarts := by
  intro k d count r s tk hin hinit hready hspeed hrun hp
  have hpass : execCheck s (.stpStep true k d count) = none := by simp [execCheck, hinit, hready, hspeed, hrun, hp]
  let u := (s.start (.stpStep true k d count)).startRun k true d count
  have hu : u.stepper k = (s.stepper k).runStarted s true d count := startRun_stepper ..
  have hflag : u.mixedMode = s.mixedMode := by simp [u, State.startRun, State.start, Instr.nb]
  have hothers : OthersKept k s u := fun j hj => stepper_modStp_of_ne _ _ hj
  have htk := ticket_of_inCommand hin
  by_cases hn : count = 0#32
  · subst hn
    have hk := endRun_kept k u none false
    obtain ⟨hcache, hmotion, -⟩ := endRun_leaves u k none false
    obtain ⟨ms, hend⟩ := endRun_runEnded u k none false
    rw [hu] at hcache hmotion hend
    refine ⟨_, exec_stpStep_no_steps hpass, rfl, hk.sync, hk.hostWait, endRun_bus .., endRun_trace .., endRun_img ..,
      fun j hj => (hk.others j hj).trans (hothers j hj), hk.mixedMode.trans hflag,
      ⟨hk.cmdq, hk.nextTicket, hk.popped, hk.host⟩, (hk.cfg k).trans (by rw [hu]; rfl), hcache, hmotion,
      fun h => absurd rfl h, fun _ => ⟨ms, ?_⟩⟩
    rw [← htk]
    exact hend.of_same rfl (by rw [hu]; rfl)
  · refine ⟨_, exec_stpStep_background hn hpass, rfl, rfl, rfl, rfl, rfl, rfl, hothers, hflag, ⟨rfl, rfl, rfl, rfl⟩, ?_, ?_, ?_,
      fun _ => ⟨rfl, rfl, ?_⟩, fun h => absurd h hn⟩
    all_goals rw [leaveToEngine_stepper, startRun_stepper]
    · rfl
    · rfl
    · rfl
    · rw [← htk]
      rfl

end Sys2Proof.Machine
end

section
/-! The sequencer's arithmetic (42_stepper_motion.md R200 to R208): the phase advance and its inverse, the coil vector of a phase, the
scaled duty, and the pins of a vector; and the two reports (R219, R220). -/

namespace Sys2Proof.Machine

open Sys2Proof

/-! ### The phase advance (R201) -/

section

variable (p : BitVec 6) (st : Style) (ms : Micro)

/-- No increment is longer than the range of the phase. -/
theorem phaseInc_le : phaseInc st ms ≤ 4 * ms.count := by
  cases st <;> cases ms <;> decide

theorem advance_fwd_toNat : (advance p .fwd st ms).toNat = (p.toNat + phaseInc st ms) % (4 * ms.count) := by
  have hlt := Nat.mod_lt (p.toNat + phaseInc st ms + 4 * ms.count) (Nat.mul_pos (n := 4) (by decide) (micro_count_pos ms))
  have hle := micro_count_le ms
  rw [advance, BitVec.toNat_ofNat, Nat.mod_eq_of_lt (a := _ % _) (by omega), Nat.add_mod_right]

theorem advance_back_toNat :
    (advance p .back st ms).toNat = (p.toNat + (4 * ms.count - phaseInc st ms)) % (4 * ms.count) := by
  have hlt := Nat.mod_lt (p.toNat + 4 * ms.count - phaseInc st ms) (Nat.mul_pos (n := 4) (by decide) (micro_count_pos ms))
  have hle := micro_count_le ms
  rw [advance, BitVec.toNat_ofNat, Nat.mod_eq_of_lt (a := _ % _) (by omega), Nat.add_sub_assoc (phaseInc_le st ms)]

end

/-- Settles O12: a phase is below 64, so that nothing of the sum is lost, and the increment is at most `4*ms`. -/
theorem advanceFormula : Obligations.AdvanceFormula := by
  intro p d st ms inc
  have hinc : inc = (phaseInc st ms : ℤ) := by cases st <;> rfl
  have hle := phaseInc_le st ms
  cases d with
  | fwd =>
    rw [advance_fwd_toNat, if_pos rfl, hinc, Int.add_emod_right]
    rfl
  | back =>
    rw [advance_back_toNat, if_neg nofun, hinc]
    push_cast [hle]
    congr 1
    ring

/-- In range, a step and the step back cancel, whichever comes first. -/
theorem advance_advance {p : BitVec 6} {ms : Micro} (st : Style) (h : p.toNat < 4 * ms.count) :
    advance (advance p .fwd st ms) .back st ms = p ∧ advance (advance p .back st ms) .fwd st ms = p := by
  have hle := phaseInc_le st ms
  constructor <;> apply BitVec.eq_of_toNat_eq
  · rw [advance_back_toNat, advance_fwd_toNat, Nat.mod_add_mod, Nat.add_assoc, Nat.add_sub_cancel' hle, Nat.add_mod_right,
      Nat.mod_eq_of_lt h]
  · rw [advance_fwd_toNat, advance_back_toNat, Nat.mod_add_mod, Nat.add_assoc, Nat.sub_add_cancel hle, Nat.add_mod_right,
      Nat.mod_eq_of_lt h]

/-- A map that undoes another on a set which the first keeps undoes any number of its steps there. -/
theorem iterate_cancel_on {α : Type} {f g : α → α} {P : α → Prop} (hf : ∀ x, P (f x)) (hg : ∀ x, P x → g (f x) = x)
    (n : ℕ) : ∀ x, P x → g^[n] (f^[n] x) = x := by
  induction n with
  | zero => exact fun _ _ => rfl
  | succ n ih =>
    intro x hx
    rw [Function.iterate_succ_apply f, Function.iterate_succ_apply' g, ih _ (hf x), hg x hx]

/-- Settles O13: a step and the step back cancel in range (`advance_advance`), and every advance is in range. -/
theorem advanceRoundTrip : Obligations.AdvanceRoundTrip := fun n p st ms h =>
  ⟨iterate_cancel_on (P := fun q => q.toNat < 4 * ms.count) (fun q => advance_lt q .fwd st ms)
      (fun _ hq => (advance_advance st hq).1) n p h,
    iterate_cancel_on (P := fun q => q.toNat < 4 * ms.count) (fun q => advance_lt q .back st ms)
      (fun _ hq => (advance_advance st hq).2) n p h⟩

/-! ### The coil vector (R200 to R205) -/

/-- The coil states of a vector come from its table entry. -/
theorem coilVector_coils {n : ℕ} (h : n < 8) (pA pB : Byte) :
    Config.coilTable[n]? = some ((coilVector pA pB n).a1, (coilVector pA pB n).a2, (coilVector pA pB n).b1, (coilVector pA pB n).b2) := by
  simp [coilVector, Nat.mod_eq_of_lt h, Vector.get_eq_getElem, h]

/-- Half a step fits eight times into the range of the phase. -/
theorem div_half_lt {n : ℕ} {ms : Micro} (h : n < 4 * ms.count) : n / (ms.count / 2) < 8 := by
  cases ms <;> simp only [Micro.count] at * <;> omega

/-- Settles O14: every index is below 8, so that it is that of a table entry (`coilVector_coils`); the duties are the ones given. -/
theorem coilVectors : Obligations.CoilVectors := by
  intro p ms hp
  have hpos := micro_count_pos ms
  have entry : ∀ {n : ℕ} (_ : n < 8) (pA pB : Byte), Config.coilTable.toList[n]? = _ := fun h pA pB =>
    (Vector.getElem?_toList).trans (coilVector_coils h pA pB)
  have hdouble := div_half_lt (Nat.mod_lt (p.toNat + ms.count / 2) (Nat.mul_pos (n := 4) (by decide) hpos))
  have hq : 2 * (p.toNat / ms.count) + 1 < 8 := by
    have := Nat.div_lt_of_lt_mul (Nat.mul_comm 4 _ ▸ hp)
    omega
  refine ⟨fun st hst => ?_, ⟨entry hdouble _ _, rfl, rfl⟩, ?_, ?_⟩
  · rcases hst with rfl | rfl <;> exact ⟨entry (div_half_lt hp) _ _, rfl, rfl⟩
  · simp only [vectorOf]
    split
    · exact ⟨entry hq _ _, rfl, rfl⟩
    · exact ⟨entry hq _ _, rfl, rfl⟩
  · rintro rfl n hn
    have hlt : n < 9 := by omega
    exact (Vector.getElem?_toList (xs := Config.curve8)).trans (by simp [curveAt, hlt])

/-! ### The scaled duty (R206) -/

theorem scaleDuty_toNat (d : Byte) {cur : BitVec 16} (h : cur.toNat ≤ 32768) :
    (scaleDuty cur d).toNat = d.toNat * 16 * cur.toNat / 32768 := by
  have hd := d.isLt
  have hle : d.toNat * 16 * cur.toNat ≤ 255 * 16 * 32768 := Nat.mul_le_mul (by omega) h
  rw [scaleDuty, Config.dutyScale, BitVec.toNat_ofNat]
  exact Nat.mod_eq_of_lt (by omega)

/-- Settles O15: nothing of the product is lost (`scaleDuty_toNat`), and the quotient of natural numbers is the floor. -/
theorem dutyScaling : Obligations.DutyScaling := by
  intro d cur h
  refine ⟨?_, scaleDuty_le cur d h, by decide, ?_⟩
  · rw [scaleDuty_toNat d h]
    exact_mod_cast (Rat.floor_natCast_div_natCast (d.toNat * 16 * cur.toNat) 32768).symm
  · rw [scaleDuty_toNat d (by decide), scaleDuty_toNat d (by decide)]
    simp only [BitVec.toNat_ofNat]
    omega

/-! ### The pins of a vector (R206 to R208) -/

theorem coilTask_ticks (r : Ready) (role : Role) {b v : Bool} (h : b = v) :
    let t := coilTask r role v
    (b = true → t.on = 4096#13 ∧ t.off = 0#13 ∧ t.value = 1#13) ∧
      (b = false → t.on = 0#13 ∧ t.off = 4096#13 ∧ t.value = 0#13) := by
  subst h
  cases b <;> simp [coilTask, levelTicks]

/-- Settles O16: the two PWM pins carry the scaled duty, the four coil pins the ticks of their state (`coilTask_ticks`). -/
theorem vectorPins : Obligations.VectorPins := by
  intro r v
  refine ⟨rfl, fun t ht => ?_⟩
  simp only [vectorTasks, List.mem_cons, List.not_mem_nil, or_false] at ht
  rcases ht with rfl | rfl | rfl | rfl | rfl | rfl
  · exact ⟨rfl, by simp [pwmTask], by simp [pwmTask]⟩
  · exact ⟨rfl, by simp [pwmTask], by simp [pwmTask]⟩
  · exact ⟨rfl, by simp [coilTask], fun _ hb => coilTask_ticks r .a1 (by simpa [coilTask] using hb)⟩
  · exact ⟨rfl, by simp [coilTask], fun _ hb => coilTask_ticks r .a2 (by simpa [coilTask] using hb)⟩
  · exact ⟨rfl, by simp [coilTask], fun _ hb => coilTask_ticks r .b1 (by simpa [coilTask] using hb)⟩
  · exact ⟨rfl, by simp [coilTask], fun _ hb => coilTask_ticks r .b2 (by simpa [coilTask] using hb)⟩

/-! ### The reports (R219, R220) -/

/-- A field of six bits, bit 0 last. -/
theorem sixBits_getLsbD : ∀ b0 b1 b2 b3 b4 b5 : Bool,
    let v : BitVec 6 := BitVec.ofBool b5 ++ (BitVec.ofBool b4 ++ (BitVec.ofBool b3 ++ (BitVec.ofBool b2 ++
      (BitVec.ofBool b1 ++ BitVec.ofBool b0))))
    v.getLsbD 0 = b0 ∧ v.getLsbD 1 = b1 ∧ v.getLsbD 2 = b2 ∧ v.getLsbD 3 = b3 ∧ v.getLsbD 4 = b4 ∧ v.getLsbD 5 = b5 := by
  decide

/-- The bits of `cacheValid` are in the order of the roles. -/
theorem cacheValidField_getLsbD (c : RoleMap (Option Tick)) {n : ℕ} {x : Role}
    (h : [Role.pwma, .a1, .a2, .pwmb, .b1, .b2][n]? = some x) : (cacheValidField c).getLsbD n = (c.get x).isSome := by
  obtain ⟨h0, h1, h2, h3, h4, h5⟩ := sixBits_getLsbD c.pwma.isSome c.a1.isSome c.a2.isSome c.pwmb.isSome c.b1.isSome c.b2.isSome
  match n, h with
  | 0, rfl => exact h0
  | 1, rfl => exact h1
  | 2, rfl => exact h2
  | 3, rfl => exact h3
  | 4, rfl => exact h4
  | 5, rfl => exact h5

theorem roleMap_get_map {α β : Type} (f : α → β) (m : RoleMap α) (x : Role) : (m.map f).get x = f (m.get x) := by
  cases x <;> rfl

/-- Settles O31: the command answers with `statusReport` and does nothing else (`endCommand_complete`); the rest reads its fields. -/
theorem statusSnapshot : Obligations.StatusSnapshot := by
  intro nb k s tk hin
  obtain ⟨hnone, hresponse⟩ := endCommand_complete (i := .stpStatus nb k) (.status (statusReport s.img (s.stepper k))) hin
  refine ⟨_, statusReport s.img (s.stepper k), rfl, hnone, hresponse, ?_⟩
  refine ⟨fun h => ⟨by simp [statusReport, h], fun x => by simp only [statusReport, h]; cases x <;> rfl⟩,
    fun p h => by simp [statusReport, h], fun h => by simp [statusReport, h], fun n h => by simp [statusReport, h],
    fun h => by simp [statusReport, h], fun m h => by simp only [statusReport, h]; cases m <;> rfl,
    fun h => by simp [statusReport, h, styleField], fun y h => by simp only [statusReport, h]; cases y <;> rfl,
    fun h => by simp [statusReport, h], fun n h => by simp [statusReport, h],
    rfl, rfl, rfl, rfl, rfl, ?_, rfl, rfl, rfl, rfl, rfl, rfl, fun n x h => cacheValidField_getLsbD _ h,
    fun x h => by simp [statusReport, roleMap_get_map, h], fun x v h => by simp [statusReport, roleMap_get_map, h], rfl, rfl⟩
  simp only [statusReport]
  cases (s.stepper k).run.runDir <;> rfl

end Sys2Proof.Machine

namespace Sys2Proof.Laws

open Sys2Proof Sys2Proof.Machine

/-- Settles O32: the command answers with the model's report of the rates and does nothing else (`endCommand_complete`); the rest reads
the report's fields. -/
theorem ratesReport : Obligations.RatesReport := by
  intro nb k s tk hin
  obtain ⟨hnone, hresponse⟩ := endCommand_complete (i := .stpGetrates nb k) (.rates (Machine.ratesReport (s.stepper k).cfg)) hin
  refine ⟨_, Machine.ratesReport (s.stepper k).cfg, rfl, hnone, hresponse, ?_⟩
  refine ⟨fun h => ?_, fun h => ?_, fun h => ?_, fun h => ?_, fun h => ?_, fun v h => ?_, fun h => ?_, fun q h => ?_, fun h => ?_,
    fun q h => ?_⟩
  all_goals simp [Machine.ratesReport, pulsePeriod, fractionOpt, unitField, h]

end Sys2Proof.Laws
end

section
/-! Vector writes of the CP where no other agent has anything to do (42_stepper_motion.md R207 to R210, R216, R218; 20_memory.md R64): the
pins that differ from the cache are written up to the first failure, and image and cache take exactly the confirmed ones. -/

namespace Sys2Proof.Machine

open Sys2Proof

/-! ### The pins that are confirmed -/

section

variable (ans : ℕ → Answer)

theorem taskItems_append (a b : List PinTask) : taskItems (a ++ b) = taskItems a ++ taskItems b := List.flatMap_append

theorem txnCount_taskItems (l : List PinTask) : txnCount (taskItems l) = 4 * l.length := by
  induction l with
  | nil => rfl
  | cons t l ih =>
    rw [show taskItems (t :: l) = pinItems t.chan t.on t.off ++ taskItems l from rfl, txnCount_append, ih, List.length_cons,
      show txnCount (pinItems t.chan t.on t.off) = 4 from rfl]
    omega

theorem confirmedTasks_shift (n m : ℕ) (l : List PinTask) :
    confirmedTasks ans (n + m) l = confirmedTasks (fun j => ans (n + j)) m l := by
  induction l generalizing m with
  | nil => rfl
  | cons t l ih =>
    simp only [confirmedTasks, Nat.add_assoc]
    rw [ih (m + 4)]

/-- The answers to a pin's four byte writes, and then to those of the pins after it. -/
theorem answers_pin_iff (n k : ℕ) : (∀ m, m < k + 4 → (ans (n + m)).ok = true) ↔
    ((ans n).ok && (ans (n + 1)).ok && (ans (n + 2)).ok && (ans (n + 3)).ok) = true ∧ ∀ m, m < k → (ans (n + 4 + m)).ok = true := by
  simp only [Bool.and_eq_true]
  refine ⟨fun h => ⟨⟨⟨⟨h 0 (by omega), h 1 (by omega)⟩, h 2 (by omega)⟩, h 3 (by omega)⟩, fun m hm => ?_⟩, ?_⟩
  · rw [Nat.add_assoc]
    exact h (4 + m) (by omega)
  · rintro ⟨⟨⟨⟨h0, h1⟩, h2⟩, h3⟩, hrest⟩ m hm
    match m with
    | 0 => exact h0
    | 1 => exact h1
    | 2 => exact h2
    | 3 => exact h3
    | m + 4 =>
      have := hrest m (by omega)
      rwa [Nat.add_assoc, Nat.add_comm 4] at this

/-- The pins after some whose byte writes all succeed come to their turn; after a failure they do not. -/
theorem confirmedTasks_append (n : ℕ) (a b : List PinTask) :
    ((∀ m, m < 4 * a.length → (ans (n + m)).ok = true) →
      confirmedTasks ans n (a ++ b) = a ++ confirmedTasks ans (n + 4 * a.length) b) ∧
    ((¬ ∀ m, m < 4 * a.length → (ans (n + m)).ok = true) →
      confirmedTasks ans n (a ++ b) = confirmedTasks ans n a ∧ confirmedTasks ans n a ≠ a) := by
  induction a generalizing n with
  | nil => exact ⟨fun _ => rfl, fun h => absurd (by simp) h⟩
  | cons t a ih =>
    have hlen : 4 * (t :: a).length = 4 * a.length + 4 := by rw [List.length_cons]; omega
    rw [hlen, answers_pin_iff, List.cons_append, confirmedTasks, confirmedTasks]
    by_cases hok : ((ans n).ok && (ans (n + 1)).ok && (ans (n + 2)).ok && (ans (n + 3)).ok) = true
    · rw [if_pos hok, if_pos hok, and_iff_right hok]
      obtain ⟨hdone, hcut⟩ := ih (n + 4)
      refine ⟨fun h => ?_, fun h => ?_⟩
      · rw [hdone h, List.cons_append, Nat.add_assoc, Nat.add_comm 4]
      · obtain ⟨h1, h2⟩ := hcut h
        exact ⟨by rw [h1], fun e => h2 (List.cons.inj e).2⟩
    · rw [if_neg hok, if_neg hok]
      exact ⟨fun h => absurd h.1 hok, fun _ => ⟨rfl, nofun⟩⟩

theorem confirmedTasks_of_ok {n : ℕ} {a : List PinTask} (h : ∀ m, m < 4 * a.length → (ans (n + m)).ok = true) :
    confirmedTasks ans n a = a := by
  have := (confirmedTasks_append ans n a []).1 h
  rwa [List.append_nil, confirmedTasks, List.append_nil] at this

/-- A list of pins is carried out whole exactly where all of them are confirmed. -/
theorem play_taskItems_done_iff (n : ℕ) (l : List PinTask) : (play ans n (taskItems l)).2 = none ↔ confirmedTasks ans n l = l := by
  rw [play_done_iff, txnCount_taskItems]
  refine ⟨confirmedTasks_of_ok ans, fun h => ?_⟩
  by_contra hn
  exact ((confirmedTasks_append ans n l []).2 hn).2 h

end

/-! ### A vector write alone on the bus -/

/-- The stepper once its cache has the values of `got` (R209). -/
def Stepper.withPins (st : Stepper) (got : List PinTask) : Stepper := { st with cache := cacheWith st.cache got }

/-- Between `u` and `v` image and cache have taken the pins `got` of stepper `k`, and nothing else of them has changed. -/
structure TookPins (k : StepperId) (got : List PinTask) (u v : State) : Prop where
  own : v.stepper k = (u.stepper k).withPins got
  others : OthersKept k u v
  img : v.img = imageWith u.img got

section

variable {k : StepperId} {u : State}

theorem tookPins_none (v : State) (hi : v.img = u.img) (hs : v.stp = u.stp) : TookPins k [] u v :=
  ⟨stepper_of_stp hs k, fun j _ => stepper_of_stp hs j, hi⟩

theorem TookPins.cons {t : PinTask} {got : List PinTask} {v w : State} (hi : v.img = u.img) (hs : v.stp = u.stp)
    (h : TookPins k got (v.pinWritten k t) w) : TookPins k (t :: got) u w := by
  obtain ⟨hown, hothers, himg⟩ := h
  refine ⟨?_, fun j hj => ?_, ?_⟩
  · rw [hown, pinWritten_stepper_self, stepper_of_stp hs]
    rfl
  · rw [hothers j hj, pinWritten_stepper_of_ne v t hj, stepper_of_stp hs]
  · rw [himg, pinWritten_img, hi]
    rfl

/-- The write of a pin that differs from the cache. -/
theorem lazyPin_alone {t : PinTask} (hu : u.alone) (ht : unchanged (u.stepper k).cache t = false) :
    (∃ a, Played u (fixed (pinItems t.chan t.on t.off)) (lazyPin k t u) a) ∧
    ∃ v : State, v.img = u.img ∧ v.stp = u.stp ∧ (lazyPin k t u).1 = if (lazyPin k t u).2 = none then v.pinWritten k t else v := by
  rw [lazyPin_of_changed ht]
  obtain ⟨_, hw⟩ := writeAll_played (pinWrites t.chan t.on t.off) u hu.busy
  obtain ⟨himg, hstp⟩ := writeAll_alone (pinWrites t.chan t.on t.off) u hu
  refine ⟨?_, (writeAll (pinWrites t.chan t.on t.off) u).1, himg, hstp, ?_⟩
  · rw [← pinWrites_items, ← List.append_nil (List.map _ _)]
    exact hw.seq_fixed (f := fun s => (s.pinWritten k t, none)) hu.busy fun _ _ => ⟨[], pinWritten_played _ k t⟩
  · by_cases e : (writeAll (pinWrites t.chan t.on t.off) u).2 = none
    · rw [thenSeq_none e]
      rfl
    · rw [thenSeq_some e, if_neg e]

/-- The pins of a vector in order: those that differ from the cache are written, and the confirmed ones taken. -/
theorem lazyPins_alone {tasks : List PinTask} (hu : u.alone) (hd : (tasks.map PinTask.role).Nodup) :
    (∃ a, Played u (fixed (taskItems (changedTasks (u.stepper k).cache tasks))) (lazyPins k tasks u) a) ∧
    TookPins k (confirmedTasks u.answerAt 0 (changedTasks (u.stepper k).cache tasks)) u (lazyPins k tasks u).1 := by
  induction tasks generalizing u with
  | nil => exact ⟨⟨[], .refl u⟩, tookPins_none u rfl rfl⟩
  | cons t rest ih =>
    have hrest := (List.nodup_cons.1 hd).2
    rw [changedTasks_cons hd]
    unfold lazyPins
    cases ht : unchanged (u.stepper k).cache t with
    | true =>
      rw [lazyPin_of_unchanged ht]
      exact ih hu hrest
    | false =>
      obtain ⟨⟨_, hp⟩, v, himg, hstp, hv⟩ := lazyPin_alone hu ht
      have hc := hp.carriedAlone hu
      have hok : (lazyPin k t u).2 = none ↔ ∀ m, m < 4 * [t].length → (u.answerAt (0 + m)).ok = true := by
        rw [hc.done_iff]
        simp only [State.answersOk, Nat.zero_add]
        rfl
      generalize hl : changedTasks ((u.stepper k).cache.set t.role (some t.value)) rest = l
      obtain ⟨hdone, hcut⟩ := confirmedTasks_append u.answerAt 0 [t] l
      have next : (lazyPin k t u).2 = none → (lazyPin k t u).1 = v.pinWritten k t ∧
          (∃ a, Played (lazyPin k t u).1 (fixed (taskItems l)) (lazyPins k rest (lazyPin k t u).1) a) ∧
          TookPins k (confirmedTasks u.answerAt 4 l) (lazyPin k t u).1 (lazyPins k rest (lazyPin k t u).1).1 := by
        intro e
        rw [if_pos e] at hv
        have hcache : ((lazyPin k t u).1.stepper k).cache = (u.stepper k).cache.set t.role (some t.value) := by
          rw [hv, pinWritten_stepper_self, stepper_of_stp hstp]
        have hans : (lazyPin k t u).1.answerAt = fun m => u.answerAt (4 + m) := funext (hc.answers e)
        obtain ⟨hplayed, htook⟩ := ih hc.alone hrest
        rw [hcache, hl] at hplayed htook
        rw [hans, ← confirmedTasks_shift] at htook
        exact ⟨hv, hplayed, htook⟩
      refine ⟨hp.seq_fixed hu.busy fun e _ => (next e).2.1, ?_⟩
      by_cases e : (lazyPin k t u).2 = none
      · obtain ⟨hpin, -, htook⟩ := next e
        rw [thenSeq_none e]
        rw [hpin] at htook ⊢
        exact (hdone (hok.1 e)).symm ▸ htook.cons himg hstp
      · rw [thenSeq_some e, hv, if_neg e]
        have hnone : confirmedTasks u.answerAt 0 [t] = [] := by
          by_contra hne
          refine (hcut (mt hok.2 e)).2 ?_
          rw [confirmedTasks] at hne ⊢
          split at hne
          · rw [if_pos ‹_›]
            rfl
          · exact absurd rfl hne
        exact ((hcut (mt hok.2 e)).1.trans hnone).symm ▸ tookPins_none v himg hstp

theorem calm_eq {m : Motion} (h : m.pulsing = false) : { m with pulsing := false } = m := by rw [← h]

/-- A vector write of the CP. -/
theorem vectorWrite_alone {tasks : List PinTask} (hu : u.alone) (hd : (tasks.map PinTask.role).Nodup)
    (hp : (u.stepper k).motion.pulsing = false) :
    (∃ a, Played u (fixed (taskItems (changedTasks (u.stepper k).cache tasks))) (vectorWrite k tasks u) a) ∧
    TookPins k (confirmedTasks u.answerAt 0 (changedTasks (u.stepper k).cache tasks)) u (vectorWrite k tasks u).1 := by
  have hset := modStp_played u k (setPulsing_seqKept u k true) rfl
  have halone : (u.setPulsing k true).alone := (hset.carriedAlone hu).alone
  have hcache : ((u.setPulsing k true).stepper k).cache = (u.stepper k).cache := by rw [State.setPulsing, stepper_modStp_self]
  obtain ⟨hplayed, hown, hothers, himg⟩ := lazyPins_alone (k := k) halone hd
  rw [hcache] at hplayed hown himg
  refine ⟨?_, ?_, fun j hj => ?_, himg⟩
  · obtain ⟨_, h⟩ := hset.before hu.busy hplayed
    exact ⟨_, h.calm k⟩
  · rw [show (vectorWrite k tasks u).1 = (lazyPins k tasks (u.setPulsing k true)).1.setPulsing k false from rfl, State.setPulsing,
      stepper_modStp_self, hown, State.setPulsing, stepper_modStp_self]
    exact congrArg (fun m => { (u.stepper k).withPins _ with motion := m }) (calm_eq hp)
  · exact ((stepper_modStp_of_ne _ _ hj).trans (hothers j hj)).trans (stepper_modStp_of_ne _ _ hj)

/-- The pins that the next step of the stepper writes. -/
def Stepper.nextPins (r : Ready) (d : Dir) (st : Stepper) : List PinTask :=
  changedTasks st.cache (stepTasks r (advance st.motion.phase d r.style r.ms))

/-- One step: the phase advances, and the vector of the new phase is written. -/
theorem stepOnce_alone {d : Dir} {r : Ready} (hu : u.alone) (hp : (u.stepper k).motion.pulsing = false) :
    (∃ a, Played u (fixed (taskItems ((u.stepper k).nextPins r d))) (stepOnce k d r u) a) ∧
    TookPins k (confirmedTasks u.answerAt 0 ((u.stepper k).nextPins r d)) (u.advancePhase k d r) (stepOnce k d r u).1 := by
  have hadv : (u.advancePhase k d r).stepper k = { u.stepper k with motion :=
      { (u.stepper k).motion with phase := advance (u.stepper k).motion.phase d r.style r.ms } } := stepper_modStp_self ..
  have hset := modStp_played u k (f := fun st => { st with
    motion := { st.motion with phase := advance st.motion.phase d r.style r.ms } })
    (modStp_seqKept u k rfl rfl rfl rfl rfl) rfl
  have hv := vectorWrite_alone (u := u.advancePhase k d r) (k := k)
    (tasks := stepTasks r ((u.advancePhase k d r).stepper k).motion.phase) (hset.carriedAlone hu).alone
    (stepTasks_roles_nodup r _) (by rw [hadv]; exact hp)
  rw [hadv] at hv
  have e : stepOnce k d r u = vectorWrite k (stepTasks r (advance (u.stepper k).motion.phase d r.style r.ms))
      (u.advancePhase k d r) := by
    rw [stepOnce, hadv]
  rw [e]
  exact ⟨hset.before hu.busy hv.1, hv.2⟩

end

/-! ### `STP_ONESTEP` and `STP_RELEASE` (R210, R218) -/

section

variable {s : State} {k : StepperId} {r : Ready}

theorem motionCheck_pass (hi : s.img.initialised = true) (hr : (s.stepper k).cfg.ready = some r)
    (hrun : (s.stepper k).run.running = false) (hp : (s.stepper k).motion.pulsing = false) : motionCheck s k = .ok r := by
  simp [motionCheck, hi, hr, busy_eq_false hrun hp]

theorem exec_stpOnestep (nb : Bool) (d : Dir) (h : motionCheck s k = .ok r) : exec (.stpOnestep nb k d) s =
    let e := stepOnce k d r (s.start (.stpOnestep nb k d))
    .next (e.1.finish (.stpOnestep nb k d) (.phase (e.1.stepper k).motion.phase) e.2) := by
  simp only [exec, execStpOnestep, h]

theorem exec_stpRelease (nb : Bool) (h : motionCheck s k = .ok r) : exec (.stpRelease nb k) s =
    let e := vectorWrite k (vectorTasks r releaseVector) (s.start (.stpRelease nb k))
    .next (e.1.finish (.stpRelease nb k) .none e.2) := by
  simp only [exec, execStpRelease, h]

end

/-- Settles O38: the phase advances, and then the vector write is a list of pins (`stepOnce_alone`) that ends its command. -/
theorem oneStep : Obligations.OneStep := by
  intro nb k d r s tk hin hinit hr hrun hp hq
  obtain ⟨⟨_, hplayed⟩, htook⟩ := stepOnce_alone (d := d) (r := r) (hq.alone hin) hp
  have hadv : (s.advancePhase k d r).stepper k = _ := stepper_modStp_self ..
  have he := (hplayed.carriedAlone (hq.alone hin)).finish (i := .stpOnestep nb k d)
    (.phase ((stepOnce k d r s).1.stepper k).motion.phase) hin hq.lock
  have hexec := exec_stpOnestep nb d (motionCheck_pass hinit hr hrun hp)
  rw [hq.start] at hexec
  refine ⟨_, hexec, he.grows, ?_, fun j hj => ?_, he.img.trans htook.img, play_taskItems_done_iff .., he.freed,
    he.mixedMode, he.host, ?_⟩
  · rw [stepper_of_stp he.stp, htook.own, hadv]
    rfl
  · rw [stepper_of_stp he.stp, htook.others j hj]
    exact stepper_modStp_of_ne s _ hj
  · have hphase : ((stepOnce k d r s).1.stepper k).motion.phase = advance (s.stepper k).motion.phase d r.style r.ms := by
      rw [htook.own, hadv]
      rfl
    have hresponse := he.responded
    rw [hphase] at hresponse ⊢
    exact hresponse

/-- Settles O39: the vector write is a list of pins (`vectorWrite_alone`) that ends its command. -/
theorem release : Obligations.Release := by
  intro nb k r s tk hin hinit hr hrun hp hq
  obtain ⟨⟨_, hplayed⟩, htook⟩ := vectorWrite_alone (hq.alone hin) (vectorTasks_roles_nodup r releaseVector) hp
  have he := (hplayed.carriedAlone (hq.alone hin)).finish (i := .stpRelease nb k) .none hin hq.lock
  have hexec := exec_stpRelease nb (motionCheck_pass hinit hr hrun hp)
  rw [hq.start] at hexec
  exact ⟨_, hexec, he.grows, (stepper_of_stp he.stp k).trans htook.own,
    fun j hj => (stepper_of_stp he.stp j).trans (htook.others j hj), he.img.trans htook.img, he.freed, he.mixedMode, he.host,
    he.responded⟩

/-! ### A vector that the cache has (R207, R222 item 3) -/

theorem lazyPins_of_cached {k : StepperId} {u : State} {tasks : List PinTask}
    (h : ∀ x, x ∈ tasks → (u.stepper k).cache.get x.role = some x.value) : lazyPins k tasks u = (u, none) := by
  induction tasks with
  | nil => rfl
  | cons t rest ih =>
    rw [lazyPins, lazyPin_of_unchanged (by simp [unchanged, h t List.mem_cons_self]), thenSeq_none rfl]
    exact ih fun x hx => h x (List.mem_cons_of_mem _ hx)

/-- A change that changes nothing. -/
theorem modStp_of_fixed {k : StepperId} {u : State} {f : Stepper → Stepper} (h : f (u.stepper k) = u.stepper k) :
    u.modStp k f = u := by
  have hs : u.stp.set k.val (f (u.stp.get k)) k.isLt = u.stp := by
    rw [show f (u.stp.get k) = u.stp.get k from h, Vector.get_eq_getElem]
    exact Vector.set_getElem_self ..
  rw [State.modStp, hs]

theorem vectorWrite_of_cached {k : StepperId} {u : State} {tasks : List PinTask} (hp : (u.stepper k).motion.pulsing = false)
    (h : ∀ x, x ∈ tasks → (u.stepper k).cache.get x.role = some x.value) : vectorWrite k tasks u = (u, none) := by
  have hcache : ((u.setPulsing k true).stepper k).cache = (u.stepper k).cache := by rw [State.setPulsing, stepper_modStp_self]
  rw [vectorWrite, lazyPins_of_cached (by rw [hcache]; exact h), State.setPulsing, State.setPulsing, modStp_modStp]
  rw [modStp_of_fixed (congrArg (fun m => { u.stepper k with motion := m }) (calm_eq hp))]

/-- Settles O40: such a vector write does nothing (`vectorWrite_of_cached`), so that the command ends at once. -/
theorem unchangedVectorIsSilent : Obligations.UnchangedVectorIsSilent := by
  intro nb k d r s tk hin hinit hr hrun hp
  have hcheck := motionCheck_pass hinit hr hrun hp
  refine ⟨fun h => ?_, fun h => ?_⟩
  · have hexec := exec_stpRelease nb hcheck
    rw [vectorWrite_of_cached (u := s.start (.stpRelease nb k)) hp h] at hexec
    obtain ⟨⟨hstp, himg, hbus, -, hhost⟩, hresponse⟩ :=
      endCommand_complete (i := .stpRelease nb k) (s := s.start (.stpRelease nb k)) .none hin
    exact ⟨_, hexec, hstp, himg, hbus, hhost, hresponse⟩
  · let u := (s.start (.stpOnestep nb k d)).advancePhase k d r
    have hu : u.stepper k = { s.stepper k with motion :=
        { (s.stepper k).motion with phase := advance (s.stepper k).motion.phase d r.style r.ms } } :=
      stepper_modStp_self (s.start (.stpOnestep nb k d)) k _
    have hstep : stepOnce k d r (s.start (.stpOnestep nb k d)) = (u, none) := by
      rw [stepOnce]
      exact vectorWrite_of_cached (by rw [hu]; exact hp) (by rw [hu]; exact h)
    have hexec := exec_stpOnestep nb d hcheck
    rw [hstep] at hexec
    dsimp only at hexec
    rw [hu] at hexec
    obtain ⟨⟨hstp, himg, hbus, -, hhost⟩, hresponse⟩ := endCommand_complete (i := .stpOnestep nb k d) (s := u)
      (.phase (advance (s.stepper k).motion.phase d r.style r.ms)) hin
    exact ⟨_, hexec, himg, hbus, fun j hj => (stepper_of_stp hstp j).trans (stepper_modStp_of_ne _ _ hj), hhost,
      (stepper_of_stp hstp k).trans hu, hresponse⟩

end Sys2Proof.Machine
end

section
/-! Blocking runs where no other agent has anything to do (42_stepper_motion.md R211, R212, R215, R216; 20_memory.md R64): the steps follow
one another up to the first failing transaction (`RunEnd`), and the report is the command's response. -/

namespace Sys2Proof.Machine

open Sys2Proof

/-! ### The pins of a run -/

theorem runItems_eq (r : Ready) (d : Dir) (n : ℕ) (p : BitVec 6) (c : RoleMap (Option Tick)) :
    runItems r d n p c = taskItems (runTasks r d n p c) := by
  induction n generalizing p c with
  | zero => rfl
  | succ n ih =>
    rw [runItems, ih, runTasks, taskItems_append]

theorem cacheWith_append (c : RoleMap (Option Tick)) (a b : List PinTask) : cacheWith c (a ++ b) = cacheWith (cacheWith c a) b :=
  List.foldl_append ..

theorem imageWith_append (m : Image) (a b : List PinTask) : imageWith m (a ++ b) = imageWith (imageWith m a) b :=
  List.foldl_append ..

theorem runCache_eq (r : Ready) (d : Dir) (n : ℕ) (p : BitVec 6) (c : RoleMap (Option Tick)) :
    runCache r d n p c = cacheWith c (runTasks r d n p c) := by
  induction n generalizing p c with
  | zero => rfl
  | succ n ih => rw [runCache, runTasks, cacheWith_append, ih]

/-- The steps of a run are carried out whole exactly where all their byte writes succeed. -/
theorem play_runItems_done_iff (s : State) (r : Ready) (d : Dir) (n : ℕ) (p : BitVec 6) (c : RoleMap (Option Tick)) :
    (play s.answerAt 0 (runItems r d n p c)).2 = none ↔ s.answersOk (4 * (runTasks r d n p c).length) := by
  rw [play_done_iff, runItems_eq, txnCount_taskItems]
  simp only [State.answersOk, Nat.zero_add]

/-- A step writes at most its six pins. -/
theorem runTasks_length_le (r : Ready) (d : Dir) (n : ℕ) (p : BitVec 6) (c : RoleMap (Option Tick)) :
    (runTasks r d n p c).length ≤ 6 * n := by
  induction n generalizing p c with
  | zero => exact Nat.le_refl _
  | succ n ih =>
    have hstep : ∀ q, (changedTasks c (stepTasks r q)).length ≤ 6 := fun q => List.length_filter_le ..
    rw [runTasks, List.length_append]
    have := hstep (advance p d r.style r.ms)
    have := ih (advance p d r.style r.ms) (cacheWith c (changedTasks c (stepTasks r (advance p d r.style r.ms))))
    omega

/-- The first steps of a run come first. -/
theorem runTasks_prefix (r : Ready) (d : Dir) {m n : ℕ} (h : m ≤ n) (p : BitVec 6) (c : RoleMap (Option Tick)) :
    runTasks r d m p c <+: runTasks r d n p c := by
  induction m generalizing n p c with
  | zero => exact List.nil_prefix
  | succ m ih =>
    obtain ⟨n, rfl⟩ : ∃ l, n = l + 1 := ⟨n - 1, by omega⟩
    exact (List.prefix_append_right_inj _).2 (ih (by omega) _ _)

/-! ### Steps of a run -/

/-- The stepper after `j` more steps have been issued and `m` more are done, with the pins `got` confirmed. -/
def Stepper.afterSteps (r : Ready) (d : Dir) (m j : ℕ) (got : List PinTask) (st : Stepper) : Stepper :=
  { st with
    motion := { st.motion with phase := (fun p => advance p d r.style r.ms)^[j] st.motion.phase }
    run := { st.run with issued := st.run.issued + BitVec.ofNat 32 j, done := st.run.done + BitVec.ofNat 32 m }
    cache := cacheWith st.cache got }

/-- Between `u` and `v` stepper `k` has issued `j` steps and done `m`, image and cache have taken the pins `got`, and nothing else of
image and steppers has changed. -/
structure RanSteps (k : StepperId) (r : Ready) (d : Dir) (m j : ℕ) (got : List PinTask) (u v : State) : Prop where
  own : v.stepper k = (u.stepper k).afterSteps r d m j got
  others : OthersKept k u v
  img : v.img = imageWith u.img got

section

variable {k : StepperId} {r : Ready} {d : Dir} {u v w : State}

theorem ranSteps_refl (u : State) : RanSteps k r d 0 0 [] u u :=
  ⟨by simp [Stepper.afterSteps, cacheWith], fun _ _ => rfl, rfl⟩

theorem RanSteps.trans {m m' j j' : ℕ} {got got' : List PinTask} (h : RanSteps k r d m j got u v)
    (h' : RanSteps k r d m' j' got' v w) : RanSteps k r d (m' + m) (j' + j) (got ++ got') u w := by
  refine ⟨?_, fun i hi => (h'.others i hi).trans (h.others i hi), by rw [h'.img, h.img, imageWith_append]⟩
  rw [h'.own, h.own]
  simp only [Stepper.afterSteps, Function.iterate_add_apply, cacheWith_append, BitVec.ofNat_add, BitVec.add_assoc]
  rw [BitVec.add_comm (BitVec.ofNat 32 j), BitVec.add_comm (BitVec.ofNat 32 m)]

/-- A state that differs in time alone. -/
theorem RanSteps.of_same {m j : ℕ} {got : List PinTask} (h : RanSteps k r d m j got u v) (hi : w.img = v.img) (hs : w.stp = v.stp) :
    RanSteps k r d m j got u w :=
  ⟨(stepper_of_stp hs k).trans h.own, fun i hi => (stepper_of_stp hs i).trans (h.others i hi), hi.trans h.img⟩

theorem ranSteps_countDone (u : State) : RanSteps k r d 1 0 [] u (u.countDone k) :=
  ⟨by simp [State.countDone, Stepper.afterSteps, cacheWith], fun _ hj => stepper_modStp_of_ne u _ hj, rfl⟩

/-- A step that is issued: the counter, the phase, and the confirmed pins of its vector. -/
theorem TookPins.ranStep {got : List PinTask} (h : TookPins k got ((u.countIssued k).advancePhase k d r) v) :
    RanSteps k r d 0 1 got u v := by
  obtain ⟨hown, hothers, himg⟩ := h
  refine ⟨?_, fun j hj => ?_, himg⟩
  · rw [hown, State.advancePhase, stepper_modStp_self, State.countIssued, stepper_modStp_self]
    simp [Stepper.withPins, Stepper.afterSteps]
  · rw [hothers j hj, State.advancePhase, stepper_modStp_of_ne _ _ hj, State.countIssued, stepper_modStp_of_ne _ _ hj]

/-- Between two steps where no other agent has anything to do. -/
theorem stepDone_alone (last : Prop) [Decidable last] (t : ℚ) (hv : v.alone) :
    let x := if last then (v.countDone k, none) else (v.countDone k).waitPeriod t
    (∃ a, Played v (fixed []) x a) ∧ x.2 = none ∧ x.1.img = v.img ∧ x.1.stp = (v.countDone k).stp ∧
      (¬ last → v.now + t ≤ x.1.now) := by
  have hdone : Played v (fixed []) (v.countDone k, none) [] :=
    modStp_played v k (modStp_seqKept v k rfl rfl rfl rfl rfl) rfl
  have halone : (v.countDone k).alone := (hdone.carriedAlone hv).alone
  dsimp only
  split
  · exact ⟨⟨_, hdone⟩, rfl, rfl, rfl, fun h => absurd ‹_› h⟩
  · obtain ⟨a, hp⟩ := hdone.before hv.busy (waitPeriod_played (v.countDone k) t hv.busy)
    refine ⟨⟨a, hp⟩, (hp.carriedAlone hv).ends, ?_⟩
    rw [State.waitPeriod, yield_alone _ ((othersActive_of (by simp) (by simp)).trans halone.1) (by simpa using halone.2.1)]
    refine ⟨by simp; rfl, by simp, fun _ => ?_⟩
    rw [advancePc_now]
    exact le_max_right _ _

/-- A step of a blocking run: it is issued, and its vector is written. -/
theorem issuedStep_alone (hu : u.alone) (hp : (u.stepper k).motion.pulsing = false) :
    let l := (u.stepper k).nextPins r d
    let w := stepOnce k d r (u.countIssued k)
    (∃ a, Played u (fixed (taskItems l)) w a) ∧ RanSteps k r d 0 1 (confirmedTasks u.answerAt 0 l) u w.1 := by
  have hset : Played u (fixed []) (u.countIssued k, none) [] := modStp_played u k (modStp_seqKept u k rfl rfl rfl rfl rfl) rfl
  have hst : (u.countIssued k).stepper k = _ := stepper_modStp_self ..
  have hstep := stepOnce_alone (d := d) (r := r) (hset.carriedAlone hu).alone (by rw [hst]; exact hp)
  rw [hst] at hstep
  exact ⟨hset.before hu.busy hstep.1, hstep.2.ranStep⟩

/-- How a run of `n` steps that began in `u` has come to `e`: all steps are done, with a period of time between two of them; or after `m`
steps a transaction of the next one has failed. -/
inductive RunEnd (k : StepperId) (r : Ready) (d : Dir) (n : ℕ) (u : State) (e : SeqEnd) : Prop
  | whole (ok : u.answersOk (4 * (runTasks r d n (u.stepper k).motion.phase (u.stepper k).cache).length))
    (ran : RanSteps k r d n n (runTasks r d n (u.stepper k).motion.phase (u.stepper k).cache) u e.1)
    (time : u.now + ((n - 1 : ℕ) : ℚ) * runPeriod (u.stepper k).cfg ≤ e.1.now)
  | cut (m : ℕ) (lt : m < n) (done : u.answersOk (4 * (runTasks r d m (u.stepper k).motion.phase (u.stepper k).cache).length))
    (failed : ¬ u.answersOk (4 * (runTasks r d (m + 1) (u.stepper k).motion.phase (u.stepper k).cache).length))
    (ran : RanSteps k r d m (m + 1)
      (confirmedTasks u.answerAt 0 (runTasks r d (m + 1) (u.stepper k).motion.phase (u.stepper k).cache)) u e.1)

/-- The pins of a run, after those of its first step. -/
theorem runTasks_after (n : ℕ) (h : RanSteps k r d 1 1 ((u.stepper k).nextPins r d) u v) :
    runTasks r d (n + 1) (u.stepper k).motion.phase (u.stepper k).cache =
      (u.stepper k).nextPins r d ++ runTasks r d n (v.stepper k).motion.phase (v.stepper k).cache := by
  rw [h.own]
  rfl

/-- One step that is done, and then the rest of the run. -/
theorem RunEnd.after {n : ℕ} {l : List PinTask} {e : SeqEnd} (hl : l = (u.stepper k).nextPins r d)
    (hran : RanSteps k r d 1 1 l u v) (hok : u.answersOk (4 * l.length)) (hans : ∀ m, v.answerAt m = u.answerAt (4 * l.length + m))
    (hnow : u.now ≤ v.now) (htime : n ≠ 0 → u.now + runPeriod (u.stepper k).cfg ≤ v.now) (h : RunEnd k r d n v e) :
    RunEnd k r d (n + 1) u e := by
  have htasks : ∀ m, runTasks r d (m + 1) (u.stepper k).motion.phase (u.stepper k).cache =
      l ++ runTasks r d m (v.stepper k).motion.phase (v.stepper k).cache := fun m => by
    subst hl
    exact runTasks_after m hran
  have hcfg : (v.stepper k).cfg = (u.stepper k).cfg := by rw [hran.own]; rfl
  have hsplit : ∀ m, u.answersOk (4 * (runTasks r d (m + 1) (u.stepper k).motion.phase (u.stepper k).cache).length) ↔
      v.answersOk (4 * (runTasks r d m (v.stepper k).motion.phase (v.stepper k).cache).length) := fun m => by
    rw [htasks, List.length_append, Nat.mul_add, answersOk_add hans]
    exact and_iff_right hok
  cases h with
  | whole ok ran time =>
    refine .whole ((hsplit n).2 ok) (by rw [htasks]; exact hran.trans ran) ?_
    rw [hcfg] at time
    cases n with
    | zero => simpa using hnow.trans (by simpa using time)
    | succ n =>
      have hperiod := htime (Nat.succ_ne_zero n)
      simp only [Nat.add_sub_cancel] at time ⊢
      push_cast
      linarith
  | cut m lt done failed ran =>
    refine .cut (m + 1) (by omega) ((hsplit m).2 done) (mt (hsplit (m + 1)).1 failed) ?_
    rw [htasks, (confirmedTasks_append u.answerAt 0 l _).1 (by simpa [State.answersOk] using hok), Nat.zero_add]
    rw [show v.answerAt = fun m => u.answerAt (4 * l.length + m) from funext hans, ← confirmedTasks_shift, Nat.add_zero] at ran
    exact hran.trans ran

/-- A step of a blocking run that is done, with the wait before the next one. -/
theorem doneStep_alone {l : List PinTask} {w : SeqEnd} (n : ℕ) (hw : CarriedAlone u (taskItems l) w)
    (hran : RanSteps k r d 0 1 (confirmedTasks u.answerAt 0 l) u w.1) (e : w.2 = none) :
    let x := if n = 0 then (w.1.countDone k, none) else (w.1.countDone k).waitPeriod (runPeriod ((w.1.countDone k).stepper k).cfg)
    (∃ a, Played w.1 (fixed []) x a) ∧ x.2 = none ∧ x.1.alone ∧ RanSteps k r d 1 1 l u x.1 ∧ u.answersOk (4 * l.length) ∧
      (∀ m, x.1.answerAt m = u.answerAt (4 * l.length + m)) ∧ u.now ≤ x.1.now ∧
      (n ≠ 0 → u.now + runPeriod (u.stepper k).cfg ≤ x.1.now) := by
  have hok : u.answersOk (4 * l.length) := txnCount_taskItems l ▸ hw.done_iff.1 e
  rw [confirmedTasks_of_ok u.answerAt (by simpa [State.answersOk] using hok)] at hran
  have hcounted := hran.trans (ranSteps_countDone w.1)
  have hcfg : ((w.1.countDone k).stepper k).cfg = (u.stepper k).cfg := by rw [hcounted.own]; rfl
  obtain ⟨⟨a, hwait⟩, hnone, himg, hstp, htime⟩ :=
    stepDone_alone (k := k) (n = 0) (runPeriod ((w.1.countDone k).stepper k).cfg) hw.alone
  have hx := hwait.carriedAlone hw.alone
  refine ⟨⟨a, hwait⟩, hnone, hx.alone, List.append_nil l ▸ hcounted.of_same himg hstp, hok, fun m => ?_, hw.now.trans hx.now,
    fun hn => ?_⟩
  · rw [hx.answers hnone, hw.answers e, txnCount_taskItems, show txnCount (fixed [] w.1.answerAt 0) = 0 from rfl, Nat.zero_add]
  · rw [← hcfg]
    exact (add_le_add_left hw.now _).trans (htime hn)

/-- A run of the CP. -/
theorem blockingSteps_alone (n : ℕ) {u : State} (hu : u.alone) (hp : (u.stepper k).motion.pulsing = false)
    (hd : (u.stepper k).run.runDir = d) :
    (∃ a, Played u (fixed (runItems r d n (u.stepper k).motion.phase (u.stepper k).cache)) (blockingSteps k r n u) a) ∧
    RunEnd k r d n u (blockingSteps k r n u) := by
  induction n generalizing u with
  | zero => exact ⟨⟨[], .refl u⟩, .whole nofun (ranSteps_refl u) (by simp [blockingSteps])⟩
  | succ n ih =>
    have hdir : ((u.countIssued k).stepper k).run.runDir = d := by rw [State.countIssued, stepper_modStp_self]; exact hd
    obtain ⟨⟨_, hstep⟩, hran⟩ := issuedStep_alone (r := r) (d := d) hu hp
    have hc := hstep.carriedAlone hu
    have hdone := doneStep_alone n hc hran
    rw [blockingSteps_succ, hdir]
    have next : ∀ v : State, v.alone → RanSteps k r d 1 1 ((u.stepper k).nextPins r d) u v →
        (∃ a, Played v (fixed (runItems r d n (v.stepper k).motion.phase (v.stepper k).cache)) (blockingSteps k r n v) a) ∧
          RunEnd k r d n v (blockingSteps k r n v) := fun v hv hrv =>
      ih hv (by rw [hrv.own]; exact hp) (by rw [hrv.own]; exact hd)
    refine ⟨hstep.seq_fixed hu.busy fun e hb => ?_, ?_⟩
    · obtain ⟨⟨_, hwait⟩, hnone, halone, hran1, -⟩ := hdone e
      have hrest := (next _ halone hran1).1
      rw [hran1.own] at hrest
      exact hwait.seq_fixed (l := []) hb fun _ _ => hrest
    · by_cases e : (stepOnce k d r (u.countIssued k)).2 = none
      · obtain ⟨-, hnone, halone, hran1, hok, hans, hnow, htime⟩ := hdone e
        rw [thenSeq_none e, thenSeq_none hnone]
        exact (next _ halone hran1).2.after rfl hran1 hok hans hnow htime
      · rw [thenSeq_some e]
        refine .cut 0 n.succ_pos (fun m hm => absurd hm (Nat.not_lt_zero m)) (fun hok => e (hc.done_iff.2 ?_)) ?_
        · rw [txnCount_taskItems]
          simpa [runTasks, Stepper.nextPins] using hok
        · simpa [runTasks, Stepper.nextPins] using hran

end

/-! ### The report (R215, R216) -/

/-- The state in which the report of a blocking run is given: its duration is drawn, and the run is over. -/
def State.reported (s : State) (k : StepperId) : State :=
  (s.report k false).2.modStp k (fun st => { st with run := st.run.ended })

/-- The report of a run, as its response: with the bus error `err`, if one ended it. -/
def reportRecord (tk : Ticket) (op : Byte) (st : Stepper) (ms : W32) (err : Option BusError) : Response :=
  recordOf tk op (.run { steps := st.run.done, dir := st.run.runDir, durationMs := ms, retried := st.motion.retried, stopped := false }
    err)

/-- What a blocking run that began in `u` and came to `e` with the list `items` leaves in `t`. -/
structure RunReported (i : Instr) (k : StepperId) (u : State) (tk : Ticket) (items : List SeqItem) (e : SeqEnd) (t : State)
    (ms : W32) : Prop where
  grows : TraceGrows u t (play u.answerAt 0 items).1
  own : t.stepper k = { e.1.stepper k with run := (e.1.stepper k).run.ended }
  others : OthersKept k e.1 t
  img : t.img = e.1.img
  now : t.now = e.1.now
  freed : BusFreed t
  mixedMode : t.mixedMode = u.mixedMode
  host : HostSideKept u t
  responded : Responded u t i.nb (reportRecord tk i.opcode.code (e.1.stepper k) ms (play u.answerAt 0 items).2)

theorem endBlockingRun_eq (s : State) (i : Instr) (k : StepperId) (err : Option BusError) :
    s.endBlockingRun i k (err.map Cut.bus) =
      (s.reported k).endCommand i (.run (s.report k false).1 err) := by
  cases err <;> rfl

theorem CarriedAlone.report {i : Instr} {u : State} {tk : Ticket} {items : List SeqItem} {e : SeqEnd} (h : CarriedAlone u items e)
    (k : StepperId) (hin : u.inCommand tk) (hl : u.bus.lock = false) :
    RunReported i k u tk items e (e.1.endBlockingRun i k e.2) (e.1.drawDuration.1) := by
  obtain ⟨_, ha, -⟩ := h.drawn
  have hreport : (e.1.report k false).2.stepper k = e.1.stepper k := stepper_of_stp (report_stp ..) k
  have htk : (e.1.reported k).ticket = u.ticket := by rw [← h.kept.ticket]; simp [State.reported, State.ticket]
  rw [h.ends, endBlockingRun_eq]
  refine
    { grows := ?_, own := ?_, others := fun j hj => ?_, img := ?_, now := ?_, freed := ?_, mixedMode := ?_, host := ?_
      responded := ?_ }
  · exact (show _ = e.1.trace by simp [State.reported]).trans h.grows
  · rw [stepper_of_stp (endCommand_stp ..), State.reported, stepper_modStp_self, hreport]
  · rw [stepper_of_stp (endCommand_stp ..), State.reported, stepper_modStp_of_ne _ _ hj]
    exact stepper_of_stp (report_stp ..) j
  · simp [State.reported]
  · simp [State.reported]
  · obtain ⟨-, -, hreqq, hinflight⟩ := ha.alone
    rw [BusFreed, endCommand_bus, show (e.1.reported k).bus = e.1.bus by simp [State.reported]]
    exact ⟨hreqq, hinflight, h.kept.lock.trans hl⟩
  · simp [State.reported, h.kept.mixedMode]
  · simp [HostSideKept, State.reported, ha.cmdq, ha.nextTicket, ha.popped, ha.host]
  · rw [State.endCommand, htk, ticket_of_inCommand hin]
    refine respond_responded i.nb _ ?_ ?_ ?_ ?_ htk ?_
    · simp [State.reported, ha.sync]
    · simp [State.reported, ha.hostWait]
    · simp [State.reported, ha.cmplq]
    · simp [State.reported, h.kept.cpHeld]
    · rw [← h.kept.idle]
      simp [State.reported]

/-! ### `STP_STEP`, blocking (R211, R212) -/

section

variable {s : State} {k : StepperId} {r : Ready} {d : Dir} {count : W32} {tk : Ticket}

theorem exec_stpStep_blocking (h : stepCheck s k = .ok r) : exec (.stpStep false k d count) s =
    let e := blockingSteps k r count.toNat ((s.start (.stpStep false k d count)).startRun k false d count)
    .next (e.1.endBlockingRun (.stpStep false k d count) k e.2) := by
  simp only [exec, execStpStep, h, Bool.false_eq_true, if_false]

/-- A blocking run on a bus no other agent uses: how it comes to its end, and what it leaves. -/
theorem blockingRun_alone (hin : s.inCommand tk) (hi : s.img.initialised = true) (hr : (s.stepper k).cfg.ready = some r)
    (hf : (s.stepper k).cfg.pulseFreq ≠ none) (hrun : (s.stepper k).run.running = false)
    (hp : (s.stepper k).motion.pulsing = false) (hq : s.quiet) :
    ∃ e t ms, exec (.stpStep false k d count) s = .next t ∧ RunEnd k r d count.toNat (s.startRun k false d count) e ∧
      RunReported (.stpStep false k d count) k (s.startRun k false d count) tk
        (runItems r d count.toNat (s.stepper k).motion.phase (s.stepper k).cache) e t ms := by
  have hcheck : stepCheck s k = .ok r := by
    obtain ⟨x, hx⟩ := stepCheck_pass (nb := false) (d := d) (n := count) (s := s) (k := k) (by simp [execCheck, hi, hr, hf, hrun, hp])
    rw [hx, Option.some.inj ((stepCheck_ok hx).1.symm.trans hr)]
  have hexec := exec_stpStep_blocking (d := d) (count := count) hcheck
  rw [hq.start] at hexec
  have hu : (s.startRun k false d count).stepper k = (s.stepper k).runStarted s false d count := startRun_stepper ..
  have halone : (s.startRun k false d count).alone := by
    obtain ⟨hothers, hrest⟩ := hq.alone hin
    have hb : (s.startRun k false d count).anyBackground = s.anyBackground :=
      anyBackground_of fun j => stepper_modStp_proj Stepper.inBackground s k j _ (by simp [Stepper.inBackground, hrun])
    exact ⟨by rw [State.othersActive, hb]; exact hothers, hrest⟩
  obtain ⟨⟨_, hplayed⟩, hend⟩ := blockingSteps_alone (r := r) (d := d) count.toNat halone (by rw [hu]; exact hp) (by rw [hu]; rfl)
  rw [hu] at hplayed
  exact ⟨_, _, _, hexec, hend, (hplayed.carriedAlone halone).report k hin hq.lock⟩

end

/-- The stepper after a blocking run has been reported. -/
theorem afterSteps_ended {s : State} {r : Ready} {d : Dir} {st : Stepper} {count : W32} (m j : ℕ) (got : List PinTask)
    (hp : st.motion.pulsing = false) :
    let v := (st.runStarted s false d count).afterSteps r d m j got
    { v with run := v.run.ended } = { st with
      motion := { phase := (fun p => advance p d r.style r.ms)^[j] st.motion.phase, pulsing := false, retried := 0#32 }
      run := { running := false, runNB := false, runDir := d, runCount := count, issued := BitVec.ofNat 32 j,
               done := BitVec.ofNat 32 m, k := 0#32, stopReq := false, runTicket := s.ticket, t0 := s.now }
      cache := cacheWith st.cache got } := by
  simp [Stepper.afterSteps, Stepper.runStarted, Run.ended, hp]

/-- Settles O41: with these answers no step can be cut off, so that the run is whole (`blockingRun_alone`). -/
theorem blockingRun : Obligations.BlockingRun := by
  intro k d count r period s tk hin hi hr hperiod _ hrun hp hq hok
  have hf : (s.stepper k).cfg.pulseFreq ≠ none := by
    intro h
    rw [pulsePeriod, h] at hperiod
    cases hperiod
  obtain ⟨e, t, ms, hexec, hend, hreport⟩ := blockingRun_alone (d := d) (count := count) hin hi hr hf hrun hp hq
  have hu : (s.startRun k false d count).stepper k = (s.stepper k).runStarted s false d count := startRun_stepper ..
  have hall : ∀ n, n ≤ count.toNat → ∀ p c, s.answersOk (4 * (runTasks r d n p c).length) := fun n hn p c =>
    answersOk_mono hok (by have := runTasks_length_le r d n p c; omega)
  cases hend with
  | cut m lt done failed ran => exact absurd (hall (m + 1) lt _ _) failed
  | whole ok ran time =>
    obtain ⟨hown, hothers, himg⟩ := ran
    have hnone := (play_runItems_done_iff s r d count.toNat _ _).2 (hall _ (Nat.le_refl _) (s.stepper k).motion.phase (s.stepper k).cache)
    rw [hu] at hown himg time
    refine ⟨t, ms, hexec, hreport.grows, ?_, hreport.img.trans himg, fun j hj => ?_, ?_, hreport.freed, hreport.mixedMode, hreport.host,
      ?_⟩
    · have hst := afterSteps_ended (s := s) (r := r) (d := d) (count := count) count.toNat count.toNat
        (runTasks r d count.toNat (s.stepper k).motion.phase (s.stepper k).cache) hp
      rw [BitVec.ofNat_toNat, BitVec.setWidth_eq, ticket_of_inCommand hin] at hst
      rw [hreport.own, hown, runCache_eq]
      exact hst
    · exact ((hreport.others j hj).trans (hothers j hj)).trans (stepper_modStp_of_ne s _ hj)
    · rw [hreport.now, ← show runPeriod (s.stepper k).cfg = period by simp [runPeriod, hperiod]]
      exact time
    · have hrecord : reportRecord tk 0x19#8 (e.1.stepper k) ms none = okRecord tk 0x19#8
          (.run { steps := count, dir := d, durationMs := ms, retried := 0#32, stopped := false }) := by
        rw [hown]
        simp [reportRecord, recordOf, okRecord, Stepper.afterSteps, Stepper.runStarted]
      have hresponse := hreport.responded
      rw [show (play (s.startRun k false d count).answerAt 0 _).2 = none from hnone] at hresponse
      exact hrecord ▸ hresponse

/-- Of a run, only one step is the first with a failing byte write. -/
theorem eq_of_first_failing {ok : ℕ → Prop} (hok : ∀ m n, m ≤ n → ok n → ok m) {m n : ℕ} (hm : ok m) (hm' : ¬ ok (m + 1))
    (hn : ok n) (hn' : ¬ ok (n + 1)) : m = n := by
  rcases Nat.lt_trichotomy m n with h | h | h
  · exact absurd (hok _ _ h hn) hm'
  · exact h
  · exact absurd (hok _ _ h hm) hn'

/-- Settles O42: the step that fails is the one after the `m` that are done (`eq_of_first_failing`), and the list of the run is cut off
there (`blockingRun_alone`). -/
theorem blockingRunBusError : Obligations.BlockingRunBusError := by
  intro k d count r m x s tk hin hi hr hf hrun hp hq hlt hdone hfail
  obtain ⟨e, t, ms, hexec, hend, hreport⟩ := blockingRun_alone (d := d) (count := count) hin hi hr hf hrun hp hq
  have hu : (s.startRun k false d count).stepper k = (s.stepper k).runStarted s false d count := startRun_stepper ..
  let ok := fun n => s.answersOk (4 * (runTasks r d n (s.stepper k).motion.phase (s.stepper k).cache).length)
  have hmono : ∀ a b, a ≤ b → ok b → ok a := fun a b hab hb =>
    answersOk_mono hb (Nat.mul_le_mul_left 4 (runTasks_prefix r d hab _ _).length_le)
  have hm : ok m := (play_runItems_done_iff ..).1 hdone
  have hm' : ¬ ok (m + 1) := fun h => by
    rw [(play_runItems_done_iff s r d (m + 1) _ _).2 h] at hfail
    cases hfail
  have hplay : play s.answerAt 0 (runItems r d count.toNat (s.stepper k).motion.phase (s.stepper k).cache) =
      play s.answerAt 0 (runItems r d (m + 1) (s.stepper k).motion.phase (s.stepper k).cache) := by
    obtain ⟨rest, hrest⟩ := runTasks_prefix r d (show m + 1 ≤ count.toNat from hlt) (s.stepper k).motion.phase (s.stepper k).cache
    rw [runItems_eq r d count.toNat, ← hrest, taskItems_append, ← runItems_eq]
    exact play_append_of_cut _ _ _ _ (by rw [hfail]; exact Option.some_ne_none x)
  cases hend with
  | whole hok ran time =>
    rw [hu] at hok
    exact absurd (hmono _ _ hlt hok) hm'
  | cut n hn done failed ran =>
    obtain ⟨hown, hothers, himg⟩ := ran
    rw [hu] at done failed hown himg
    obtain rfl : m = n := eq_of_first_failing hmono hm hm' done failed
    have hgrows := hreport.grows
    have hresponse := hreport.responded
    rw [show play (s.startRun k false d count).answerAt 0 _ = _ from hplay] at hgrows hresponse
    rw [hfail] at hresponse
    refine ⟨t, ms, hexec, hgrows, ?_, hreport.img.trans himg, fun j hj => ?_, hreport.freed, hreport.mixedMode, hreport.host, ?_⟩
    · have hst := afterSteps_ended (s := s) (r := r) (d := d) (count := count) m (m + 1)
        (confirmedTasks s.answerAt 0 (runTasks r d (m + 1) (s.stepper k).motion.phase (s.stepper k).cache)) hp
      rw [ticket_of_inCommand hin] at hst
      rw [hreport.own, hown]
      exact hst
    · exact ((hreport.others j hj).trans (hothers j hj)).trans (stepper_modStp_of_ne s _ hj)
    · have hrecord : reportRecord tk 0x19#8 (e.1.stepper k) ms (some x) = busRecord tk 0x19#8 x
          (.run { steps := BitVec.ofNat 32 m, dir := d, durationMs := ms, retried := 0#32, stopped := false }) := by
        rw [hown]
        simp [reportRecord, recordOf, busRecord, Stepper.afterSteps, Stepper.runStarted]
      exact hrecord ▸ hresponse

end Sys2Proof.Machine
end

section
/-! The completion queue (60_exceptions.md R258; 40_driver.md R121): the host's pop, the CP that waits while `cmplq` is full, and the
records that the CP and the run engines hold. -/

namespace Sys2Proof.Machine

open Sys2Proof

section

variable {s : State} {r : Response}

/-! ### Popping -/

/-- The step of the agent beside the CP whose turn it is. -/
theorem step_background {b : Background} {more : List Agent} (h : s.env.turns = .background b :: more) :
    step s = .next (State.background { s with env := { s.env with turns := more } } b) := by
  simp only [step, State.drawTurn, h]

theorem hostTurn_pop {rest : List Response} {acts : List HostAct} (hh : s.host = .pop :: acts) (hq : s.cmplq = r :: rest) :
    s.hostTurn = { s with cmplq := rest, popped := r :: s.popped, host := acts } := by
  simp only [State.hostTurn, hh, State.popRecord, hq]

theorem hostTurn_pop_empty {acts : List HostAct} (hh : s.host = .pop :: acts) (hq : s.cmplq = []) : s.hostTurn = s := by
  simp only [State.hostTurn, hh, State.popRecord, hq]

/-! ### The CP at a full queue, and with a held record -/

theorem cmplRoom_eq_false_iff : s.cmplRoom = false ↔ Config.cmplqDepth ≤ s.cmplq.length := by simp [State.cmplRoom]

theorem cpTurn_of_not_canTake (h : s.canTake = false) : cpTurn s = .next s.deliverCp := by
  simp only [cpTurn, h, Bool.false_eq_true, if_false]

theorem deliverCp_of_full (h : s.cmplRoom = false) : s.deliverCp = s := by
  unfold State.deliverCp
  split
  · rfl
  · rw [if_neg (by simp [h])]

theorem deliverCp_of_room (hr : s.cpHeld = some r) (h : s.cmplRoom = true) :
    s.deliverCp = { s with cmplq := s.cmplq ++ [r], cpHeld := none, cp := .idle } := by
  simp only [State.deliverCp, hr, h, if_true]

/-! ### A run engine with a held record -/

theorem Moves.delivery {i : StepperId} {t : State} (h : Moves (.engine i) s t) (hr : (s.stepper i).held = some r) :
    t = s.drawTurn.2.deliverRun i := by
  have hst : s.drawTurn.2.stepper i = s.stepper i := stepper_of_stp (by simp) i
  rw [h.eq, State.background, hst, hr]
  rfl

theorem deliverRun_of_full {i : StepperId} (h : s.cmplRoom = false) : s.deliverRun i = s := by
  unfold State.deliverRun
  split
  · rfl
  · rw [if_neg (by simp [h])]

/-- With room in `cmplq` the held record joins it, and the run is over. -/
theorem deliverRun_of_room {i : StepperId} (hr : (s.stepper i).held = some r) (h : s.cmplRoom = true) :
    s.deliverRun i = State.modStp { s with cmplq := s.cmplq ++ [r] } i (fun st => { st with run := st.run.ended, held := none }) := by
  simp only [State.deliverRun, hr, h, if_true]

end

/-- Settles O20: the turns of the host, of the CP and of a run engine that holds a record, each with and without a record or room. -/
theorem completionQueue : Obligations.CompletionQueue := by
  refine fun s => ⟨fun r rest acts more hq hh ht => ?_, fun acts more hq hh ht => ?_, fun more hfull ht => ?_,
    fun r more hr hroom ht => ?_, fun i r t hr hm => ?_⟩
  · rw [step_background ht]
    exact congrArg _ (hostTurn_pop hh hq)
  · rw [step_background ht]
    exact congrArg _ (hostTurn_pop_empty hh hq)
  · have hroom : State.cmplRoom { s with env := { s.env with turns := more } } = false := cmplRoom_eq_false_iff.2 hfull
    rw [step_cp ht, cpTurn_of_not_canTake (by simp [State.canTake, hroom]), deliverCp_of_full hroom]
  · rw [step_cp ht, cpTurn_of_not_canTake (by simp [State.canTake, hr])]
    exact congrArg _ (deliverCp_of_room hr (cmplRoom_iff.2 hroom))
  · have hst : s.drawTurn.2.stepper i = s.stepper i := stepper_of_stp (by simp) i
    have hq : s.drawTurn.2.cmplq = s.cmplq := drawTurn_cmplq s
    rw [hm.delivery hr]
    refine ⟨fun hroom => ?_, fun hfull => ?_⟩
    · rw [deliverRun_of_room (hst ▸ hr) (cmplRoom_iff.2 (hq ▸ hroom)), stepper_modStp_self, modStp_cmplq, hq]
      exact ⟨rfl, rfl, rfl⟩
    · rw [deliverRun_of_full (cmplRoom_eq_false_iff.2 (hq ▸ hfull))]
      exact ⟨hq, drawTurn_stp s⟩

end Sys2Proof.Machine
end

section
/-! The ticks of the pacing timer (42_stepper_motion.md R213 to R215; 60_exceptions.md R253, R262, R270; 70_reset_and_hazards.md R310): what
each kind of tick is, told by the run engine's parts. -/

namespace Sys2Proof.Machine

open Sys2Proof

/-! ### What no tick changes -/

theorem nextPin_img (s : State) (i : StepperId) (tasks : List PinTask) : (s.nextPin i tasks).img = s.img := by
  cases h : changedTasks (s.stepper i).cache tasks with
  | nil => exact (nextPin_ends h rfl rfl).1
  | cons t rest => exact (nextPin_writes h).1

theorem vectorDone_none_now (s : State) (i : StepperId) : (s.vectorDone i none).now = s.now := by
  rw [vectorDone_none_eq]
  split
  · exact endRun_now ..
  · split
    · exact endRun_now ..
    · rfl

theorem nextPin_now (s : State) (i : StepperId) (tasks : List PinTask) : (s.nextPin i tasks).now = s.now := by
  cases h : changedTasks (s.stepper i).cache tasks with
  | nil => rw [nextPin_of_nil h, vectorDone_none_now]
  | cons t rest =>
    obtain ⟨l, e, -⟩ := nextPin_of_cons h
    rw [e, modStp_now]

theorem onTick_img (s : State) (i : StepperId) : (s.onTick i).img = s.img := by
  rcases onTick_cases s i with e | ⟨-, -, e | e | ⟨r, -, -, -, e⟩⟩ <;> rw [e]
  · rfl
  · rfl
  · rw [startPulse_eq, nextPin_img]
    rfl

/-! ### The kinds of ticks (R213) -/

section

variable {s : State} {i : StepperId}

/-- Without an active run, or while its report waits, a tick does nothing (log entry 7). -/
theorem onTick_of_idle (h : (s.stepper i).run.running = false ∨ (s.stepper i).run.runNB = false ∨ (s.stepper i).held ≠ none) :
    s.onTick i = s := by
  refine if_pos ?_
  rcases h with h | h | h <;> simp [Stepper.inBackground, Option.isSome_iff_ne_none, h]

/-- The pacing timer of the stepper runs: its non-blocking run is active, and no report of it waits. -/
structure Stepper.Ticking (st : Stepper) : Prop where
  running : st.run.running = true
  runNB : st.run.runNB = true
  held : st.held = none

variable (h : (s.stepper i).Ticking)

include h

theorem onTick_counts (hn : (s.stepper i).run.stopReq = true ∨ (s.stepper i).run.issued = (s.stepper i).run.runCount) :
    s.onTick i = s.ticked i := by
  obtain ⟨hrun, hb, hh⟩ := h
  rcases hn with hn | hn <;> simp [State.onTick, Stepper.inBackground, hrun, hb, hh, hn, State.ticked]

theorem onTick_skips (hs : (s.stepper i).run.stopReq = false) (hn : (s.stepper i).run.issued ≠ (s.stepper i).run.runCount)
    (hp : (s.stepper i).motion.pulsing = true) : s.onTick i =
      (s.ticked i).modStp i (fun st => { st with motion := { st.motion with retried := satInc st.motion.retried } }) := by
  obtain ⟨hrun, hb, hh⟩ := h
  simp [State.onTick, Stepper.inBackground, hrun, hb, hh, hs, hn, hp, State.ticked]

theorem onTick_issues {r : Ready} (hs : (s.stepper i).run.stopReq = false)
    (hn : (s.stepper i).run.issued ≠ (s.stepper i).run.runCount) (hp : (s.stepper i).motion.pulsing = false)
    (hr : (s.stepper i).cfg.ready = some r) : s.onTick i = (s.ticked i).startPulse i r := by
  obtain ⟨hrun, hb, hh⟩ := h
  simp [State.onTick, Stepper.inBackground, hrun, hb, hh, hs, hn, hp, hr, State.ticked]

/-- A tick of an active run comes no earlier than it is due (R310). -/
theorem onTick_now : (s.onTick i).now =
    max s.now ((s.stepper i).run.t0 + ((s.stepper i).run.k.toNat : ℚ) * runPeriod (s.stepper i).cfg) := by
  obtain ⟨hrun, hb, hh⟩ := h
  unfold State.onTick
  dsimp only
  rw [if_neg (by simp [Stepper.inBackground, hrun, hb, hh])]
  split
  · rfl
  · split
    · rfl
    · split
      · rfl
      · split
        · rfl
        · rw [startPulse_eq, nextPin_now]
          rfl

end

/-- A skip is counted, and the count saturates (R253, R270). -/
theorem satInc_toNat (n : W32) : (satInc n).toNat = min (n.toNat + 1) (2 ^ 32 - 1) := by
  unfold satInc
  split
  · subst n
    rfl
  · bv_omega

/-! ### A tick that issues a step (R213, R214) -/

/-- The stepper as a tick of its run issues a step. -/
def Stepper.tickIssued (r : Ready) (st : Stepper) : Stepper :=
  Stepper.issueStep r { st with run := { st.run with k := st.run.k + 1#32 } }

/-- The pins that the vector write of the next step has to write, the first one first. -/
def Stepper.pinsToWrite (r : Ready) (st : Stepper) : List PinTask :=
  changedTasks st.cache (stepTasks r (st.tickIssued r).motion.phase)

section

variable {s v : State} {i : StepperId} {r : Ready} (hv : v.stepper i = s.stepper i) (hq : v.cmplq = s.cmplq)

include hv hq

/-- The vector write of an issued step, from the state in which it begins. -/
theorem ticked_startPulse : ∃ u : State,
    (v.ticked i).startPulse i r = u.nextPin i (stepTasks r ((s.stepper i).tickIssued r).motion.phase) ∧
    u.stepper i = (s.stepper i).tickIssued r ∧ u.cmplq = s.cmplq := by
  refine ⟨(v.ticked i).modStp i (Stepper.issueStep r), ?_, ?_, hq⟩
  · rw [startPulse_eq, ticked_stepper, hv]
    rfl
  · rw [stepper_modStp_self, ticked_stepper, hv]
    rfl

/-- The write of the first changed pin begins. -/
theorem issued_writes {x : PinTask} {rest : List PinTask} (hl : (s.stepper i).pinsToWrite r = x :: rest) :
    let t := (v.ticked i).startPulse i r
    let b := t.stepper i
    b.motion = ((s.stepper i).tickIssued r).motion ∧ b.cache = (s.stepper i).cache ∧
      b.run = ((s.stepper i).tickIssued r).run ∧ b.held = (s.stepper i).held ∧ t.cmplq = s.cmplq ∧
      ∃ j, b.job = some j ∧ j.task = x ∧ j.outstanding = false ∧
        j.left = groupBytes (Config.regLed0OnL + BitVec.ofNat 8 (4 * x.chan.toNat)) x.on x.off := by
  obtain ⟨u, hu, hst, hu'⟩ := ticked_startPulse (r := r) hv hq
  have hl' : changedTasks (u.stepper i).cache (stepTasks r ((s.stepper i).tickIssued r).motion.phase) = x :: rest := by
    rw [hst]
    exact hl
  obtain ⟨-, hq', hc, hrun, hmotion, hheld, j, hj, htask, hout, hleft⟩ := nextPin_writes hl'
  rw [hst] at hc hrun hmotion hheld
  rw [hu]
  exact ⟨hmotion, hc, hrun, hheld, hq'.trans hu', j, hj, htask, hout, by rw [hleft, pinWrites, groupWrites_eq, chanBase_eq]⟩

/-- A step without a changed pin is done at once, and the last one ends the run. -/
theorem issued_ends (hs : (s.stepper i).run.stopReq = false) (hl : (s.stepper i).pinsToWrite r = []) :
    let t := (v.ticked i).startPulse i r
    let a := (s.stepper i).tickIssued r
    let b := t.stepper i
    b.motion = { a.motion with pulsing := false } ∧ b.cache = (s.stepper i).cache ∧ b.job = none ∧
      (a.run.done + 1#32 ≠ a.run.runCount →
        b.run = a.stepDone.run ∧ b.held = (s.stepper i).held ∧ t.cmplq = s.cmplq) ∧
      (a.run.done + 1#32 = a.run.runCount → ∃ ms, RunEnded i s t a.stepDone.run
        (runRecord a.stepDone.run ms a.motion.retried false none)) := by
  obtain ⟨u, hu, hst, hu'⟩ := ticked_startPulse (r := r) hv hq
  have hl' : changedTasks (u.stepper i).cache (stepTasks r ((s.stepper i).tickIssued r).motion.phase) = [] := by
    rw [hst]
    exact hl
  obtain ⟨-, hc, hmotion, hjob, hgo, hend⟩ := nextPin_ends (s := s) hl' hu' (by rw [hst]; rfl)
  rw [hst] at hc hmotion hgo hend
  rw [hu]
  refine ⟨hmotion, hc, hjob, fun hmore => ?_, fun hlast => ?_⟩
  · obtain ⟨hq', hheld, hrun⟩ := hgo hmore hs
    exact ⟨hrun, hheld, hq'⟩
  · have hstopped : decide (((s.stepper i).tickIssued r).run.done + 1#32 ≠ ((s.stepper i).tickIssued r).run.runCount) = false := by
      simp [hlast]
    rw [hstopped] at hend
    exact hend (.inl hlast)

end

/-- Settles O45: the three kinds of ticks of an active run (`onTick_counts`, `onTick_skips`, `onTick_issues`); a step that is issued
begins with its first changed pin (`issued_writes`), or is done at once (`issued_ends`). -/
theorem tickRule : Obligations.TickRule := by
  intro i s t hm
  obtain ⟨more, hturn, hs⟩ := hm
  rw [step_background hturn] at hs
  cases hs
  let v : State := { s with env := { s.env with turns := more } }
  have hkept := onTick_kept i v
  refine ⟨onTick_img v i, onTick_bus v i, onTick_trace v i, hkept.others, hkept.ports, fun h => ?_, fun hrun hnb hheld => ?_⟩
  · have hidle : v.onTick i = v := onTick_of_idle h
    rw [State.background, hidle]
    exact ⟨rfl, rfl, rfl⟩
  have hv : (v.stepper i).Ticking := ⟨hrun, hnb, hheld⟩
  have hnow := onTick_now hv
  refine ⟨fun period hperiod => ?_, hnow ▸ le_max_left .., fun hn => ?_, fun hstop hn hp => ?_, fun r hstop hn hp hr => ?_⟩
  · have hT : runPeriod (s.stepper i).cfg = period := by rw [runPeriod, hperiod, Option.getD_some]
    exact hT ▸ hnow ▸ le_max_right ..
  · rw [State.background, onTick_counts hv hn]
    exact ⟨ticked_stepper v i, rfl⟩
  · rw [State.background, onTick_skips hv hstop hn hp, stepper_modStp_self, ticked_stepper]
    exact ⟨rfl, satInc_toNat _, rfl⟩
  · have hcfg : ((v.onTick i).stepper i).cfg = (s.stepper i).cfg := hkept.cfg i
    rw [onTick_issues hv hstop hn hp hr] at hcfg
    rw [State.background, onTick_issues hv hstop hn hp hr]
    cases hl : (s.stepper i).pinsToWrite r with
    | cons x rest =>
      obtain ⟨hmotion, hc, hrun', hheld', hq, hjob⟩ := issued_writes (s := s) (v := v) rfl rfl hl
      dsimp only
      rw [hmotion]
      refine ⟨rfl, rfl, hc, hcfg, fun y rest' e => ?_, fun e => nomatch hl.symm.trans e⟩
      obtain ⟨rfl, rfl⟩ := List.cons.inj (hl.symm.trans e)
      exact ⟨rfl, hrun', hheld'.trans hheld, hq, hjob⟩
    | nil =>
      obtain ⟨hmotion, hc, hjob, hgo, hend⟩ := issued_ends (s := s) (v := v) rfl rfl hstop hl
      dsimp only
      rw [hmotion]
      refine ⟨rfl, rfl, hc, hcfg, fun y rest' e => ?_, fun _ => ⟨rfl, hjob, fun h => ?_, hend⟩⟩
      · exact nomatch hl.symm.trans e
      · obtain ⟨hrun', hheld', hq⟩ := hgo h
        exact ⟨hrun', hheld'.trans hheld, hq⟩

end Sys2Proof.Machine
end

section
/-! The mixed-mode flag (60_exceptions.md R260; 00_scope.md R19; 70_reset_and_hazards.md R305): a command that has passed its checks may set
it as it starts, and nothing that happens until its end writes it, unless `rst` takes the command. -/

namespace Sys2Proof.Machine

open Sys2Proof

/-! ### The flag as a command starts (R260) -/

theorem mem_stp_iff {s : State} {st : Stepper} : st ∈ s.stp.toList ↔ ∃ k, s.stepper k = st := by
  simp [State.stepper, Vector.get_eq_getElem, Vector.mem_iff_getElem, Fin.exists_iff]

theorem meetsRun_iff {s : State} {chans : List Chan} : s.meetsRun chans = true ↔
    ∃ k p x, (s.stepper k).run.running = true ∧ (s.stepper k).run.runNB = true ∧ (s.stepper k).cfg.pin = some p ∧
      p.get x ∈ chans := by
  simp only [State.meetsRun, List.any_eq_true, mem_stp_iff, Bool.and_eq_true, Stepper.inBackground, mem_pinChannels_iff,
    List.contains_iff_mem]
  constructor
  · rintro ⟨_, ⟨k, rfl⟩, ⟨hr, hn⟩, _, ⟨p, hp, x, rfl⟩, hx⟩
    exact ⟨k, p, x, hr, hn, hp, hx⟩
  · rintro ⟨k, p, x, hr, hn, hp, hx⟩
    exact ⟨_, ⟨k, rfl⟩, ⟨hr, hn⟩, _, ⟨p, hp, x, rfl⟩, hx⟩

/-- The flag as the command `i` leaves it: set at its start, if its checks have passed (log entry 24). -/
def flagAfter (i : Instr) (s : State) : Bool := if execCheck s i = none then (s.start i).mixedMode else s.mixedMode

section

variable {i : Instr} {s : State}

theorem flagAfter_iff : flagAfter i s = true ↔ s.mixedMode = true ∨ (execCheck s i = none ∧ i.nb = false ∧
    ∃ k p x, (s.stepper k).run.running = true ∧ (s.stepper k).run.runNB = true ∧ (s.stepper k).cfg.pin = some p ∧
      p.get x ∈ channelSet s i) := by
  rw [← meetsRun_iff]
  by_cases h : execCheck s i = none <;> simp [flagAfter, h, State.start]

theorem flagAfter_of_passed (h : execCheck s i = none) : flagAfter i s = (s.start i).mixedMode := if_pos h

theorem flagAfter_of_failed {why : Reason} (h : execCheck s i = some why) : flagAfter i s = s.mixedMode :=
  if_neg (by simp [h])

/-- A command without channels meets no run. -/
theorem flagAfter_of_no_channels (h : channelSet s i = []) : flagAfter i s = s.mixedMode := by
  have hmeets : s.meetsRun [] = false := Bool.eq_false_iff.2 (by simp [meetsRun_iff])
  simp [flagAfter, State.start, h, hmeets]

end

/-! ### The sequences leave the flag -/

/-- A part of a sequence, with `rst` possible at every point. -/
theorem CpWork.seqSince {l : Bool} {own : StepperId → Prop} {s u : State} {r : SeqEnd} (h : CpWork l own u r)
    (hc : s.cp ≠ .idle) (hk : SeqKept s u) : SeqSince s (fun _ => True) r := by
  have k := OthersKeep.trivial s
  induction h with
  | done u => exact .done hk trivial
  | after h _ ih => exact ih (hk.trans h.toSeqKept)
  | failed u e => exact .failed hk trivial e
  | settle u ms _ => exact settle_since ms k hc hk trivial
  | wait u t => exact waitPeriod_since t k hc hk trivial
  | txn u t _ ih => exact transact_since t k hc hk trivial fun a v hv _ => ih a v hv
  | seq _ _ ih ihf => exact (ih hk).seq fun v hv _ => ihf v hv
  | calm _ _ ih =>
    exact ⟨fun hr => ⟨((ih hk).1 hr).1.trans (setPulsing_seqKept _ _ _), trivial⟩, fun hr => ((ih hk).2 hr).setPulsing _⟩

/-- The flag is `b`. -/
def FlagIs (b : Bool) (s : State) : Prop := s.mixedMode = b

theorem flagIs_othersKeep (b : Bool) (s : State) : OthersKeep s (FlagIs b) :=
  ⟨fun u a _ hu hn => (background_beside u a hn).mixedMode.trans hu, fun _ _ _ m hu => m.seqKept.mixedMode.trans hu⟩

section

variable {b : Bool} {s : State}

theorem CpWork.flag {l : Bool} {own : StepperId → Prop} {r : SeqEnd} (h : CpWork l own s r) (hc : s.cp ≠ .idle)
    (hb : FlagIs b s) : SeqSince s (FlagIs b) r :=
  (h.seqSince hc (.refl s)).mono fun _ hk _ => hk.mixedMode.trans hb

/-- A sequence under the lock. -/
theorem exclusive_flag {own : StepperId → Prop} {f : State → SeqEnd} (h : ∀ u, CpWork true own u (f u)) (hc : s.cp ≠ .idle)
    (hb : FlagIs b s) : EndsWith s (FlagIs b) (exclusive f s) :=
  exclusive_ends (flagIs_othersKeep b) (fun _ _ hu => hu) hc hb fun u hu hbu => (h u).flag hu hbu

/-! ### The commands -/

/-- After the command `i` the flag is what its start makes it, or `rst` has taken the command. -/
def FlagSet (i : Instr) (s t : State) : Prop := FlagIs (flagAfter i s) t ∨ TakenByRst s t

variable {i : Instr}

theorem flagSet_of_failed {why : Reason} (h : execCheck s i = some why) (e : CmdEnd) : FlagSet i s (s.endCommand i e) :=
  .inl ((endCommand_mixedMode ..).trans (flagAfter_of_failed h).symm)

/-- A command whose checks have passed, at the end of its sequence. -/
theorem finish_flagSet {r : SeqEnd} {res : Result} (h : execCheck s i = none)
    (hr : EndsWith (s.start i) (FlagIs (s.start i).mixedMode) r) : FlagSet i s (r.1.finish i res r.2) := by
  rw [FlagSet, flagAfter_of_passed h]
  exact finish_ends (s := s) (hr.of_same rfl rfl rfl rfl) (fun u j e hu => (endCommand_mixedMode u j e).trans hu) i res

theorem runSequence_flagSet {check : Option Reason} {f : State → SeqEnd} (hk : check = execCheck s i)
    (hf : EndsWith (s.start i) (FlagIs (s.start i).mixedMode) (f (s.start i))) : FlagSet i s (runSequence i check f s) := by
  subst hk
  cases h : execCheck s i with
  | some why => exact flagSet_of_failed h _
  | none => exact finish_flagSet h hf

/-- A sequence beside the run engines. -/
theorem work_flagSet {check : Option Reason} {f : State → SeqEnd} (hk : check = execCheck s i) (hc : s.cp ≠ .idle)
    (w : ∀ u, CpWork false (fun _ => False) u (f u)) : FlagSet i s (runSequence i check f s) :=
  runSequence_flagSet hk ((w _).flag (s := s.start i) hc rfl).endsWith

theorem exclusive_flagSet {check : Option Reason} {f : State → SeqEnd} (hk : check = execCheck s i) (hc : s.cp ≠ .idle)
    (w : ∀ u, CpWork true (fun _ => False) u (f u)) : FlagSet i s (runSequence i check (exclusive f) s) :=
  runSequence_flagSet hk (exclusive_flag (s := s.start i) w hc rfl)

/-- A command without channels, and without bus I/O. -/
theorem ended_flagSet {u : State} {e : CmdEnd} (h : channelSet s i = []) (hu : u.mixedMode = s.mixedMode) :
    FlagSet i s (u.endCommand i e) :=
  .inl ((endCommand_mixedMode ..).trans (hu.trans (flagAfter_of_no_channels h).symm))

theorem runLocal_flagSet {check : Option Reason} {res : Result} {f : State → State} (h : channelSet s i = [])
    (hf : (f s).mixedMode = s.mixedMode) : FlagSet i s (runLocal i check res f s) := by
  cases check with
  | some why => exact ended_flagSet h rfl
  | none => exact ended_flagSet h hf

end

theorem stopRun_mixedMode (s : State) (k : StepperId) : (s.stopRun k).mixedMode = s.mixedMode := by
  rw [stopRun_eq]
  split
  · split
    · rfl
    · exact (endRun_kept k _ none true).mixedMode
  · rfl

theorem reportRun_mixedMode (s : State) (i : Instr) (k : StepperId) (e : Option BusError) :
    (s.reportRun i k e).mixedMode = s.mixedMode := by
  simp [State.reportRun]

theorem endBlockingRun_ends {b : Bool} {s : State} {r : SeqEnd} (h : EndsWith s (FlagIs b) r) (i : Instr) (k : StepperId) :
    FlagIs b (r.1.endBlockingRun i k r.2) ∨ TakenByRst s (r.1.endBlockingRun i k r.2) := by
  obtain ⟨u, c⟩ := r
  rcases c with _ | (e | _)
  · exact .inl ((reportRun_mixedMode u i k none).trans (h.1 (by simp)))
  · exact .inl ((reportRun_mixedMode u i k (some e)).trans (h.1 (by simp)))
  · exact .inr (h.2 rfl)

section

variable {s t : State} {nb : Bool} {k : StepperId} {d : Dir}

theorem stpOnestep_flagSet (hc : s.cp ≠ .idle) (he : exec (.stpOnestep nb k d) s = .next t) :
    FlagSet (.stpOnestep nb k d) s t := by
  have hk := motionCheck_failing s k nb d
  simp only [exec, execStpOnestep] at he
  cases he
  split
  · rename_i why hm
    exact flagSet_of_failed (by rw [← hk, hm]; rfl) _
  · rename_i r hm
    have hw := stepOnce_work (l := false) (own := (k = ·)) rfl d r (s.start (.stpOnestep nb k d))
    exact finish_flagSet (by rw [← hk, hm]; rfl) (hw.flag hc rfl).endsWith

theorem stpRelease_flagSet (hc : s.cp ≠ .idle) (he : exec (.stpRelease nb k) s = .next t) :
    FlagSet (.stpRelease nb k) s t := by
  have hk : failing (motionCheck s k) = execCheck s (.stpRelease nb k) := motionCheck_failing s k nb .fwd
  simp only [exec, execStpRelease] at he
  cases he
  split
  · rename_i why hm
    exact flagSet_of_failed (by rw [← hk, hm]; rfl) _
  · rename_i r hm
    have hw := vectorWrite_work (l := false) (own := (k = ·)) rfl (vectorTasks r releaseVector) (s.start (.stpRelease nb k))
    exact finish_flagSet (by rw [← hk, hm]; rfl) (hw.flag hc rfl).endsWith

/-- A run that is left to its engine, or has ended at once, leaves the flag as the start has set it; a blocking one does so with its
sequence. -/
theorem stpStep_flagSet {n : W32} (hc : s.cp ≠ .idle) (he : exec (.stpStep nb k d n) s = .next t) :
    FlagSet (.stpStep nb k d n) s t := by
  have hk := stepCheck_failing s k nb d n
  simp only [exec, execStpStep] at he
  cases he
  split
  · rename_i why hm
    exact flagSet_of_failed (by rw [← hk, hm]; rfl) _
  · rename_i r hm
    rw [FlagSet, flagAfter_of_passed (by rw [← hk, hm]; rfl)]
    split
    · split
      · exact .inl (endRun_kept k _ none false).mixedMode
      · exact .inl rfl
    · have hw := blockingSteps_work (l := false) (own := (k = ·)) rfl r n.toNat
        ((s.start (.stpStep nb k d n)).startRun k nb d n)
      exact endBlockingRun_ends (s := s) ((hw.flag (s := (s.start _).startRun k nb d n) hc rfl).endsWith.of_same rfl rfl rfl rfl) _ k

end

/-- Every command, in every state and whatever the other agents do meanwhile. -/
theorem exec_flagSet {i : Instr} {s t : State} (hc : s.cp ≠ .idle) (he : exec i s = .next t) : FlagSet i s t := by
  cases i with
  | drvInit nb =>
    cases he
    refine runSequence_flagSet rfl (EndsWith.of_same (exclusive_flag (own := fun _ => False) initSequence_work ?_ rfl) rfl rfl rfl rfl)
    exact hc
  | drvReset nb =>
    cases he
    exact exclusive_flagSet (resetCheck_eq s nb) hc resetSequence_work
  | drvSetfreq nb rate | stpSetfreq nb _ rate =>
    cases he
    exact exclusive_flagSet (driverCheck_eq s nb rate) hc (freqSequence_work _)
  | drvSetchan nb c on off =>
    cases he
    exact work_flagSet (driverCheck_eq s nb 0) hc (pinWrite_work c on off)
  | drvSetpin nb c v =>
    cases he
    exact work_flagSet (driverCheck_eq s nb 0) hc (pinWrite_work c _ _)
  | drvSetall nb on off =>
    cases he
    exact work_flagSet (driverCheck_eq s nb 0) hc (allWrite_work on off)
  | drvGetfreq nb =>
    simp only [exec, execDrvGetfreq] at he
    cases he
    split <;> exact ended_flagSet rfl rfl
  | stpPins | stpSetsteps | stpSetmicro | stpSetstyle | stpSetcurrent | stpSetspeed | stpInit =>
    cases he
    exact runLocal_flagSet rfl rfl
  | stpOnestep => exact stpOnestep_flagSet hc he
  | stpStep => exact stpStep_flagSet hc he
  | stpRelease => exact stpRelease_flagSet hc he
  | stpStop nb k =>
    cases he
    exact runLocal_flagSet rfl (stopRun_mixedMode s k)
  | stpStatus | stpGetrates =>
    cases he
    exact ended_flagSet rfl rfl

/-- Settles O52: a command sets the flag at its start alone (`exec_flagSet`), and the agents beside the CP leave it. -/
theorem mixedModeFlag : Obligations.MixedModeFlag := by
  refine ⟨fun i s t tk hin he => ?_, fun b s hn => (background_beside s b hn).mixedMode⟩
  rcases exec_flagSet (cp_ne_idle_of_inCommand hin) he with h | h
  · right
    rw [h]
    exact flagAfter_iff
  · exact .inl h

end Sys2Proof.Machine
end

section
/-! A hardware reset (70_reset_and_hazards.md R290; 10_state.md R42; 00_scope.md R16): the host's turn that asserts `rst`, and what becomes
of a command in the CP where `rst` is the first thing that the others do. Every sequence that has anything for the bus stops at its first
point at which others move (`exec_reset`). -/

namespace Sys2Proof.Machine

open Sys2Proof

/-! ### The host's turn -/

/-- Between `s` and `t`, `rst` has reset every element, nothing has come out, and the host has `acts` left to do. -/
structure ResetSince (acts : List HostAct) (s t : State) : Prop where
  reset : AtReset t
  trace : t.trace = s.trace
  sync : t.sync = s.sync
  popped : t.popped = s.popped
  host : t.host = acts

/-- After a reset no vector write is in progress, so that clearing `pulsing` changes nothing. -/
theorem AtReset.setPulsing {t : State} (h : AtReset t) (k : StepperId) : AtReset (t.setPulsing k false) := by
  obtain ⟨-, -, hcmplq, -⟩ := h.ports
  have hd : Discarded t t :=
    { h with cmplq := hcmplq, sync := ⟨[], rfl, by simp⟩, popped := ⟨[], rfl⟩, trace := ⟨[], rfl⟩ }
  obtain ⟨_, hcalm⟩ := wiped_calm k ⟨t, hd⟩
  exact { h with stp := hcalm.stp }

section

variable {acts : List HostAct} {s u v : State}

theorem hostTurn_resetSince (h : s.host = .rst :: acts) : ResetSince acts s s.hostTurn := by
  have e : s.hostTurn = { s.hardReset with host := acts } := by simp only [State.hostTurn, h]
  have hports : s.hostTurn.nextTicket = 0#16 ∧ s.hostTurn.cmdq = [] ∧ s.hostTurn.cmplq = [] ∧ s.hostTurn.hostWait = none := by
    rw [e]
    exact ⟨rfl, rfl, rfl, rfl⟩
  refine ⟨{ hostTurn_rst s h with ports := hports }, ?_, ?_, ?_, ?_⟩ <;> rw [e] <;> rfl

/-! ### Where the others move -/

/-- `u` follows `s` with nothing come out, and `rst` is what the others do next. -/
structure RstNext (acts : List HostAct) (s u : State) : Prop where
  host : u.host = .rst :: acts
  bursts : ∃ more, u.env.bursts = [.host] :: more
  trace : u.trace = s.trace
  sync : u.sync = s.sync
  popped : u.popped = s.popped

/-- A change that neither the host nor the environment sees. -/
theorem RstNext.of_same (h : RstNext acts s u) (hh : v.host = u.host) (he : v.env = u.env) (ht : v.trace = u.trace)
    (hs : v.sync = u.sync) (hp : v.popped = u.popped) : RstNext acts s v :=
  ⟨hh.trans h.host, by rw [he]; exact h.bursts, ht.trans h.trace, hs.trans h.sync, hp.trans h.popped⟩

theorem RstNext.start (h : RstNext acts s u) (i : Instr) : RstNext acts s (u.start i) := h.of_same rfl rfl rfl rfl rfl

theorem RstNext.modStp (h : RstNext acts s u) (k : StepperId) (f : Stepper → Stepper) : RstNext acts s (u.modStp k f) :=
  h.of_same rfl rfl rfl rfl rfl

/-- `rst` has cut the sequence off, and reset everything. -/
def CutByReset (acts : List HostAct) (s : State) (r : SeqEnd) : Prop := r.2 = some .rst ∧ ResetSince acts s r.1

theorem CutByReset.thenSeq {r : SeqEnd} (h : CutByReset acts s r) (f : State → SeqEnd) : CutByReset acts s (thenSeq r f) := by
  rw [thenSeq_some (by simp [h.1])]
  exact h

/-- A command that `rst` has taken ends without a response. -/
theorem CutByReset.finish {r : SeqEnd} (h : CutByReset acts s r) (i : Instr) (res : Result) :
    ResetSince acts s (r.1.finish i res r.2) := by
  rw [h.1]
  exact h.2

theorem interfere_of_rst (h : RstNext acts s u) : ResetSince acts s u.interfere := by
  obtain ⟨more, hb⟩ := h.bursts
  have e : u.interfere = State.hostTurn { u with env := { u.env with bursts := more } } := by
    simp [State.interfere, State.othersActive, State.drawBurst, State.burst, State.background, h.host, hb]
  have hr := hostTurn_resetSince (s := { u with env := { u.env with bursts := more } }) h.host
  rw [e]
  exact ⟨hr.reset, hr.trace.trans h.trace, hr.sync.trans h.sync, hr.popped.trans h.popped, hr.host⟩

theorem yield_reset (h : RstNext acts s u) : CutByReset acts s u.yield := by
  have hr := interfere_of_rst h
  exact ⟨if_pos hr.reset.cp.1, hr⟩

/-! ### The parts of a sequence -/

theorem transactSeq_reset (h : RstNext acts s u) (t : Txn) : CutByReset acts s (u.transactSeq t) :=
  ((yield_reset h).thenSeq _).thenSeq _

theorem waitPeriod_reset (h : RstNext acts s u) (t : ℚ) : CutByReset acts s (u.waitPeriod t) :=
  yield_reset (h.of_same (by simp) (by simp) (by simp) (by simp) (by simp))

theorem groupWrites_reset (h : RstNext acts s u) (base : Byte) (on off : Tick) :
    CutByReset acts s (writeAll (groupWrites base on off) u) :=
  (transactSeq_reset h _).thenSeq _

theorem pinWrite_reset (h : RstNext acts s u) (c : Chan) (on off : Tick) : CutByReset acts s (pinWrite c on off u) :=
  (groupWrites_reset h _ on off).thenSeq _

theorem allWrite_reset (h : RstNext acts s u) (on off : Tick) : CutByReset acts s (allWrite on off u) :=
  (groupWrites_reset h _ on off).thenSeq _

/-- `rst` falls before the lock is taken. -/
theorem exclusive_reset (h : RstNext acts s u) (f : State → SeqEnd) : CutByReset acts s (exclusive f u) := by
  rw [exclusive_of_cut (by simp [(yield_reset h).1])]
  exact yield_reset h

variable {k : StepperId} {tasks : List PinTask} {r : Ready}

/-- A vector with a pin to write stops at that pin; the pins before it are silent (R207). -/
theorem lazyPins_reset (h : RstNext acts s u) (hne : changedTasks (u.stepper k).cache tasks ≠ []) :
    CutByReset acts s (lazyPins k tasks u) := by
  induction tasks with
  | nil => exact absurd rfl hne
  | cons t rest ih =>
    cases ht : unchanged (u.stepper k).cache t with
    | true =>
      rw [changedTasks_of_unchanged ht] at hne
      rw [lazyPins, lazyPin_of_unchanged ht]
      exact ih hne
    | false =>
      rw [lazyPins, lazyPin_of_changed ht]
      exact ((groupWrites_reset h _ _ _).thenSeq _).thenSeq _

theorem vectorWrite_reset (h : RstNext acts s u) (hne : changedTasks (u.stepper k).cache tasks ≠ []) :
    CutByReset acts s (vectorWrite k tasks u) := by
  have hcache : ((u.setPulsing k true).stepper k).cache = (u.stepper k).cache := by rw [State.setPulsing, stepper_modStp_self]
  have hcut : CutByReset acts s (lazyPins k tasks (u.setPulsing k true)) :=
    lazyPins_reset (h.modStp k _) (by rw [hcache]; exact hne)
  exact ⟨hcut.1, { hcut.2 with reset := hcut.2.reset.setPulsing k }⟩

/-- A vector without a pin to write leaves `rst` to what follows it. -/
theorem vectorWrite_silent (h : RstNext acts s u) (he : changedTasks (u.stepper k).cache tasks = []) :
    ∃ v, vectorWrite k tasks u = (v, none) ∧ RstNext acts s v := by
  have hcached : ∀ x, x ∈ tasks → ((u.setPulsing k true).stepper k).cache.get x.role = some x.value := by
    rw [State.setPulsing, stepper_modStp_self]
    simpa [changedTasks, List.filter_eq_nil_iff] using he
  refine ⟨(u.setPulsing k true).setPulsing k false, ?_, (h.modStp k _).modStp k _⟩
  rw [vectorWrite, lazyPins_of_cached hcached]

/-- A phase advance leaves the cache, and the pins to write are those of the new phase (R201). -/
theorem changedTasks_advancePhase (u : State) (k : StepperId) (d : Dir) (r : Ready) :
    changedTasks ((u.advancePhase k d r).stepper k).cache (stepTasks r ((u.advancePhase k d r).stepper k).motion.phase) =
      (u.stepper k).nextPins r d := by
  rw [State.advancePhase, stepper_modStp_self, Stepper.nextPins]

theorem stepOnce_reset (h : RstNext acts s u) {d : Dir} (hne : (u.stepper k).nextPins r d ≠ []) :
    CutByReset acts s (stepOnce k d r u) :=
  vectorWrite_reset (h.modStp k _) (by rw [changedTasks_advancePhase]; exact hne)

theorem stepOnce_silent (h : RstNext acts s u) {d : Dir} (he : (u.stepper k).nextPins r d = []) :
    ∃ v, stepOnce k d r u = (v, none) ∧ RstNext acts s v :=
  vectorWrite_silent (h.modStp k _) (by rw [changedTasks_advancePhase]; exact he)

/-- The transactions of one step are those of its pins. -/
theorem runItems_one (r : Ready) (d : Dir) (st : Stepper) :
    runItems r d 1 st.motion.phase st.cache = taskItems (st.nextPins r d) := by
  simp only [runItems, Stepper.nextPins, List.append_nil]

/-- A blocking run with anything to write stops at its first step, or at the wait after it (R212). -/
theorem blockingSteps_reset (h : RstNext acts s u) {n : ℕ}
    (hne : runItems r (u.stepper k).run.runDir n (u.stepper k).motion.phase (u.stepper k).cache ≠ []) :
    CutByReset acts s (blockingSteps k r n u) := by
  cases n with
  | zero => exact absurd rfl hne
  | succ n =>
    have hissued : RstNext acts s (u.countIssued k) := h.modStp k _
    have hpins : ∀ d, ((u.countIssued k).stepper k).nextPins r d = (u.stepper k).nextPins r d := fun _ => by
      rw [State.countIssued, stepper_modStp_self]
      rfl
    have hdir : ((u.countIssued k).stepper k).run.runDir = (u.stepper k).run.runDir := by
      rw [State.countIssued, stepper_modStp_self]
    rw [blockingSteps_succ, hdir]
    by_cases he : (u.stepper k).nextPins r (u.stepper k).run.runDir = []
    · have hn : n ≠ 0 := by
        rintro rfl
        exact hne (by rw [runItems_one, he]; rfl)
      obtain ⟨v, hv, hnext⟩ := stepOnce_silent hissued ((hpins _).trans he)
      rw [hv, thenSeq_none rfl, if_neg hn]
      exact (waitPeriod_reset (hnext.modStp k _) _).thenSeq _
    · exact (stepOnce_reset hissued (by rw [hpins]; exact he)).thenSeq _

/-! ### The commands -/

variable {i : Instr} {nb : Bool} {d : Dir} {ans : ℕ → Answer}

theorem runSequence_reset {check : Option Reason} {f : State → SeqEnd} (hk : check = none)
    (h : CutByReset acts s (f (s.start i))) : ResetSince acts s (runSequence i check f s) := by
  rw [runSequence_of_pass hk]
  exact h.finish i .none

theorem motionCheck_of_pass (h : execCheck s (.stpOnestep nb k d) = none) : ∃ r, motionCheck s k = .ok r := by
  cases hc : motionCheck s k with
  | ok r => exact ⟨r, rfl⟩
  | error why =>
    rw [← motionCheck_failing, hc] at h
    cases h

theorem stpOnestep_reset (h : RstNext acts s s) (hk : execCheck s (.stpOnestep nb k d) = none)
    (hp : program s ans (.stpOnestep nb k d) ≠ []) : ∃ t, exec (.stpOnestep nb k d) s = .next t ∧ ResetSince acts s t := by
  obtain ⟨r, hm⟩ := motionCheck_of_pass hk
  have hne : (s.stepper k).nextPins r d ≠ [] := by
    intro he
    simp [program, hk, (motionCheck_ok hm).1, runItems_one, he, taskItems] at hp
  have hcut : CutByReset acts s (stepOnce k d r (s.start (.stpOnestep nb k d))) :=
    stepOnce_reset (h.start _) hne
  exact ⟨_, exec_stpOnestep nb d hm, hcut.finish _ _⟩

theorem stpRelease_reset (h : RstNext acts s s) (hk : execCheck s (.stpRelease nb k) = none)
    (hp : program s ans (.stpRelease nb k) ≠ []) : ∃ t, exec (.stpRelease nb k) s = .next t ∧ ResetSince acts s t := by
  obtain ⟨r, hm⟩ := motionCheck_of_pass (nb := nb) (d := .fwd) hk
  have hne : changedTasks (s.stepper k).cache (vectorTasks r releaseVector) ≠ [] := by
    intro he
    simp [program, hk, (motionCheck_ok hm).1, he, taskItems] at hp
  have hcut : CutByReset acts s (vectorWrite k (vectorTasks r releaseVector) (s.start (.stpRelease nb k))) :=
    vectorWrite_reset (h.start _) hne
  exact ⟨_, exec_stpRelease nb hm, hcut.finish _ _⟩

/-- A non-blocking run has no program of its own: its transactions are the run engine's. -/
theorem stpStep_reset {n : W32} (h : RstNext acts s s) (hk : execCheck s (.stpStep nb k d n) = none)
    (hp : program s ans (.stpStep nb k d n) ≠ []) : ∃ t, exec (.stpStep nb k d n) s = .next t ∧ ResetSince acts s t := by
  cases nb with
  | true => simp [program] at hp
  | false =>
    obtain ⟨r, hm⟩ := stepCheck_pass hk
    have hcut : CutByReset acts s (blockingSteps k r n.toNat ((s.start (.stpStep false k d n)).startRun k false d n)) := by
      refine blockingSteps_reset ((h.start _).modStp k _) ?_
      rw [stepper_modStp_self]
      simp only [program, hk, (stepCheck_ok hm).1, Bool.false_eq_true, Option.isSome_none, if_false] at hp
      exact hp
    refine ⟨_, exec_stpStep_blocking hm, ?_⟩
    rw [hcut.1]
    exact hcut.2

/-- Every command with a bus sequence, where `rst` is the first thing that the others do. -/
theorem exec_reset (h : RstNext acts s s) (hk : execCheck s i = none) (hp : program s ans i ≠ []) :
    ∃ t, exec i s = .next t ∧ ResetSince acts s t := by
  cases i with
  | drvInit nb =>
    refine ⟨_, rfl, runSequence_reset hk (exclusive_reset ?_ initSequence)⟩
    exact (h.start (.drvInit nb)).of_same rfl rfl rfl rfl rfl
  | drvReset nb => exact ⟨_, rfl, runSequence_reset ((resetCheck_eq s nb).trans hk) (exclusive_reset (h.start _) _)⟩
  | drvSetfreq nb rate | stpSetfreq nb _ rate =>
    exact ⟨_, rfl, runSequence_reset ((driverCheck_eq s nb rate).trans hk) (exclusive_reset (h.start _) _)⟩
  | drvSetchan nb c on off =>
    exact ⟨_, rfl, runSequence_reset ((driverCheck_eq s nb 0).trans hk) (pinWrite_reset (h.start _) c on off)⟩
  | drvSetpin nb c level =>
    exact ⟨_, rfl, runSequence_reset ((driverCheck_eq s nb 0).trans hk) (pinWrite_reset (h.start _) c _ _)⟩
  | drvSetall nb on off =>
    exact ⟨_, rfl, runSequence_reset ((driverCheck_eq s nb 0).trans hk) (allWrite_reset (h.start _) on off)⟩
  | stpOnestep => exact stpOnestep_reset h hk hp
  | stpRelease => exact stpRelease_reset h hk hp
  | stpStep => exact stpStep_reset h hk hp
  | drvGetfreq | stpPins | stpSetsteps | stpSetmicro | stpSetstyle | stpSetcurrent | stpSetspeed | stpInit | stpStop | stpStatus
  | stpGetrates => simp [program] at hp

end

/-- Settles O18: the host's turn (`hostTurn_resetSince`), alone in a step or as the burst before a command's first transaction
(`exec_reset`). -/
theorem hardwareReset : Obligations.HardwareReset := by
  refine ⟨fun s acts more hh ht => ?_, fun i s tk acts more _ hh hb hk hp => ?_⟩
  · obtain ⟨reset, trace, sync, popped, host⟩ := hostTurn_resetSince (s := { s with env := { s.env with turns := more } }) hh
    exact ⟨_, step_background ht, reset, trace, sync, popped, host⟩
  · obtain ⟨t, he, reset, trace, sync, popped, host⟩ := exec_reset ⟨hh, ⟨more, hb⟩, rfl, rfl, rfl⟩ hk hp
    exact ⟨t, he, reset, trace, sync, popped, host⟩

end Sys2Proof.Machine
end
